-- ==== Sys2Proof/Word.lean ====
section
/-! DEFINITION. The word types of the part: bytes of records, messages and image memory, and 32-bit words for serials and
CRC values (spec/00_scope.md, Units and numbers). -/

namespace Sys2Proof

/-- One byte of a record, a message or image memory. -/
abbrev Byte := BitVec 8

/-- A 32-bit word: a disc serial (R51) or a CRC (R116). -/
abbrev Word32 := BitVec 32

end Sys2Proof
end

