-- ==== Sys2Proof/Syntax.lean ====
section
/-! DEFINITION. The commands of the part: one constructor for each of the 68 rows of spec/opcode_table.json, with the data each
row brings from outside. -/

namespace Sys2Proof

/-- A client port, CP0..CP2. -/
abbrev Port := Fin 3

/-- A drive lane, 0..7. -/
abbrev LaneId := Fin 8

/-- A media class, L or M (spec/00_scope.md, Media classes). -/
inductive MediaClass where
  | l
  | m
  deriving DecidableEq, Repr

/-- The position in a TRAY-STATE message (Formats, Drive-link messages). -/
inductive TrayPosition where
  | opened
  | closed
  | moving
  deriving DecidableEq, Repr

/-- The body of a MEDIA message: the answer to PROBE (Drive Lanes, The drive link; Formats). -/
inductive MediaReport where
  | absent
  | blank (cls : MediaClass) (capacity : BitVec 24) (speeds : List Byte)
  | recorded (cls : MediaClass) (size : BitVec 64)
  | unusable
  deriving DecidableEq, Repr

/-- The fourteen sensors of the matrix, in the order of its rows and columns (R148). -/
inductive Sensor where
  | binAPresent
  | binBPresent
  | outputFull
  | rejectFull
  | doorClosed
  | keyLock
  | keyService
  | gripOne
  | gripTwo
  | armHome
  | lidClosed
  | printerTrayHome
  | blackPresent
  | colourPresent
  deriving DecidableEq, Repr

/-- A command record: 16 bytes, byte 0 the code and byte 1 the tag (Formats, Command record). -/
abbrev CommandRecord := Vector Byte 16

/-- The rows of spec/opcode_table.json. A client command's row is the taking, by its owning block, of the command that stands
outstanding at the port (R180): its parameters lie in that command's record, so its one operand is the port (log 1). -/
inductive Instr where
  /-- POWER_ON_RESET (R150). -/
  | powerOnReset
  /-- LINK_RESET (R190): the port's link-reset line becomes asserted. -/
  | linkReset (p : Port)
  /-- LINK_RESET_RELEASE (R190). -/
  | linkResetRelease (p : Port)
  /-- PUT_COMMANDS (R179): the records offered. -/
  | putCommands (p : Port) (records : List CommandRecord)
  /-- TAKE_NOTICES (R184): up to `n` notices. -/
  | takeNotices (p : Port) (n : Byte)
  /-- BULK_WRITE (R189): the bytes offered. -/
  | bulkWrite (p : Port) (bytes : List Byte)
  /-- BULK_READ (R18): up to `n` bytes. -/
  | bulkRead (p : Port) (n : Word32)
  /-- LINK_STATUS (R178). -/
  | linkStatus (p : Port)
  /-- UNKNOWN_TRANSACTION (R178): a header byte that names no kind. -/
  | unknownTransaction (p : Port)
  /-- REPLY_RETURN (R180): the result of the port's outstanding command returns. -/
  | replyReturn (p : Port)
  /-- BAD_COMMAND (R193). -/
  | badCommand (p : Port)
  /-- LOAD_IMAGE (R4). -/
  | loadImage (p : Port)
  /-- LOAD_FROM_DISC (R8). -/
  | loadFromDisc (p : Port)
  /-- DELETE_IMAGE (R13). -/
  | deleteImage (p : Port)
  /-- PROTECT_IMAGE (R14). -/
  | protectImage (p : Port)
  /-- UNPROTECT_IMAGE (R15). -/
  | unprotectImage (p : Port)
  /-- MARK_NO_EXPORT (R16). -/
  | markNoExport (p : Port)
  /-- EXPORT_IMAGE (R17). -/
  | exportImage (p : Port)
  /-- LOAD_ARTWORK (R20). -/
  | loadArtwork (p : Port)
  /-- DELETE_ARTWORK (R22). -/
  | deleteArtwork (p : Port)
  /-- SUBMIT_JOB (R30). -/
  | submitJob (p : Port)
  /-- PAUSE_JOB (R33). -/
  | pauseJob (p : Port)
  /-- RESUME_JOB (R34). -/
  | resumeJob (p : Port)
  /-- CANCEL_JOB (R35). -/
  | cancelJob (p : Port)
  /-- KILL_JOB (R37). -/
  | killJob (p : Port)
  /-- OPEN_TRAY (R90). -/
  | openTray (p : Port)
  /-- CLOSE_TRAY (R91). -/
  | closeTray (p : Port)
  /-- LANE_ONLINE (R92). -/
  | laneOnline (p : Port)
  /-- LANE_OFFLINE (R93). -/
  | laneOffline (p : Port)
  /-- CLEAR_LANE (R82). -/
  | clearLane (p : Port)
  /-- SET_FEED_BUDGET (R103). -/
  | setFeedBudget (p : Port)
  /-- SET_BIN_CLASS (R145). -/
  | setBinClass (p : Port)
  /-- CLEAR_BIN_FAULT (R146). -/
  | clearBinFault (p : Port)
  /-- CLEAR_ARM_FAULT (R143). -/
  | clearArmFault (p : Port)
  /-- CLEAR_PRINTER_FAULT (R173). -/
  | clearPrinterFault (p : Port)
  /-- SET_PRINT_PARAMS (R174). -/
  | setPrintParams (p : Port)
  /-- SET_INK_CAPACITY (R175). -/
  | setInkCapacity (p : Port)
  /-- SET_NOTICE_MASK (R186). -/
  | setNoticeMask (p : Port)
  /-- SET_ATTENTION (R188). -/
  | setAttention (p : Port)
  /-- TOWER_RESET (R191). The rule leaves open whether the kills or the load failures are taken first: `loadsFirst` says it
  (log 5). -/
  | towerReset (p : Port) (loadsFirst : Bool)
  /-- ATTENTION_HOLD_EXPIRY (R187). -/
  | attentionHoldExpiry (p : Port)
  /-- IMAGE_STAGING_WRITE (R7): the IMM takes up to `count` bytes out of the port's staging area (log 26). -/
  | imageStagingWrite (p : Port) (count : Nat)
  /-- ARTWORK_STAGING_WRITE (R21): likewise (log 26). -/
  | artworkStagingWrite (p : Port) (count : Nat)
  /-- IDENT (R71): buffer size, and whether the drive burns classes L and M. -/
  | ident (n : LaneId) (buffer : BitVec 16) (burnsL burnsM : Bool)
  /-- TRAY_STATE (R70). -/
  | trayState (n : LaneId) (pos : TrayPosition)
  /-- MEDIA (R74). -/
  | media (n : LaneId) (report : MediaReport)
  /-- CREDIT (R77): buffer places freed, and the total of segments written. -/
  | credit (n : LaneId) (freed : BitVec 16) (committed : BitVec 24)
  /-- BUFFER_EMPTY (R78). -/
  | bufferEmpty (n : LaneId)
  /-- WRITE_RECOVERED (R78). -/
  | writeRecovered (n : LaneId)
  /-- WRITE_ERROR (R78). -/
  | writeError (n : LaneId)
  /-- FINALIZE_DONE (R79). -/
  | finalizeDone (n : LaneId)
  /-- READ_DATA (R121). -/
  | readData (n : LaneId) (index : BitVec 24) (data : List Byte)
  /-- READ_FAIL (R121). -/
  | readFail (n : LaneId) (index : BitVec 24)
  /-- ERROR (R69). -/
  | error (n : LaneId) (code : Byte)
  /-- DRIVE_MALFORMED_MESSAGE (R194). -/
  | driveMalformedMessage (n : LaneId)
  /-- LANE_TIMER_EXPIRY (R85). -/
  | laneTimerExpiry (n : LaneId)
  /-- TRANSFER_COMPLETION (R109). -/
  | transferCompletion
  /-- ARM_STEP_DONE (R127). -/
  | armStepDone
  /-- ARM_DRIVER_FAULT (R140). -/
  | armDriverFault
  /-- ARM_STEP_TIMEOUT (R140). -/
  | armStepTimeout
  /-- SENSOR_SCAN (R148): one reading for each of the 32 positions, bit 8 x row + column; and the order in which changes
  completed at this scan are taken (log 5). -/
  | sensorScan (readings : BitVec 32) (order : List Sensor)
  /-- TRAY_DONE (R169): whether the mechanism finds a disc on the tray. -/
  | trayDone (disc : Bool)
  /-- BAND_DONE (R165). -/
  | bandDone (band : Byte)
  /-- TEMP (R167). -/
  | temp (reading : Byte)
  /-- PRINTER_ERROR (R158). -/
  | printerError (code : Byte)
  /-- PRINTER_MALFORMED_REPORT (R158). -/
  | printerMalformedReport
  /-- PRINTER_TIMEOUT (R172). -/
  | printerTimeout
  /-- BAND_WAIT_EXPIRY (R166). -/
  | bandWaitExpiry
  deriving DecidableEq, Repr

end Sys2Proof
end

