-- ==== Sys2Proof/Machine/Parameters.lean ====
section
/-! DEFINITION. The fixed numbers of the manual: sizes, limits, media classes, speed lists and time limits, and the lists of
ports, lanes and table indices in ascending order. -/

namespace Sys2Proof.Machine

/-- Pages of image memory (R1). -/
def pageCount : Nat := 16384
/-- Bytes of a page (R1). -/
def pageBytes : Nat := 1048576
/-- Bytes of a whole segment, and of a transfer on the read channel (spec/00_scope.md). -/
def segmentBytes : Nat := 65536
/-- Bytes of a band of artwork (spec/00_scope.md). -/
def bandBytes : Nat := 262144
/-- Bytes of a port's staging area (R177). -/
def stagingBytes : Nat := 65536

/-- Image size limit of a class (spec/00_scope.md, Media classes). -/
def classLimit : MediaClass → Nat
  | .l => 1073741824
  | .m => 9126805504

/-- Base rate of a class in KiB/s (spec/00_scope.md, Media classes). -/
def baseRate : MediaClass → Nat
  | .l => 150
  | .m => 1350

/-- Speed list of a class (spec/00_scope.md, Media classes). -/
def classSpeeds : MediaClass → List Nat
  | .l => [4, 8, 10, 16, 24, 32, 40, 48]
  | .m => [2, 4, 6, 8, 12, 16, 18, 20, 24]

/-- The class a value-list byte names: L is 0, M is 1 (Formats). -/
def classOfCode : Nat → Option MediaClass
  | 0 => some .l
  | 1 => some .m
  | _ => none

/-- The number a class is carried as (Formats). -/
def classCode : MediaClass → Nat
  | .l => 0
  | .m => 1

/-- Limit of a lane's tray moves, in ms (R85). -/
def trayLimit : Nat := 8000
/-- Limit of PROBING (R85). -/
def probeLimit : Nat := 20000
/-- Limit of BURNING (R85). -/
def burnLimit : Nat := 10000
/-- Limit of FINALIZING (R85). -/
def finalizeLimit : Nat := 180000
/-- Limit of VERIFYING and SOURCE_READ (R85). -/
def readLimit : Nat := 10000
/-- Limit of the printer's tray moves (R157). -/
def printerTrayLimit : Nat := 5000
/-- Limit of a band (R157). -/
def bandLimit : Nat := 10000
/-- Limit of a band wait, for the degraded flag (R166). -/
def bandWaitLimit : Nat := 2000
/-- Limit of THERMAL_PAUSE (R167). -/
def thermalLimit : Nat := 5000

/-- READs a verify or a source read may have outstanding (R84, R120). -/
def readsOutstanding : Nat := 4
/-- Rate kept back for artwork fetches, KiB/s (R96). -/
def printReserve : Nat := 4096
/-- Slack below which a lane is critical, ms (R106). -/
def criticalSlack : Nat := 500

/-- The client ports in ascending order. -/
def portIds : List Port := [0, 1, 2]
/-- The lanes in ascending order. -/
def laneIds : List LaneId := [0, 1, 2, 3, 4, 5, 6, 7]
/-- The job-table and disc-table indices in ascending order. -/
def tableIds : List (Fin 16) := [0, 1, 2, 3, 4, 5, 6, 7, 8, 9, 10, 11, 12, 13, 14, 15]
/-- The image slots in ascending order. -/
def imageIds : List (Fin 8) := [0, 1, 2, 3, 4, 5, 6, 7]
/-- The artwork slots in ascending order. -/
def artworkIds : List (Fin 4) := [0, 1, 2, 3]

end Sys2Proof.Machine
end

