-- ==== Sys2Proof/Machine/Operands.lean ====
section
/-! DEFINITION. Operands: the parameter bytes of command records, little-endian fields, and the checks that R194 and the
layouts of Formats put on the fields of a message. -/

namespace Sys2Proof.Machine

/-! ## Little-endian fields (Formats) -/

/-- The number that bytes carry, least significant byte first. -/
def leNat : List Byte → Nat
  | [] => 0
  | b :: rest => b.toNat + 256 * leNat rest

/-- `v` in `n` bytes, least significant byte first. -/
def leBytes : Nat → Nat → List Byte
  | 0, _ => []
  | n + 1, v => BitVec.ofNat 8 v :: leBytes n (v / 256)

/-- A number in one byte. -/
def byteOf (v : Nat) : Byte := BitVec.ofNat 8 v

/-! ## Command records (Formats, Command record) -/

/-- The code of a command record, byte 0. -/
def recordCode (r : CommandRecord) : Nat := r[0].toNat

/-- The tag of a command record, byte 1. -/
def recordTag (r : CommandRecord) : Byte := r[1]

/-- The parameter byte at `i`, as a number. -/
def recordByte (r : CommandRecord) (i : Fin 16) : Nat := r[i].toNat

/-- The `n` parameter bytes from `i`, as a little-endian number. -/
def recordField (r : CommandRecord) (i n : Nat) : Nat := leNat ((r.toList.drop i).take n)

/-- The parameter bytes 2 to 15, as sent: what a REPLY echoes (R181, R192). -/
def recordEcho (r : CommandRecord) : List Byte := r.toList.drop 2

/-- The index below `n` that a byte names, if it names one. -/
def indexBelow (n v : Nat) : Option (Fin n) := if h : v < n then some ⟨v, h⟩ else none

/-- `v` brought into `lo..hi`: the clamp of R31, R103, R174, R175 and R188. -/
def clampTo (lo hi v : Nat) : Nat := if v < lo then lo else if hi < v then hi else v

/-- The command codes of Formats. -/
def commandCodes : List Nat :=
  [1, 2, 3, 4, 5, 6, 7, 8, 9, 16, 17, 18, 19, 20, 24, 25, 26, 27, 28, 32, 33, 34, 35, 40, 41, 42, 48, 49, 50]

/-- The record's code names a command (R193). -/
def knownCommand (r : CommandRecord) : Bool := commandCodes.contains (recordCode r)

/-! ## Fields of drive messages (R194) -/

/-- An IDENT that R194 does not find malformed: buffer size 16..256 and at least one class. -/
def identOk (buffer : BitVec 16) (burnsL burnsM : Bool) : Bool :=
  decide (16 ≤ buffer.toNat) && decide (buffer.toNat ≤ 256) && (burnsL || burnsM)

/-- A list that rises strictly: ascending and without repeats. -/
def strictlyAscending : List Nat → Bool
  | [] => true
  | [_] => true
  | a :: b :: rest => decide (a < b) && strictlyAscending (b :: rest)

/-- A MEDIA report that R194 does not find malformed: a BLANK gives 1..9 speeds of its class's list, ascending. -/
def mediaOk : MediaReport → Bool
  | .blank cls _ speeds =>
    decide (1 ≤ speeds.length) && decide (speeds.length ≤ 9) && strictlyAscending (speeds.map (·.toNat)) &&
      speeds.all fun v => (classSpeeds cls).contains v.toNat
  | .absent => true
  | .recorded _ _ => true
  | .unusable => true

/-- A READ-DATA message carries 1..65,536 bytes (Formats: the data length less 1 is carried in two bytes). -/
def readDataOk (data : List Byte) : Bool := decide (1 ≤ data.length) && decide (data.length ≤ segmentBytes)

/-- PUT-COMMANDS offers 0..255 records (Formats, Link transactions). -/
def putCommandsOk (records : List CommandRecord) : Bool := decide (records.length ≤ 255)

/-- BULK-WRITE carries its count in four bytes (Formats, Link transactions). -/
def bulkWriteOk (bytes : List Byte) : Bool := decide (bytes.length < 4294967296)

/-- An order of sensor changes names each sensor at most once. -/
def scanOrderOk (order : List Sensor) : Bool := decide order.Nodup

end Sys2Proof.Machine
end

