-- ==== Sys2Proof/Decode.lean ====
section
/-! DEFINITION. From bytes to commands: the words of the opcode table, which gives its rows no bits, and the messages and
transactions of Formats, each read as the row of the table it brings. -/

namespace Sys2Proof

open Machine

/-- The command that a table word spells: the table gives no row any bits, so none (log 19). -/
def decodeTableWord (_nbits _w : Nat) : Option Instr := none

/-! ## Drive-link messages, drive to part (Formats, R194) -/

/-- The number that the bytes at `i` to `i + n - 1` carry, least significant first. -/
def fieldAt (bytes : List Byte) (i n : Nat) : Nat := leNat ((bytes.drop i).take n)

/-- The body of a MEDIA message; none when a value is past its list or the length does not fit (Formats, R194). -/
def decodeMedia (bytes : List Byte) : Option MediaReport :=
  match bytes with
  | [_, 0] => some .absent
  | [_, 3] => some .unusable
  | _ :: 1 :: cls :: c0 :: c1 :: c2 :: count :: speeds =>
    match classOfCode cls.toNat with
    | none => none
    | some v =>
      if speeds.length = count.toNat then some (.blank v (BitVec.ofNat 24 (leNat [c0, c1, c2])) speeds) else none
  | _ :: 2 :: cls :: size =>
    match classOfCode cls.toNat with
    | none => none
    | some v => if size.length = 8 then some (.recorded v (BitVec.ofNat 64 (leNat size))) else none
  | _ => none

/-- The position a value-list byte names (Formats). -/
def trayPositionOf : Nat → Option TrayPosition
  | 0 => some .opened
  | 1 => some .closed
  | 2 => some .moving
  | _ => none

/-- The row that the bytes of a message from drive `n` bring; a message of unknown kind, of a length that does not fit its kind or
with a value past its list is malformed (Formats, R194). The limits of R194 on fields are checked by the rows' meanings. -/
def decodeDriveMessage (n : LaneId) (bytes : List Byte) : Instr :=
  match bytes with
  | [16, b0, b1, classes] => .ident n (BitVec.ofNat 16 (leNat [b0, b1])) (classes.getLsbD 0) (classes.getLsbD 1)
  | [17, pos] =>
    match trayPositionOf pos.toNat with
    | none => .driveMalformedMessage n
    | some v => .trayState n v
  | 18 :: rest =>
    match decodeMedia (18 :: rest) with
    | none => .driveMalformedMessage n
    | some v => .media n v
  | [19, n0, n1, c0, c1, c2] => .credit n (BitVec.ofNat 16 (leNat [n0, n1])) (BitVec.ofNat 24 (leNat [c0, c1, c2]))
  | [20] => .bufferEmpty n
  | [21] => .writeRecovered n
  | [22] => .writeError n
  | [23] => .finalizeDone n
  | 24 :: i0 :: i1 :: i2 :: d0 :: d1 :: data =>
    if data.length = leNat [d0, d1] + 1 then .readData n (BitVec.ofNat 24 (leNat [i0, i1, i2])) data
    else .driveMalformedMessage n
  | [25, i0, i1, i2] => .readFail n (BitVec.ofNat 24 (leNat [i0, i1, i2]))
  | [26, code] => .error n code
  | _ => .driveMalformedMessage n

/-! ## Printer mechanism messages, mechanism to LPC (Formats) -/

/-- The row that the bytes of a report of the printer mechanism bring. The disc indication of a TRAY-DONE is a value of two names,
and a number past them is malformed (log 27). -/
def decodePrinterReport (bytes : List Byte) : Instr :=
  match bytes with
  | [16, 0] => .trayDone false
  | [16, 1] => .trayDone true
  | [17, band] => .bandDone band
  | [18, reading] => .temp reading
  | [19, code] => .printerError code
  | _ => .printerMalformedReport

/-! ## Link transactions (Formats) -/

/-- Records of 16 bytes; a rest of less than 16 bytes is no record. -/
def recordsOf : Nat → List Byte → List CommandRecord
  | 0, _ => []
  | n + 1, bytes =>
    if h : (bytes.take 16).length = 16 then ⟨(bytes.take 16).toArray, by simpa using h⟩ :: recordsOf n (bytes.drop 16) else []

/-- The row that the bytes of a transaction on port `p` bring (Formats, Link transactions). DESIGN CHOICE (log 37) where a body has
not the length that its header asks for: a PUT-COMMANDS with too few or too many bytes brings the whole records among the first n,
a BULK-WRITE the bytes up to its count; any other such body is taken as a transaction of no kind. -/
def decodeTransaction (p : Port) (bytes : List Byte) : Instr :=
  match bytes with
  | 1 :: n :: records => .putCommands p (recordsOf n.toNat records)
  | [2, n] => .takeNotices p n
  | 3 :: c0 :: c1 :: c2 :: c3 :: data => .bulkWrite p (data.take (leNat [c0, c1, c2, c3]))
  | [4, c0, c1, c2, c3] => .bulkRead p (BitVec.ofNat 32 (leNat [c0, c1, c2, c3]))
  | [5] => .linkStatus p
  | _ => .unknownTransaction p

end Sys2Proof
end

