-- ==== Sys2Proof/Config.lean ====
section
/-! DEFINITION. What the manual leaves to the tower that is built: the contents of image memory that nothing has written. -/

namespace Sys2Proof.Config

/-- What a byte of image memory that nothing has written reads as. DESIGN CHOICE, unsafe (log 3): the manual gives DRAM no
contents at power-on. -/
def unwritten : Byte := 0

end Sys2Proof.Config
end

