-- ==== Sys2Proof/Machine/State.lean ====
section
/-! DEFINITION. The state of the part: every table, queue, register and pin that the manual gives it, as plain data, and the
state after power-on reset. -/

namespace Sys2Proof.Machine

/-! ## Identifiers -/

/-- Image slot 0..7 (R3). -/
abbrev ImageId := Fin 8
/-- Artwork slot 0..3 (R19). -/
abbrev ArtworkId := Fin 4
/-- Index of the job table or the disc table (R25, R51). -/
abbrev TableId := Fin 16

/-- A job handle: table index and generation (R25). -/
structure Handle where
  index : TableId
  generation : Byte
  deriving DecidableEq, Repr

/-- An input bin (R126). -/
inductive Bin where
  | a
  | b
  deriving DecidableEq, Repr

/-- The bins a disc may end in (R52, fate). -/
inductive Fate where
  | output
  | reject
  deriving DecidableEq, Repr

/-- Where routing sends a disc (R52, destination). -/
inductive Destination where
  | printer
  | output
  | reject
  deriving DecidableEq, Repr

/-- The thirteen positions of the arm (R126). -/
inductive Position where
  | bin (which : Bin)
  | output
  | reject
  | printer
  | tray (n : LaneId)
  deriving DecidableEq, Repr

/-- Four amounts of ink, one for each channel (R19, R157). -/
structure Ink where
  c : Nat
  m : Nat
  y : Nat
  k : Nat
  deriving DecidableEq, Repr

/-- A guard on the millisecond time base: its limit and the time counted since it was loaded or restarted (R85, R127,
R157). -/
structure Timer where
  limit : Nat
  elapsed : Nat
  deriving DecidableEq, Repr

/-! ## Image memory (Image Memory) -/

/-- A run of `len` consecutive pages from page `start`, for writing an ordered list of pages down (R1). -/
structure Extent where
  start : Nat
  len : Nat
  deriving DecidableEq, Repr

/-- Stage of an image slot (R3). -/
inductive ImageState where
  | free
  | loadWait
  | loading
  | ready
  deriving DecidableEq, Repr

/-- Where load data comes from (R3, source). -/
inductive LoadSource where
  | stream
  | lane (n : LaneId)
  deriving DecidableEq, Repr

/-- A record of the image table (R3). -/
structure ImageSlot where
  state : ImageState
  owner : Option Port
  source : Option LoadSource
  cls : Option MediaClass
  size : Nat
  segments : Nat
  pages : List Extent
  received : Nat
  refcount : Nat
  isProtected : Bool
  noExport : Bool
  deriving DecidableEq, Repr

/-- The values of a FREE image slot (R3). -/
def ImageSlot.freed : ImageSlot := ⟨.free, none, none, none, 0, 0, [], 0, 0, false, false⟩

/-- Stage of an artwork slot (R19). -/
inductive ArtworkState where
  | free
  | loading
  | ready
  deriving DecidableEq, Repr

/-- A record of the artwork table (R19). -/
structure ArtworkSlot where
  state : ArtworkState
  owner : Option Port
  bands : Nat
  pages : List Extent
  received : Nat
  weights : Ink
  costs : Ink
  refcount : Nat
  deriving DecidableEq, Repr

/-- The values of a FREE artwork slot (R19). -/
def ArtworkSlot.freed : ArtworkSlot := ⟨.free, none, 0, [], 0, ⟨0, 0, 0, 0⟩, ⟨0, 0, 0, 0⟩, 0⟩

/-! ## Jobs (Jobs and Dispatch) -/

/-- Verify mode of a job, SAMPLE with its interval (R26). -/
inductive VerifyMode where
  | none
  | sample (interval : Nat)
  | full
  deriving DecidableEq, Repr

/-- Print quality (R26). -/
inductive Quality where
  | draft
  | normal
  | fine
  deriving DecidableEq, Repr

/-- State of a live job (R26). -/
inductive JobState where
  | queued
  | active
  | paused
  | draining
  deriving DecidableEq, Repr

/-- Why a job drains (R26, end reason). -/
inductive EndReason where
  | cancelled
  | killed
  | failLimit
  deriving DecidableEq, Repr

/-- The result an ended notice carries (R42, R49). -/
inductive JobResult where
  | done
  | cancelled
  | killed
  | failed
  | imageFailed
  deriving DecidableEq, Repr

/-- A live job's record (R26). -/
structure Job where
  owner : Port
  image : ImageId
  artwork : Option ArtworkId
  copies : Nat
  good : Nat
  failed : Nat
  spoiled : Nat
  inFlight : Nat
  lanesHeld : Nat
  verify : VerifyMode
  speedMin : Nat
  speedMax : Nat
  tolerance : Nat
  failLimit : Nat
  laneLimit : Nat
  quality : Quality
  state : JobState
  endReason : Option EndReason
  rank : Nat
  deriving DecidableEq, Repr

/-- An entry of the job table: its generation, and the job it holds when it is live (R25). -/
structure JobEntry where
  generation : Byte
  job : Option Job
  deriving DecidableEq, Repr

/-! ## Discs (The Disc Table) -/

/-- Where a disc is (R52). -/
inductive Location where
  | arm
  | tray (n : LaneId)
  | printer
  deriving DecidableEq, Repr

/-- How far a disc has got (R52). -/
inductive Phase where
  | fed
  | ready
  | burning
  | finalizing
  | burned
  | verifying
  | passed
  | failed
  | printing
  | printed
  | spare
  deriving DecidableEq, Repr

/-- Why a disc failed or was lost (R59), in the order of Formats. -/
inductive FailReason where
  | wrongMedia
  | tooSmall
  | writeError
  | verifyMismatch
  | unreadable
  | laneFault
  | printFault
  | killed
  | lost
  | stuck
  deriving DecidableEq, Repr

/-- Outcome of a verify, a FAIL with its first bad segment (R57). -/
inductive VerifyResult where
  | pass
  | mismatch (segment : Nat)
  | unreadable (segment : Nat)
  deriving DecidableEq, Repr

/-- A disc record (R52). -/
structure Disc where
  serial : Word32
  job : Option Handle
  lane : LaneId
  cls : Option MediaClass
  capacity : Nat
  location : Location
  phase : Phase
  speed : Option Nat
  underruns : Nat
  forced : Bool
  verify : Option VerifyResult
  reason : Option FailReason
  degraded : Bool
  printed : Bool
  destination : Option Destination
  fate : Option Fate
  deriving DecidableEq, Repr

/-! ## Lanes (Drive Lanes) -/

/-- State of a lane, in the order of R67. -/
inductive LaneState where
  | offline
  | idle
  | awaitDisc
  | opening
  | opened
  | closing
  | probing
  | feedWait
  | burning
  | finalizing
  | verifyWait
  | verifying
  | done
  | spare
  | master
  | sourceWait
  | sourceRead
  | foreign
  | fault
  deriving DecidableEq, Repr

/-- Why a tray is moving or open (R67). -/
inductive TrayPurpose where
  | place
  | pick
  | operator
  deriving DecidableEq, Repr

/-- A tray command of the drive link (R68). -/
inductive TrayCommand where
  | openTray
  | closeTray
  deriving DecidableEq, Repr

/-- The tray move a lane in FAULT has under way: the fault unload of R87 opening, open for the PICK, or closing, or an
operator's move of R90 and R91 (log 10). -/
inductive FaultMove where
  | unloadOpening
  | unloadOpen
  | unloadClosing
  | operatorOpening
  | operatorClosing
  deriving DecidableEq, Repr

/-- A drive's identity (R67). -/
structure Identity where
  buffer : Nat
  burnsL : Bool
  burnsM : Bool
  deriving DecidableEq, Repr

/-- A lane record (R67). `unanswered` and `heldBack` are the tray command the drive has not yet answered and one that waits
for that answer (R68, log 9). -/
structure Lane where
  state : LaneState
  held : Bool
  identity : Option Identity
  purpose : Option TrayPurpose
  report : Option TrayPosition
  startUp : Bool
  job : Option Handle
  blankSpeeds : List Nat
  master : Option (MediaClass × Nat)
  granted : Nat
  sent : Nat
  committed : Nat
  credits : Nat
  failCount : Nat
  quarantine : Bool
  timer : Option Timer
  unanswered : Option TrayCommand
  heldBack : Option TrayCommand
  faultMove : Option FaultMove
  deriving DecidableEq, Repr

/-- The lane record at power-on (R67). -/
def Lane.atPowerOn : Lane :=
  ⟨.offline, false, none, none, none, false, none, [], none, 0, 0, 0, 0, 0, false, none, none, none, none⟩

/-- Why a lane faulted (R94). -/
inductive LaneCause where
  | timeout (state : LaneState)
  | error (code : Byte)
  | restart
  | tray
  deriving DecidableEq, Repr

/-! ## The read channel (Feed Scheduling) -/

/-- One of the printer's two band buffers (R157). -/
inductive BufferId where
  | a
  | b
  deriving DecidableEq, Repr

/-- Recipient and source of a transfer (R104). -/
inductive TransferTo where
  | lane (n : LaneId) (slot : ImageId) (segment : Nat)
  | band (slot : ArtworkId) (band quarter : Nat) (buffer : BufferId)
  | client (p : Port) (slot : ImageId) (chunk : Nat)
  deriving DecidableEq, Repr

/-- The transfer in flight, and whether its recipient still wants it (R110). -/
structure Transfer where
  recipient : TransferTo
  wanted : Bool
  deriving DecidableEq, Repr

/-! ## Verification -/

/-- What a verify-queue entry stands for (R112). -/
inductive VerifyWork where
  | verify (n : LaneId) (serial : Word32)
  | source (n : LaneId) (slot : ImageId)
  | bulk (p : Port) (slot : ImageId)
  deriving DecidableEq, Repr

/-- An entry of the verify queue and the CRC channel it holds (R112). -/
structure VerifyEntry where
  work : VerifyWork
  channel : Option (Fin 2)
  deriving DecidableEq, Repr

/-- The verify set of R119: every index below `segments`, or every multiple of the interval together with the last index. -/
structure VerifySet where
  segments : Nat
  interval : Option Nat
  deriving DecidableEq, Repr

/-- A CRC channel: FREE, or HELD with the fields of the work that holds it (R114; R117, R84 and R118, R120). -/
inductive CrcChannel where
  | free
  | bulk (segment fill : Nat) (remainder : Word32)
  | source (next : Nat) (outstanding : List Nat) (digested : Nat)
  | verify (set : VerifySet) (next : Nat) (outstanding : List Nat) (matched : Nat)
  deriving DecidableEq, Repr

/-! ## The arm (Media Handling) -/

/-- State of the arm (R126). -/
inductive ArmState where
  | homing
  | idle
  | serving
  | held
  | fault
  deriving DecidableEq, Repr

/-- Where the arm stands (R126). -/
inductive ArmPlace where
  | known (p : Position)
  | home
  | unknown
  deriving DecidableEq, Repr

/-- A step of the arm (R127). -/
inductive ArmStep where
  | travel (p : Position)
  | pick
  | place
  | home
  deriving DecidableEq, Repr

/-- Why the arm faulted (R140). -/
inductive ArmCause where
  | timeout
  | driver
  | pick
  | grip
  | drop
  deriving DecidableEq, Repr

/-- An arm fault's cause, with the step concerned (R126). -/
structure ArmFault where
  cause : ArmCause
  step : Option ArmStep
  deriving DecidableEq, Repr

/-- The arm record (R126). `request` is the age of the request being served. `returning` says that the discs of a double pick
are still to be put back (R134), `homeDone` that HOME's DONE has been taken and the home reading has not, and `byClear` that
CLEAR-ARM-FAULT began the homing (R128). -/
structure Arm where
  state : ArmState
  resume : Option ArmState
  position : ArmPlace
  step : Option ArmStep
  timer : Option Timer
  request : Option Nat
  sourceBin : Option Bin
  attempts : Nat
  fault : Option ArmFault
  returning : Bool
  homeDone : Bool
  byClear : Bool
  deriving DecidableEq, Repr

/-- The arm record at power-on (R126). -/
def Arm.atPowerOn : Arm := ⟨.homing, none, .unknown, none, none, none, none, 0, none, false, false, false⟩

/-- Kind of an arm request (R130). -/
inductive RequestKind where
  | feed
  | unload
  | printClear
  deriving DecidableEq, Repr

/-- An arm request (R130). `origin` is the lane it was queued for, kept when its `lane` becomes absent (log 11). -/
structure Request where
  kind : RequestKind
  lane : Option LaneId
  origin : Option LaneId
  cls : Option MediaClass
  age : Nat
  taken : Bool
  disc : Option Word32
  deriving DecidableEq, Repr

/-- The record of an input bin (R144). -/
structure BinRecord where
  cls : MediaClass
  present : Bool
  fault : Bool
  deriving DecidableEq, Repr

/-! ## Sensors -/

/-- The key position (R153). -/
inductive KeyPosition where
  | lock
  | run
  | service
  deriving DecidableEq, Repr

/-- A sensor's debounced state and disagreement count (R149). -/
structure SensorRecord where
  active : Bool
  count : Nat
  deriving DecidableEq, Repr

/-! ## The printer (Label Printing) -/

/-- State of the printer, in the order of R157. -/
inductive PrinterState where
  | empty
  | inkHold
  | trayIn
  | fetchWait
  | printing
  | bandWait
  | thermalPause
  | trayOut
  | finished
  | fault
  deriving DecidableEq, Repr

/-- What a band buffer is doing (R157). -/
inductive BufferState where
  | free
  | filling (band quarters : Nat)
  | full (band : Nat)
  | inUse (band : Nat)
  deriving DecidableEq, Repr

/-- A band buffer with the bytes it holds (R157). -/
structure BandBuffer where
  state : BufferState
  data : List Byte
  deriving DecidableEq, Repr

/-- A fetch request (R157). -/
structure FetchRequest where
  slot : ArtworkId
  band : Nat
  quarter : Nat
  buffer : BufferId
  deriving DecidableEq, Repr

/-- Why the printer faulted (R172). -/
inductive PrinterCause where
  | timeout (state : PrinterState)
  | lid
  | error (code : Byte)
  | foreign
  deriving DecidableEq, Repr

/-- The printer record (R157). `outDone` holds the disc indication of a TRAY-DONE taken in TRAY_OUT while the home reading is
still awaited (R159). -/
structure Printer where
  state : PrinterState
  nextBand : Nat
  fetchBand : Nat
  bufferA : BandBuffer
  bufferB : BandBuffer
  request : Option FetchRequest
  head : Nat
  w0 : Nat
  k : Nat
  tref : Nat
  levels : Ink
  capacity : Nat
  blackLow : Bool
  colourLow : Bool
  timer : Option Timer
  fault : Option PrinterCause
  outDone : Option Bool
  deriving DecidableEq, Repr

/-- The printer record at power-on (R157). -/
def Printer.atPowerOn : Printer :=
  ⟨.trayOut, 0, 0, ⟨.free, []⟩, ⟨.free, []⟩, none, 255, 180, 3, 80, ⟨0, 0, 0, 0⟩, 4000, false, false, some ⟨5000, 0⟩,
    none, none⟩

/-! ## Client ports (Client Links) -/

/-- The result codes of R182, in the order of Formats. -/
inductive ResultCode where
  | ok
  | badCommand
  | badParam
  | noSuch
  | notReady
  | wrongState
  | inUse
  | slotProtected
  | keyLocked
  | notOwner
  | noSpace
  | noExport
  | busy
  deriving DecidableEq, Repr

/-- A command's result on its way back to the CLU: the code and the result data (R180, R181). -/
structure Reply where
  code : ResultCode
  data : List Byte
  deriving DecidableEq, Repr

/-- The groups of the subscription mask, in the order of R186. -/
inductive Group where
  | bin
  | outputReject
  | door
  | ink
  | arm
  | key
  | lane
  | printer
  deriving DecidableEq, Repr

/-- Sub-kinds of IMAGE and ARTWORK notices (R185). -/
inductive SlotEvent where
  | ready
  | failed
  | deleted
  deriving DecidableEq, Repr

/-- Events of a TOWER BIN notice (R144). -/
inductive BinEvent where
  | present
  | empty
  | fault
  deriving DecidableEq, Repr

/-- A notice (R185), with what its record carries (Formats). A DISC notice carries the disc record as it stands at closure
(R64). -/
inductive Notice where
  | reply (result : ResultCode) (tag code : Byte) (data echo : List Byte)
  | jobActive (h : Handle)
  | jobPaused (h : Handle)
  | jobResumed (h : Handle)
  | jobDraining (h : Handle) (reason : EndReason)
  | jobEnded (h : Handle) (result : JobResult) (good failed spoiled : Nat)
  | disc (h : Handle) (d : Disc)
  | image (slot : ImageId) (event : SlotEvent)
  | artwork (slot : ArtworkId) (event : SlotEvent)
  | laneFault (n : LaneId) (cause : LaneCause) (serial : Option Word32)
  | laneQuarantined (n : LaneId)
  | laneOnline (n : LaneId) (identity : Identity)
  | laneMaster (n : LaneId) (cls : MediaClass) (size : Nat)
  | laneForeign (n : LaneId) (isBlank : Bool)
  | bin (event : BinEvent) (which : Bin)
  | outputFull (full : Bool)
  | rejectFull (full : Bool)
  | door (closed : Bool)
  | inkLow (black : Bool) (levels : Ink)
  | inkOut (levels costs : Ink)
  | armFault (fault : ArmFault) (position : ArmPlace) (serial : Option Word32)
  | armCleared
  | key (new old : KeyPosition)
  | printerFault (cause : PrinterCause) (serial : Option Word32)
  | thermal (paused : Bool) (reading : Nat)
  | lost (count : Nat)
  deriving DecidableEq, Repr

/-- A port's bulk stream: none, or the one kind of R189 that is open. -/
inductive Stream where
  | none
  | image (slot : ImageId)
  | artwork (slot : ArtworkId)
  | outbound (slot : ImageId) (position : Nat) (buffer : List Byte)
  deriving DecidableEq, Repr

/-- The outstanding command: its record, and its result once its block has taken it (R177, R180). -/
structure Outstanding where
  command : CommandRecord
  result : Option Reply
  deriving DecidableEq, Repr

/-- A port record (R177). Each queued notice stands with the time it was queued. `orphans` are the commands that stood at
their blocks, not yet taken, when the link was reset (R190 step 1, log 7). -/
structure PortRecord where
  commands : List CommandRecord
  outstanding : Option Outstanding
  orphans : List CommandRecord
  notices : List (Notice × Nat)
  lost : Nat
  mask : BitVec 8
  threshold : Nat
  hold : Nat
  line : Bool
  stream : Stream
  staging : List Byte
  resetHeld : Bool
  deriving DecidableEq, Repr

/-- The port record after a link reset, with the link-reset line as given (R177). -/
def PortRecord.afterReset (lineAsserted : Bool) : PortRecord :=
  ⟨[], none, [], [], 0, 0, 1, 0, false, .none, [], lineAsserted⟩

/-! ## Messages out -/

/-- What the part has put on one of its ports: the bytes of a transaction's answer, of a drive-link message or of a printer
mechanism message (Formats), or a step on the arm motion link (R127). -/
inductive Output where
  | answer (p : Port) (bytes : List Byte)
  | drive (n : LaneId) (bytes : List Byte)
  | arm (step : ArmStep)
  | printer (bytes : List Byte)
  deriving DecidableEq, Repr

/-! ## The whole state -/

/-- The follow-up computations owed once the event in hand has taken its full effect: a grant of CRC channels (R114), a claim
attempt (R46), a start computation (R101), the arm's next step (R129), a selection (R132), a grant of the read channel (R108).
Between events none is owed (log 12). -/
structure Due where
  crc : Bool
  claim : Bool
  start : Bool
  arm : Bool
  select : Bool
  grant : Bool
  deriving DecidableEq, Repr

/-- Nothing is owed. -/
def Due.nothing : Due := ⟨false, false, false, false, false, false⟩

/-- The state of the part. -/
structure State where
  /-- The commands that wait, first in, first out. -/
  pending : List Instr
  /-- The millisecond time base. -/
  now : Nat
  /-- Messages put on the ports since power-on, oldest first (log 6). -/
  out : List Output
  /-- The three port records (R177). -/
  ports : Vector PortRecord 3
  /-- Image memory. -/
  mem : List Host.Cell
  /-- The page pool, in the order in which it gives its pages up (R1, log 4). -/
  pool : List Extent
  /-- The image table (R3). -/
  images : Vector ImageSlot 8
  /-- The artwork table (R19). -/
  artworks : Vector ArtworkSlot 4
  /-- The job table (R25). -/
  jobs : Vector JobEntry 16
  /-- The client rotation pointer (R44). -/
  rotation : Port
  /-- The disc table (R51). -/
  discs : Vector (Option Disc) 16
  /-- The serial counter (R51). -/
  serial : Word32
  /-- The lane records (R67). -/
  lanes : Vector Lane 8
  /-- The feed budget (R96). -/
  budget : Nat
  /-- The start queue (R98). -/
  startQueue : List LaneId
  /-- The read channel: IDLE or its transfer (R104). -/
  channel : Option Transfer
  /-- The verify queue (R112). -/
  verifyQueue : List VerifyEntry
  /-- The CRC channels (R114). -/
  crc : Vector CrcChannel 2
  /-- The arm record (R126). -/
  arm : Arm
  /-- The arm request queue (R130). -/
  requests : List Request
  /-- The age the next request takes (R130). -/
  nextAge : Nat
  /-- The record of BIN_A (R144). -/
  binA : BinRecord
  /-- The record of BIN_B (R144). -/
  binB : BinRecord
  /-- OUTPUT full (R144). -/
  outputFull : Bool
  /-- REJECT full (R144). -/
  rejectFull : Bool
  /-- The fourteen sensors (R149), in the order of R148. -/
  sensors : Vector SensorRecord 14
  /-- Scans made since power-on, counted up to 3 (R150). -/
  scans : Nat
  /-- The key position held (R153). -/
  key : KeyPosition
  /-- The printer record (R157). -/
  printer : Printer
  /-- Follow-up computations owed. -/
  due : Due
  deriving DecidableEq, Repr

/-- Why the machine stops. No state that a run from reset reaches raises a fault. -/
inductive Fault where
  /-- Raised by IMAGE_STAGING_WRITE, ARTWORK_STAGING_WRITE, READ_DATA and TRANSFER_COMPLETION when the slot they work on does
  not hold the pages its size asks for: the image-memory address does not exist (R1, R2). Safe: the machine stops. -/
  | unmappedPages
  deriving DecidableEq, Repr

/-- Why a command has no meaning. -/
inductive Refusal where
  /-- Raised by the dispatch for a row without a meaning; no arm of this model raises it. Safe: the machine stops. -/
  | notModelled (mnemonic : String)
  deriving DecidableEq, Repr

/-- The part right after power-on reset: every field at the value of R1, R3, R19, R25, R44, R51, R67, R96, R98, R104, R112,
R126, R130, R144, R149, R150, R157 and R177. The printer has sent the TRAY-OUT of its tray-home check (R159). The
link-reset lines stand deasserted (log 17). -/
def State.reset : State where
  pending := []
  now := 0
  out := [.printer [2]]
  ports := Vector.replicate 3 (PortRecord.afterReset false)
  mem := []
  pool := [⟨0, 16384⟩]
  images := Vector.replicate 8 ImageSlot.freed
  artworks := Vector.replicate 4 ArtworkSlot.freed
  jobs := Vector.replicate 16 ⟨0, none⟩
  rotation := 2
  discs := Vector.replicate 16 none
  serial := 1
  lanes := Vector.replicate 8 Lane.atPowerOn
  budget := 196608
  startQueue := []
  channel := none
  verifyQueue := []
  crc := Vector.replicate 2 CrcChannel.free
  arm := Arm.atPowerOn
  requests := []
  nextAge := 0
  binA := ⟨.m, false, false⟩
  binB := ⟨.l, false, false⟩
  outputFull := false
  rejectFull := false
  sensors := Vector.replicate 14 ⟨false, 0⟩
  scans := 0
  key := .lock
  printer := Printer.atPowerOn
  due := Due.nothing

end Sys2Proof.Machine
end

