-- ==== Sys2Proof/Machine/Memory.lean ====
section
/-! DEFINITION. Image memory: the bytes behind the pages, the page pool, and the pages of a slot (Image Memory, R1, R2, R11). -/

namespace Sys2Proof.Machine

/-! ## Bytes -/

/-- Image memory as (address, byte) pairs; an address is page x 1,048,576 + offset. -/
abbrev Memory := List Host.Cell

/-- The byte at an address. -/
def memRead : Memory → Nat → Byte
  | [], _ => Config.unwritten
  | (a, v) :: rest, x => if x = a then v else memRead rest x

/-- Store a byte, keeping the canonical form. -/
def memWrite : Memory → Nat → Byte → Memory
  | [], x, w => if w = Config.unwritten then [] else [(x, w)]
  | (a, v) :: rest, x, w =>
    if x < a then (if w = Config.unwritten then (a, v) :: rest else (x, w) :: (a, v) :: rest)
    else if x = a then (if w = Config.unwritten then rest else (x, w) :: rest)
    else (a, v) :: memWrite rest x w

/-- Every listed address lies above `lo`, addresses rise strictly, and no entry equals what an unlisted address reads as. -/
def memRisesFrom : Option Nat → Memory → Bool
  | _, [] => true
  | lo, (a, v) :: rest =>
    (match lo with
      | none => true
      | some l => decide (l < a)) && decide (v ≠ Config.unwritten) && memRisesFrom (some a) rest

/-- The canonical form of image memory. -/
def Memory.wf (m : Memory) : Bool := memRisesFrom none m

/-! ## Pages -/

/-- The number of pages an ordered list of pages holds. -/
def pagesIn : List Extent → Nat
  | [] => 0
  | e :: rest => e.len + pagesIn rest

/-- Page `k` of an ordered list of pages. -/
def pageAt : List Extent → Nat → Nat
  | [], _ => 0
  | e :: rest, k => if k < e.len then e.start + k else pageAt rest (k - e.len)

/-- The first `n` pages that the pool gives up, and the pages that stay in it (R1). -/
def takePages : List Extent → Nat → List Extent × List Extent
  | pool, 0 => ([], pool)
  | [], _ + 1 => ([], [])
  | e :: rest, n + 1 =>
    if e.len ≤ n + 1 then
      let (taken, left) := takePages rest (n + 1 - e.len)
      (e :: taken, left)
    else ([⟨e.start, n + 1⟩], ⟨e.start + (n + 1), e.len - (n + 1)⟩ :: rest)

/-- The slot's pages exist and are at least `need`: then every address of the slot's data and digests exists. -/
def pagesMapped (pages : List Extent) (need : Nat) : Bool :=
  decide (need ≤ pagesIn pages) && pages.all fun e => decide (e.start + e.len ≤ pageCount)

/-- The image-memory address of byte `off` of a slot (R1). -/
def slotAddress (pages : List Extent) (off : Nat) : Nat :=
  pageAt pages (off / pageBytes) * pageBytes + off % pageBytes

/-- Store bytes in a slot from byte `off` on. -/
def writeSlot (m : Memory) (pages : List Extent) (off : Nat) : List Byte → Memory
  | [] => m
  | b :: rest => writeSlot (memWrite m (slotAddress pages off) b) pages (off + 1) rest

/-- The `n` bytes of a slot from byte `off` on. -/
def readSlot (m : Memory) (pages : List Extent) (off : Nat) : Nat → List Byte
  | 0 => []
  | n + 1 => memRead m (slotAddress pages off) :: readSlot m pages (off + 1) n

/-! ## Sizes (R2) -/

/-- `a / b` rounded up. -/
def ceilDiv (a b : Nat) : Nat := (a + b - 1) / b

/-- Segments of an image of `size` bytes (R2). -/
def segmentCount (size : Nat) : Nat := ceilDiv size segmentBytes

/-- Data pages of an image of `size` bytes (R2). -/
def dataPages (size : Nat) : Nat := ceilDiv size pageBytes

/-- Pages an image of `size` bytes needs: data pages and digest pages (R2). -/
def imagePages (size : Nat) : Nat := dataPages size + ceilDiv (segmentCount size * 4) pageBytes

/-- Pages an artwork of `bands` bands needs (R2). -/
def artworkPages (bands : Nat) : Nat := ceilDiv bands 4

/-- Length of segment `i` of an image: 65,536 bytes, or what is left for the last one (R116). -/
def segmentLength (size segments i : Nat) : Nat :=
  if i + 1 = segments then size - segmentBytes * (segments - 1) else segmentBytes

/-- Offset in the slot of digest entry `i`: the digest page follows the data pages (R1, R11). -/
def digestOffset (size i : Nat) : Nat := dataPages size * pageBytes + 4 * i

end Sys2Proof.Machine
end

