-- ==== Sys2Proof/Machine/Flags.lean ====
section
/-! DEFINITION. Values computed from fields: the CRC-32, verify sets, demand, candidate speeds and slack, the strobe width, ink
tests, the grip, the key position, and the numbers that enumerations are carried as. -/

namespace Sys2Proof.Machine

/-! ## CRC-32 (R116) -/

/-- One shift of the remainder to the right. -/
def crcShift (r : Word32) : Word32 := if r.getLsbD 0 then (r >>> 1) ^^^ 0xEDB88320 else r >>> 1

/-- The remainder shifted `n` times. -/
def crcShifts : Nat → Word32 → Word32
  | 0, r => r
  | n + 1, r => crcShifts n (crcShift r)

/-- The remainder with one byte taken in: step 2 of R116. -/
def crcByte (r : Word32) (v : Byte) : Word32 := crcShifts 8 (r ^^^ v.zeroExtend 32)

/-- The remainder at the start of a segment: step 1 of R116. -/
def crcStart : Word32 := 0xFFFFFFFF

/-- The CRC of a segment whose bytes have left `r`: step 3 of R116. -/
def crcFinish (r : Word32) : Word32 := ~~~r

/-- The CRC-32 of a segment's bytes (R116). -/
def crc32 (bytes : List Byte) : Word32 := crcFinish (bytes.foldl crcByte crcStart)

/-! ## Verify sets (R119) -/

/-- The number of indices in a verify set. -/
def VerifySet.size (v : VerifySet) : Nat :=
  match v.interval with
  | none => v.segments
  | some k => (v.segments - 1) / k + 1 + (if (v.segments - 1) % k = 0 then 0 else 1)

/-- The index at position `p` of a verify set. -/
def VerifySet.index (v : VerifySet) (p : Nat) : Nat :=
  match v.interval with
  | none => p
  | some k => if p ≤ (v.segments - 1) / k then p * k else v.segments - 1

/-- The set formed from the record's forced verify flag and the job's verify mode (R119). -/
def verifySetOf (forced : Bool) (mode : VerifyMode) (segments : Nat) : VerifySet :=
  match forced, mode with
  | false, .sample k => ⟨segments, some k⟩
  | _, _ => ⟨segments, none⟩

/-! ## Feed rates (R97, R99, R100, R106) -/

/-- Demand of a lane at a speed, in KiB/s (R97). -/
def demandOf (cls : MediaClass) (speed : Nat) : Nat := speed * baseRate cls

/-- The greatest number of a list. -/
def maxOf : List Nat → Option Nat
  | [] => none
  | v :: rest =>
    match maxOf rest with
    | none => some v
    | some w => some (if w < v then v else w)

/-- The least number of a list. -/
def minOf : List Nat → Option Nat
  | [] => none
  | v :: rest =>
    match minOf rest with
    | none => some v
    | some w => some (if v < w then v else w)

/-- The candidate set of a blank's speeds for a job's speed range (R99). -/
def candidateSpeeds (speeds : List Nat) (lo hi : Nat) : List Nat :=
  match speeds.filter fun v => decide (lo ≤ v) && decide (v ≤ hi) with
  | [] =>
    match maxOf (speeds.filter fun v => decide (v < lo)) with
    | some v => [v]
    | none =>
      match minOf (speeds.filter fun v => decide (hi < v)) with
      | some v => [v]
      | none => []
  | inside => inside

/-- The start speed: the highest candidate whose demand does not exceed the available rate (R100). -/
def startSpeed (cls : MediaClass) (candidates : List Nat) (available : Int) : Option Nat :=
  maxOf (candidates.filter fun v => decide ((demandOf cls v : Int) ≤ available))

/-- Slack of a lane in ms (R106). -/
def slackOf (buffer credits demand : Nat) : Nat := (buffer - credits) * 64 * 1000 / demand

/-! ## Printing (R160, R168, R169, R171) -/

/-- Firing period of a print quality, in units of 10 ns (R168). -/
def firingPeriod : Quality → Nat
  | .draft => 320
  | .normal => 700
  | .fine => 1000

/-- The strobe width W_eff (R168). -/
def strobeWidth (w0 k tref reading : Nat) (q : Quality) : Nat :=
  let w : Int := (w0 : Int) + ((tref : Int) - (reading : Int)) * (k : Int) / 8
  min (clampTo 120 260 w.toNat) (firingPeriod q * 3 / 4)

/-- Each channel's cost is within its level: the ink check (R160). -/
def inkSuffices (levels costs : Ink) : Bool :=
  decide (costs.c ≤ levels.c) && decide (costs.m ≤ levels.m) && decide (costs.y ≤ levels.y) && decide (costs.k ≤ levels.k)

/-- The levels after a label's debit (R169); a level does not fall below 0. -/
def inkDebit (levels costs : Ink) : Ink :=
  ⟨levels.c - costs.c, levels.m - costs.m, levels.y - costs.y, levels.k - costs.k⟩

/-- The black cartridge is low (R171). -/
def blackIsLow (levels : Ink) (capacity : Nat) : Bool := decide (levels.k < capacity / 10)

/-- The colour cartridge is low (R171). -/
def colourIsLow (levels : Ink) (capacity : Nat) : Bool :=
  decide (levels.c < capacity / 10) || decide (levels.m < capacity / 10) || decide (levels.y < capacity / 10)

/-- The weights after one pixel byte (R21; Formats, Artwork pixel byte). -/
def inkAddPixel (w : Ink) (v : Byte) : Ink :=
  ⟨w.c + v.toNat % 4, w.m + v.toNat / 4 % 4, w.y + v.toNat / 16 % 4, w.k + v.toNat / 64 % 4⟩

/-- The costs of an artwork's weights (R21). -/
def inkCosts (w : Ink) : Ink := ⟨ceilDiv w.c 65536, ceilDiv w.m 65536, ceilDiv w.y 65536, ceilDiv w.k 65536⟩

/-! ## Sensors (R148, R152, R153) -/

/-- A sensor's place in the table of sensors. -/
def sensorPlace : Sensor → Fin 14
  | .binAPresent => 0
  | .binBPresent => 1
  | .outputFull => 2
  | .rejectFull => 3
  | .doorClosed => 4
  | .keyLock => 5
  | .keyService => 6
  | .gripOne => 7
  | .gripTwo => 8
  | .armHome => 9
  | .lidClosed => 10
  | .printerTrayHome => 11
  | .blackPresent => 12
  | .colourPresent => 13

/-- The fourteen sensors in the order of R148. -/
def allSensors : List Sensor :=
  [.binAPresent, .binBPresent, .outputFull, .rejectFull, .doorClosed, .keyLock, .keyService, .gripOne, .gripTwo, .armHome,
    .lidClosed, .printerTrayHome, .blackPresent, .colourPresent]

/-- A sensor's position in the matrix, 8 x row + column (R148). -/
def sensorBit : Sensor → Nat
  | .binAPresent => 0
  | .binBPresent => 1
  | .outputFull => 2
  | .rejectFull => 3
  | .doorClosed => 4
  | .keyLock => 5
  | .keyService => 6
  | .gripOne => 8
  | .gripTwo => 9
  | .armHome => 10
  | .lidClosed => 16
  | .printerTrayHome => 17
  | .blackPresent => 18
  | .colourPresent => 19

/-- The grip count of the two grip sensors (R152). -/
def gripCountOf (one two : Bool) : Nat := if two then 2 else if one then 1 else 0

/-- The key position that the two contacts give (R153). -/
def keyOf (lockContact serviceContact : Bool) : KeyPosition :=
  match lockContact, serviceContact with
  | false, false => .run
  | true, false => .lock
  | false, true => .service
  | true, true => .lock

/-! ## Numbers that names are carried as (Formats) -/

/-- A lane state's number, OFFLINE 0 to FAULT 18. -/
def LaneState.code : LaneState → Nat
  | .offline => 0
  | .idle => 1
  | .awaitDisc => 2
  | .opening => 3
  | .opened => 4
  | .closing => 5
  | .probing => 6
  | .feedWait => 7
  | .burning => 8
  | .finalizing => 9
  | .verifyWait => 10
  | .verifying => 11
  | .done => 12
  | .spare => 13
  | .master => 14
  | .sourceWait => 15
  | .sourceRead => 16
  | .foreign => 17
  | .fault => 18

/-- A printer state's number, EMPTY 0 to FAULT 9. -/
def PrinterState.code : PrinterState → Nat
  | .empty => 0
  | .inkHold => 1
  | .trayIn => 2
  | .fetchWait => 3
  | .printing => 4
  | .bandWait => 5
  | .thermalPause => 6
  | .trayOut => 7
  | .finished => 8
  | .fault => 9

/-- A result code's number. -/
def ResultCode.code : ResultCode → Nat
  | .ok => 0
  | .badCommand => 1
  | .badParam => 2
  | .noSuch => 3
  | .notReady => 4
  | .wrongState => 5
  | .inUse => 6
  | .slotProtected => 7
  | .keyLocked => 8
  | .notOwner => 9
  | .noSpace => 10
  | .noExport => 11
  | .busy => 12

/-- A fail reason's number; 0 is none. -/
def FailReason.code : FailReason → Nat
  | .wrongMedia => 1
  | .tooSmall => 2
  | .writeError => 3
  | .verifyMismatch => 4
  | .unreadable => 5
  | .laneFault => 6
  | .printFault => 7
  | .killed => 8
  | .lost => 9
  | .stuck => 10

/-- A group's bit of the subscription mask (Formats, SET-NOTICE-MASK). -/
def Group.bit : Group → Nat
  | .bin => 0
  | .outputReject => 1
  | .door => 2
  | .ink => 3
  | .arm => 4
  | .key => 5
  | .lane => 6
  | .printer => 7

/-- A bin's number. -/
def Bin.code : Bin → Nat
  | .a => 0
  | .b => 1

/-- The bin a value-list byte names. -/
def binOfCode : Nat → Option Bin
  | 0 => some .a
  | 1 => some .b
  | _ => none

/-- A key position's number. -/
def KeyPosition.code : KeyPosition → Nat
  | .lock => 0
  | .run => 1
  | .service => 2

end Sys2Proof.Machine
end

