-- ==== Sys2Proof/Machine/Formats.lean ====
section
/-! DEFINITION. The bytes of the records and messages that the part sends: notice records, drive-link messages and printer
mechanism messages (Formats). -/

namespace Sys2Proof.Machine

/-! ## Notice records -/

/-- A record of 16 bytes; bytes that the layout does not name are 0 (R192). -/
def record16 (bytes : List Byte) : List Byte := (bytes ++ List.replicate 16 0).take 16

/-- A serial in four bytes; 0 stands for none. -/
def serialBytes : Option Word32 → List Byte
  | none => leBytes 4 0
  | some v => leBytes 4 v.toNat

/-- The four levels or a cartridge's levels, two bytes each. -/
def inkBytes (v : Ink) : List Byte := leBytes 2 v.c ++ leBytes 2 v.m ++ leBytes 2 v.y ++ leBytes 2 v.k

/-- Number of an end reason. -/
def EndReason.code : EndReason → Nat
  | .cancelled => 0
  | .killed => 1
  | .failLimit => 2

/-- Number of a job result. -/
def JobResult.code : JobResult → Nat
  | .done => 0
  | .cancelled => 1
  | .killed => 2
  | .failed => 3
  | .imageFailed => 4

/-- Number of an IMAGE or ARTWORK event. -/
def SlotEvent.code : SlotEvent → Nat
  | .ready => 0
  | .failed => 1
  | .deleted => 2

/-- Number of a BIN event. -/
def BinEvent.code : BinEvent → Nat
  | .present => 0
  | .empty => 1
  | .fault => 2

/-- Number of an arm fault's cause. -/
def ArmCause.code : ArmCause → Nat
  | .timeout => 0
  | .driver => 1
  | .pick => 2
  | .grip => 3
  | .drop => 4

/-- Number of the step concerned; 0 is none. -/
def stepCode : Option ArmStep → Nat
  | none => 0
  | some (.travel _) => 1
  | some .pick => 2
  | some .place => 3
  | some .home => 4

/-- Number of a position. -/
def Position.code : Position → Nat
  | .bin .a => 0
  | .bin .b => 1
  | .output => 2
  | .reject => 3
  | .printer => 4
  | .tray n => 5 + n.val

/-- Number of the place where the arm stands; 255 for unknown. -/
def ArmPlace.code : ArmPlace → Nat
  | .known p => p.code
  | .home => 13
  | .unknown => 255

/-- Cause, and state or code, of a LANE FAULT notice. -/
def laneCauseBytes : LaneCause → List Byte
  | .timeout st => [0, byteOf st.code]
  | .error code => [1, code]
  | .restart => [2, 0]
  | .tray => [3, 0]

/-- Cause, and state or code, of a TOWER PRINTER fault notice. -/
def printerCauseBytes : PrinterCause → List Byte
  | .timeout st => [0, byteOf st.code]
  | .lid => [1, 0]
  | .error code => [2, code]
  | .foreign => [3, 0]

/-- Number of a verify result. -/
def verifyCode : Option VerifyResult → Nat
  | none => 0
  | some .pass => 1
  | some (.mismatch _) => 2
  | some (.unreadable _) => 3

/-- First bad segment of a FAIL, else 0. -/
def verifySegment : Option VerifyResult → Nat
  | some (.mismatch i) => i
  | some (.unreadable i) => i
  | _ => 0

/-- Number of a fate; 0 is none. -/
def fateCode : Option Fate → Nat
  | none => 0
  | some .output => 1
  | some .reject => 2

/-- A flag as a number. -/
def bit (v : Bool) : Nat := if v then 1 else 0

/-- The payload of a DISC notice (Formats, DISC payload). -/
def discPayload (d : Disc) : List Byte :=
  leBytes 4 d.serial.toNat ++
    [byteOf (d.lane.val + 8 * fateCode d.fate), byteOf ((d.reason.map FailReason.code).getD 0), byteOf (d.speed.getD 0),
      byteOf d.underruns, byteOf (verifyCode d.verify + 4 * bit d.forced + 8 * bit d.degraded + 16 * bit d.printed)] ++
    leBytes 3 (verifySegment d.verify)

/-- The bytes of a notice, before padding (Formats, Notice record). -/
def noticeBytes : Notice → List Byte
  | .reply result tag code data echo => [1, byteOf result.code, tag, code] ++ data ++ echo
  | .jobActive h => [2, 0, byteOf h.index.val, h.generation]
  | .jobPaused h => [2, 1, byteOf h.index.val, h.generation]
  | .jobResumed h => [2, 2, byteOf h.index.val, h.generation]
  | .jobDraining h reason => [2, 3, byteOf h.index.val, h.generation, byteOf reason.code]
  | .jobEnded h result good failed spoiled =>
    [2, 4, byteOf h.index.val, h.generation, byteOf result.code] ++ leBytes 2 good ++ leBytes 2 failed ++ leBytes 2 spoiled
  | .disc h d => [3, 0, byteOf h.index.val, h.generation] ++ discPayload d
  | .image slot event => [4, byteOf event.code, byteOf slot.val, 0]
  | .artwork slot event => [5, byteOf event.code, byteOf slot.val, 0]
  | .laneFault n cause serial => [6, 0, byteOf n.val, 0] ++ laneCauseBytes cause ++ serialBytes serial
  | .laneQuarantined n => [6, 1, byteOf n.val, 0]
  | .laneOnline n id => [6, 2, byteOf n.val, 0] ++ leBytes 2 id.buffer ++ [byteOf (bit id.burnsL + 2 * bit id.burnsM)]
  | .laneMaster n cls size => [6, 3, byteOf n.val, 0, byteOf (classCode cls)] ++ leBytes 8 size
  | .laneForeign n isBlank => [6, 4, byteOf n.val, 0, byteOf (bit (!isBlank))]
  | .bin event which => [7, 0, byteOf event.code, byteOf which.code]
  | .outputFull full => [7, 1, byteOf (bit (!full))]
  | .rejectFull full => [7, 2, byteOf (bit (!full))]
  | .door closed => [7, 3, byteOf (bit closed)]
  | .inkLow true levels => [7, 4, 0, 0] ++ leBytes 2 levels.k
  | .inkLow false levels => [7, 4, 0, 1] ++ leBytes 2 levels.c ++ leBytes 2 levels.m ++ leBytes 2 levels.y
  | .inkOut levels costs =>
    [7, 4, 1] ++ inkBytes levels ++
      leBytes 5 (costs.c % 1024 + 1024 * (costs.m % 1024) + 1048576 * (costs.y % 1024) + 1073741824 * (costs.k % 1024))
  | .armFault f position serial =>
    [7, 5, 0, byteOf f.cause.code, byteOf (stepCode f.step), byteOf position.code] ++ serialBytes serial
  | .armCleared => [7, 5, 1]
  | .key new old => [7, 6, byteOf new.code, byteOf old.code]
  | .printerFault cause serial => [7, 7, 0] ++ printerCauseBytes cause ++ serialBytes serial
  | .thermal true reading => [7, 7, 1, byteOf reading]
  | .thermal false reading => [7, 7, 2, byteOf reading]
  | .lost count => [8, 0, 0, 0] ++ leBytes 2 count

/-- The 16-byte record of a notice. -/
def noticeRecord (v : Notice) : List Byte := record16 (noticeBytes v)

/-! ## Drive-link messages, part to drive -/

/-- A message to a drive (Drive Lanes, The drive link). -/
inductive DriveMessage where
  | trayOpen
  | trayClose
  | probe
  | startWrite (speed segments : Nat)
  | segment (index : Nat) (data : List Byte)
  | finalize
  | read (index : Nat)
  | abort
  deriving DecidableEq, Repr

/-- The bytes of a message to a drive (Formats, Drive-link messages). -/
def driveBytes : DriveMessage → List Byte
  | .trayOpen => [1]
  | .trayClose => [2]
  | .probe => [3]
  | .startWrite speed segments => [4, byteOf speed] ++ leBytes 3 segments
  | .segment index data => [5] ++ leBytes 3 index ++ leBytes 2 (data.length - 1) ++ data
  | .finalize => [6]
  | .read index => [7] ++ leBytes 3 index
  | .abort => [8]

/-! ## Printer mechanism messages, LPC to mechanism -/

/-- A message to the printer mechanism (Label Printing, The printer mechanism link). -/
inductive PrinterMessage where
  | trayIn
  | trayOut
  | band (index width period : Nat) (pixels : List Byte)
  | abort
  deriving DecidableEq, Repr

/-- The bytes of a message to the printer mechanism (Formats, Printer mechanism messages). -/
def printerBytes : PrinterMessage → List Byte
  | .trayIn => [1]
  | .trayOut => [2]
  | .band index width period pixels => [3, byteOf index] ++ leBytes 2 width ++ leBytes 2 period ++ pixels
  | .abort => [4]

end Sys2Proof.Machine
end

