-- ==== Sys2Proof/Machine/Ops.lean ====
section
/-! DEFINITION. The named operations over the state that the meanings share: access to the records of the tables, messages out,
notices, timers, jobs, discs, arm requests, the start queue, the verify queue, and the clock. -/

namespace Sys2Proof.Machine

/-! ## Records of the tables -/

/-- Change a port record. -/
def State.modPort (s : State) (p : Port) (f : PortRecord → PortRecord) : State :=
  { s with ports := s.ports.set p (f s.ports[p]) }

/-- Change an image slot. -/
def State.modImage (s : State) (i : ImageId) (f : ImageSlot → ImageSlot) : State :=
  { s with images := s.images.set i (f s.images[i]) }

/-- Change an artwork slot. -/
def State.modArtwork (s : State) (i : ArtworkId) (f : ArtworkSlot → ArtworkSlot) : State :=
  { s with artworks := s.artworks.set i (f s.artworks[i]) }

/-- Change a lane record. -/
def State.modLane (s : State) (n : LaneId) (f : Lane → Lane) : State :=
  { s with lanes := s.lanes.set n (f s.lanes[n]) }

/-- Change an entry of the job table. -/
def State.setJobEntry (s : State) (i : TableId) (e : JobEntry) : State := { s with jobs := s.jobs.set i e }

/-- Change an entry of the disc table. -/
def State.setDisc (s : State) (i : TableId) (d : Option Disc) : State := { s with discs := s.discs.set i d }

/-- Change the arm record. -/
def State.modArm (s : State) (f : Arm → Arm) : State := { s with arm := f s.arm }

/-- Change the printer record. -/
def State.modPrinter (s : State) (f : Printer → Printer) : State := { s with printer := f s.printer }

/-- Change a CRC channel. -/
def State.setCrc (s : State) (c : Fin 2) (v : CrcChannel) : State := { s with crc := s.crc.set c v }

/-- Image memory becomes `v`. -/
def State.setMem (s : State) (v : List Host.Cell) : State := { s with mem := v }

/-- The page pool becomes `v`. -/
def State.setPool (s : State) (v : List Extent) : State := { s with pool := v }

/-- The client rotation pointer names `v`. -/
def State.setRotation (s : State) (v : Port) : State := { s with rotation := v }

/-- The serial counter becomes `v`. -/
def State.setSerial (s : State) (v : Word32) : State := { s with serial := v }

/-- The feed budget becomes `v`. -/
def State.setBudget (s : State) (v : Nat) : State := { s with budget := v }

/-- The start queue becomes `v`. -/
def State.setStartQueue (s : State) (v : List LaneId) : State := { s with startQueue := v }

/-- The read channel becomes `v`. -/
def State.setChannel (s : State) (v : Option Transfer) : State := { s with channel := v }

/-- The verify queue becomes `v`. -/
def State.setVerifyQueue (s : State) (v : List VerifyEntry) : State := { s with verifyQueue := v }

/-- The job table becomes `v`. -/
def State.setJobs (s : State) (v : Vector JobEntry 16) : State := { s with jobs := v }

/-- The arm request queue becomes `v`. -/
def State.setRequests (s : State) (v : List Request) : State := { s with requests := v }

/-- OUTPUT full becomes `v`. -/
def State.setOutputFull (s : State) (v : Bool) : State := { s with outputFull := v }

/-- REJECT full becomes `v`. -/
def State.setRejectFull (s : State) (v : Bool) : State := { s with rejectFull := v }

/-- The count of scans becomes `v`. -/
def State.setScans (s : State) (v : Nat) : State := { s with scans := v }

/-- The key position held becomes `v`. -/
def State.setKey (s : State) (v : KeyPosition) : State := { s with key := v }

/-- What is owed becomes `v`. -/
def State.setDue (s : State) (v : Due) : State := { s with due := v }

/-- A bin record. -/
def State.binRecord (s : State) : Bin → BinRecord
  | .a => s.binA
  | .b => s.binB

/-- Change a bin record. -/
def State.modBin (s : State) (which : Bin) (f : BinRecord → BinRecord) : State :=
  match which with
  | .a => { s with binA := f s.binA }
  | .b => { s with binB := f s.binB }

/-- The debounced state of a sensor (R149). -/
def State.sensor (s : State) (v : Sensor) : Bool := s.sensors[sensorPlace v].active

/-- The grip count as the Sensor Scanner holds it (R152). -/
def State.gripCount (s : State) : Nat := gripCountOf (s.sensor .gripOne) (s.sensor .gripTwo)

/-! ## Follow-up computations owed (log 12) -/

/-- A grant of CRC channels is owed (R114). -/
def State.oweCrc (s : State) : State := { s with due := { s.due with crc := true } }
/-- A claim attempt is owed (R46). -/
def State.oweClaim (s : State) : State := { s with due := { s.due with claim := true } }
/-- A start computation is owed (R101). -/
def State.oweStart (s : State) : State := { s with due := { s.due with start := true } }
/-- The arm's next step is owed (R129). -/
def State.oweArm (s : State) : State := { s with due := { s.due with arm := true } }
/-- A selection is owed (R132). -/
def State.oweSelect (s : State) : State := { s with due := { s.due with select := true } }
/-- A grant of the read channel is owed (R108). -/
def State.oweGrant (s : State) : State := { s with due := { s.due with grant := true } }

/-! ## Messages out (log 6) -/

/-- Put a message on a port. -/
def State.emit (s : State) (o : Output) : State := { s with out := s.out ++ [o] }

/-- Answer a transaction (R178). -/
def State.answer (s : State) (p : Port) (bytes : List Byte) : State := s.emit (.answer p bytes)

/-- Send a message to a drive (R68). -/
def State.sendDrive (s : State) (n : LaneId) (v : DriveMessage) : State := s.emit (.drive n (driveBytes v))

/-- Send a message to the printer mechanism (R158). -/
def State.sendPrinter (s : State) (v : PrinterMessage) : State := s.emit (.printer (printerBytes v))

/-! ## Notices (R183, R185, R187) -/

/-- The line of a port record tested against its settings at time `now`: a deasserted line is asserted when the notices queued
reach the threshold, or when the hold time is above 0 and the oldest notice's age has reached it (R187, R188). -/
def PortRecord.testLine (r : PortRecord) (now : Nat) : PortRecord :=
  match r.notices with
  | [] => r
  | (_, t) :: _ =>
    if r.threshold ≤ r.notices.length || (decide (0 < r.hold) && decide (r.hold ≤ now - t)) then { r with line := true } else r

/-- A notice joins a port record's queue at time `now`, or is counted as lost when the queue holds 32 (R183); the queue's new
length is held against the threshold (R187). -/
def PortRecord.join (r : PortRecord) (v : Notice) (now : Nat) : PortRecord :=
  if r.notices.length < 32 then
    let q := r.notices ++ [(v, now)]
    { r with notices := q, line := r.line || decide (r.threshold ≤ q.length) }
  else { r with lost := min 65535 (r.lost + 1) }

/-- Queue a notice to a port (R183). -/
def State.notify (s : State) (p : Port) (v : Notice) : State := s.modPort p fun r => r.join v s.now

/-- Queue a notice to a port that may be absent. -/
def State.notifyOpt (s : State) (p : Option Port) (v : Notice) : State :=
  match p with
  | none => s
  | some q => s.notify q v

/-- The port's mask holds the group (R186). -/
def PortRecord.subscribes (r : PortRecord) (g : Group) : Bool := r.mask.getLsbD g.bit

/-- Queue a LANE or TOWER notice to every port of a list whose mask holds its group (R185). -/
def State.raiseTo (g : Group) (v : Notice) : List Port → State → State
  | [], s => s
  | p :: rest, s => State.raiseTo g v rest (if s.ports[p].subscribes g then s.notify p v else s)

/-- Queue a LANE or TOWER notice to every port whose mask holds its group (R185). -/
def State.raise (s : State) (g : Group) (v : Notice) : State := State.raiseTo g v portIds s

/-! ## Timers (R85, R127, R157; log 2) -/

/-- A guard just loaded. -/
def Timer.load (limit : Nat) : Timer := ⟨limit, 0⟩

/-- A guard one millisecond later. -/
def Timer.tick (t : Timer) : Timer := { t with elapsed := min t.limit (t.elapsed + 1) }

/-- Load a lane's timer (R85). -/
def State.startTimer (s : State) (n : LaneId) (limit : Nat) : State := s.modLane n fun l => { l with timer := some (Timer.load limit) }

/-- Stop a lane's timer (R85). -/
def State.stopTimer (s : State) (n : LaneId) : State := s.modLane n fun l => { l with timer := none }

/-- Restart a lane's timer from 0 with the limit it runs with (R85). -/
def State.restartTimer (s : State) (n : LaneId) : State :=
  s.modLane n fun l => { l with timer := l.timer.map fun t => Timer.load t.limit }

/-- One millisecond of the time base: the clock and every running guard move on (log 2). -/
def State.tick (s : State) : State :=
  { s with
    now := s.now + 1
    lanes := s.lanes.map fun l => { l with timer := l.timer.map Timer.tick }
    arm := { s.arm with timer := s.arm.timer.map Timer.tick }
    printer := { s.printer with timer := s.printer.timer.map Timer.tick } }

/-! ## Jobs (R25, R26) -/

/-- The live job that a handle names (R25). -/
def State.jobOf (s : State) (h : Handle) : Option Job :=
  let e := s.jobs[h.index]
  if e.generation = h.generation then e.job else none

/-- Change the live job that a handle names. -/
def State.modJob (s : State) (h : Handle) (f : Job → Job) : State :=
  match s.jobOf h with
  | none => s
  | some j => s.setJobEntry h.index ⟨h.generation, some (f j)⟩

/-- The live job named by a handle that may be absent. -/
def State.jobOfOpt (s : State) (h : Option Handle) : Option Job := h.bind s.jobOf

/-- The live jobs with their handles, in ascending index. -/
def State.liveJobs (s : State) : List (Handle × Job) :=
  tableIds.filterMap fun i => s.jobs[i].job.map fun j => (⟨i, s.jobs[i].generation⟩, j)

/-- The job's end reason is KILLED. -/
def Job.isKilled (j : Job) : Bool := decide (j.endReason = some .killed)

/-! ## Discs (R51, R52, R54) -/

/-- The entry of the disc record at a location. -/
def State.discIndexAt (s : State) (loc : Location) : Option TableId :=
  tableIds.find? fun i =>
    match s.discs[i] with
    | none => false
    | some d => decide (d.location = loc)

/-- The disc record at a location (R54). -/
def State.discAt (s : State) (loc : Location) : Option Disc := (s.discIndexAt loc).bind fun i => s.discs[i]

/-- Change the disc record at a location. -/
def State.modDiscAt (s : State) (loc : Location) (f : Disc → Disc) : State :=
  match s.discIndexAt loc with
  | none => s
  | some i => s.setDisc i (s.discs[i].map f)

/-- The entry of the disc record with a serial. -/
def State.discIndexOf (s : State) (serial : Word32) : Option TableId :=
  tableIds.find? fun i =>
    match s.discs[i] with
    | none => false
    | some d => decide (d.serial = serial)

/-- The disc record with a serial. -/
def State.discOf (s : State) (serial : Word32) : Option Disc := (s.discIndexOf serial).bind fun i => s.discs[i]

/-- The image slot of the job that a lane works for. -/
def State.laneImageId (s : State) (n : LaneId) : Option ImageId := (s.jobOfOpt s.lanes[n].job).map (·.image)

/-- The image of the job that a lane works for. -/
def State.laneImage (s : State) (n : LaneId) : Option ImageSlot := (s.laneImageId n).map fun i => s.images[i]

/-- The segment count of the image that a lane burns. -/
def State.laneSegments (s : State) (n : LaneId) : Nat := ((s.laneImage n).map (·.segments)).getD 0

/-- The job of the disc on the printer (R157). -/
def State.printerJob (s : State) : Option Job := s.jobOfOpt ((s.discAt .printer).bind (·.job))

/-- The job asks for a verify of this disc, or the disc's own flag does (R56, R79). -/
def verifyRequired (d : Disc) (j : Option Job) : Bool :=
  d.forced ||
    match j with
    | none => false
    | some j => decide (j.verify ≠ .none)

/-- The routing of a record (R60); none for a record that is not routed. -/
def State.routing (s : State) (d : Disc) : Option Destination :=
  let j := s.jobOfOpt d.job
  let onPath : Destination :=
    match d.location, j with
    | .tray _, some j => if j.artwork.isSome && !j.isKilled then .printer else .output
    | _, _ => .output
  match d.phase with
  | .failed => some .reject
  | .spare => some .reject
  | .passed => some onPath
  | .burned => if verifyRequired d j then none else some onPath
  | .printed => some .output
  | _ => none

/-- A record becomes FAILED for a reason; a record already FAILED keeps its own (R59). -/
def Disc.fail (d : Disc) (r : FailReason) : Disc :=
  if d.phase = .failed then d else { d with phase := .failed, reason := some r }

/-! ## Arm requests (R130) -/

/-- The next request takes the next age. -/
def State.passAge (s : State) : State := { s with nextAge := s.nextAge + 1 }

/-- Put a request at the tail of the arm request queue, WAITING. -/
def State.queueRequest (s : State) (kind : RequestKind) (n : Option LaneId) (cls : Option MediaClass) : State :=
  ((s.setRequests (s.requests ++ [(⟨kind, n, n, cls, s.nextAge, false, none⟩ : Request)])).passAge).oweSelect

/-- The request of a kind that names a lane. -/
def State.laneRequest (s : State) (kind : RequestKind) (n : LaneId) : Option Request :=
  s.requests.find? fun r => decide (r.kind = kind) && decide (r.lane = some n)

/-- Some request names the lane. -/
def State.hasRequest (s : State) (n : LaneId) : Bool := s.requests.any fun r => decide (r.lane = some n)

/-- Take a request out of the queue. -/
def State.dropRequest (s : State) (age : Nat) : State := s.setRequests (s.requests.filter fun r => decide (r.age ≠ age))

/-- Change a request of the queue. -/
def State.modRequest (s : State) (age : Nat) (f : Request → Request) : State :=
  s.setRequests (s.requests.map fun r => if r.age = age then f r else r)

/-- The request of the queue with an age. -/
def State.requestOf (s : State) (age : Nat) : Option Request := s.requests.find? fun r => decide (r.age = age)

/-- The request that the arm serves. -/
def State.served (s : State) : Option Request := s.arm.request.bind s.requestOf

/-- Queue an UNLOAD of a lane, unless a request already names the lane (R81, R86). -/
def State.queueUnload (s : State) (n : LaneId) : State :=
  if s.hasRequest n then s.oweSelect else s.queueRequest .unload (some n) none

/-! ## The start queue and the read channel (R98, R110) -/

/-- A lane joins the tail of the start queue. -/
def State.joinStartQueue (s : State) (n : LaneId) : State := (s.setStartQueue (s.startQueue ++ [n])).oweStart

/-- A lane leaves the start queue, if it is in it, other than by a start. -/
def State.leaveStartQueue (s : State) (n : LaneId) : State :=
  if s.startQueue.contains n then (s.setStartQueue (s.startQueue.filter fun m => decide (m ≠ n))).oweStart else s

/-- The transfer in flight loses its recipient if `p` holds of the recipient (R110). -/
def State.disown (s : State) (p : TransferTo → Bool) : State :=
  s.setChannel (s.channel.map fun t => if p t.recipient then { t with wanted := false } else t)

/-- The recipient is this lane. -/
def TransferTo.isLane (n : LaneId) : TransferTo → Bool
  | .lane m _ _ => decide (m = n)
  | _ => false

/-- The recipient is the Label Print Controller. -/
def TransferTo.isBand : TransferTo → Bool
  | .band _ _ _ _ => true
  | _ => false

/-- The recipient is the outbound stream of this port. -/
def TransferTo.isClient (p : Port) : TransferTo → Bool
  | .client q _ _ => decide (q = p)
  | _ => false

/-- A chunk in flight for the lane is dropped at its completion (R76, R110). -/
def State.dropLaneChunk (s : State) (n : LaneId) : State := s.disown (TransferTo.isLane n)

/-! ## The verify queue (R112, R113, R115) -/

/-- The entry is one of this lane. -/
def VerifyEntry.ofLane (n : LaneId) (e : VerifyEntry) : Bool :=
  match e.work with
  | .verify m _ => decide (m = n)
  | .source m _ => decide (m = n)
  | .bulk _ _ => false

/-- The entry loads this image slot. -/
def VerifyEntry.ofSlot (i : ImageId) (e : VerifyEntry) : Bool :=
  match e.work with
  | .verify _ _ => false
  | .source _ k => decide (k = i)
  | .bulk _ k => decide (k = i)

/-- An entry joins the tail of the verify queue (R113). -/
def State.joinVerifyQueue (s : State) (w : VerifyWork) : State := (s.setVerifyQueue (s.verifyQueue ++ [(⟨w, none⟩ : VerifyEntry)])).oweCrc

/-- Release the channel that an entry holds, if it holds one (R115). -/
def State.releaseChannel (s : State) (e : VerifyEntry) : State :=
  match e.channel with
  | none => s
  | some c => (s.setCrc c .free).oweCrc

/-- Release the channels of the entries of a list. -/
def State.releaseAll : List VerifyEntry → State → State
  | [], s => s
  | e :: rest, s => State.releaseAll rest (s.releaseChannel e)

/-- The entries of which `p` holds leave the verify queue, and their channels are released (R115). -/
def State.leaveVerifyQueue (s : State) (p : VerifyEntry → Bool) : State :=
  State.releaseAll (s.verifyQueue.filter p) (s.setVerifyQueue (s.verifyQueue.filter fun e => !p e))

/-- The running entry of a lane, and its channel. -/
def State.laneChannel (s : State) (n : LaneId) : Option (VerifyEntry × Fin 2) :=
  (s.verifyQueue.find? (VerifyEntry.ofLane n)).bind fun e => e.channel.map fun c => (e, c)

/-! ## Lanes -/

/-- A lane leaves its job: the job's lanes held falls by 1 and the lane's job field becomes absent (R45). -/
def State.laneLeavesJob (s : State) (n : LaneId) : State :=
  let s' : State := match s.lanes[n].job with
    | none => s
    | some h => s.modJob h fun j => { j with lanesHeld := j.lanesHeld - 1 }
  s'.modLane n fun l => { l with job := none }

/-- Send a tray command, or hold it back while another one is unanswered (R68, log 9). -/
def State.sendTray (s : State) (n : LaneId) (v : TrayCommand) : State :=
  if s.lanes[n].unanswered.isSome then s.modLane n fun l => { l with heldBack := some v }
  else
    (s.sendDrive n (match v with
      | .openTray => .trayOpen
      | .closeTray => .trayClose)).modLane n fun l => { l with unanswered := some v }

/-- The tray command held back is sent, once no other one is unanswered (R68, log 9). -/
def State.releaseTray (s : State) (n : LaneId) : State :=
  match s.lanes[n].unanswered, s.lanes[n].heldBack with
  | none, some v => (s.modLane n fun l => { l with heldBack := none }).sendTray n v
  | _, _ => s

/-- Send ABORT: it also ends the wait for the answer to a tray command (R68). -/
def State.sendAbort (s : State) (n : LaneId) : State :=
  (s.sendDrive n .abort).modLane n fun l => { l with unanswered := none, heldBack := none }

/-- The lane enters OPENING for a purpose (R73, R81, R90). -/
def State.enterOpening (s : State) (n : LaneId) (v : TrayPurpose) : State :=
  ((s.sendTray n .openTray).modLane n fun l => { l with state := .opening, purpose := some v }).startTimer n trayLimit

/-- The lane enters CLOSING for a purpose, or with none (R71, R74, R81, R91). -/
def State.enterClosing (s : State) (n : LaneId) (v : Option TrayPurpose) : State :=
  ((s.sendTray n .closeTray).modLane n fun l => { l with state := .closing, purpose := v }).startTimer n trayLimit

/-- The lane sends PROBE and enters PROBING (R71, R74). Its tray purpose becomes absent here. DESIGN CHOICE (log 32): no rule says
when a finished move's purpose does. -/
def State.enterProbing (s : State) (n : LaneId) : State :=
  ((s.sendDrive n .probe).modLane n fun l => { l with state := .probing, purpose := none }).startTimer n probeLimit

/-- The lane enters DONE: its timer stops and its UNLOAD is queued (R81). -/
def State.enterDone (s : State) (n : LaneId) : State :=
  (s.modLane n fun l => { l with state := .done, timer := none }).queueUnload n

/-- The lane enters FEED_WAIT and joins the tail of the start queue (R74, R45, R47). -/
def State.enterFeedWait (s : State) (n : LaneId) : State :=
  (s.modLane n fun l => { l with state := .feedWait }).joinStartQueue n

/-- The lane becomes IDLE, which owes a claim attempt (R46); its tray purpose becomes absent (log 32). -/
def State.enterIdle (s : State) (n : LaneId) : State :=
  (s.modLane n fun l => { l with state := .idle, purpose := none, timer := none }).oweClaim

/-- A failure is charged to the lane; at 3 the quarantine mark is set (R88). -/
def State.chargeLane (s : State) (n : LaneId) : State :=
  s.modLane n fun l =>
    { l with failCount := min 3 (l.failCount + 1), quarantine := l.quarantine || decide (3 ≤ l.failCount + 1) }

/-- A lane that carries the mark becomes OFFLINE and held, with LANE QUARANTINED (R89). Its tray purpose becomes absent here.
DESIGN CHOICE (log 32): R89 does not speak of the purpose. -/
def State.quarantineLane (s : State) (n : LaneId) : State :=
  (s.modLane n fun l => { l with state := .offline, held := true, purpose := none, timer := none }).raise .lane
    (.laneQuarantined n)

/-! ## Image slots -/

/-- A slot's pages return to the pool (R1). -/
def State.returnPages (s : State) (pages : List Extent) : State := s.setPool (s.pool ++ pages)

/-- The image slot becomes FREE and its pages return to the pool (R1, R3). -/
def State.freeImage (s : State) (i : ImageId) : State :=
  (s.returnPages s.images[i].pages).modImage i fun _ => ImageSlot.freed

/-- The artwork slot becomes FREE and its pages return to the pool (R1, R19). -/
def State.freeArtwork (s : State) (i : ArtworkId) : State :=
  (s.returnPages s.artworks[i].pages).modArtwork i fun _ => ArtworkSlot.freed

/-- An image slot's reference is released (R12). -/
def State.releaseImage (s : State) (i : ImageId) : State := s.modImage i fun v => { v with refcount := v.refcount - 1 }

/-- An artwork slot's reference is released (R12). -/
def State.releaseArtwork (s : State) (i : ArtworkId) : State := s.modArtwork i fun v => { v with refcount := v.refcount - 1 }

/-- A port's stream closes, which empties its staging area (R189). -/
def State.closeStream (s : State) (p : Port) : State := s.modPort p fun r => { r with stream := .none, staging := [] }

/-! ## The printer -/

/-- The printer enters TRAY_OUT: TRAY-OUT is sent and the timer runs with the tray limit (R159, R161, R169). -/
def State.enterTrayOut (s : State) : State :=
  (s.sendPrinter .trayOut).modPrinter fun v =>
    { v with state := .trayOut, timer := some (Timer.load printerTrayLimit), outDone := none }

/-- A disc held on the printer returns without a label (R161, R58). -/
def State.unprintedReturn (s : State) : State :=
  (s.modDiscAt .printer fun d => { d with phase := if d.verify = some .pass then .passed else .burned }).enterTrayOut

end Sys2Proof.Machine
end

