-- ==== Sys2Proof/Machine/DispatcherOps.lean ====
section
/-! DEFINITION. The Dispatcher's operations that several meanings share: a job's end, eligibility and claims, offers of blanks,
the handling of a draining job's lanes, result counting, and the closing of disc records (Jobs and Dispatch; The Disc Table). -/

namespace Sys2Proof.Machine

/-! ## A job's end (R27, R42) -/

/-- The result with which a drain ends (R42). -/
def drainResult : Option EndReason → JobResult
  | some .cancelled => .cancelled
  | some .killed => .killed
  | some .failLimit => .failed
  | none => .cancelled

/-- Every live job with a higher rank has its rank lowered by 1 (R27). -/
def State.lowerRanks (s : State) (rank : Nat) : State :=
  s.setJobs (s.jobs.map fun e =>
    { e with job := e.job.map fun j => if rank < j.rank then { j with rank := j.rank - 1 } else j })

/-- The ending step of a job: the ended notice, the entry freed with its generation raised, the references released (R42). -/
def State.endJob (s : State) (h : Handle) (result : JobResult) : State :=
  match s.jobOf h with
  | none => s
  | some j =>
    let s' := (s.notify j.owner (.jobEnded h result j.good j.failed j.spoiled)).setJobEntry h.index ⟨h.generation + 1, none⟩
    let s'' := (s'.lowerRanks j.rank).releaseImage j.image
    match j.artwork with
    | none => s''
    | some a => s''.releaseArtwork a

/-- A draining job with nothing in flight ends with its end reason (R40 step 3). -/
def State.drainCheck (s : State) (h : Handle) : State :=
  match s.jobOf h with
  | none => s
  | some j => if j.state = .draining && j.inFlight = 0 then s.endJob h (drainResult j.endReason) else s

/-! ## Eligibility and claims (R43, R44, R45) -/

/-- The bin serves as a source of blanks of the class: assigned to it, present and not in fault (R43, R131). -/
def BinRecord.serves (v : BinRecord) (cls : MediaClass) : Bool := decide (v.cls = cls) && v.present && !v.fault

/-- Some input bin of the class is usable (R43). -/
def State.binUsable (s : State) (cls : MediaClass) : Bool := s.binA.serves cls || s.binB.serves cls

/-- The drive's IDENT lists the class. -/
def Identity.lists (v : Identity) : MediaClass → Bool
  | .l => v.burnsL
  | .m => v.burnsM

/-- The blank is of the image's class and large enough for it (R43). -/
def blankFits (d : Disc) (v : ImageSlot) : Bool := d.cls.isSome && decide (d.cls = v.cls) && decide (v.segments ≤ d.capacity)

/-- The lane is free, as a SPARE lane, for a job of this image (R43). -/
def State.spareFree (s : State) (v : ImageSlot) (n : LaneId) : Bool :=
  decide (s.lanes[n].state = .spare) && s.lanes[n].job.isNone && !s.lanes[n].quarantine &&
    match s.discAt (.tray n) with
    | none => false
    | some d => blankFits d v

/-- The lane is free, as an IDLE lane, for a job of this image (R43). -/
def State.idleFree (s : State) (v : ImageSlot) (n : LaneId) : Bool :=
  decide (s.lanes[n].state = .idle) && s.lanes[n].job.isNone && !s.lanes[n].quarantine &&
    match v.cls, s.lanes[n].identity with
    | some cls, some id => id.lists cls && s.binUsable cls
    | _, _ => false

/-- The job's own conditions for a claim (R43). -/
def Job.wantsLane (j : Job) : Bool :=
  decide (j.state = .active) && decide (j.good + j.inFlight < j.copies) && decide (j.lanesHeld < j.laneLimit)

/-- The lane a claim for the job takes: the lowest free SPARE lane, else the lowest free IDLE lane (R44 step 2). -/
def State.laneFor (s : State) (j : Job) : Option LaneId :=
  match laneIds.find? (s.spareFree s.images[j.image]) with
  | some n => some n
  | none => laneIds.find? (s.idleFree s.images[j.image])

/-- The clients in the order in which they are looked at (R44 step 1). -/
def clientOrder (rotation : Port) : List Port :=
  match rotation with
  | 0 => [1, 2, 0]
  | 1 => [2, 0, 1]
  | 2 => [0, 1, 2]

/-- The job of lowest rank of a list. -/
def lowestRank : List (Handle × Job) → Option (Handle × Job)
  | [] => none
  | e :: rest =>
    match lowestRank rest with
    | none => some e
    | some e' => some (if e.2.rank ≤ e'.2.rank then e else e')

/-- The job chosen among those of which `ok` holds: the first client in rotation that owns one, and its job of lowest rank
(R44 step 1). -/
def State.chooseJob (s : State) (ok : Handle × Job → Bool) : Option (Handle × Job) :=
  (clientOrder s.rotation).findSome? fun p => lowestRank (s.liveJobs.filter fun e => decide (e.2.owner = p) && ok e)

/-- Make a claim of a lane for a job (R45). -/
def State.claim (s : State) (h : Handle) (j : Job) (n : LaneId) : State :=
  let s' := ((s.modJob h fun j => { j with lanesHeld := j.lanesHeld + 1, inFlight := j.inFlight + 1 }).modLane n
    fun l => { l with job := some h })
  if s.lanes[n].state = .spare then
    (s'.modDiscAt (.tray n) fun d => { d with job := some h, phase := .ready }).enterFeedWait n
  else (s'.modLane n fun l => { l with state := .awaitDisc }).queueRequest .feed (some n) s.images[j.image].cls

/-- One round of a claim attempt; none when no job is eligible (R44). -/
def State.claimOne (s : State) : Option State :=
  match s.chooseJob fun e => e.2.wantsLane && (s.laneFor e.2).isSome with
  | none => none
  | some (h, j) => (s.laneFor j).map fun n => (s.setRotation j.owner).claim h j n

/-- A claim attempt of at most `k` claims; each takes a lane, so eight rounds leave no job eligible (R44). -/
def State.claimRounds : Nat → State → State
  | 0, s => s
  | k + 1, s =>
    match s.claimOne with
    | none => s
    | some s' => State.claimRounds k s'

/-- A claim attempt (R44, R46). -/
def State.claimAttempt (s : State) : State := State.claimRounds 8 s

/-! ## Offers (R47) -/

/-- The job that takes the blank in a lane's tray when the job `h` gives it up (R47). -/
def State.offerTaker (s : State) (n : LaneId) (h : Handle) : Option (Handle × Job) :=
  match s.discAt (.tray n) with
  | none => none
  | some d =>
    if s.lanes[n].quarantine then none
    else s.chooseJob fun e => decide (e.1 ≠ h) && e.2.wantsLane && blankFits d s.images[e.2.image]

/-- Offer the blank in a lane's tray, given up by the job `h`: another job takes it, or it becomes a spare (R47). -/
def State.offerBlank (s : State) (n : LaneId) (h : Handle) : State :=
  let gone := s.modJob h fun j => { j with lanesHeld := j.lanesHeld - 1, inFlight := j.inFlight - 1 }
  let s' : State := match s.offerTaker n h with
    | some (h', j') =>
      let taken := (gone.modJob h' fun j => { j with lanesHeld := j.lanesHeld + 1, inFlight := j.inFlight + 1 }).modDiscAt
        (.tray n) fun d => { d with job := some h', phase := .ready }
      ((taken.modLane n fun l => { l with job := some h' }).setRotation j'.owner).enterFeedWait n
    | none =>
      (gone.modDiscAt (.tray n) fun d => { d with job := none, phase := .spare }).modLane n
        fun l => { l with job := none, state := .spare }
  (s'.drainCheck h).oweClaim

/-! ## A draining job's lanes (R36, R38) -/

/-- A lane in AWAIT_DISC whose FEED is WAITING: the FEED is withdrawn, the claim ends, the lane becomes IDLE (R36). -/
def State.withdrawClaim (s : State) (h : Handle) (n : LaneId) : State :=
  match s.laneRequest .feed n with
  | none => s
  | some r =>
    if r.taken then s
    else (((s.dropRequest r.age).modJob h fun j => { j with inFlight := j.inFlight - 1 }).laneLeavesJob n).enterIdle n

/-- What entering DRAINING with reason CANCELLED or FAIL_LIMIT does to one lane (R36). -/
def State.drainLane (s : State) (h : Handle) (n : LaneId) : State :=
  if s.lanes[n].job = some h then
    match s.lanes[n].state with
    | .awaitDisc => s.withdrawClaim h n
    | .feedWait => (s.leaveStartQueue n).offerBlank n h
    | _ => s
  else s

/-- The disc in a lane's tray fails with reason KILLED and the lane goes to DONE (R38). -/
def State.killDisc (s : State) (n : LaneId) : State := (s.modDiscAt (.tray n) fun d => d.fail .killed).enterDone n

/-- What an end reason KILLED does to one lane (R38, R123). -/
def State.killLane (s : State) (h : Handle) (n : LaneId) : State :=
  if s.lanes[n].job = some h then
    match s.lanes[n].state with
    | .burning => (((s.sendAbort n).dropLaneChunk n).killDisc n).oweStart
    | .verifyWait => (s.leaveVerifyQueue (VerifyEntry.ofLane n)).killDisc n
    | .verifying => ((s.sendAbort n).leaveVerifyQueue (VerifyEntry.ofLane n)).killDisc n
    | .done => s.oweSelect
    | _ => s.drainLane h n
  else s

/-- Apply a handling of lanes to the lanes of a list in turn. -/
def State.forLanes (f : State → LaneId → State) : List LaneId → State → State
  | [], s => s
  | n :: rest, s => State.forLanes f rest (f s n)

/-- A disc of the killed job that the printer holds in INK_HOLD returns unprinted (R161). -/
def State.killAtPrinter (s : State) (h : Handle) : State :=
  if s.printer.state = .inkHold && ((s.discAt .printer).bind (·.job)) = some h then s.unprintedReturn else s

/-- The job enters DRAINING for a reason (or changes its reason to KILLED) and its lanes and blanks are handled: R36, R38. -/
def State.drainLanes (s : State) (h : Handle) (reason : EndReason) : State :=
  let s' := s.modJob h fun j => { j with state := .draining, endReason := some reason }
  match reason with
  | .killed => (State.forLanes (fun t n => t.killLane h n) laneIds s').killAtPrinter h
  | _ => State.forLanes (fun t n => t.drainLane h n) laneIds s'

/-- A drain from its beginning: the lanes are handled, then the job ends at once if nothing is in flight, or its owner is told
that it is draining (R35, R37, R41). -/
def State.drainJob (s : State) (h : Handle) (reason : EndReason) : State :=
  let s' := s.drainLanes h reason
  match s'.jobOf h with
  | none => s'
  | some j => if j.inFlight = 0 then s'.drainCheck h else s'.notify j.owner (.jobDraining h reason)

/-! ## Result counting (R40, R41) -/

/-- The counts of a job after one of its disc records has closed (R40). -/
def Job.count (j : Job) (fate : Option Fate) (reason : Option FailReason) : Job :=
  let j' := { j with inFlight := j.inFlight - 1 }
  match fate, reason with
  | some .output, _ => { j' with good := j'.good + 1 }
  | some .reject, some .wrongMedia => { j' with spoiled := min 65535 (j'.spoiled + 1) }
  | some .reject, some .tooSmall => { j' with spoiled := min 65535 (j'.spoiled + 1) }
  | _, _ => { j' with failed := min 65535 (j'.failed + 1) }

/-- The checks after a closing, in order (R40 steps 1 to 4, R41). -/
def State.closingChecks (s : State) (h : Handle) : State :=
  let s' : State := match s.jobOf h with
    | none => s
    | some j =>
      if j.state = .draining then s.drainCheck h
      else if j.good = j.copies then s.endJob h .done
      else if j.failLimit ≠ 0 && j.failLimit ≤ j.failed then s.drainJob h .failLimit
      else s
  s'.oweClaim

/-- The Disc Tracker reports the closing of a record of the job (R40). -/
def State.reportClosing (s : State) (h : Handle) (fate : Option Fate) (reason : Option FailReason) : State :=
  (s.modJob h fun j => j.count fate reason).closingChecks h

/-- Close a disc record: with a fate, or without one for the reason given, which replaces any earlier one. The DISC notice goes
to the owner of the job the record carries, then the Dispatcher is told; a record with no job raises no notice (R62, R63,
R64). -/
def State.closeDisc (s : State) (i : TableId) (fate : Option Fate) (why : Option FailReason) : State :=
  match s.discs[i] with
  | none => s
  | some d =>
    let d' := { d with fate := fate, reason := if why.isSome then why else d.reason }
    let s' := s.setDisc i none
    match d.job with
    | none => s'
    | some h =>
      match s'.jobOf h with
      | none => s'
      | some j => (s'.notify j.owner (.disc h d')).reportClosing h fate d'.reason

/-- Close the disc record at a location. -/
def State.closeDiscAt (s : State) (loc : Location) (fate : Option Fate) (why : Option FailReason) : State :=
  match s.discIndexAt loc with
  | none => s
  | some i => s.closeDisc i fate why

end Sys2Proof.Machine
end

