-- ==== Sys2Proof/Machine/ImageOps.lean ====
section
/-! DEFINITION. The Image Memory Manager's operations that several meanings share: acceptance, end and failure of loads, and the
end of an outbound stream (Image Memory, R4 to R10, R18, R20 to R24; R29). -/

namespace Sys2Proof.Machine

/-- The pages counted as available for a load into an image slot (R2). -/
def State.pagesForImage (s : State) (i : ImageId) : Nat :=
  pagesIn s.pool + if s.images[i].state = .ready then pagesIn s.images[i].pages else 0

/-- The pages counted as available for a load into an artwork slot (R2). -/
def State.pagesForArtwork (s : State) (i : ArtworkId) : Nat :=
  pagesIn s.pool + if s.artworks[i].state = .ready then pagesIn s.artworks[i].pages else 0

/-- The effects of an accepted image load on the slot and the pool: a READY slot is replaced, with IMAGE DELETED to the old
owner; the pages are taken after the old ones have returned (R2, R4, R5, R8). The bytes of the pages taken stay as they are, so a
digest entry not yet written reads as the bytes an earlier holder left. DESIGN CHOICE (log 33): R11 gives it no value. -/
def State.acceptImageLoad (s : State) (i : ImageId) (p : Port) (source : LoadSource) (cls : MediaClass) (size : Nat)
    (noExport : Bool) : State :=
  let old := s.images[i]
  let s' : State := if old.state = .ready then (s.returnPages old.pages).notifyOpt old.owner (.image i .deleted) else s
  let (taken, left) := takePages s'.pool (imagePages size)
  (s'.setPool left).modImage i fun v =>
    { v with
      state := .loadWait, owner := some p, source := some source, cls := some cls, size := size
      segments := segmentCount size, pages := taken, received := 0, isProtected := false
      noExport := v.noExport || noExport }

/-- QUEUED jobs that name the slot become ACTIVE, those with the ranks of a list in turn (R29). -/
def State.activateRanks (i : ImageId) : List Nat → State → State
  | [], s => s
  | r :: rest, s =>
    match s.liveJobs.find? fun e => decide (e.2.rank = r) && decide (e.2.image = i) && decide (e.2.state = .queued) with
    | none => State.activateRanks i rest s
    | some (h, j) =>
      State.activateRanks i rest
        (((s.modJob h fun j => { j with state := .active }).notify j.owner (.jobActive h)).oweClaim)

/-- The Dispatcher is told that an image slot is READY (R29). -/
def State.imageReady (s : State) (i : ImageId) : State := State.activateRanks i (List.range 16) s

/-- The lane of a SOURCE load is told that the load has ended: it returns to MASTER, unless it is faulting; ABORT is sent when
its reads are stopped early (R10 step 3, R83, R84). -/
def State.sourceLaneEnds (s : State) (n : LaneId) (early : Bool) : State :=
  match s.lanes[n].state with
  | .sourceWait => s.modLane n fun l => { l with state := .master, timer := none }
  | .sourceRead =>
    (if early then s.sendAbort n else s).modLane n fun l => { l with state := .master, timer := none }
  | _ => s

/-- The source of a load is told that it has ended: the owner's stream closes, or the lane returns to MASTER (R7, R9, R10). -/
def State.loadSourceEnds (s : State) (v : ImageSlot) (early : Bool) : State :=
  match v.source with
  | none => s
  | some .stream =>
    match v.owner with
    | none => s
    | some p => s.closeStream p
  | some (.lane n) => s.sourceLaneEnds n early

/-- An image load ends: the slot becomes READY, its channel is released, its stream closes or its lane returns, IMAGE READY is
queued, and waiting jobs become ACTIVE (R7, R9). -/
def State.finishImageLoad (s : State) (i : ImageId) : State :=
  let v := s.images[i]
  let s' := (s.modImage i fun v => { v with state := .ready, source := none }).leaveVerifyQueue (VerifyEntry.ofSlot i)
  ((s'.loadSourceEnds v false).notifyOpt v.owner (.image i .ready)).imageReady i

/-- The jobs of a list of entries that name the image slot end with result IMAGE_FAILED (R10 step 4). -/
def State.failJobsOf (i : ImageId) : List TableId → State → State
  | [], s => s
  | k :: rest, s =>
    State.failJobsOf i rest
      (match s.jobs[k].job with
        | none => s
        | some j => if j.image = i then s.endJob ⟨k, s.jobs[k].generation⟩ .imageFailed else s)

/-- An image load fails, as one event; nothing happens to a slot that is not loading (R10). -/
def State.failImageLoad (s : State) (i : ImageId) : State :=
  let v := s.images[i]
  if v.state = .loadWait || v.state = .loading then
    let s' := (s.leaveVerifyQueue (VerifyEntry.ofSlot i)).loadSourceEnds v true
    ((State.failJobsOf i tableIds s').freeImage i).notifyOpt v.owner (.image i .failed)
  else s

/-- An artwork load fails, as one event; nothing happens to a slot that is not LOADING (R22). -/
def State.failArtworkLoad (s : State) (i : ArtworkId) : State :=
  let v := s.artworks[i]
  if v.state = .loading then
    let s' : State := match v.owner with
      | none => s
      | some p => s.closeStream p
    (s'.freeArtwork i).notifyOpt v.owner (.artwork i .failed)
  else s

/-- The image load that a lane is the source of. -/
def State.sourceSlotOf (s : State) (n : LaneId) : Option ImageId :=
  imageIds.find? fun i => decide (s.images[i].source = some (.lane n))

/-- A port's outbound stream is ended by a reset: its reference is released at once, or at the completion of its chunk in flight,
which is then discarded (R18, R110). -/
def State.endOutbound (s : State) (p : Port) : State :=
  match s.ports[p].stream with
  | .outbound slot _ _ =>
    let s' := s.closeStream p
    match s.channel with
    | some t => if t.recipient.isClient p && t.wanted then s'.disown (TransferTo.isClient p) else s'.releaseImage slot
    | none => s'.releaseImage slot
  | _ => s

/-- The image loads of the slots of a list fail. -/
def State.failImageLoads : List ImageId → State → State
  | [], s => s
  | i :: rest, s => State.failImageLoads rest (s.failImageLoad i)

/-- The artwork loads of the slots of a list fail. -/
def State.failArtworkLoads : List ArtworkId → State → State
  | [], s => s
  | i :: rest, s => State.failArtworkLoads rest (s.failArtworkLoad i)

/-- The outbound streams of the ports of a list end. -/
def State.endOutbounds : List Port → State → State
  | [], s => s
  | p :: rest, s => State.endOutbounds rest (s.endOutbound p)

end Sys2Proof.Machine
end

