-- ==== Sys2Proof/Machine/LaneOps.lean ====
section
/-! DEFINITION. The lanes' operations that several meanings share: a lane fault and its effects on claims and discs, the fault
unload, what the Media Handler tells a lane, and a disc lost on the arm (Drive Lanes, R86 to R89; Media Handling, R142). -/

namespace Sys2Proof.Machine

/-- A lane's claim ends before its disc is picked: its FEED is withdrawn, or keeps its place with its lane absent while the arm
serves it; in-flight and lanes held fall; the drain check follows (R48, R139). -/
def State.claimEnds (s : State) (n : LaneId) : State :=
  let s' : State := match s.laneRequest .feed n with
    | none => s
    | some r =>
      if r.taken && decide (s.arm.request = some r.age) then s.modRequest r.age fun r => { r with lane := none }
      else s.dropRequest r.age
  match s.lanes[n].job with
  | none => s'
  | some h =>
    (((s'.modJob h fun j => { j with inFlight := j.inFlight - 1 }).laneLeavesJob n).drainCheck h).oweClaim

/-- A lane faults while its fed disc is on the arm and the PLACE at its tray is not yet issued: the disc becomes FAILED and goes
to the reject bin (R87, third row). The FEED's lane becomes absent (log 11). -/
def State.divertFeed (s : State) (n : LaneId) (r : Request) : State :=
  (((s.modDiscAt .arm fun d => { d.fail .laneFault with destination := some .reject }).laneLeavesJob n).modRequest r.age
    fun r => { r with lane := none }).oweArm

/-- The fault unload opens the tray for PICK, or finds it open (R87). It ends an operator's move that was accepted while the PLACE
ran (R90, R91): the timer stops or is loaded anew, and a tray command held back for that move is not sent any more (log 22). -/
def State.faultUnload (s : State) (n : LaneId) : State :=
  if s.lanes[n].report = some .opened then
    (s.modLane n fun l =>
      { l with purpose := some .pick, faultMove := some .unloadOpen, timer := none, heldBack := none }).oweArm
  else
    ((s.sendTray n .openTray).modLane n
      fun l => { l with purpose := some .pick, faultMove := some .unloadOpening }).startTimer n trayLimit

/-- The PLACE at the lane's tray is running (R87, fourth row). -/
def State.placingAt (s : State) (n : LaneId) : Bool :=
  decide (s.arm.step = some .place) && decide (s.arm.position = .known (.tray n))

/-- What a fault does to the lane's claim and to a disc that is coming or going (R87), from where the lane stood. With a disc picked,
R87 and R135 tell a PLACE not yet issued from one that is running. A PLACE that an arm fault has ended, with the disc still in the
grip, counts as not issued, and the disc is diverted: DESIGN CHOICE (log 38). -/
def State.faultClaim (s : State) (n : LaneId) (stood : LaneState) (purpose : Option TrayPurpose) : State :=
  match stood, purpose with
  | .awaitDisc, _ => s.claimEnds n
  | .opening, some .pick => s.faultUnload n
  | .opened, some .pick => (s.modLane n fun l => { l with faultMove := some .unloadOpen }).oweArm
  | .opening, some .place | .opened, some .place =>
    match s.laneRequest .feed n with
    | none => s
    | some r =>
      match r.disc with
      | none => s.claimEnds n
      | some _ => if s.placingAt n then s else s.divertFeed n r
  | _, _ => s

/-- A disc in the tray that is not FAILED becomes FAILED with reason LANE_FAULT; a destination already fixed becomes REJECT; the
failure is charged to the lane (R61, R86 step 3, R88). -/
def State.failTrayDisc (s : State) (n : LaneId) : State :=
  match s.discAt (.tray n) with
  | none => s
  | some d =>
    if d.phase = .failed then s
    else
      ((s.modDiscAt (.tray n) fun d =>
        { d.fail .laneFault with destination := d.destination.map fun _ => .reject }).chargeLane n).oweSelect

/-- The serial of the disc in the tray, if it is not FAILED yet. -/
def State.unfailedSerial (s : State) (n : LaneId) : Option Word32 :=
  match s.discAt (.tray n) with
  | none => none
  | some d => if d.phase = .failed then none else some d.serial

/-- Steps 4 to 6 of a lane fault: the queues it stands in, the chunk in flight, the SOURCE load, the UNLOAD (R86). -/
def State.faultQueues (s : State) (n : LaneId) (stood : LaneState) : State :=
  let a := ((s.leaveStartQueue n).leaveVerifyQueue (VerifyEntry.ofLane n)).dropLaneChunk n
  let b := if stood = .burning then a.oweStart else a
  let c : State := match b.sourceSlotOf n with
    | none => b
    | some i => b.failImageLoad i
  if (c.discAt (.tray n)).isSome then c.queueUnload n else c

/-- A lane fault, as one event (R86, R87). -/
def State.laneFault (s : State) (n : LaneId) (cause : LaneCause) : State :=
  let stood := s.lanes[n].state
  let purpose := s.lanes[n].purpose
  let serial := s.unfailedSerial n
  let a := (s.sendAbort n).modLane n fun l => { l with state := .fault, timer := none, faultMove := none }
  (((a.failTrayDisc n).faultQueues n stood).raise .lane (.laneFault n cause serial)).faultClaim n stood purpose

/-- The tray of a faulted lane has failed to open: the UNLOAD is dropped, the arm is released, the record closes STUCK (R87,
R139). The drive still owes the answer to a TRAY-OPEN sent (R68). An arm that is HELD when its UNLOAD is dropped stays HELD until
the door closes and becomes IDLE then (log 35); the tray purpose stays PICK (log 32). -/
def State.stuck (s : State) (n : LaneId) : State :=
  let a := s.modLane n fun l => { l with timer := none, faultMove := none, heldBack := none }
  let b : State := match a.laneRequest .unload n with
    | none => a
    | some r =>
      let t := a.dropRequest r.age
      if t.arm.request = some r.age then (t.modArm fun v => { v with request := none }).oweArm else t
  (b.laneLeavesJob n).closeDiscAt (.tray n) none (some .stuck)

/-- An ERROR, or a message found malformed, in the column of the lane's state (R69, R194). -/
def State.laneError (s : State) (n : LaneId) (code : Byte) : State :=
  match s.lanes[n].state with
  | .offline => s
  | .fault => if s.lanes[n].faultMove = some .unloadOpening then s.stuck n else s
  | _ => s.laneFault n (.error code)

/-- The PLACE completes at a lane that faulted while it ran and has left FAULT since: the disc fails and its UNLOAD is queued (R87,
fourth row). The lane becomes DONE, the one state outside FAULT whose tray holds a FAILED record in the table of lane states;
a source load that it has begun fails, and start-up is cleared: DESIGN CHOICE (log 22). -/
def State.placedAfterFault (s : State) (n : LaneId) : State :=
  let a : State := match s.sourceSlotOf n with
    | none => s
    | some i => s.failImageLoad i
  ((a.modLane n fun l => { l with startUp := false, heldBack := none }).failTrayDisc n).enterDone n

/-- The Media Handler tells the lane that the PLACE at its tray has completed (R74); a lane that faulted while it ran fails the disc
and queues its UNLOAD (R87). -/
def State.lanePlaced (s : State) (n : LaneId) : State :=
  match s.lanes[n].state, s.lanes[n].purpose with
  | .opened, some .place => s.enterClosing n (some .place)
  | .fault, _ => (s.failTrayDisc n).queueUnload n
  | _, _ => s.placedAfterFault n

/-- The Media Handler tells the lane that the PICK at its tray has completed (R81, R87). -/
def State.lanePicked (s : State) (n : LaneId) : State :=
  let s' := s.laneLeavesJob n
  match s.lanes[n].state with
  | .opened => s'.enterClosing n (some .pick)
  | .fault =>
    ((s'.sendTray n .closeTray).modLane n fun l => { l with faultMove := some .unloadClosing }).startTimer n trayLimit
  | _ => s'

/-- The lane that waits for the disc of a FEED ends its part, because the disc has gone (R142, R45). A lane in another state, which
is one that faulted while its PLACE was running (R87), only stops working for its job, if it still does (log 31). -/
def State.feedDiscGone (s : State) (n : LaneId) : State :=
  match s.lanes[n].state, s.lanes[n].purpose with
  | .opened, some .place => (s.laneLeavesJob n).enterClosing n none
  | .opening, some .place => (s.laneLeavesJob n).modLane n fun l => { l with purpose := none }
  | _, _ => s.laneLeavesJob n

/-- The record on the arm closes with reason LOST; a FEED it was picked for leaves the queue and its lane ends its part (R141,
R142). -/
def State.loseArmDisc (s : State) : State :=
  match s.discAt .arm with
  | none => s
  | some d =>
    let s' : State := match s.requests.find? fun r => decide (r.disc = some d.serial) with
      | none => s
      | some r =>
        let t := (s.dropRequest r.age).modArm fun v => { v with request := if v.request = some r.age then none else v.request }
        match r.lane with
        | none => t
        | some n => t.feedDiscGone n
    s'.closeDiscAt .arm none (some .lost)

end Sys2Proof.Machine
end

