-- ==== Sys2Proof/Machine/VerifyOps.lean ====
section
/-! DEFINITION. The Verify Engine's operations: grants of CRC channels, READs, and the ends of a verify (Verification, R114, R119
to R122; R84). -/

namespace Sys2Proof.Machine

/-- Send READ for each index of a list (R80, R84). -/
def State.sendReads (n : LaneId) : List Nat → State → State
  | [], s => s
  | i :: rest, s => State.sendReads n rest (s.sendDrive n (.read i))

/-- The indices at positions `from_`, `from_ + 1`, ... of a verify set, `k` of them. -/
def setIndices (v : VerifySet) (first k : Nat) : List Nat := (List.range k).map fun p => v.index (first + p)

/-- The verify set of the disc that an entry names, from its record and its job as they stand (R119). -/
def State.verifySetFor (s : State) (serial : Word32) : VerifySet :=
  match s.discOf serial with
  | none => ⟨0, none⟩
  | some d =>
    match s.jobOfOpt d.job with
    | none => ⟨0, none⟩
    | some j => verifySetOf d.forced j.verify s.images[j.image].segments

/-- The slot of a load that waits in LOAD_WAIT becomes LOADING (R6, R9). -/
def State.loadBegins (s : State) (i : ImageId) : State :=
  s.modImage i fun v => if v.state = .loadWait then { v with state := .loading } else v

/-- A granted channel starts the entry's work (R114). -/
def State.startWork (s : State) (c : Fin 2) (w : VerifyWork) : State :=
  match w with
  | .verify n serial =>
    let v := s.verifySetFor serial
    let k := min readsOutstanding v.size
    let first := setIndices v 0 k
    let a := (s.setCrc c (.verify v k first 0)).modLane n fun l => { l with state := .verifying }
    State.sendReads n first
      ((a.modDiscAt (.tray n) fun d => { d with phase := .verifying }).startTimer n readLimit)
  | .source n slot =>
    let k := min readsOutstanding s.images[slot].segments
    let first := List.range k
    let a := (s.setCrc c (.source k first 0)).modLane n fun l => { l with state := .sourceRead }
    State.sendReads n first
      ((a.loadBegins slot).startTimer n readLimit)
  | .bulk _ slot =>
    (s.setCrc c (.bulk 0 0 crcStart)).loadBegins slot

/-- The lowest FREE channel (R114). -/
def State.freeChannel (s : State) : Option (Fin 2) :=
  if s.crc[(0 : Fin 2)] = .free then some 0 else if s.crc[(1 : Fin 2)] = .free then some 1 else none

/-- The oldest waiting entry of a queue takes a channel; the queue with it running, and its work. -/
def grantOldest (c : Fin 2) : List VerifyEntry → Option (List VerifyEntry × VerifyWork)
  | [] => none
  | e :: rest =>
    if e.channel.isNone then some ({ e with channel := some c } :: rest, e.work)
    else (grantOldest c rest).map fun (q, w) => (e :: q, w)

/-- Grant at most `k` channels, each to the oldest waiting entry (R114). -/
def State.crcRounds : Nat → State → State
  | 0, s => s
  | k + 1, s =>
    match s.freeChannel with
    | none => s
    | some c =>
      match grantOldest c s.verifyQueue with
      | none => s
      | some (q, w) => State.crcRounds k ((s.setVerifyQueue q).startWork c w)

/-- Grant the CRC channels that are FREE (R114): there are two. -/
def State.crcGrants (s : State) : State := State.crcRounds 2 s

/-- A verify ends with a FAIL: the result, ABORT, DONE with the failure charged, and the channel released (R121). -/
def State.verifyFails (s : State) (n : LaneId) (result : VerifyResult) (reason : FailReason) : State :=
  let a := s.modDiscAt (.tray n) fun d => { d.fail reason with verify := some result }
  (((a.sendAbort n).enterDone n).chargeLane n).leaveVerifyQueue (VerifyEntry.ofLane n)

/-- A verify ends with a PASS: the result, DONE with the fail count 0, and the channel released (R122). -/
def State.verifyPasses (s : State) (n : LaneId) : State :=
  let a := s.modDiscAt (.tray n) fun d => { d with verify := some .pass, phase := .passed }
  ((a.enterDone n).modLane n fun l => { l with failCount := 0 }).leaveVerifyQueue (VerifyEntry.ofLane n)

/-- The image that a lane's verify compares against: that of the job of the disc in its tray (R112). -/
def State.verifyImage (s : State) (n : LaneId) : Option ImageSlot :=
  (s.jobOfOpt ((s.discAt (.tray n)).bind (·.job))).map fun j => s.images[j.image]

/-- Digest entry `i` of an image (R11). -/
def State.digest (s : State) (v : ImageSlot) (i : Nat) : Word32 :=
  BitVec.ofNat 32 (leNat (readSlot s.mem v.pages (digestOffset v.size i) 4))

/-- Store digest entry `i` of an image (R11, R116). -/
def State.storeDigest (s : State) (v : ImageSlot) (i : Nat) (crc : Word32) : State :=
  s.setMem (writeSlot s.mem v.pages (digestOffset v.size i) (leBytes 4 crc.toNat))

end Sys2Proof.Machine
end

