-- ==== Sys2Proof/Machine/FeedOps.lean ====
section
/-! DEFINITION. The Feed Arbiter's operations: the start computation and the choice of a grant of the read channel (Feed
Scheduling, R96 to R109; R75, R76). -/

namespace Sys2Proof.Machine

/-! ## The start computation -/

/-- Demand of a lane: that of the class and speed of the disc in its tray while it is BURNING, else 0 (R97). -/
def State.laneDemand (s : State) (n : LaneId) : Nat :=
  if s.lanes[n].state = .burning then
    match s.discAt (.tray n) with
    | none => 0
    | some d =>
      match d.cls, d.speed with
      | some cls, some v => demandOf cls v
      | _, _ => 0
  else 0

/-- The burning sum (R96). -/
def State.burningSum (s : State) : Nat := (laneIds.map s.laneDemand).foldl (· + ·) 0

/-- The available rate; negative when the budget has been lowered (R96). -/
def State.availableRate (s : State) : Int := (s.budget : Int) - (printReserve : Int) - (s.burningSum : Int)

/-- The speed at which the lane can start now, if there is one (R99, R100). -/
def State.laneStartSpeed (s : State) (n : LaneId) : Option Nat :=
  match (s.discAt (.tray n)).bind (·.cls), s.jobOfOpt s.lanes[n].job with
  | some cls, some j =>
    startSpeed cls (candidateSpeeds s.lanes[n].blankSpeeds j.speedMin j.speedMax) s.availableRate
  | _, _ => none

/-- Start a lane at a speed, as one event (R75). -/
def State.startLane (s : State) (n : LaneId) (speed : Nat) : State :=
  let a := s.sendDrive n (.startWrite speed (s.laneSegments n))
  let b := a.modLane n fun l =>
    { l with
      state := .burning, granted := 0, sent := 0, committed := 0, credits := (l.identity.map (·.buffer)).getD 0
      timer := some (Timer.load burnLimit) }
  (b.modDiscAt (.tray n) fun d => { d with phase := .burning, speed := some speed }).oweGrant

/-- One scan of a start queue from its head; it stops at the first lane that cannot start (R100). -/
def State.startScan : List LaneId → State → State
  | [], s => s
  | n :: rest, s =>
    match s.laneStartSpeed n with
    | none => s
    | some v => State.startScan rest ((s.setStartQueue rest).startLane n v)

/-- The start computation (R100, R101). -/
def State.startComputation (s : State) : State := State.startScan s.startQueue s

/-! ## The read channel -/

/-- The lane is eligible for a grant (R105). -/
def State.laneEligible (s : State) (n : LaneId) : Bool :=
  decide (s.lanes[n].state = .burning) && decide (1 ≤ s.lanes[n].credits) && decide (s.lanes[n].granted < s.laneSegments n)

/-- Slack of a lane (R106). -/
def State.laneSlack (s : State) (n : LaneId) : Nat :=
  slackOf ((s.lanes[n].identity.map (·.buffer)).getD 0) s.lanes[n].credits (s.laneDemand n)

/-- The lane of least slack of a list, the first among equals. -/
def State.leastSlack (s : State) : List LaneId → Option LaneId
  | [] => none
  | n :: rest =>
    match s.leastSlack rest with
    | none => some n
    | some m => some (if s.laneSlack n ≤ s.laneSlack m then n else m)

/-- The eligible lanes that are critical (R106). -/
def State.criticalLanes (s : State) : List LaneId :=
  laneIds.filter fun n => s.laneEligible n && decide (s.laneSlack n < criticalSlack)

/-- The eligible lanes that are not critical. -/
def State.calmLanes (s : State) : List LaneId :=
  laneIds.filter fun n => s.laneEligible n && !decide (s.laneSlack n < criticalSlack)

/-- The fetch request is urgent (R105). -/
def State.fetchUrgent (s : State) : Bool := decide (s.printer.state = .bandWait)

/-- A requester of the read channel (R105). -/
inductive Requester where
  | lane (n : LaneId)
  | band (r : FetchRequest)
  | client (p : Port) (slot : ImageId) (chunk : Nat)
  deriving DecidableEq, Repr

/-- The fetch request as a requester, if it is urgent (`true`) or a prefetch (`false`). -/
def State.fetchRequester (s : State) (urgent : Bool) : Option Requester :=
  if s.fetchUrgent = urgent then s.printer.request.map .band else none

/-- The outbound stream of a port as a requester, if it is eligible (R105). -/
def State.clientRequester (s : State) (p : Port) : Option Requester :=
  match s.ports[p].stream with
  | .outbound slot position [] =>
    if position < s.images[slot].size then some (.client p slot (position / segmentBytes)) else none
  | _ => none

/-- The first eligible requester in the order of service (R107). -/
def State.chooseRequester (s : State) : Option Requester :=
  match s.leastSlack s.criticalLanes with
  | some n => some (.lane n)
  | none =>
    match s.fetchRequester true with
    | some r => some r
    | none =>
      match s.leastSlack s.calmLanes with
      | some n => some (.lane n)
      | none =>
        match s.fetchRequester false with
        | some r => some r
        | none => portIds.findSome? s.clientRequester

/-- Grant the read channel to a requester (R109). -/
def State.grantTo (s : State) (r : Requester) : State :=
  match r with
  | .lane n =>
    match s.laneImageId n with
    | none => s
    | some slot =>
      (s.setChannel (some ⟨.lane n slot s.lanes[n].granted, true⟩)).modLane n
        fun l => { l with granted := l.granted + 1, credits := l.credits - 1 }
  | .band f =>
    (s.setChannel (some ⟨.band f.slot f.band f.quarter f.buffer, true⟩)).modPrinter fun v => { v with request := none }
  | .client p slot chunk => s.setChannel (some ⟨.client p slot chunk, true⟩)

/-- Choose a grant while the channel is IDLE (R108). -/
def State.chooseGrant (s : State) : State :=
  if s.channel.isSome then s
  else
    match s.chooseRequester with
    | none => s
    | some r => s.grantTo r

end Sys2Proof.Machine
end

