-- ==== Sys2Proof/Machine/PrinterOps.lean ====
section
/-! DEFINITION. The Label Print Controller's operations that several meanings share: the ink check, band fetching, band starts,
label completion, tray moves and faults (Label Printing, R159 to R172). -/

namespace Sys2Proof.Machine

/-- A band buffer of the printer. -/
def Printer.buffer (v : Printer) : BufferId → BandBuffer
  | .a => v.bufferA
  | .b => v.bufferB

/-- Change a band buffer of the printer. -/
def Printer.setBuffer (v : Printer) (which : BufferId) (x : BandBuffer) : Printer :=
  match which with
  | .a => { v with bufferA := x }
  | .b => { v with bufferB := x }

/-- The disc on the printer is in its print sequence, so bands are fetched (R163). -/
def PrinterState.fetches : PrinterState → Bool
  | .trayIn | .fetchWait | .printing | .bandWait | .thermalPause => true
  | .empty | .inkHold | .trayOut | .finished | .fault => false

/-- The artwork slot of the job of the disc on the printer (R157). -/
def State.printerArtworkId (s : State) : Option ArtworkId := s.printerJob.bind (·.artwork)

/-- Band count of the label in hand. -/
def State.labelBands (s : State) : Nat := (s.printerArtworkId.map fun a => s.artworks[a].bands).getD 0

/-- Ink costs of the label in hand (R160). -/
def State.labelCosts (s : State) : Ink := (s.printerArtworkId.map fun a => s.artworks[a].costs).getD ⟨0, 0, 0, 0⟩

/-! ## Fetching (R163) -/

/-- A quarter of artwork is in flight on the read channel. -/
def State.quarterInFlight (s : State) : Bool :=
  match s.channel with
  | none => false
  | some t => t.recipient.isBand

/-- The buffer that is FILLING with a band, and its quarters filled. -/
def Printer.fillingWith (v : Printer) (band : Nat) : Option (BufferId × Nat) :=
  match v.bufferA.state, v.bufferB.state with
  | .filling f q, st =>
    if f = band then some (.a, q)
    else
      match st with
      | .filling f' q' => if f' = band then some (.b, q') else none
      | _ => none
  | _, .filling f q => if f = band then some (.b, q) else none
  | _, _ => none

/-- The FREE buffer to use, A when both are (R163). -/
def Printer.freeBuffer (v : Printer) : Option BufferId :=
  if v.bufferA.state = .free then some .a else if v.bufferB.state = .free then some .b else none

/-- Raise the next fetch request, if one can be raised (R163). -/
def State.raiseFetch (s : State) : State :=
  if s.printer.state.fetches && s.printer.request.isNone && !s.quarterInFlight then
    match s.printerArtworkId with
    | none => s
    | some a =>
      let f := s.printer.fetchBand
      match s.printer.fillingWith f with
      | some (which, q) => (s.modPrinter fun v => { v with request := some ⟨a, f, q, which⟩ }).oweGrant
      | none =>
        if f < s.artworks[a].bands then
          match s.printer.freeBuffer with
          | none => s
          | some which =>
            (s.modPrinter fun v =>
              { v.setBuffer which ⟨.filling f 0, []⟩ with request := some ⟨a, f, 0, which⟩ }).oweGrant
        else s
  else s

/-! ## Faults (R172) -/

/-- A printer fault, as one event (R172). -/
def State.printerFaults (s : State) (cause : PrinterCause) : State :=
  let a := (s.sendPrinter .abort).modPrinter fun v =>
    { v with
      state := .fault, fault := some cause, timer := none, request := none, bufferA := ⟨.free, []⟩, bufferB := ⟨.free, []⟩
      outDone := none }
  let b := (a.disown TransferTo.isBand).modDiscAt .printer fun d => if d.phase = .printing then d.fail .printFault else d
  b.raise .printer (.printerFault cause ((b.discAt .printer).map (·.serial)))

/-! ## Band starts (R164, R166, R167, R168) -/

/-- The buffer that is FULL with a band. -/
def Printer.fullWith (v : Printer) (band : Nat) : Option BufferId :=
  if v.bufferA.state = .full band then some .a else if v.bufferB.state = .full band then some .b else none

/-- Start the band that is FULL in a buffer: BAND is sent with the strobe width and the firing period (R164 step 4). -/
def State.startBand (s : State) (which : BufferId) : State :=
  let v := s.printer
  let q := (s.printerJob.map (·.quality)).getD .normal
  let x := v.buffer which
  (s.sendPrinter (.band v.nextBand (strobeWidth v.w0 v.k v.tref v.head q) (firingPeriod q) x.data)).modPrinter fun v =>
    { v.setBuffer which ⟨.inUse v.nextBand, x.data⟩ with state := .printing, timer := some (Timer.load bandLimit) }

/-- Try to start the next band (R164): FETCH_WAIT or BAND_WAIT when it is not FULL, a LID fault when the lid is open, THERMAL_PAUSE
when the head is hot. -/
def State.tryStartBand (s : State) : State :=
  let v := s.printer
  match v.fullWith v.nextBand with
  | none =>
    if v.nextBand = 0 then s.modPrinter fun v => { v with state := .fetchWait, timer := none }
    else (s.modPrinter fun v => { v with state := .bandWait, timer := some (Timer.load bandWaitLimit) }).oweGrant
  | some which =>
    if !s.sensor .lidClosed then s.printerFaults .lid
    else if 120 ≤ v.head then
      (s.modPrinter fun v => { v with state := .thermalPause, timer := some (Timer.load thermalLimit) }).raise .printer
        (.thermal true v.head)
    else s.startBand which

/-! ## The ink check (R160, R161, R171) -/

/-- The printer enters TRAY_IN and begins to fetch (R162, R163). -/
def State.enterTrayIn (s : State) : State :=
  ((s.sendPrinter .trayIn).modPrinter fun v =>
    { v with state := .trayIn, timer := some (Timer.load printerTrayLimit) }).raiseFetch

/-- The ink check of the disc on the tray (R160, R161). -/
def State.inkCheck (s : State) : State :=
  if inkSuffices s.printer.levels s.labelCosts then s.enterTrayIn
  else if (s.printerJob.map Job.isKilled).getD false then s.unprintedReturn
  else
    (s.modPrinter fun v => { v with state := .inkHold, timer := none }).raise .ink (.inkOut s.printer.levels s.labelCosts)

/-- The low-ink test of the black cartridge (R171). -/
def State.lowInkBlack (s : State) : State :=
  if !s.printer.blackLow && blackIsLow s.printer.levels s.printer.capacity then
    (s.modPrinter fun v => { v with blackLow := true }).raise .ink (.inkLow true s.printer.levels)
  else s

/-- The low-ink test of the colour cartridge (R171). -/
def State.lowInkColour (s : State) : State :=
  if !s.printer.colourLow && colourIsLow s.printer.levels s.printer.capacity then
    (s.modPrinter fun v => { v with colourLow := true }).raise .ink (.inkLow false s.printer.levels)
  else s

/-- The label is complete (R169). The black cartridge's low-ink test comes before the colour cartridge's. DESIGN CHOICE (log 36):
R171 does not order their notices. -/
def State.completeLabel (s : State) : State :=
  let costs := s.labelCosts
  let a := ((s.modPrinter fun v => { v with levels := inkDebit v.levels costs }).lowInkBlack).lowInkColour
  (a.modDiscAt .printer fun d => { d with phase := .printed, printed := true }).enterTrayOut

/-- The move out has ended with the tray home (R159, R169): FINISHED with a disc record, its destination fixed and its
PRINT_CLEAR queued; without one, EMPTY, or a FOREIGN fault when a disc stands on the tray. -/
def State.endTrayOut (s : State) (disc : Bool) : State :=
  match s.discAt .printer with
  | some d =>
    ((s.modPrinter fun v => { v with state := .finished, timer := none, outDone := none }).modDiscAt .printer
      fun x => { x with destination := s.routing d }).queueRequest .printClear none none
  | none =>
    if disc then s.printerFaults .foreign
    else ((s.modPrinter fun v => { v with state := .empty, timer := none, outDone := none }).oweSelect).oweArm

/-- The Media Handler tells the printer that it has been cleared (R137, R169). -/
def State.printerCleared (s : State) : State :=
  ((s.modPrinter fun v => { v with state := .empty, nextBand := 0, fetchBand := 0 }).oweSelect).oweArm

end Sys2Proof.Machine
end

