-- ==== Sys2Proof/Machine/ArmOps.lean ====
section
/-! DEFINITION. The Media Handler's operations that several meanings share: the issue of steps, the arm's next step, selection,
requests set aside, arm faults and homing (Media Handling, R127 to R141). -/

namespace Sys2Proof.Machine

/-! ## Steps (R127, R129) -/

/-- Limit of a step (R127). -/
def stepLimit : ArmStep → Nat
  | .travel _ => 6000
  | .pick => 3000
  | .place => 3000
  | .home => 20000

/-- A step is due: it is issued when the door is closed; else the arm becomes HELD (R129). -/
def State.issueStep (s : State) (v : ArmStep) : State :=
  if s.sensor .doorClosed then
    (s.emit (.arm v)).modArm fun a => { a with step := some v, timer := some (Timer.load (stepLimit v)) }
  else s.modArm fun a => { a with state := .held, resume := some a.state }

/-- A PICK at a bin is due: when it is issued, attempts rises by 1 (R133). -/
def State.issueBinPick (s : State) : State :=
  let t := s.issueStep .pick
  if s.sensor .doorClosed then t.modArm fun a => { a with attempts := a.attempts + 1 } else t

/-- Go to a position, or go straight on when the arm already stands there (R127). -/
def State.goTo (s : State) (p : Position) (next : State → State) : State :=
  if s.arm.position = .known p then next s else s.issueStep (.travel p)

/-- The arm becomes IDLE and is to select (R132). -/
def State.armToIdle (s : State) : State := (s.modArm fun a => { a with state := .idle, request := none }).oweSelect

/-- The request that the arm serves is set aside: it stays in the queue, TAKEN; the arm becomes IDLE (R134, R139). -/
def State.setAside (s : State) : State :=
  (s.modArm fun a => { a with sourceBin := none, attempts := 0, returning := false }).armToIdle

/-! ## The arm's next step (R133 to R138) -/

/-- The lane has reported its tray open for PLACE (R135). -/
def Lane.readyForPlace (l : Lane) : Bool := decide (l.state = .opened) && decide (l.purpose = some .place)

/-- The lane has reported its tray open for PICK (R136, R87). -/
def Lane.readyForPick (l : Lane) : Bool :=
  (decide (l.state = .opened) && decide (l.purpose = some .pick)) || decide (l.faultMove = some .unloadOpen)

/-- A delivery to a destination: TRAVEL, then PLACE when the place is free (R137, R138). -/
def State.deliver (s : State) (d : Destination) : State :=
  match d with
  | .output => s.goTo .output fun t => if t.outputFull then t else t.issueStep .place
  | .reject => s.goTo .reject fun t => if t.rejectFull then t else t.issueStep .place
  | .printer => s.goTo .printer fun t => if t.printer.state = .empty then t.issueStep .place else t

/-- The pick from the source bin: TRAVEL, then PLACE back after a double pick, or PICK while the bin is present and not in fault
(R133, R134). -/
def State.pickFromBin (s : State) (which : Bin) : State :=
  s.goTo (.bin which) fun t =>
    let v := t.binRecord which
    if t.arm.returning then (if v.present then t.issueStep .place else t)
    else if v.present && !v.fault then t.issueBinPick
    else t.setAside

/-- The delivery of a FEED's disc: to the tray of its lane, or to the reject bin (R135). -/
def State.deliverFeed (s : State) (r : Request) : State :=
  match s.discAt .arm with
  | none => s.armToIdle
  | some d =>
    match d.destination, r.lane with
    | some .reject, _ => s.deliver .reject
    | _, none => s.deliver .reject
    | _, some n => s.goTo (.tray n) fun t => if t.lanes[n].readyForPlace then t.issueStep .place else t

/-- The arm works out its next step from the state of the request and of the tower (R129, R133 to R138). -/
def State.armNext (s : State) : State :=
  match s.served with
  | some r =>
    match r.kind, r.disc, s.arm.sourceBin, r.lane with
    | .feed, none, some which, _ => s.pickFromBin which
    | .feed, none, none, _ => s.setAside
    | .feed, some _, _, _ => s.deliverFeed r
    | .unload, _, _, some n => s.goTo (.tray n) fun t => if t.lanes[n].readyForPick then t.issueStep .pick else t
    | .unload, _, _, none => s.setAside
    | .printClear, _, _, _ => s.goTo .printer fun t => t.issueStep .pick
  | none =>
    match s.discAt .arm with
    | none => s.armToIdle
    | some d =>
      match d.destination with
      | some x => s.deliver x
      | none => s

/-- The arm's next step, if it is SERVING with no step running. -/
def State.armContinue (s : State) : State := if s.arm.state = .serving && s.arm.step.isNone then s.armNext else s

/-! ## Selection (R131, R132) -/

/-- The place that a destination names is free (R131). -/
def State.placeFree (s : State) : Destination → Bool
  | .printer => decide (s.printer.state = .empty)
  | .output => !s.outputFull
  | .reject => !s.rejectFull

/-- A destination that may be absent is free. -/
def State.placeFreeOpt (s : State) (d : Option Destination) : Bool :=
  match d with
  | none => false
  | some x => s.placeFree x

/-- The request is eligible to be served (R131). -/
def State.requestEligible (s : State) (r : Request) : Bool :=
  match r.kind, r.lane with
  | .feed, some _ => (r.cls.map s.binUsable).getD false
  | .feed, none => (r.cls.map s.binUsable).getD false && !s.rejectFull
  | .unload, some n =>
    match s.discAt (.tray n) with
    | none => false
    | some d => s.placeFreeOpt (if r.taken then d.destination else s.routing d)
  | .unload, none => false
  | .printClear, _ => s.placeFreeOpt ((s.discAt .printer).bind (·.destination))

/-- The oldest eligible request of a kind. -/
def State.oldestEligible (s : State) (kind : RequestKind) : Option Request :=
  s.requests.find? fun r => decide (r.kind = kind) && s.requestEligible r

/-- The request that an IDLE arm selects: the PRINT_CLEAR, else the oldest UNLOAD, else the oldest FEED (R132). -/
def State.chooseRequest (s : State) : Option Request :=
  match s.oldestEligible .printClear with
  | some r => some r
  | none =>
    match s.oldestEligible .unload with
    | some r => some r
    | none => s.oldestEligible .feed

/-- The source bin of a FEED: BIN_A if it serves the class, else BIN_B (R133). -/
def State.sourceBinFor (s : State) (cls : Option MediaClass) : Bin :=
  match cls with
  | none => .b
  | some v => if s.binA.serves v then .a else .b

/-- What the selection of a WAITING request tells the lane (R132, R73, R81, R61, R87). -/
def State.tellSelected (s : State) (r : Request) : State :=
  match r.kind, r.lane with
  | .feed, some n => s.enterOpening n .place
  | .unload, some n =>
    let a := match s.discAt (.tray n) with
      | none => s
      | some d => s.modDiscAt (.tray n) fun x => { x with destination := s.routing d }
    if s.lanes[n].state = .fault then a.faultUnload n else a.enterOpening n .pick
  | _, _ => s

/-- The arm takes a request up (R132, R133). -/
def State.takeUp (s : State) (r : Request) : State :=
  let a := s.modArm fun v =>
    { v with
      state := .serving, request := some r.age, attempts := 0, returning := false
      sourceBin := if r.kind = .feed then some (s.sourceBinFor r.cls) else none }
  let b := a.modRequest r.age fun x => { x with taken := true }
  (if r.taken then b else b.tellSelected r).armContinue

/-- A selection, if the arm is IDLE (R132). -/
def State.select (s : State) : State :=
  if s.arm.state = .idle then
    match s.chooseRequest with
    | none => s
    | some r => s.takeUp r
  else s

/-! ## Arm faults and homing (R128, R140, R141) -/

/-- An arm fault, as one event, the step concerned given (R140). -/
def State.armFaults (s : State) (cause : ArmCause) (step : Option ArmStep) : State :=
  let before := s.arm.position
  let a := s.modArm fun v =>
    { v with
      state := .fault, resume := none, step := none, timer := none, request := none, sourceBin := none, attempts := 0
      returning := false, homeDone := false, fault := some ⟨cause, step⟩
      position := if cause = .pick then v.position else .unknown }
  let b := if s.gripCount = 0 then a.loseArmDisc else a
  b.raise .arm (.armFault ⟨cause, step⟩ before ((b.discAt .arm).map (·.serial)))

/-- Homing is complete: the position is HOME and the grip is read (R128). -/
def State.homed (s : State) : State :=
  let a := s.modArm fun v => { v with step := none, timer := none, homeDone := false, position := .home }
  if a.gripCount = 0 then
    let b := (a.modArm fun v => { v with state := .idle, byClear := false }).oweSelect
    if s.arm.byClear then b.raise .arm .armCleared else b
  else a.armFaults .grip (some .home)

/-- A record at a tray or on the printer moves to the arm after its PICK: the location is written, the lane or the printer is
told, and the request leaves the queue (R136, R137). -/
def State.pickedUp (s : State) (loc : Location) (age : Option Nat) : State :=
  let a := s.modDiscAt loc fun d => { d with location := .arm }
  let b := match age with
    | none => a
    | some k => (a.dropRequest k).modArm fun v => { v with request := if v.request = some k then none else v.request }
  match loc with
  | .tray n => b.lanePicked n
  | .printer => b.printerCleared
  | .arm => b

/-- The location of the disc that stands at a position of the arm. -/
def Position.location : Position → Option Location
  | .tray n => some (.tray n)
  | .printer => some .printer
  | _ => none

/-- After a PICK fault at a tray or the printer, the grip has come to show a disc: the record follows it to the arm (R136,
R137). -/
def State.followPick (s : State) : State :=
  match s.arm.position with
  | .known (.tray n) =>
    match s.laneRequest .unload n with
    | some r => if r.taken && (s.discAt (.tray n)).isSome then s.pickedUp (.tray n) (some r.age) else s
    | none => s
  | .known .printer =>
    match s.requests.find? fun r => decide (r.kind = .printClear) with
    | some r => if r.taken && (s.discAt .printer).isSome then s.pickedUp .printer (some r.age) else s
    | none => s
  | _ => s

end Sys2Proof.Machine
end

