-- ==== Sys2Proof/Machine/Settle.lean ====
section
/-! DEFINITION. The follow-up computations that an event owes, made once it has taken its full effect: grants of CRC channels
(R114), a claim attempt (R46), a start computation (R101), the arm's next step (R129), a selection (R132) and a grant of the
read channel (R108), in this order (log 12). -/

namespace Sys2Proof.Machine

/-- Make the follow-up computation `f` if it is owed. -/
def State.when (s : State) (owed : Bool) (f : State → State) : State := if owed then f s else s

/-- The grants of CRC channels and the claim attempt that are owed. -/
def State.settleClaims (s : State) : State :=
  let a := s.when s.due.crc State.crcGrants
  a.when a.due.claim State.claimAttempt

/-- The arm's next step, the selection and the grant of the read channel that are owed; afterwards nothing is. -/
def State.settleChannel (s : State) : State :=
  let d := s.when s.due.arm State.armContinue
  let e := d.when d.due.select State.select
  let f := e.when e.due.grant State.chooseGrant
  f.setDue Due.nothing

/-- Make every follow-up computation that is owed; afterwards none is. -/
def State.settle (s : State) : State :=
  let b := s.settleClaims
  (b.when b.due.start State.startComputation).settleChannel

/-- Likewise after one block's part of TOWER-RESET, whose one start computation comes once all parts have taken effect (R191,
R111). -/
def State.settlePart (s : State) : State := s.settleClaims.settleChannel

end Sys2Proof.Machine
end

