-- ==== Sys2Proof/Machine/Commands.lean ====
section
/-! DEFINITION. What the taking of a client command and its reply share: the passing of commands, the taking of the command that
stands at its block, replies, and the checks that several entries make (Client Links, R180 to R182, R190; log 1, log 7). -/

namespace Sys2Proof.Machine

/-! ## Passing commands on (R180) -/

/-- The oldest queued command becomes outstanding when the port has none outstanding (R180). -/
def PortRecord.pass (r : PortRecord) : PortRecord :=
  match r.outstanding, r.commands with
  | none, first :: rest => { r with commands := rest, outstanding := some ⟨first, none⟩ }
  | _, _ => r

/-- Pass the next command of a port, if it can be passed (R180). -/
def State.passNext (s : State) (p : Port) : State := s.modPort p PortRecord.pass

/-! ## Replies -/

/-- The command is refused with a result code; nothing else changes (R182). -/
def refuse (code : ResultCode) (s : State) : Reply × State := (⟨code, []⟩, s)

/-- The command is accepted, without result data (R182). -/
def accept (s : State) : Reply × State := (⟨.ok, []⟩, s)

/-- The command is accepted, with result data (R181). -/
def acceptWith (data : List Byte) (s : State) : Reply × State := (⟨.ok, data⟩, s)

/-! ## Taking a command -/

/-- The record's code is this one (Formats, Command record). -/
def hasCode (code : Nat) (r : CommandRecord) : Bool := decide (recordCode r = code)

/-- The oldest command of a code that stands at its block since before a link reset (R190 step 1, log 7). -/
def PortRecord.orphanFor (r : PortRecord) (code : Nat) : Option CommandRecord := r.orphans.find? (hasCode code)

/-- The oldest command of a code leaves the orphans. -/
def dropOrphan (code : Nat) : List CommandRecord → List CommandRecord
  | [] => []
  | r :: rest => if hasCode code r then rest else r :: dropOrphan code rest

/-- The outstanding command, when it has this code and its block has not taken it yet (R180). -/
def PortRecord.untaken (r : PortRecord) (code : Nat) : Option CommandRecord :=
  match r.outstanding with
  | some ⟨command, none⟩ => if hasCode code command then some command else none
  | _ => none

/-- The result of the outstanding command goes on its way back to the CLU (R180). -/
def PortRecord.withResult (r : PortRecord) (result : Reply) : PortRecord :=
  { r with outstanding := r.outstanding.map fun o => { o with result := some result } }

/-- The owning block takes the command of a code that stands at it for port `p`, as one event with its follow-up computations: a
command left by a link reset first, whose result goes nowhere, else the outstanding one. With no such command nothing changes
(R180, R190; log 1, log 7). -/
def State.takeCommand (s : State) (p : Port) (code : Nat) (meaning : CommandRecord → State → Reply × State) : State :=
  match s.ports[p].orphanFor code with
  | some command =>
    (meaning command (s.modPort p fun r => { r with orphans := dropOrphan code r.orphans })).2.settle
  | none =>
    match s.ports[p].untaken code with
    | none => s
    | some command =>
      let taken := meaning command s
      taken.2.settle.modPort p fun r => r.withResult taken.1

/-! ## Checks -/

/-- The client is not the owner, and the key does not lift the check (R154). -/
def State.barredFrom (s : State) (owner : Option Port) (p : Port) : Bool :=
  decide (owner ≠ some p) && decide (s.key ≠ .service)

/-- The image slot that parameter byte 2 names. -/
def imageParam (r : CommandRecord) : Option ImageId := indexBelow 8 (recordByte r 2)

/-- The artwork slot that parameter byte 2 names. -/
def artworkParam (r : CommandRecord) : Option ArtworkId := indexBelow 4 (recordByte r 2)

/-- The lane that parameter byte 2 names. -/
def laneParam (r : CommandRecord) : Option LaneId := indexBelow 8 (recordByte r 2)

/-- A command on an image slot: a slot above 7 is refused BAD_PARAM. -/
def onImage (r : CommandRecord) (s : State) (f : ImageId → Reply × State) : Reply × State :=
  match imageParam r with
  | none => refuse .badParam s
  | some i => f i

/-- A command on an artwork slot: a slot above 3 is refused BAD_PARAM. -/
def onArtwork (r : CommandRecord) (s : State) (f : ArtworkId → Reply × State) : Reply × State :=
  match artworkParam r with
  | none => refuse .badParam s
  | some i => f i

/-- A command on a lane: a lane above 7 is refused BAD_PARAM (Drive Lanes, Operator commands). -/
def onLane (r : CommandRecord) (s : State) (f : LaneId → Reply × State) : Reply × State :=
  match laneParam r with
  | none => refuse .badParam s
  | some n => f n

/-- A job command: the handle check of R28, then the rest with the handle and the job it names. -/
def onJob (r : CommandRecord) (s : State) (f : Handle → Job → Reply × State) : Reply × State :=
  match indexBelow 16 (recordByte r 2) with
  | none => refuse .badParam s
  | some i =>
    let h : Handle := ⟨i, r[3]⟩
    match s.jobOf h with
    | none => refuse .noSuch s
    | some j => f h j

/-- The port has a bulk stream open (R189). -/
def State.streamOpen (s : State) (p : Port) : Bool := decide (s.ports[p].stream ≠ .none)

end Sys2Proof.Machine
end

