-- ==== Sys2Proof/Machine/ClientLinks.lean ====
section
/-! DEFINITION. Link transactions, the return of replies, BAD_COMMAND, SET-NOTICE-MASK, SET-ATTENTION and the attention hold
(Client Links, R178 to R189; Formats, R193). -/

namespace Sys2Proof.Machine

/-! ## Transactions -/

/-- The number of offered records that a port accepts (R179). -/
def PortRecord.room (r : PortRecord) (n : Nat) : Nat := min n (16 - r.commands.length)

/-- PUT_COMMANDS (R179, R178): the first records that fit join the queue in the order sent; the count is returned; the next
command is passed if none is outstanding (R180). -/
def execPutCommands (p : Port) (records : List CommandRecord) (s : State) : Host.Outcome State Fault Refusal :=
  let r := s.ports[p]
  if r.resetHeld then .next (s.answer p [0])
  else
    let k := r.room records.length
    .next (((s.modPort p fun r => { r with commands := r.commands ++ records.take k }).passNext p).answer p [byteOf k])

/-- A due LOST notice joins the queue and the lost count becomes 0 (R183). -/
def PortRecord.queueLost (r : PortRecord) (now : Nat) : PortRecord :=
  if 0 < r.lost && r.notices.length < 32 then { r with notices := r.notices ++ [(Notice.lost r.lost, now)], lost := 0 } else r

/-- The attention line after notices were taken: deasserted when the queue is empty, else tested (R187). DESIGN CHOICE (log 8): the
test takes the settings in force, so between the taking of a SET-ATTENTION that lowers the threshold and its REPLY it asserts the
line although no notice joins. -/
def PortRecord.updateLine (r : PortRecord) (now : Nat) : PortRecord :=
  if r.notices.isEmpty then { r with line := false } else r.testLine now

/-- TAKE_NOTICES (R184, R178): the oldest notices are removed and returned; then a due LOST notice is queued and the line is
updated (R183, R187). -/
def execTakeNotices (p : Port) (n : Byte) (s : State) : Host.Outcome State Fault Refusal :=
  let r := s.ports[p]
  if r.resetHeld then .next (s.answer p [0])
  else
    let taken := r.notices.take n.toNat
    .next ((s.modPort p fun r =>
        (({ r with notices := r.notices.drop n.toNat }).queueLost s.now).updateLine s.now).answer p
      (byteOf taken.length :: (taken.map fun v => noticeRecord v.1).flatten))

/-- The free space of the staging area (R6, R20). -/
def PortRecord.stagingRoom (r : PortRecord) : Nat := stagingBytes - r.staging.length

/-- The bytes still due of the load that a stream feeds; 0 when the stream takes no bytes (R6, R20, R189). -/
def State.streamDue (s : State) : Stream → Nat
  | .image i => if s.images[i].state = .loading then s.images[i].size - s.images[i].received else 0
  | .artwork i => if s.artworks[i].state = .loading then s.artworks[i].bands * bandBytes - s.artworks[i].received else 0
  | .none => 0
  | .outbound _ _ _ => 0

/-- Bytes received of the load that a stream feeds rises by `k` (R6, R20). -/
def State.streamReceives (s : State) (v : Stream) (k : Nat) : State :=
  match v with
  | .image i => s.modImage i fun v => { v with received := v.received + k }
  | .artwork i => s.modArtwork i fun v => { v with received := v.received + k }
  | .none => s
  | .outbound _ _ _ => s

/-- BULK_WRITE (R189, R6, R20): the smallest of the bytes offered, the staging space and the bytes still due is accepted. -/
def execBulkWrite (p : Port) (bytes : List Byte) (s : State) : Host.Outcome State Fault Refusal :=
  let r := s.ports[p]
  if r.resetHeld then .next (s.answer p (leBytes 4 0))
  else
    let k := min bytes.length (min r.stagingRoom (s.streamDue r.stream))
    .next (((s.modPort p fun r => { r with staging := r.staging ++ bytes.take k }).streamReceives r.stream k).answer p
      (leBytes 4 k))

/-- What a BULK-READ of `k` bytes does to the outbound stream: the position advances; at the size the stream ends and its
reference is released; an emptied buffer makes the next chunk wanted (R18, R105, R108). -/
def State.readOutbound (s : State) (p : Port) (slot : ImageId) (position : Nat) (buffer : List Byte) (k : Nat) : State :=
  if k = 0 then s
  else if s.images[slot].size ≤ position + k then (s.releaseImage slot).closeStream p
  else
    let s' := s.modPort p fun r => { r with stream := .outbound slot (position + k) (buffer.drop k) }
    if (buffer.drop k).isEmpty then s'.oweGrant else s'

/-- BULK_READ (R18, R189): the smaller of `n` and the bytes left in the outbound buffer is returned. -/
def execBulkRead (p : Port) (n : Word32) (s : State) : Host.Outcome State Fault Refusal :=
  let r := s.ports[p]
  if r.resetHeld then .next (s.answer p (leBytes 4 0))
  else
    match r.stream with
    | .outbound slot position buffer =>
      let k := min n.toNat buffer.length
      .next (((s.readOutbound p slot position buffer k).settle).answer p (leBytes 4 k ++ buffer.take k))
    | _ => .next (s.answer p (leBytes 4 0))

/-- Bytes 5 to 19 of the LINK-STATUS summary: the stream state (R178; Formats, Link transactions). -/
def State.streamStatus (s : State) : Stream → List Byte
  | .none => List.replicate 15 0
  | .image i =>
    [1, byteOf i.val, byteOf (bit (decide (s.images[i].state = .loading)))] ++
      leBytes 8 (s.images[i].size - s.images[i].received) ++ leBytes 4 0
  | .artwork i =>
    [2, byteOf i.val, 0] ++ leBytes 8 (s.artworks[i].bands * bandBytes - s.artworks[i].received) ++ leBytes 4 0
  | .outbound i position buffer =>
    [3, byteOf i.val, 0] ++ leBytes 8 (s.images[i].size - position) ++ leBytes 4 buffer.length

/-- The LINK-STATUS summary of a port (R178; Formats, Link transactions). While reset held is set it carries the reset mark and
the record as it stands (log 24). -/
def State.linkSummary (s : State) (p : Port) : List Byte :=
  let r := s.ports[p]
  [byteOf r.commands.length, byteOf r.notices.length] ++ leBytes 2 r.lost ++
    [byteOf (bit r.line + 2 * bit r.resetHeld)] ++ s.streamStatus r.stream

/-- LINK_STATUS (R178). -/
def execLinkStatus (p : Port) (s : State) : Host.Outcome State Fault Refusal := .next (s.answer p (s.linkSummary p))

/-- UNKNOWN_TRANSACTION (R178): answered with a count of 0; no state changes. -/
def execUnknownTransaction (p : Port) (s : State) : Host.Outcome State Fault Refusal := .next (s.answer p [0])

/-! ## Replies -/

/-- The outstanding command ceases to be outstanding, and the next one is passed (R180). -/
def State.clearOutstanding (s : State) (p : Port) : State := (s.modPort p fun r => { r with outstanding := none }).passNext p

/-- The REPLY notice of a command (R181). -/
def replyNotice (command : CommandRecord) (result : Reply) : Notice :=
  .reply result.code (recordTag command) command[0] result.data (recordEcho command)

/-- REPLY_RETURN (R180, R181): the REPLY is queued to the port, the command ceases to be outstanding, the next one is passed. The
line is tested against the new settings after the REPLY of a SET-ATTENTION (R188, log 8). -/
def execReplyReturn (p : Port) (s : State) : Host.Outcome State Fault Refusal :=
  match s.ports[p].outstanding with
  | some ⟨command, some result⟩ =>
    let a := s.notify p (replyNotice command result)
    let b := if hasCode 49 command then a.modPort p fun r => r.testLine s.now else a
    .next (b.clearOutstanding p)
  | _ => .next s

/-- BAD_COMMAND (R193, R180): the outstanding command's code names no command; the CLU refuses it and passes the next one. -/
def execBadCommand (p : Port) (s : State) : Host.Outcome State Fault Refusal :=
  match s.ports[p].outstanding with
  | some ⟨command, none⟩ =>
    if knownCommand command then .next s
    else .next ((s.notify p (replyNotice command ⟨.badCommand, []⟩)).clearOutstanding p)
  | _ => .next s

/-! ## Settings of the port -/

/-- SET-NOTICE-MASK (R186): the set groups are added, then the clear groups removed; the REPLY carries the mask. -/
def setNoticeMask (p : Port) (r : CommandRecord) (s : State) : Reply × State :=
  let mask := (s.ports[p].mask ||| r[2]) &&& ~~~r[3]
  acceptWith [mask] (s.modPort p fun v => { v with mask := mask })

/-- SET_NOTICE_MASK (R186). -/
def execSetNoticeMask (p : Port) (s : State) : Host.Outcome State Fault Refusal :=
  .next (s.takeCommand p 48 (setNoticeMask p))

/-- SET-ATTENTION (R188): threshold and hold time are clamped; the REPLY carries them. -/
def setAttention (p : Port) (r : CommandRecord) (s : State) : Reply × State :=
  let threshold := clampTo 1 32 (recordByte r 2)
  let hold := clampTo 0 1000 (recordField r 3 2)
  acceptWith (byteOf threshold :: leBytes 2 hold) (s.modPort p fun v => { v with threshold := threshold, hold := hold })

/-- SET_ATTENTION (R188). The line is tested after the REPLY (log 8); a SET-ATTENTION left by a link reset has no REPLY, and the
line is tested at once. -/
def execSetAttention (p : Port) (s : State) : Host.Outcome State Fault Refusal :=
  let t := s.takeCommand p 49 (setAttention p)
  .next (if (s.ports[p].orphanFor 49).isSome then t.modPort p fun r => r.testLine s.now else t)

/-- The hold time is above 0 and the oldest notice's age has reached it at time `now` (R187). -/
def PortRecord.holdReached (r : PortRecord) (now : Nat) : Bool :=
  match r.notices with
  | [] => false
  | (_, t) :: _ => decide (0 < r.hold) && decide (r.hold ≤ now - t)

/-- ATTENTION_HOLD_EXPIRY (R187): when the oldest notice has reached the hold time the line is asserted; a younger one is tested
by its own age (log 2). -/
def execAttentionHoldExpiry (p : Port) (s : State) : Host.Outcome State Fault Refusal :=
  .next (s.modPort p fun r => if r.holdReached s.now then { r with line := true } else r)

end Sys2Proof.Machine
end

