-- ==== Sys2Proof/Machine/LaneCommands.lean ====
section
/-! DEFINITION. The operator's commands on lanes (Drive Lanes, R82, R90 to R93). -/

namespace Sys2Proof.Machine

/-- A fault unload is under way in a lane in FAULT (R87, log 10). -/
def Lane.unloading (l : Lane) : Bool :=
  decide (l.faultMove = some .unloadOpening) || decide (l.faultMove = some .unloadOpen) ||
    decide (l.faultMove = some .unloadClosing)

/-- A lane in FAULT that operator commands may act on: no disc record in its tray and no fault unload under way (R90, R92,
R93). -/
def State.faultIsClear (s : State) (n : LaneId) : Bool :=
  (s.discAt (.tray n)).isNone && !s.lanes[n].unloading

/-- OPEN-TRAY on a lane in FAULT: the tray opens for the operator, unless it is open for the operator already (R90, log 10). -/
def State.openInFault (s : State) (n : LaneId) : State :=
  if s.lanes[n].purpose = some .operator && s.lanes[n].report = some .opened then s
  else
    ((s.sendTray n .openTray).modLane n
      fun l => { l with purpose := some .operator, faultMove := some .operatorOpening }).startTimer n trayLimit

/-- OPEN-TRAY (R90). -/
def openTray (r : CommandRecord) (s : State) : Reply × State :=
  onLane r s fun n =>
    match s.lanes[n].state with
    | .idle | .master | .foreign => accept ((s.modLane n fun l => { l with master := none }).enterOpening n .operator)
    | .fault => if s.faultIsClear n then accept (s.openInFault n) else refuse .wrongState s
    | _ => refuse .wrongState s

/-- OPEN_TRAY (R90). -/
def execOpenTray (p : Port) (s : State) : Host.Outcome State Fault Refusal := .next (s.takeCommand p 24 openTray)

/-- CLOSE-TRAY on a lane in FAULT: the tray closes and the purpose is cleared (R91). -/
def State.closeInFault (s : State) (n : LaneId) : State :=
  ((s.sendTray n .closeTray).modLane n
    fun l => { l with purpose := none, faultMove := some .operatorClosing }).startTimer n trayLimit

/-- CLOSE-TRAY (R91). -/
def closeTray (r : CommandRecord) (s : State) : Reply × State :=
  onLane r s fun n =>
    let l := s.lanes[n]
    if l.state = .opened && l.purpose = some .operator then accept (s.enterClosing n (some .operator))
    else if l.state = .fault && l.purpose = some .operator && l.faultMove ≠ some .operatorOpening then
      accept (s.closeInFault n)
    else refuse .wrongState s

/-- CLOSE_TRAY (R91). -/
def execCloseTray (p : Port) (s : State) : Host.Outcome State Fault Refusal := .next (s.takeCommand p 25 closeTray)

/-- The effects of an accepted LANE-ONLINE (R92): the start-up close with an identity, else OFFLINE until IDENT. A lane already
OFFLINE and not held without an identity is not changed (log 21). -/
def State.bringOnline (s : State) (n : LaneId) : State :=
  let l := s.lanes[n]
  if l.state = .offline && !l.held && l.identity.isNone then s
  else
    let a := s.modLane n fun l =>
      { l with
        held := false, quarantine := false, failCount := 0, startUp := true, faultMove := none, heldBack := none }
    if l.identity.isSome then a.enterClosing n none
    else (a.stopTimer n).modLane n fun l => { l with state := .offline, purpose := none }

/-- LANE-ONLINE (R92). -/
def laneOnline (r : CommandRecord) (s : State) : Reply × State :=
  onLane r s fun n =>
    match s.lanes[n].state with
    | .offline => accept (s.bringOnline n)
    | .fault => if s.faultIsClear n then accept (s.bringOnline n) else refuse .wrongState s
    | _ => refuse .wrongState s

/-- LANE_ONLINE (R92). -/
def execLaneOnline (p : Port) (s : State) : Host.Outcome State Fault Refusal := .next (s.takeCommand p 26 laneOnline)

/-- The effects of an accepted LANE-OFFLINE (R93): OFFLINE and held, the timer stopped, the tray left where it stands. -/
def State.takeOffline (s : State) (n : LaneId) : State :=
  s.modLane n fun l => { l with state := .offline, held := true, timer := none, faultMove := none, heldBack := none }

/-- LANE-OFFLINE (R93). -/
def laneOffline (r : CommandRecord) (s : State) : Reply × State :=
  onLane r s fun n =>
    match s.lanes[n].state with
    | .idle => accept (s.takeOffline n)
    | .fault => if s.faultIsClear n then accept (s.takeOffline n) else refuse .wrongState s
    | _ => refuse .wrongState s

/-- LANE_OFFLINE (R93). -/
def execLaneOffline (p : Port) (s : State) : Host.Outcome State Fault Refusal := .next (s.takeCommand p 27 laneOffline)

/-- CLEAR-LANE (R82): the lane becomes DONE with its spare and queues its UNLOAD. -/
def clearLane (r : CommandRecord) (s : State) : Reply × State :=
  onLane r s fun n => if s.lanes[n].state = .spare then accept (s.enterDone n) else refuse .wrongState s

/-- CLEAR_LANE (R82). -/
def execClearLane (p : Port) (s : State) : Host.Outcome State Fault Refusal := .next (s.takeCommand p 28 clearLane)

end Sys2Proof.Machine
end

