-- ==== Sys2Proof/Machine/DriveLanes.lean ====
section
/-! DEFINITION. Messages from the drives and the lanes' timers (Drive Lanes, R68 to R89; Formats, R194). -/

namespace Sys2Proof.Machine

/-! ## Start of a drive, errors -/

/-- IDENT (R69, R71, R86): the identity is taken; an OFFLINE lane that is not held starts up; any other lane outside FAULT
faults with cause RESTART. A malformed IDENT is an ERROR with code 255 (R194). -/
def execIdent (n : LaneId) (buffer : BitVec 16) (burnsL burnsM : Bool) (s : State) : Host.Outcome State Fault Refusal :=
  if identOk buffer burnsL burnsM then
    let a := s.modLane n fun l => { l with identity := some ⟨buffer.toNat, burnsL, burnsM⟩ }
    .next (match s.lanes[n].state with
      | .offline =>
        if s.lanes[n].held then a
        else
          (a.modLane n fun l => { l with startUp := true, unanswered := none, heldBack := none }).enterClosing n none
      | .fault => a
      | _ => (a.laneFault n .restart).settle)
  else .next ((s.laneError n 255).settle)

/-- ERROR (R69): the lane faults with cause ERROR and the code, outside OFFLINE and FAULT; it makes the opening of a fault unload
fail (R87). -/
def execError (n : LaneId) (code : Byte) (s : State) : Host.Outcome State Fault Refusal :=
  .next ((s.laneError n code).settle)

/-- DRIVE_MALFORMED_MESSAGE (R194): taken as an ERROR with code 255; no field is recorded. -/
def execDriveMalformedMessage (n : LaneId) (s : State) : Host.Outcome State Fault Refusal :=
  .next ((s.laneError n 255).settle)

/-! ## Tray reports (R68, R70) -/

/-- The tray of a lane in FAULT reports a position (R87, R89, R90, R91). -/
def State.faultTray (s : State) (n : LaneId) (pos : TrayPosition) : State :=
  match s.lanes[n].faultMove, pos with
  | some .unloadOpening, .opened => ((s.stopTimer n).modLane n fun l => { l with faultMove := some .unloadOpen }).oweArm
  | some .unloadClosing, .closed =>
    let a := (s.stopTimer n).modLane n fun l => { l with faultMove := none, purpose := none }
    if s.lanes[n].quarantine then a.quarantineLane n else a
  | some .operatorOpening, .opened => (s.stopTimer n).modLane n fun l => { l with faultMove := none }
  | some .operatorClosing, .closed => (s.stopTimer n).modLane n fun l => { l with faultMove := none }
  | _, _ => s

/-- The operator has closed the tray from the drive: the lane becomes PROBING; a tray command held back is not sent any more (R70,
log 9). -/
def State.closedByOperator (s : State) (n : LaneId) : State :=
  (s.modLane n fun l => { l with heldBack := none }).enterProbing n

/-- The tray of a lane in OPENING reports a position (R70, R73, R81, R90, R142). -/
def State.openingTray (s : State) (n : LaneId) (pos : TrayPosition) : State :=
  match pos, s.lanes[n].purpose with
  | .opened, none => s.enterClosing n none
  | .opened, some _ => ((s.stopTimer n).modLane n fun l => { l with state := .opened }).oweArm
  | .moving, _ => s
  | .closed, some .operator => s.closedByOperator n
  | .closed, _ => s.laneFault n .tray

/-- The tray of a lane in OPEN reports a position (R70). -/
def State.openTrayReports (s : State) (n : LaneId) (pos : TrayPosition) : State :=
  match pos, s.lanes[n].purpose with
  | .opened, _ => s
  | .closed, some .operator => s.closedByOperator n
  | .moving, some .operator => s
  | _, _ => s.laneFault n .tray

/-- The tray of a lane is closed after the PICK: a lane with the quarantine mark is quarantined, any other becomes IDLE (R81, R89).
One that is held or has no identity, which is one taken out of service while its PLACE ran, becomes OFFLINE again (DESIGN CHOICE,
log 22). -/
def State.closedAfterPick (s : State) (n : LaneId) : State :=
  if s.lanes[n].quarantine then s.quarantineLane n
  else if s.lanes[n].held || s.lanes[n].identity.isNone then
    s.modLane n fun l => { l with state := .offline, purpose := none, timer := none }
  else s.enterIdle n

/-- The tray of a lane in CLOSING reports a position (R70, R71, R74, R81, R89, R91). -/
def State.closingTray (s : State) (n : LaneId) (pos : TrayPosition) : State :=
  match pos, s.lanes[n].purpose with
  | .closed, some .pick => s.closedAfterPick n
  | .closed, _ => s.enterProbing n
  | .moving, _ => s
  | .opened, _ => s.laneFault n .tray

/-- The tray of a lane in IDLE, MASTER or FOREIGN reports a position (R70). -/
def State.restingTray (s : State) (n : LaneId) (pos : TrayPosition) : State :=
  match pos with
  | .opened => s.modLane n fun l => { l with state := .opened, purpose := some .operator, master := none }
  | .moving => s
  | .closed => s

/-- What a tray report does once it is recorded (R69, R70). -/
def State.trayMoves (s : State) (n : LaneId) (pos : TrayPosition) : State :=
  match s.lanes[n].state with
  | .offline => s
  | .fault => s.faultTray n pos
  | .opening => s.openingTray n pos
  | .opened => s.openTrayReports n pos
  | .closing => s.closingTray n pos
  | .idle | .master | .foreign => s.restingTray n pos
  | _ => if pos = .closed then s else s.laneFault n .tray

/-- The position that answers a tray command: OPEN a TRAY-OPEN, CLOSED a TRAY-CLOSE (R68). -/
def TrayCommand.answer : TrayCommand → TrayPosition
  | .openTray => .opened
  | .closeTray => .closed

/-- The lane record after a report of a position: the position is recorded, and the unanswered tray command, if this answers it, is
so no more (R68, R70). A command held back that this would answer is not sent any more: its move has ended (log 9). -/
def Lane.reported (l : Lane) (pos : TrayPosition) : Lane :=
  { l with
    report := some pos
    unanswered := l.unanswered.filter fun v => decide (v.answer ≠ pos)
    heldBack := l.heldBack.filter fun v => decide (v.answer ≠ pos) }

/-- TRAY_STATE (R70, R68): the position is recorded and acts as the table of R70 says; then a tray command still held back is sent,
if the report was the answer it waited for (log 9). -/
def execTrayState (n : LaneId) (pos : TrayPosition) (s : State) : Host.Outcome State Fault Refusal :=
  .next ((((s.modLane n fun l => l.reported pos).trayMoves n pos).releaseTray n).settle)

/-! ## Probe answers (R55, R72, R74) -/

/-- The probe of a fed disc finds a blank: its class and capacity are set; it becomes READY and waits for its start, or is offered
when its job drains, or fails (R55, R74). -/
def State.probeBlank (s : State) (n : LaneId) (h : Handle) (j : Job) (cls : MediaClass) (capacity : Nat) : State :=
  let v := s.images[j.image]
  let a := s.modDiscAt (.tray n) fun d => { d with cls := some cls, capacity := capacity }
  if v.cls ≠ some cls then (a.modDiscAt (.tray n) fun d => d.fail .wrongMedia).enterDone n
  else if capacity < v.segments then (a.modDiscAt (.tray n) fun d => d.fail .tooSmall).enterDone n
  else if j.state = .draining then a.offerBlank n h
  else (a.modDiscAt (.tray n) fun d => { d with phase := .ready }).enterFeedWait n

/-- The probe of a fed disc is answered (R55, R74). Start-up keeps its value: R72 clears it at a probe without a record, and R74 does
not speak of it. No start-up probe meets a fed disc, since a PLACE that ends at a lane brought back meanwhile clears start-up and
makes the lane DONE, where MEDIA is discarded: DESIGN CHOICE (log 22, State.placedAfterFault). -/
def State.probeFed (s : State) (n : LaneId) (report : MediaReport) : State :=
  match report with
  | .blank cls capacity speeds =>
    let a := s.modLane n fun l => { l with blankSpeeds := speeds.map (·.toNat), timer := none }
    match s.lanes[n].job with
    | none => a
    | some h =>
      match s.jobOf h with
      | none => a
      | some j => a.probeBlank n h j cls capacity.toNat
  | .recorded _ _ => (s.modDiscAt (.tray n) fun d => d.fail .wrongMedia).enterDone n
  | .unusable => (s.modDiscAt (.tray n) fun d => d.fail .wrongMedia).enterDone n
  | .absent => (((s.laneLeavesJob n).closeDiscAt (.tray n) none (some .lost)).enterIdle n)

/-- The probe of a tray without a disc record is answered (R72). -/
def State.probeUnrecorded (s : State) (n : LaneId) (report : MediaReport) : State :=
  let started := s.lanes[n].startUp
  let a := s.modLane n fun l => { l with timer := none, startUp := false }
  match report with
  | .absent =>
    let b : State := match started, s.lanes[n].identity with
      | true, some id => a.raise .lane (.laneOnline n id)
      | _, _ => a
    b.enterIdle n
  | .recorded cls size =>
    (a.modLane n fun l => { l with state := .master, master := some (cls, size.toNat) }).raise .lane
      (.laneMaster n cls size.toNat)
  | .blank _ _ speeds =>
    (a.modLane n fun l => { l with state := .foreign, blankSpeeds := speeds.map (·.toNat) }).raise .lane (.laneForeign n true)
  | .unusable => (a.modLane n fun l => { l with state := .foreign }).raise .lane (.laneForeign n false)

/-- MEDIA (R74, R72, R55): discarded outside PROBING; a malformed report is an ERROR with code 255 (R69, R194). -/
def execMedia (n : LaneId) (report : MediaReport) (s : State) : Host.Outcome State Fault Refusal :=
  if mediaOk report then
    if s.lanes[n].state = .probing then
      .next ((if (s.discAt (.tray n)).isSome then s.probeFed n report else s.probeUnrecorded n report).settle)
    else .next s
  else .next ((s.laneError n 255).settle)

/-! ## Burning (R77, R78, R79) -/

/-- Every segment is committed: FINALIZE is sent and the lane leaves BURNING for FINALIZING (R77). -/
def State.finalize (s : State) (n : LaneId) : State :=
  (((s.sendDrive n .finalize).modLane n fun l => { l with state := .finalizing }).modDiscAt (.tray n)
    fun d => { d with phase := .finalizing }).startTimer n finalizeLimit |>.oweStart

/-- A CREDIT in BURNING (R77): credits rise up to the buffer size, committed rises, the timer restarts; the last one sends
FINALIZE; credits that rise from 0 make the lane eligible for a grant (R108). -/
def State.takeCredit (s : State) (n : LaneId) (freed committed : Nat) : State :=
  let l := s.lanes[n]
  let credits := min ((l.identity.map (·.buffer)).getD 0) (l.credits + freed)
  let total := max l.committed committed
  let a := (s.modLane n fun l => { l with credits := credits, committed := total }).restartTimer n
  if s.laneSegments n ≤ total then a.finalize n
  else if l.credits = 0 && decide (0 < credits) then a.oweGrant
  else a

/-- CREDIT (R77): malformed when its committed total is above the lane's sent count, in every state (R194, log 16); else
discarded outside BURNING (R69). -/
def execCredit (n : LaneId) (freed : BitVec 16) (committed : BitVec 24) (s : State) : Host.Outcome State Fault Refusal :=
  if s.lanes[n].sent < committed.toNat then .next ((s.laneError n 255).settle)
  else if s.lanes[n].state = .burning then .next ((s.takeCredit n freed.toNat committed.toNat).settle)
  else .next s

/-- The underrun tolerance of the job that the lane works for (R26). -/
def State.laneTolerance (s : State) (n : LaneId) : Nat := ((s.jobOfOpt s.lanes[n].job).map (·.tolerance)).getD 0

/-- BUFFER_EMPTY (R78): an underrun more, up to 255; above the job's tolerance it forces a verify; the timer restarts. -/
def execBufferEmpty (n : LaneId) (s : State) : Host.Outcome State Fault Refusal :=
  if s.lanes[n].state = .burning then
    let limit := s.laneTolerance n
    .next ((s.modDiscAt (.tray n) fun d =>
      { d with
        underruns := min 255 (d.underruns + 1)
        forced := d.forced || decide (limit < min 255 (d.underruns + 1)) }).restartTimer n)
  else .next s

/-- WRITE_RECOVERED (R78): a verify is forced; the timer restarts. -/
def execWriteRecovered (n : LaneId) (s : State) : Host.Outcome State Fault Refusal :=
  if s.lanes[n].state = .burning then
    .next ((s.modDiscAt (.tray n) fun d => { d with forced := true }).restartTimer n)
  else .next s

/-- WRITE_ERROR (R78): the disc fails, ABORT is sent, the lane leaves BURNING for DONE with the failure charged; a chunk in flight
is dropped (R76). -/
def execWriteError (n : LaneId) (s : State) : Host.Outcome State Fault Refusal :=
  if s.lanes[n].state = .burning then
    let a := ((s.modDiscAt (.tray n) fun d => d.fail .writeError).sendAbort n).dropLaneChunk n
    .next ((((a.enterDone n).chargeLane n).oweStart).settle)
  else .next s

/-- FINALIZE-DONE in FINALIZING (R79), for the disc in the tray. -/
def State.finalized (s : State) (n : LaneId) (d : Disc) : State :=
  let j := s.jobOfOpt s.lanes[n].job
  if (j.map Job.isKilled).getD false then (s.modDiscAt (.tray n) fun d => d.fail .killed).enterDone n
  else
    let a := s.modDiscAt (.tray n) fun d => { d with phase := .burned }
    if verifyRequired d j then
      (a.modLane n fun l => { l with state := .verifyWait, timer := none }).joinVerifyQueue (.verify n d.serial)
    else (a.enterDone n).modLane n fun l => { l with failCount := 0 }

/-- FINALIZE_DONE (R79). -/
def execFinalizeDone (n : LaneId) (s : State) : Host.Outcome State Fault Refusal :=
  if s.lanes[n].state = .finalizing then
    match s.discAt (.tray n) with
    | none => .next s
    | some d => .next ((s.finalized n d).settle)
  else .next s

/-! ## Reads (R84, R118, R120 to R122) -/

/-- A matching reply of a verify: the index leaves the outstanding list, the next READ is asked for, and the verify passes when
nothing is outstanding (R120 to R122). -/
def State.verifyMatches (s : State) (n : LaneId) (k : Fin 2) (set : VerifySet) (next : Nat) (outstanding : List Nat)
    (matched index : Nat) : State :=
  let rest := outstanding.erase index
  let a := s.restartTimer n
  if next < set.size then
    (a.setCrc k (.verify set (next + 1) (rest ++ [set.index next]) (matched + 1))).sendDrive n (.read (set.index next))
  else
    let b := a.setCrc k (.verify set next rest (matched + 1))
    if rest.isEmpty then b.verifyPasses n else b

/-- A segment of a SOURCE load arrives: it is written, digested and counted, and the next READ is sent; the load ends with the last
one (R9, R84, R118). -/
def State.sourceArrives (s : State) (n : LaneId) (k : Fin 2) (i : ImageId) (next : Nat) (outstanding : List Nat)
    (digested index : Nat) (data : List Byte) : State :=
  let v := s.images[i]
  let a := ((s.setMem (writeSlot s.mem v.pages (segmentBytes * index) data)).storeDigest v index (crc32 data)).modImage i
    fun v => { v with received := v.received + data.length }
  let rest := outstanding.erase index
  let b := a.restartTimer n
  let c :=
    if next < v.segments then
      (b.setCrc k (.source (next + 1) (rest ++ [next]) (digested + 1))).sendDrive n (.read next)
    else b.setCrc k (.source next rest (digested + 1))
  if digested + 1 = v.segments then c.finishImageLoad i else c

/-- READ_DATA (R121, R84): for an outstanding index, a verify compares it and a source read stores it; data of another length than
the segment's is malformed (R194); any other READ-DATA is discarded (R69). -/
def execReadData (n : LaneId) (index : BitVec 24) (data : List Byte) (s : State) : Host.Outcome State Fault Refusal :=
  match s.laneChannel n with
  | none => .next s
  | some (_, k) =>
    match s.crc[k], s.lanes[n].state with
    | .verify set next outstanding matched, .verifying =>
      match s.verifyImage n with
      | none => .next s
      | some v =>
        if outstanding.contains index.toNat then
          if data.length = segmentLength v.size v.segments index.toNat then
            if pagesMapped v.pages (imagePages v.size) then
              .next ((if crc32 data = s.digest v index.toNat then
                  s.verifyMatches n k set next outstanding matched index.toNat
                else s.verifyFails n (.mismatch index.toNat) .verifyMismatch).settle)
            else .fault .unmappedPages
          else .next ((s.laneError n 255).settle)
        else .next s
    | .source next outstanding digested, .sourceRead =>
      match s.sourceSlotOf n with
      | none => .next s
      | some i =>
        if outstanding.contains index.toNat then
          if data.length = segmentLength s.images[i].size s.images[i].segments index.toNat then
            if pagesMapped s.images[i].pages (imagePages s.images[i].size) then
              .next ((s.sourceArrives n k i next outstanding digested index.toNat data).settle)
            else .fault .unmappedPages
          else .next ((s.laneError n 255).settle)
        else .next s
    | _, _ => .next s

/-- READ_FAIL (R121, R84, R10): for an outstanding index, a verify fails UNREADABLE and a source read fails its load; any other is
discarded (R69). -/
def execReadFail (n : LaneId) (index : BitVec 24) (s : State) : Host.Outcome State Fault Refusal :=
  match s.laneChannel n with
  | none => .next s
  | some (_, k) =>
    match s.crc[k], s.lanes[n].state with
    | .verify _ _ outstanding _, .verifying =>
      .next (if outstanding.contains index.toNat then
          (s.verifyFails n (.unreadable index.toNat) .unreadable).settle
        else s)
    | .source _ outstanding _, .sourceRead =>
      match s.sourceSlotOf n with
      | none => .next s
      | some i => .next (if outstanding.contains index.toNat then (s.failImageLoad i).settle else s)
    | _, _ => .next s

/-! ## Timers (R85) -/

/-- The timer of a lane in FAULT expires: a fault unload's opening has failed, any other move is given up (R87, R90, R91). A tray
that is open for the PICK of a fault unload stays so: nothing times it (R87). The drive still owes the answer to a command sent;
one held back is not sent any more (R68, log 9). -/
def State.faultTimeout (s : State) (n : LaneId) : State :=
  match s.lanes[n].faultMove with
  | some .unloadOpening => s.stuck n
  | some .unloadOpen => s.stopTimer n
  | _ => s.modLane n fun l => { l with timer := none, faultMove := none, heldBack := none }

/-- LANE_TIMER_EXPIRY (R85, R86, R87): a running timer expires (log 2); outside FAULT the lane faults with cause TIMEOUT and the
state that timed out. -/
def execLaneTimerExpiry (n : LaneId) (s : State) : Host.Outcome State Fault Refusal :=
  if s.lanes[n].timer.isNone then .next s
  else if s.lanes[n].state = .fault then .next ((s.faultTimeout n).settle)
  else .next ((s.laneFault n (.timeout s.lanes[n].state)).settle)

end Sys2Proof.Machine
end

