-- ==== Sys2Proof/Machine/FeedScheduling.lean ====
section
/-! DEFINITION. SET-FEED-BUDGET and the completion of a transfer on the read channel (Feed Scheduling, R103, R109, R110). -/

namespace Sys2Proof.Machine

/-- SET-FEED-BUDGET (R103): KEY_LOCKED in LOCK; the budget is clamped, a start computation follows, the REPLY carries it. -/
def setFeedBudget (r : CommandRecord) (s : State) : Reply × State :=
  if s.key = .lock then refuse .keyLocked s
  else
    let v := clampTo 32768 262144 (recordField r 2 4)
    acceptWith (leBytes 4 v) (s.setBudget v).oweStart

/-- SET_FEED_BUDGET (R103). -/
def execSetFeedBudget (p : Port) (s : State) : Host.Outcome State Fault Refusal := .next (s.takeCommand p 32 setFeedBudget)

/-- The data of segment `k` of an image (R104). -/
def State.segmentData (s : State) (v : ImageSlot) (k : Nat) : List Byte :=
  readSlot s.mem v.pages (segmentBytes * k) (segmentLength v.size v.segments k)

/-- A chunk reaches the lane that wants it: SEGMENT is sent and sent rises (R76, R109). -/
def State.segmentDone (s : State) (n : LaneId) (slot : ImageId) (k : Nat) : State :=
  (s.sendDrive n (.segment k (s.segmentData s.images[slot] k))).modLane n fun l => { l with sent := l.sent + 1 }

/-- The 65,536 bytes of quarter `q` of a band (R104). -/
def State.quarterData (s : State) (v : ArtworkSlot) (band q : Nat) : List Byte :=
  readSlot s.mem v.pages (bandBytes * band + segmentBytes * q) segmentBytes

/-- A quarter reaches its band buffer; the fourth makes it FULL, the fetch band rises, and a wait for this band ends in a try to
start it (R109, R163, R164). -/
def State.quarterDone (s : State) (slot : ArtworkId) (band q : Nat) (which : BufferId) : State :=
  let data := (s.printer.buffer which).data ++ s.quarterData s.artworks[slot] band q
  if q + 1 = 4 then
    let a := s.modPrinter fun v => { v.setBuffer which ⟨.full band, data⟩ with fetchBand := v.fetchBand + 1 }
    if (s.printer.state = .fetchWait || s.printer.state = .bandWait) && s.printer.nextBand = band then a.tryStartBand else a
  else s.modPrinter fun v => v.setBuffer which ⟨.filling band (q + 1), data⟩

/-- A chunk fills the outbound buffer of a port (R18, R109). -/
def State.chunkDone (s : State) (p : Port) (slot : ImageId) (k : Nat) : State :=
  match s.ports[p].stream with
  | .outbound i position _ =>
    s.modPort p fun r => { r with stream := .outbound i position (s.segmentData s.images[slot] k) }
  | _ => s

/-- The pages that a wanted transfer reads exist (R104). -/
def State.sourceMapped (s : State) : TransferTo → Bool
  | .lane _ slot _ => pagesMapped s.images[slot].pages (imagePages s.images[slot].size)
  | .band slot _ _ _ => pagesMapped s.artworks[slot].pages (artworkPages s.artworks[slot].bands)
  | .client _ slot _ => pagesMapped s.images[slot].pages (imagePages s.images[slot].size)

/-- What a completion delivers, on a channel that has become IDLE: the data to a recipient that wants it; else it is dropped, and
an ended outbound stream's reference is released (R109, R110, R18). -/
def State.deliverTransfer (s : State) (t : Transfer) : State :=
  if t.wanted then
    match t.recipient with
    | .lane n slot k => s.segmentDone n slot k
    | .band slot band q which => s.quarterDone slot band q which
    | .client p slot k => s.chunkDone p slot k
  else
    match t.recipient with
    | .client _ slot _ => s.releaseImage slot
    | .lane _ _ _ => s
    | .band _ _ _ _ => s

/-- TRANSFER_COMPLETION (R109, R108): the chunk is delivered, the printer may raise its next fetch request (R163), and the next
grant is chosen. With the channel IDLE there is no transfer to complete. -/
def execTransferCompletion (s : State) : Host.Outcome State Fault Refusal :=
  match s.channel with
  | none => .next s
  | some t =>
    if t.wanted && !s.sourceMapped t.recipient then .fault .unmappedPages
    else
      let a := (s.setChannel none).deliverTransfer t
      let b := if t.recipient.isBand then a.raiseFetch else a
      .next (b.oweGrant.settle)

end Sys2Proof.Machine
end

