-- ==== Sys2Proof/Machine/ImageMemory.lean ====
section
/-! DEFINITION. The Image Memory Manager's commands and its writing of staged bytes (Image Memory, R4 to R22). -/

namespace Sys2Proof.Machine

/-! ## Loads of images -/

/-- The checks that LOAD-IMAGE and LOAD-FROM-DISC share, in order: checks 3 to 7 of R4, 4 to 8 of R8. -/
def State.imageLoadBar (s : State) (i : ImageId) (p : Port) (size : Nat) : Option ResultCode :=
  let v := s.images[i]
  let ready := decide (v.state = .ready)
  if v.state = .loadWait || v.state = .loading then some .wrongState
  else if ready && s.barredFrom v.owner p then some .notOwner
  else if ready && v.isProtected then some .slotProtected
  else if ready && decide (0 < v.refcount) then some .inUse
  else if s.pagesForImage i < imagePages size then some .noSpace
  else none

/-- The effects of an accepted LOAD-IMAGE (R4, R5, R113). -/
def State.openImageLoad (s : State) (p : Port) (i : ImageId) (cls : MediaClass) (size : Nat) (noExport : Bool) : State :=
  ((s.acceptImageLoad i p .stream cls size noExport).modPort p fun r =>
    { r with stream := .image i, staging := [] }).joinVerifyQueue (.bulk p i)

/-- LOAD-IMAGE (R4). -/
def loadImage (p : Port) (r : CommandRecord) (s : State) : Reply × State :=
  onImage r s fun i =>
    match classOfCode (recordByte r 3) with
    | none => refuse .badParam s
    | some cls =>
      let size := recordField r 4 8
      if size = 0 || classLimit cls < size then refuse .badParam s
      else if s.streamOpen p then refuse .busy s
      else
        match s.imageLoadBar i p size with
        | some code => refuse code s
        | none => accept (s.openImageLoad p i cls size (decide (recordByte r 12 ≠ 0)))

/-- LOAD_IMAGE (R4). -/
def execLoadImage (p : Port) (s : State) : Host.Outcome State Fault Refusal := .next (s.takeCommand p 1 (loadImage p))

/-- The effects of an accepted LOAD-FROM-DISC (R8, R83, R113). -/
def State.openDiscLoad (s : State) (p : Port) (i : ImageId) (n : LaneId) (cls : MediaClass) (size : Nat) (noExport : Bool) :
    State :=
  ((s.acceptImageLoad i p (.lane n) cls size noExport).modLane n fun l => { l with state := .sourceWait }).joinVerifyQueue
    (.source n i)

/-- LOAD-FROM-DISC (R8). -/
def loadFromDisc (p : Port) (r : CommandRecord) (s : State) : Reply × State :=
  onImage r s fun i =>
    match indexBelow 8 (recordByte r 3) with
    | none => refuse .badParam s
    | some n =>
      if s.lanes[n].state ≠ .master then refuse .wrongState s
      else
        match s.lanes[n].master with
        | none => refuse .badParam s
        | some (cls, size) =>
          if size = 0 || classLimit cls < size then refuse .badParam s
          else
            match s.imageLoadBar i p size with
            | some code => refuse code s
            | none => accept (s.openDiscLoad p i n cls size (decide (recordByte r 4 ≠ 0)))

/-- LOAD_FROM_DISC (R8). -/
def execLoadFromDisc (p : Port) (s : State) : Host.Outcome State Fault Refusal := .next (s.takeCommand p 2 (loadFromDisc p))

/-! ## Deletion, protection, no-export -/

/-- The effects of an accepted DELETE-IMAGE (R13): a READY slot is freed, a load fails. -/
def State.removeImage (s : State) (i : ImageId) : State :=
  if s.images[i].state = .ready then (s.freeImage i).notifyOpt s.images[i].owner (.image i .deleted) else s.failImageLoad i

/-- DELETE-IMAGE (R13). -/
def deleteImage (p : Port) (r : CommandRecord) (s : State) : Reply × State :=
  onImage r s fun i =>
    let v := s.images[i]
    if v.state = .free then refuse .noSuch s
    else if s.barredFrom v.owner p then refuse .notOwner s
    else if v.isProtected then refuse .slotProtected s
    else if 0 < v.refcount then refuse .inUse s
    else accept (s.removeImage i)

/-- DELETE_IMAGE (R13). -/
def execDeleteImage (p : Port) (s : State) : Host.Outcome State Fault Refusal := .next (s.takeCommand p 3 (deleteImage p))

/-- PROTECT-IMAGE (R14). -/
def protectImage (p : Port) (r : CommandRecord) (s : State) : Reply × State :=
  onImage r s fun i =>
    let v := s.images[i]
    if v.state = .free then refuse .noSuch s
    else if v.state ≠ .ready then refuse .wrongState s
    else if v.owner ≠ some p then refuse .notOwner s
    else accept (s.modImage i fun v => { v with isProtected := true })

/-- PROTECT_IMAGE (R14). -/
def execProtectImage (p : Port) (s : State) : Host.Outcome State Fault Refusal := .next (s.takeCommand p 4 (protectImage p))

/-- UNPROTECT-IMAGE (R15). -/
def unprotectImage (p : Port) (r : CommandRecord) (s : State) : Reply × State :=
  onImage r s fun i =>
    let v := s.images[i]
    if v.state = .free then refuse .noSuch s
    else if v.owner ≠ some p then refuse .notOwner s
    else if s.key = .lock then refuse .keyLocked s
    else accept (s.modImage i fun v => { v with isProtected := false })

/-- UNPROTECT_IMAGE (R15). -/
def execUnprotectImage (p : Port) (s : State) : Host.Outcome State Fault Refusal :=
  .next (s.takeCommand p 5 (unprotectImage p))

/-- MARK-NO-EXPORT (R16). -/
def markNoExport (p : Port) (r : CommandRecord) (s : State) : Reply × State :=
  onImage r s fun i =>
    let v := s.images[i]
    if v.state = .free then refuse .noSuch s
    else if s.barredFrom v.owner p then refuse .notOwner s
    else accept (s.modImage i fun v => { v with noExport := true })

/-- MARK_NO_EXPORT (R16). -/
def execMarkNoExport (p : Port) (s : State) : Host.Outcome State Fault Refusal := .next (s.takeCommand p 6 (markNoExport p))

/-- The effects of an accepted EXPORT-IMAGE (R17, R108). -/
def State.openOutbound (s : State) (p : Port) (i : ImageId) : State :=
  ((s.modImage i fun v => { v with refcount := v.refcount + 1 }).modPort p fun r =>
    { r with stream := .outbound i 0 [], staging := [] }).oweGrant

/-- EXPORT-IMAGE (R17). -/
def exportImage (p : Port) (r : CommandRecord) (s : State) : Reply × State :=
  onImage r s fun i =>
    let v := s.images[i]
    if v.state ≠ .ready then refuse .wrongState s
    else if v.noExport then refuse .noExport s
    else if s.streamOpen p then refuse .busy s
    else accept (s.openOutbound p i)

/-- EXPORT_IMAGE (R17). -/
def execExportImage (p : Port) (s : State) : Host.Outcome State Fault Refusal := .next (s.takeCommand p 7 (exportImage p))

/-! ## Artwork -/

/-- Checks 3 to 6 of R20, in order. -/
def State.artworkLoadBar (s : State) (i : ArtworkId) (p : Port) (bands : Nat) : Option ResultCode :=
  let v := s.artworks[i]
  let ready := decide (v.state = .ready)
  if v.state = .loading then some .wrongState
  else if ready && s.barredFrom v.owner p then some .notOwner
  else if ready && decide (0 < v.refcount) then some .inUse
  else if s.pagesForArtwork i < artworkPages bands then some .noSpace
  else none

/-- The effects of an accepted LOAD-ARTWORK (R20, R2): old pages return before new ones are taken. -/
def State.openArtworkLoad (s : State) (p : Port) (i : ArtworkId) (bands : Nat) : State :=
  let old := s.artworks[i]
  let s' : State :=
    if old.state = .ready then (s.returnPages old.pages).notifyOpt old.owner (.artwork i .deleted) else s
  let (taken, left) := takePages s'.pool (artworkPages bands)
  ((s'.setPool left).modArtwork i fun v =>
    { v with
      state := .loading, owner := some p, bands := bands, pages := taken, received := 0, weights := ⟨0, 0, 0, 0⟩
      costs := ⟨0, 0, 0, 0⟩ }).modPort p fun r => { r with stream := .artwork i, staging := [] }

/-- LOAD-ARTWORK (R20). -/
def loadArtwork (p : Port) (r : CommandRecord) (s : State) : Reply × State :=
  onArtwork r s fun i =>
    let bands := recordByte r 3
    if bands = 0 || 64 < bands then refuse .badParam s
    else if s.streamOpen p then refuse .busy s
    else
      match s.artworkLoadBar i p bands with
      | some code => refuse code s
      | none => accept (s.openArtworkLoad p i bands)

/-- LOAD_ARTWORK (R20). -/
def execLoadArtwork (p : Port) (s : State) : Host.Outcome State Fault Refusal := .next (s.takeCommand p 8 (loadArtwork p))

/-- The effects of an accepted DELETE-ARTWORK (R22). -/
def State.removeArtwork (s : State) (i : ArtworkId) : State :=
  if s.artworks[i].state = .ready then (s.freeArtwork i).notifyOpt s.artworks[i].owner (.artwork i .deleted)
  else s.failArtworkLoad i

/-- DELETE-ARTWORK (R22). -/
def deleteArtwork (p : Port) (r : CommandRecord) (s : State) : Reply × State :=
  onArtwork r s fun i =>
    let v := s.artworks[i]
    if v.state = .free then refuse .noSuch s
    else if s.barredFrom v.owner p then refuse .notOwner s
    else if 0 < v.refcount then refuse .inUse s
    else accept (s.removeArtwork i)

/-- DELETE_ARTWORK (R22). -/
def execDeleteArtwork (p : Port) (s : State) : Host.Outcome State Fault Refusal := .next (s.takeCommand p 9 (deleteArtwork p))

/-! ## Writing staged bytes -/

/-- Where the writing of a bulk load stands: memory, and the fields of its CRC channel (R117). -/
structure BulkProgress where
  mem : List Host.Cell
  segment : Nat
  fill : Nat
  remainder : Word32
  deriving DecidableEq, Repr

/-- One staged byte is written at its offset and passed to the channel; a complete segment's CRC is stored as its digest entry
(R7, R117). -/
def bulkByte (v : ImageSlot) (x : BulkProgress) (b : Byte) : BulkProgress :=
  let mem := memWrite x.mem (slotAddress v.pages (segmentBytes * x.segment + x.fill)) b
  let remainder := crcByte x.remainder b
  if x.fill + 1 = segmentLength v.size v.segments x.segment then
    ⟨writeSlot mem v.pages (digestOffset v.size x.segment) (leBytes 4 (crcFinish remainder).toNat), x.segment + 1, 0, crcStart⟩
  else ⟨mem, x.segment, x.fill + 1, remainder⟩

/-- The channel that a slot's load holds. -/
def State.slotChannel (s : State) (i : ImageId) : Option (Fin 2) :=
  (s.verifyQueue.find? (VerifyEntry.ofSlot i)).bind (·.channel)

/-- IMAGE_STAGING_WRITE (R7, R117): the oldest staged bytes, at most `count` of them, are taken, written and digested; after the
last digest the load ends (log 26). -/
def execImageStagingWrite (p : Port) (count : Nat) (s : State) : Host.Outcome State Fault Refusal :=
  match s.ports[p].stream with
  | .image i =>
    let v := s.images[i]
    match s.slotChannel i with
    | none => .next s
    | some k =>
      match s.crc[k] with
      | .bulk segment fill remainder =>
        if pagesMapped v.pages (imagePages v.size) then
          let x := (s.ports[p].staging.take count).foldl (bulkByte v) ⟨s.mem, segment, fill, remainder⟩
          let a := ((s.setMem x.mem).setCrc k (.bulk x.segment x.fill x.remainder)).modPort p
            fun r => { r with staging := r.staging.drop count }
          .next ((if x.segment = v.segments then a.finishImageLoad i else a).settle)
        else .fault .unmappedPages
      | _ => .next s
  | _ => .next s

/-- The load of artwork ends: costs, READY, the stream closes, ARTWORK READY (R21). -/
def State.finishArtworkLoad (s : State) (p : Port) (i : ArtworkId) : State :=
  ((s.modArtwork i fun v => { v with costs := inkCosts v.weights, state := .ready }).closeStream p).notifyOpt
    s.artworks[i].owner (.artwork i .ready)

/-- ARTWORK_STAGING_WRITE (R21): the oldest staged bytes, at most `count` of them, are taken and written, and their drop weights
are added; after the last pixel byte the load ends (log 26). -/
def execArtworkStagingWrite (p : Port) (count : Nat) (s : State) : Host.Outcome State Fault Refusal :=
  match s.ports[p].stream with
  | .artwork i =>
    let v := s.artworks[i]
    if v.state = .loading then
      if pagesMapped v.pages (artworkPages v.bands) then
        let written := v.received - s.ports[p].staging.length
        let taken := s.ports[p].staging.take count
        let a := ((s.setMem (writeSlot s.mem v.pages written taken)).modArtwork i
          fun v => { v with weights := taken.foldl inkAddPixel v.weights }).modPort p
            fun r => { r with staging := r.staging.drop count }
        .next (if written + taken.length = v.bands * bandBytes then a.finishArtworkLoad p i else a)
      else .fault .unmappedPages
    else .next s
  | _ => .next s

end Sys2Proof.Machine
end

