-- ==== Sys2Proof/Machine/Jobs.lean ====
section
/-! DEFINITION. The Dispatcher's commands (Jobs and Dispatch, R28 to R38). -/

namespace Sys2Proof.Machine

/-! ## SUBMIT-JOB -/

/-- The artwork slot parameter: byte 3, 0xFF for none (Formats). -/
def artworkGiven (r : CommandRecord) : Bool := decide (recordByte r 3 ≠ 255)

/-- The artwork slot that SUBMIT-JOB names. -/
def submitArtwork (r : CommandRecord) : Option ArtworkId := if artworkGiven r then indexBelow 4 (recordByte r 3) else none

/-- The verify mode, with the sample interval brought into 2..64 (R31). -/
def submitVerify (r : CommandRecord) : Option VerifyMode :=
  match recordByte r 6 with
  | 0 => some .none
  | 1 => some (.sample (clampTo 2 64 (recordByte r 7)))
  | 2 => some .full
  | _ => none

/-- The underrun tolerance: 255 selects the default 2; 16..254 become 15 (R31). -/
def submitTolerance (r : CommandRecord) : Nat := if recordByte r 10 = 255 then 2 else clampTo 0 15 (recordByte r 10)

/-- The print quality a value-list byte names (Formats). -/
def qualityOf : Nat → Option Quality
  | 0 => some .draft
  | 1 => some .normal
  | 2 => some .fine
  | _ => none

/-- The print quality; NORMAL with no artwork slot (R31). -/
def submitQuality (r : CommandRecord) : Option Quality := if artworkGiven r then qualityOf (recordByte r 13) else some .normal

/-- Check 1 of R30 fails. -/
def submitMalformed (r : CommandRecord) : Bool :=
  (imageParam r).isNone || (artworkGiven r && (submitArtwork r).isNone) || decide (recordField r 4 2 = 0) ||
    decide (9999 < recordField r 4 2) || (submitVerify r).isNone || (submitQuality r).isNone

/-- Check 3 of R30 passes: both speeds are of the class's list, in order. -/
def speedsOk (cls : MediaClass) (lo hi : Nat) : Bool :=
  (classSpeeds cls).contains lo && (classSpeeds cls).contains hi && decide (lo ≤ hi)

/-- The FREE entry of the job table with the lowest index (R25). -/
def State.freeJobEntry (s : State) : Option TableId := tableIds.find? fun i => s.jobs[i].job.isNone

/-- The record of an admitted job (R26, R31, R32). -/
def submittedJob (p : Port) (r : CommandRecord) (i : ImageId) (verify : VerifyMode) (quality : Quality) (st : JobState)
    (rank : Nat) : Job where
  owner := p
  image := i
  artwork := submitArtwork r
  copies := recordField r 4 2
  good := 0
  failed := 0
  spoiled := 0
  inFlight := 0
  lanesHeld := 0
  verify := verify
  speedMin := recordByte r 8
  speedMax := recordByte r 9
  tolerance := submitTolerance r
  failLimit := recordByte r 11
  laneLimit := clampTo 1 8 (recordByte r 12)
  quality := quality
  state := st
  endReason := none
  rank := rank

/-- The effects of an accepted SUBMIT-JOB: steps 1 to 3 and 5 of R32; a job admitted ACTIVE owes a claim attempt. -/
def State.admitJob (s : State) (k : TableId) (j : Job) : State :=
  let a := (s.setJobEntry k { s.jobs[k] with job := some j }).modImage j.image fun v => { v with refcount := v.refcount + 1 }
  let b : State := match j.artwork with
    | none => a
    | some w => a.modArtwork w fun v => { v with refcount := v.refcount + 1 }
  if j.state = .active then b.oweClaim else b

/-- SUBMIT-JOB (R30, R32): the REPLY carries the handle and the state entered, QUEUED 0 or ACTIVE 1 (Formats). -/
def submitJob (p : Port) (r : CommandRecord) (s : State) : Reply × State :=
  if submitMalformed r then refuse .badParam s
  else
    match imageParam r, submitVerify r, submitQuality r with
    | some i, some verify, some quality =>
      match s.images[i].cls with
      | none => refuse .noSuch s
      | some cls =>
        if s.images[i].state = .free then refuse .noSuch s
        else if !speedsOk cls (recordByte r 8) (recordByte r 9) then refuse .badParam s
        else if ((submitArtwork r).map fun a => decide (s.artworks[a].state ≠ .ready)).getD false then refuse .notReady s
        else
          match s.freeJobEntry with
          | none => refuse .noSpace s
          | some k =>
            let st : JobState := if s.images[i].state = .ready then .active else .queued
            acceptWith [byteOf k.val, s.jobs[k].generation, byteOf (if st = .active then 1 else 0)]
              (s.admitJob k (submittedJob p r i verify quality st s.liveJobs.length))
    | _, _, _ => refuse .badParam s

/-- SUBMIT_JOB (R30). -/
def execSubmitJob (p : Port) (s : State) : Host.Outcome State Fault Refusal := .next (s.takeCommand p 16 (submitJob p))

/-! ## Job control -/

/-- PAUSE-JOB (R33). -/
def pauseJob (p : Port) (r : CommandRecord) (s : State) : Reply × State :=
  onJob r s fun h j =>
    if j.owner ≠ p then refuse .notOwner s
    else
      match j.state with
      | .queued | .active => accept ((s.modJob h fun j => { j with state := .paused }).notify j.owner (.jobPaused h))
      | .paused => accept s
      | .draining => refuse .wrongState s

/-- PAUSE_JOB (R33). -/
def execPauseJob (p : Port) (s : State) : Host.Outcome State Fault Refusal := .next (s.takeCommand p 17 (pauseJob p))

/-- A PAUSED job returns to the state its image allows; a job that becomes ACTIVE owes a claim attempt (R34). -/
def State.resume (s : State) (h : Handle) (j : Job) : State :=
  let ready := decide (s.images[j.image].state = .ready)
  let a := (s.modJob h fun j => { j with state := if ready then .active else .queued }).notify j.owner (.jobResumed h)
  if ready then a.oweClaim else a

/-- RESUME-JOB (R34). -/
def resumeJob (p : Port) (r : CommandRecord) (s : State) : Reply × State :=
  onJob r s fun h j =>
    if j.owner ≠ p then refuse .notOwner s
    else
      match j.state with
      | .paused => accept (s.resume h j)
      | .queued | .active => accept s
      | .draining => refuse .wrongState s

/-- RESUME_JOB (R34). -/
def execResumeJob (p : Port) (s : State) : Host.Outcome State Fault Refusal := .next (s.takeCommand p 18 (resumeJob p))

/-- CANCEL-JOB (R35, R36). -/
def cancelJob (p : Port) (r : CommandRecord) (s : State) : Reply × State :=
  onJob r s fun h j =>
    if s.barredFrom (some j.owner) p then refuse .notOwner s
    else if j.state = .draining then refuse .wrongState s
    else accept (s.drainJob h .cancelled)

/-- CANCEL_JOB (R35). -/
def execCancelJob (p : Port) (s : State) : Host.Outcome State Fault Refusal := .next (s.takeCommand p 19 (cancelJob p))

/-- KILL-JOB (R37, R38). -/
def killJob (p : Port) (r : CommandRecord) (s : State) : Reply × State :=
  onJob r s fun h j =>
    if s.barredFrom (some j.owner) p then refuse .notOwner s
    else if j.state = .draining && j.isKilled then accept s
    else accept (s.drainJob h .killed)

/-- KILL_JOB (R37). -/
def execKillJob (p : Port) (s : State) : Host.Outcome State Fault Refusal := .next (s.takeCommand p 20 (killJob p))

end Sys2Proof.Machine
end

