-- ==== Sys2Proof/Machine/LabelPrinting.lean ====
section
/-! DEFINITION. The Label Print Controller's commands, the reports of the printer mechanism and the printer's timer (Label
Printing, R158 to R175). -/

namespace Sys2Proof.Machine

/-! ## Commands -/

/-- CLEAR-PRINTER-FAULT (R173): the printer enters TRAY_OUT. -/
def clearPrinterFault (_ : CommandRecord) (s : State) : Reply × State :=
  if s.printer.state ≠ .fault then refuse .wrongState s
  else accept ((s.modPrinter fun v => { v with fault := none }).enterTrayOut)

/-- CLEAR_PRINTER_FAULT (R173). -/
def execClearPrinterFault (p : Port) (s : State) : Host.Outcome State Fault Refusal :=
  .next (s.takeCommand p 40 clearPrinterFault)

/-- SET-PRINT-PARAMS (R174): the three settings are clamped; the REPLY carries them. -/
def setPrintParams (r : CommandRecord) (s : State) : Reply × State :=
  let w0 := clampTo 120 260 (recordField r 2 2)
  let k := clampTo 0 15 (recordByte r 4)
  let tref := clampTo 40 160 (recordByte r 5)
  acceptWith (leBytes 2 w0 ++ [byteOf k, byteOf tref]) (s.modPrinter fun v => { v with w0 := w0, k := k, tref := tref })

/-- SET_PRINT_PARAMS (R174). -/
def execSetPrintParams (p : Port) (s : State) : Host.Outcome State Fault Refusal := .next (s.takeCommand p 41 setPrintParams)

/-- SET-INK-CAPACITY (R175): the capacity is clamped; the levels stay; the REPLY carries both. -/
def setInkCapacity (r : CommandRecord) (s : State) : Reply × State :=
  let v := clampTo 100 60000 (recordField r 2 2)
  acceptWith (leBytes 2 v ++ inkBytes s.printer.levels) (s.modPrinter fun x => { x with capacity := v })

/-- SET_INK_CAPACITY (R175). -/
def execSetInkCapacity (p : Port) (s : State) : Host.Outcome State Fault Refusal := .next (s.takeCommand p 42 setInkCapacity)

/-! ## Reports of the mechanism (R158) -/

/-- TRAY_DONE (R158, R159, R162, R169): ends TRAY_IN with a try to start the next band; ends TRAY_OUT when the tray reads home, else
the home reading is still awaited; discarded in the other states. -/
def execTrayDone (disc : Bool) (s : State) : Host.Outcome State Fault Refusal :=
  match s.printer.state with
  | .trayIn => .next (((s.modPrinter fun v => { v with timer := none }).tryStartBand).settle)
  | .trayOut =>
    .next ((if s.sensor .printerTrayHome then s.endTrayOut disc
      else s.modPrinter fun v => { v with outDone := some disc }).settle)
  | _ => .next s

/-- The buffer that holds the band being printed (R157). -/
def Printer.inUse (v : Printer) (band : Nat) : Option BufferId :=
  if v.bufferA.state = .inUse band then some .a else if v.bufferB.state = .inUse band then some .b else none

/-- The band being printed is done: its buffer becomes FREE, the next band is tried or the label is complete, and the freed buffer
lets the fetch go on (R165, R163, R169). -/
def State.bandEnds (s : State) (which : BufferId) : State :=
  let a := s.modPrinter fun v => { v.setBuffer which ⟨.free, []⟩ with timer := none, nextBand := v.nextBand + 1 }
  (if s.printer.nextBand + 1 = s.labelBands then a.completeLabel else a.tryStartBand).raiseFetch

/-- BAND_DONE (R165): for the band being printed; discarded for another band or in another state (R158). -/
def execBandDone (band : Byte) (s : State) : Host.Outcome State Fault Refusal :=
  if s.printer.state = .printing && s.printer.nextBand = band.toNat then
    match s.printer.inUse band.toNat with
    | none => .next s
    | some which => .next ((s.bandEnds which).settle)
  else .next s

/-- TEMP (R158, R167): the head reading takes the value; in THERMAL_PAUSE the timer restarts and a reading of 104 or below resumes
the label. -/
def execTemp (reading : Byte) (s : State) : Host.Outcome State Fault Refusal :=
  let a := s.modPrinter fun v => { v with head := reading.toNat }
  if s.printer.state = .thermalPause then
    let b := a.modPrinter fun v => { v with timer := some (Timer.load thermalLimit) }
    .next (if reading.toNat ≤ 104 then ((b.raise .printer (.thermal false reading.toNat)).tryStartBand).settle else b)
  else .next a

/-- An ERROR faults the printer in these states (R158). -/
def PrinterState.takesError : PrinterState → Bool
  | .trayIn | .fetchWait | .printing | .bandWait | .thermalPause | .trayOut => true
  | .empty | .inkHold | .finished | .fault => false

/-- An ERROR of the mechanism is taken with its code (R158, R172). -/
def State.printerErrorTaken (s : State) (code : Byte) : State :=
  if s.printer.state.takesError then (s.printerFaults (.error code)).settle else s

/-- PRINTER_ERROR (R158, R172). -/
def execPrinterError (code : Byte) (s : State) : Host.Outcome State Fault Refusal := .next (s.printerErrorTaken code)

/-- PRINTER_MALFORMED_REPORT (R158): taken as an ERROR with the code 255. -/
def execPrinterMalformedReport (s : State) : Host.Outcome State Fault Refusal := .next (s.printerErrorTaken 255)

/-! ## The printer's timer -/

/-- The states whose timer faults the printer (R172). -/
def PrinterState.timesOut : PrinterState → Bool
  | .trayIn | .printing | .thermalPause | .trayOut => true
  | .empty | .inkHold | .fetchWait | .bandWait | .finished | .fault => false

/-- PRINTER_TIMEOUT (R172): the running timer expires in TRAY_IN, PRINTING, THERMAL_PAUSE or TRAY_OUT (log 2). -/
def execPrinterTimeout (s : State) : Host.Outcome State Fault Refusal :=
  if s.printer.timer.isSome && s.printer.state.timesOut then
    .next ((s.printerFaults (.timeout s.printer.state)).settle)
  else .next s

/-- BAND_WAIT_EXPIRY (R166): the wait has passed its limit: the label is degraded and the timer stops (log 2). -/
def execBandWaitExpiry (s : State) : Host.Outcome State Fault Refusal :=
  if s.printer.state = .bandWait && s.printer.timer.isSome then
    .next ((s.modDiscAt .printer fun d => { d with degraded := true }).modPrinter fun v => { v with timer := none })
  else .next s

end Sys2Proof.Machine
end

