-- ==== Sys2Proof/Machine/MediaHandling.lean ====
section
/-! DEFINITION. The Media Handler's commands and the reports of the arm driver (Media Handling, R127 to R146; R53, R62). -/

namespace Sys2Proof.Machine

/-! ## Commands -/

/-- The arm serves a FEED whose source bin is this bin (R145). -/
def State.feedsFrom (s : State) (which : Bin) : Bool := decide (s.arm.sourceBin = some which)

/-- SET-BIN-CLASS (R145): a claim attempt and a selection follow. -/
def setBinClass (r : CommandRecord) (s : State) : Reply × State :=
  match binOfCode (recordByte r 2), classOfCode (recordByte r 3) with
  | some which, some cls =>
    if s.feedsFrom which then refuse .wrongState s
    else accept ((s.modBin which fun v => { v with cls := cls }).oweClaim).oweSelect
  | _, _ => refuse .badParam s

/-- SET_BIN_CLASS (R145). -/
def execSetBinClass (p : Port) (s : State) : Host.Outcome State Fault Refusal := .next (s.takeCommand p 33 setBinClass)

/-- CLEAR-BIN-FAULT (R146): on a bin in fault a claim attempt and a selection follow; on another nothing changes (log 20). -/
def clearBinFault (r : CommandRecord) (s : State) : Reply × State :=
  match binOfCode (recordByte r 2) with
  | none => refuse .badParam s
  | some which =>
    if (s.binRecord which).fault then
      accept ((s.modBin which fun v => { v with fault := false }).oweClaim).oweSelect
    else accept s

/-- CLEAR_BIN_FAULT (R146). -/
def execClearBinFault (p : Port) (s : State) : Host.Outcome State Fault Refusal := .next (s.takeCommand p 34 clearBinFault)

/-- CLEAR-ARM-FAULT (R143, R128): the arm homes. -/
def clearArmFault (_ : CommandRecord) (s : State) : Reply × State :=
  if s.arm.state ≠ .fault then refuse .wrongState s
  else if s.gripCount ≠ 0 then refuse .wrongState s
  else
    accept ((s.modArm fun v =>
      { v with state := .homing, fault := none, position := .unknown, byClear := true }).issueStep .home)

/-- CLEAR_ARM_FAULT (R143). -/
def execClearArmFault (p : Port) (s : State) : Host.Outcome State Fault Refusal := .next (s.takeCommand p 35 clearArmFault)

/-! ## A disc is created or put down -/

/-- The serial after this one: after 4,294,967,295 comes 1 (R51). -/
def nextSerial (v : Word32) : Word32 := if v = 0xFFFFFFFF then 1 else v + 1

/-- The record that a PICK at a bin creates (R52, R53). -/
def createdDisc (serial : Word32) (n : LaneId) (job : Option Handle) : Disc where
  serial := serial
  job := job
  lane := n
  cls := none
  capacity := 0
  location := .arm
  phase := if job.isNone then .failed else .fed
  speed := none
  underruns := 0
  forced := false
  verify := none
  reason := if job.isNone then some .laneFault else none
  degraded := false
  printed := false
  destination := if job.isNone then some .reject else none
  fate := none

/-- A PICK at a bin leaves one disc: its record is created in the lowest FREE entry for the FEED's lane, the FEED takes the serial,
and the delivery begins (R53, R133). A FEED whose lane has lost its claim gives a record that is FAILED at once. -/
def State.createDisc (s : State) (r : Request) : State :=
  match tableIds.find? fun i => s.discs[i].isNone with
  | none => s
  | some i =>
    let d := createdDisc s.serial (r.origin.getD 0) (r.lane.bind fun n => s.lanes[n].job)
    let a := (s.setDisc i (some d)).setSerial (nextSerial s.serial)
    ((a.modRequest r.age fun x => { x with disc := some s.serial }).modArm fun v => { v with sourceBin := none }).armContinue

/-- A third failed attempt: the bin faults and the FEED is set aside (R134, R139). -/
def State.binFaults (s : State) (which : Bin) : State :=
  ((s.modBin which fun v => { v with fault := true }).raise .bin (.bin .fault which)).setAside

/-- The PICK at a bin is done; the grip count decides (R133, R134). -/
def State.pickedAtBin (s : State) (which : Bin) : State :=
  match s.gripCount with
  | 0 => if 3 ≤ s.arm.attempts then s.binFaults which else s.armContinue
  | 1 =>
    match s.served with
    | none => s.armContinue
    | some r => s.createDisc r
  | _ => (s.modArm fun v => { v with returning := true }).armContinue

/-- The PICK at a tray or at the printer is done (R136, R137): a count of 1 moves the record to the arm; any other faults the arm
with cause PICK, and with a count of 2 the record follows the disc before the notice. -/
def State.pickedAt (s : State) (loc : Location) : State :=
  match s.gripCount with
  | 1 => (s.pickedUp loc s.arm.request).armContinue
  | 0 => s.armFaults .pick (some .pick)
  | _ => (s.pickedUp loc s.arm.request).armFaults .pick (some .pick)

/-- A completed PICK at the arm's position. -/
def State.pickDone (s : State) : State :=
  match s.arm.position with
  | .known (.bin which) => s.pickedAtBin which
  | .known (.tray n) => s.pickedAt (.tray n)
  | .known .printer => s.pickedAt .printer
  | _ => s.armContinue

/-- The discs of a double pick are back in the bin: PICK again, or the bin faults after the third attempt (R134). -/
def State.putBack (s : State) (which : Bin) : State :=
  let a := s.modArm fun v => { v with returning := false }
  if 3 ≤ s.arm.attempts then a.binFaults which else a.armContinue

/-- The request that the arm serves, if it serves one, leaves the queue. -/
def State.dropServed (s : State) : State :=
  match s.arm.request with
  | none => s
  | some age => (s.dropRequest age).modArm fun v => { v with request := none }

/-- The PLACE of a FEED's disc at the tray is done (R135). -/
def State.placedInTray (s : State) (n : LaneId) : State :=
  (((s.modDiscAt .arm fun d => { d with location := .tray n }).dropServed).lanePlaced n).armToIdle

/-- The PLACE at the printer is done: the printer makes its ink check (R137, R160). -/
def State.placedOnPrinter (s : State) : State :=
  ((s.modDiscAt .arm fun d => { d with location := .printer, phase := .printing }).inkCheck).armToIdle

/-- The PLACE in the output or the reject bin is done: the record closes with its fate (R138, R62). -/
def State.placedInBin (s : State) (fate : Fate) : State := ((s.dropServed).closeDiscAt .arm (some fate) none).armToIdle

/-- A completed PLACE at the arm's position. -/
def State.placeDone (s : State) : State :=
  match s.arm.position with
  | .known (.bin which) => s.putBack which
  | .known (.tray n) => s.placedInTray n
  | .known .printer => s.placedOnPrinter
  | .known .output => s.placedInBin .output
  | .known .reject => s.placedInBin .reject
  | _ => s.armContinue

/-! ## Reports of the arm driver -/

/-- The running step ends and its timer stops (R127). -/
def State.endStep (s : State) : State := s.modArm fun v => { v with step := none, timer := none }

/-- ARM_STEP_DONE (R127, R128, R133 to R138): the running step is complete; with none running the report is discarded. HOME is
complete when the arm-home sensor reads home too. -/
def execArmStepDone (s : State) : Host.Outcome State Fault Refusal :=
  match s.arm.step with
  | none => .next s
  | some .home => .next ((if s.sensor .armHome then s.homed else s.modArm fun v => { v with homeDone := true }).settle)
  | some (.travel p) => .next (((s.endStep.modArm fun v => { v with position := .known p }).armContinue).settle)
  | some .pick => .next ((s.endStep.pickDone).settle)
  | some .place => .next ((s.endStep.placeDone).settle)

/-- ARM_DRIVER_FAULT (R140): the arm faults with cause DRIVER; with no step running the report is discarded (R127). -/
def execArmDriverFault (s : State) : Host.Outcome State Fault Refusal :=
  match s.arm.step with
  | none => .next s
  | some v => .next ((s.armFaults .driver (some v)).settle)

/-- ARM_STEP_TIMEOUT (R140): the running step's timer expires (log 2). -/
def execArmStepTimeout (s : State) : Host.Outcome State Fault Refusal :=
  match s.arm.step with
  | none => .next s
  | some v => .next ((s.armFaults .timeout (some v)).settle)

end Sys2Proof.Machine
end

