-- ==== Sys2Proof/Machine/Resets.lean ====
section
/-! DEFINITION. The three resets: power-on reset, link reset with its release, and TOWER-RESET (R150, R190, R191). -/

namespace Sys2Proof.Machine

/-- POWER_ON_RESET (R150; R1, R3, R19, R50, R66, R95, R111, R125, R147, R156, R176): every block takes its power-on state, all
three ports are link-reset, and the printer sends the TRAY-OUT of its tray-home check (R159). The link-reset lines keep their
levels (log 17); the commands that wait to be taken by the model wait on. -/
def execPowerOnReset (s : State) : Host.Outcome State Fault Refusal :=
  .next { State.reset with
    pending := s.pending, ports := s.ports.map fun r => PortRecord.afterReset r.resetHeld }

/-- The commands that a link reset leaves at their blocks: the outstanding one when it is not taken yet (R190 step 1, log 7). A
command whose code names no command stands at no block. -/
def PortRecord.leftAtBlock (r : PortRecord) : List CommandRecord :=
  match r.outstanding with
  | some ⟨command, none⟩ => if knownCommand command then [command] else []
  | _ => []

/-- Steps 1 to 3 and 6 of a link reset, at the port record (R190). -/
def PortRecord.linkReset (r : PortRecord) : PortRecord :=
  { PortRecord.afterReset true with orphans := r.orphans ++ r.leftAtBlock, stream := r.stream, staging := r.staging }

/-- Steps 4 and 5 of a link reset: the inbound load fails, or the outbound stream ends (R190, R23). -/
def State.resetStream (s : State) (p : Port) : State :=
  match s.ports[p].stream with
  | .none => s
  | .image i => s.failImageLoad i
  | .artwork i => s.failArtworkLoad i
  | .outbound _ _ _ => s.endOutbound p

/-- LINK_RESET (R190, R23): the port's link-reset line becomes asserted; nothing happens when it is asserted already (log 17). -/
def execLinkReset (p : Port) (s : State) : Host.Outcome State Fault Refusal :=
  .next (if s.ports[p].resetHeld then s else ((s.modPort p PortRecord.linkReset).resetStream p).settle)

/-- LINK_RESET_RELEASE (R190): reset held is cleared and the port takes transactions again. -/
def execLinkResetRelease (p : Port) (s : State) : Host.Outcome State Fault Refusal :=
  .next (s.modPort p fun r => { r with resetHeld := false })

/-- Kill the live jobs of a list of entries in turn; a job already draining with reason KILLED is passed by (R50, R37). -/
def State.killJobs : List TableId → State → State
  | [], s => s
  | i :: rest, s =>
    State.killJobs rest
      (match s.jobs[i].job with
        | none => s
        | some j => if j.isKilled then s else s.drainJob ⟨i, s.jobs[i].generation⟩ .killed)

/-- The Image Memory Manager's part of TOWER-RESET (R24): the image loads in ascending slot, then the artwork loads in ascending
slot, then the exports in ascending port. DESIGN CHOICE (log 34): R24 and R191 give these no order. -/
def State.failEveryLoad (s : State) : State :=
  State.endOutbounds portIds (State.failArtworkLoads artworkIds (State.failImageLoads imageIds s))

/-- The effect of TOWER-RESET: the Dispatcher's part and the Image Memory Manager's, each an event with its follow-up computations,
in the order the operand gives (log 5); then one start computation (R191, R111; log 13). -/
def towerResetEffect (loadsFirst : Bool) (s : State) : State :=
  (if loadsFirst then State.killJobs tableIds s.failEveryLoad.settlePart
    else (State.killJobs tableIds s).settlePart.failEveryLoad).oweStart

/-- TOWER_RESET (R191): KEY_LOCKED unless the key is in SERVICE. -/
def towerReset (loadsFirst : Bool) (_ : CommandRecord) (s : State) : Reply × State :=
  if s.key = .service then accept (towerResetEffect loadsFirst s) else refuse .keyLocked s

/-- TOWER_RESET (R191). -/
def execTowerReset (p : Port) (loadsFirst : Bool) (s : State) : Host.Outcome State Fault Refusal :=
  .next (s.takeCommand p 50 (towerReset loadsFirst))

end Sys2Proof.Machine
end

