-- ==== Sys2Proof/Machine/Sensors.lean ====
section
/-! DEFINITION. The sensor scan: debouncing, the start-up, and what each change does at the sensor's consumers (Sensors and
Operator Controls, R148 to R155; R128, R129, R141, R142, R144, R159, R161, R170, R172). -/

namespace Sys2Proof.Machine

/-! ## Consumers (R151) -/

/-- A bin's present sensor changes (R144). -/
def State.binPresence (s : State) (which : Bin) (on : Bool) : State :=
  let a := s.modBin which fun v => { v with present := on }
  if on then (((a.raise .bin (.bin .present which)).oweClaim).oweSelect).oweArm else a.raise .bin (.bin .empty which)

/-- The output bin's full sensor changes (R144, R138). -/
def State.outputChange (s : State) (on : Bool) : State :=
  let a := (s.setOutputFull on).raise .outputReject (.outputFull on)
  if on then a else (a.oweSelect).oweArm

/-- The reject bin's full sensor changes (R144, R138). -/
def State.rejectChange (s : State) (on : Bool) : State :=
  let a := (s.setRejectFull on).raise .outputReject (.rejectFull on)
  if on then a else (a.oweSelect).oweArm

/-- The door closes at the Media Handler: a HELD arm returns to its resume state and works out its next step afresh; an arm that is
HOMING with no step issues HOME (R129, R128, log 14). -/
def State.doorReleases (s : State) : State :=
  let a : State :=
    if s.arm.state = .held then s.modArm fun v => { v with state := v.resume.getD .serving, resume := none } else s
  if a.arm.state = .homing && a.arm.step.isNone then a.issueStep .home
  else if s.arm.state = .held then a.armContinue
  else a

/-- The door sensor changes (R155, R129). -/
def State.doorChange (s : State) (on : Bool) : State :=
  let a := s.raise .door (.door on)
  if on then a.doorReleases else a

/-- The key position is derived from the two contacts (R153). -/
def State.deriveKey (s : State) : State :=
  let v := keyOf (s.sensor .keyLock) (s.sensor .keyService)
  if v = s.key then s else (s.setKey v).raise .key (.key v s.key)

/-- The grip state has changed to no disc: a drop, or the operator's removal of a disc from a faulted arm (R141, R142). -/
def State.gripEmptied (s : State) : State :=
  if s.arm.state = .fault then s.loseArmDisc
  else if (s.discAt .arm).isSome && s.arm.step ≠ some .place then s.armFaults .drop s.arm.step
  else s

/-- The grip state has changed to disc: after a PICK fault the record follows the disc (R136, R137). -/
def State.gripFilled (s : State) : State :=
  if s.arm.state = .fault && (s.arm.fault.map (·.cause)) = some .pick then s.followPick else s

/-- A grip sensor has changed; `before` is the grip count before the change (R152). -/
def State.gripChange (s : State) (before : Nat) : State :=
  if before ≠ 0 && s.gripCount = 0 then s.gripEmptied
  else if before = 0 && s.gripCount ≠ 0 then s.gripFilled
  else s

/-- The arm-home sensor changes to home while only that is awaited: homing is complete (R128). -/
def State.homeReads (s : State) : State := if s.arm.step = some .home && s.arm.homeDone then s.homed else s

/-- The lid sensor changes to open while the printer is PRINTING: it faults (R172). -/
def State.lidOpens (s : State) : State := if s.printer.state = .printing then s.printerFaults .lid else s

/-- The printer tray reads home while only that is awaited: the move out ends (R159, R169). -/
def State.printerHomeReads (s : State) : State :=
  match s.printer.state, s.printer.outDone with
  | .trayOut, some disc => s.endTrayOut disc
  | _, _ => s

/-- A present edge in INK_HOLD repeats the ink check (R161). -/
def State.recheckInk (s : State) : State := if s.printer.state = .inkHold then s.inkCheck else s

/-- The black cartridge's sensor changes (R170). -/
def State.blackChange (s : State) (on : Bool) : State :=
  if on then
    (s.modPrinter fun v => { v with levels := { v.levels with k := v.capacity }, blackLow := false }).recheckInk
  else s.modPrinter fun v => { v with levels := { v.levels with k := 0 } }

/-- The colour cartridge's sensor changes (R170). -/
def State.colourChange (s : State) (on : Bool) : State :=
  if on then
    (s.modPrinter fun v =>
      { v with levels := ⟨v.capacity, v.capacity, v.capacity, v.levels.k⟩, colourLow := false }).recheckInk
  else s.modPrinter fun v => { v with levels := ⟨0, 0, 0, v.levels.k⟩ }

/-- The blocks that consume a sensor take its change (R151). During the start-up the key contacts give no position (R150). -/
def State.consume (s : State) (startUp : Bool) (before : Nat) (v : Sensor) (on : Bool) : State :=
  match v with
  | .binAPresent => s.binPresence .a on
  | .binBPresent => s.binPresence .b on
  | .outputFull => s.outputChange on
  | .rejectFull => s.rejectChange on
  | .doorClosed => s.doorChange on
  | .keyLock | .keyService => if startUp then s else s.deriveKey
  | .gripOne | .gripTwo => s.gripChange before
  | .armHome => if on then s.homeReads else s
  | .lidClosed => if on then s else s.lidOpens
  | .printerTrayHome => if on then s.printerHomeReads else s
  | .blackPresent => s.blackChange on
  | .colourPresent => s.colourChange on

/-! ## Debouncing (R149) -/

/-- Change a sensor's record. -/
def State.modSensor (s : State) (v : Sensor) (f : SensorRecord → SensorRecord) : State :=
  { s with sensors := s.sensors.set (sensorPlace v) (f s.sensors[sensorPlace v]) }

/-- The change event of a sensor: its debounced state takes the reading's value, and the consumers act, as one event with its
follow-up computations (R149, R151). -/
def State.changeEvent (s : State) (startUp : Bool) (v : Sensor) (on : Bool) : State :=
  ((s.modSensor v fun r => { r with active := on }).consume startUp s.gripCount v on).settle

/-- The reading of a sensor in a scan (R148). -/
def readingOf (readings : BitVec 32) (v : Sensor) : Bool := readings.getLsbD (sensorBit v)

/-- The third differing reading in a row: the sensor's debounced state changes at this scan (R149). -/
def SensorRecord.changes (r : SensorRecord) (on : Bool) : Bool := decide (on ≠ r.active) && decide (2 ≤ r.count)

/-- The disagreement count after a reading (R149). -/
def SensorRecord.counted (r : SensorRecord) (on : Bool) : SensorRecord :=
  if on = r.active || r.changes on then { r with count := 0 } else { r with count := r.count + 1 }

/-- The counts of the sensors of a list take their readings. -/
def State.countReadings (readings : BitVec 32) : List Sensor → State → State
  | [], s => s
  | v :: rest, s => State.countReadings readings rest (s.modSensor v fun r => r.counted (readingOf readings v))

/-- The change events of a list of sensors, in turn. -/
def State.changeEvents (startUp : Bool) (readings : BitVec 32) : List Sensor → State → State
  | [], s => s
  | v :: rest, s => State.changeEvents startUp readings rest (s.changeEvent startUp v (readingOf readings v))

/-- The sensors whose debounced states change at this scan, in the order they are taken: those the operand names first, then the
others in the order of the matrix (R149, log 5). -/
def State.changedSensors (s : State) (readings : BitVec 32) (order : List Sensor) : List Sensor :=
  let changes := fun v => s.sensors[sensorPlace v].changes (readingOf readings v)
  order.dedup.filter changes ++ allSensors.filter fun v => changes v && !order.contains v

/-- SENSOR_SCAN (R148 to R155): one scan of the matrix. After the third scan of the start-up the key position is derived (R150). -/
def execSensorScan (readings : BitVec 32) (order : List Sensor) (s : State) : Host.Outcome State Fault Refusal :=
  let startUp := decide (s.scans < 3)
  let changed := s.changedSensors readings order
  let a := State.countReadings readings allSensors (s.setScans (min 3 (s.scans + 1)))
  let b := State.changeEvents startUp readings changed a
  .next (if s.scans = 2 then b.deriveKey else b)

end Sys2Proof.Machine
end

