-- ==== Sys2Proof/Machine/Dispatch.lean ====
section
/-! DEFINITION. The dispatch: one arm for each command, one direct call of its meaning. -/

namespace Sys2Proof.Machine

def exec (i : Instr) (s : State) : Host.Outcome State Fault Refusal :=
  match i with
  | .powerOnReset => Sys2Proof.Machine.execPowerOnReset s
  | .linkReset p => Sys2Proof.Machine.execLinkReset p s
  | .linkResetRelease p => Sys2Proof.Machine.execLinkResetRelease p s
  | .putCommands p records => Sys2Proof.Machine.execPutCommands p records s
  | .takeNotices p n => Sys2Proof.Machine.execTakeNotices p n s
  | .bulkWrite p bytes => Sys2Proof.Machine.execBulkWrite p bytes s
  | .bulkRead p n => Sys2Proof.Machine.execBulkRead p n s
  | .linkStatus p => Sys2Proof.Machine.execLinkStatus p s
  | .unknownTransaction p => Sys2Proof.Machine.execUnknownTransaction p s
  | .replyReturn p => Sys2Proof.Machine.execReplyReturn p s
  | .badCommand p => Sys2Proof.Machine.execBadCommand p s
  | .loadImage p => Sys2Proof.Machine.execLoadImage p s
  | .loadFromDisc p => Sys2Proof.Machine.execLoadFromDisc p s
  | .deleteImage p => Sys2Proof.Machine.execDeleteImage p s
  | .protectImage p => Sys2Proof.Machine.execProtectImage p s
  | .unprotectImage p => Sys2Proof.Machine.execUnprotectImage p s
  | .markNoExport p => Sys2Proof.Machine.execMarkNoExport p s
  | .exportImage p => Sys2Proof.Machine.execExportImage p s
  | .loadArtwork p => Sys2Proof.Machine.execLoadArtwork p s
  | .deleteArtwork p => Sys2Proof.Machine.execDeleteArtwork p s
  | .submitJob p => Sys2Proof.Machine.execSubmitJob p s
  | .pauseJob p => Sys2Proof.Machine.execPauseJob p s
  | .resumeJob p => Sys2Proof.Machine.execResumeJob p s
  | .cancelJob p => Sys2Proof.Machine.execCancelJob p s
  | .killJob p => Sys2Proof.Machine.execKillJob p s
  | .openTray p => Sys2Proof.Machine.execOpenTray p s
  | .closeTray p => Sys2Proof.Machine.execCloseTray p s
  | .laneOnline p => Sys2Proof.Machine.execLaneOnline p s
  | .laneOffline p => Sys2Proof.Machine.execLaneOffline p s
  | .clearLane p => Sys2Proof.Machine.execClearLane p s
  | .setFeedBudget p => Sys2Proof.Machine.execSetFeedBudget p s
  | .setBinClass p => Sys2Proof.Machine.execSetBinClass p s
  | .clearBinFault p => Sys2Proof.Machine.execClearBinFault p s
  | .clearArmFault p => Sys2Proof.Machine.execClearArmFault p s
  | .clearPrinterFault p => Sys2Proof.Machine.execClearPrinterFault p s
  | .setPrintParams p => Sys2Proof.Machine.execSetPrintParams p s
  | .setInkCapacity p => Sys2Proof.Machine.execSetInkCapacity p s
  | .setNoticeMask p => Sys2Proof.Machine.execSetNoticeMask p s
  | .setAttention p => Sys2Proof.Machine.execSetAttention p s
  | .towerReset p loadsFirst => Sys2Proof.Machine.execTowerReset p loadsFirst s
  | .attentionHoldExpiry p => Sys2Proof.Machine.execAttentionHoldExpiry p s
  | .imageStagingWrite p count => Sys2Proof.Machine.execImageStagingWrite p count s
  | .artworkStagingWrite p count => Sys2Proof.Machine.execArtworkStagingWrite p count s
  | .ident n buffer burnsL burnsM => Sys2Proof.Machine.execIdent n buffer burnsL burnsM s
  | .trayState n pos => Sys2Proof.Machine.execTrayState n pos s
  | .media n report => Sys2Proof.Machine.execMedia n report s
  | .credit n freed committed => Sys2Proof.Machine.execCredit n freed committed s
  | .bufferEmpty n => Sys2Proof.Machine.execBufferEmpty n s
  | .writeRecovered n => Sys2Proof.Machine.execWriteRecovered n s
  | .writeError n => Sys2Proof.Machine.execWriteError n s
  | .finalizeDone n => Sys2Proof.Machine.execFinalizeDone n s
  | .readData n index data => Sys2Proof.Machine.execReadData n index data s
  | .readFail n index => Sys2Proof.Machine.execReadFail n index s
  | .error n code => Sys2Proof.Machine.execError n code s
  | .driveMalformedMessage n => Sys2Proof.Machine.execDriveMalformedMessage n s
  | .laneTimerExpiry n => Sys2Proof.Machine.execLaneTimerExpiry n s
  | .transferCompletion => Sys2Proof.Machine.execTransferCompletion s
  | .armStepDone => Sys2Proof.Machine.execArmStepDone s
  | .armDriverFault => Sys2Proof.Machine.execArmDriverFault s
  | .armStepTimeout => Sys2Proof.Machine.execArmStepTimeout s
  | .sensorScan readings order => Sys2Proof.Machine.execSensorScan readings order s
  | .trayDone disc => Sys2Proof.Machine.execTrayDone disc s
  | .bandDone band => Sys2Proof.Machine.execBandDone band s
  | .temp reading => Sys2Proof.Machine.execTemp reading s
  | .printerError code => Sys2Proof.Machine.execPrinterError code s
  | .printerMalformedReport => Sys2Proof.Machine.execPrinterMalformedReport s
  | .printerTimeout => Sys2Proof.Machine.execPrinterTimeout s
  | .bandWaitExpiry => Sys2Proof.Machine.execBandWaitExpiry s

end Sys2Proof.Machine
end

