-- ==== Sys2Proof/Safety.lean ====
section
/-! DEFINITION. What counts as a safe run: the machine goes on, and the invariants that the manual's whole-machine rules
state; with the two words in which statements speak of a command that waits at its block and of its reply. -/

namespace Sys2Proof.Machine

/-- The machine goes on: no fault and no refusal. -/
def goesOn : Host.Outcome State Fault Refusal → Bool
  | .next _ => true
  | .fault _ => false
  | .refused _ => false

/-! ## Commands at their blocks -/

/-- The command `r`, of this code, stands at its block for port `p`: it is outstanding and not taken yet, and no command of the
code is left at the block from before a link reset (R180, R190). -/
abbrev State.commandWaits (s : State) (p : Port) (r : CommandRecord) (code : Nat) : Prop :=
  s.ports[p].orphanFor code = none ∧ s.ports[p].outstanding = some ⟨r, none⟩ ∧ recordCode r = code

/-- The command outstanding at port `p` has its result on its way back (R180). -/
def State.replied (s : State) (p : Port) (v : Reply) : State := s.modPort p fun r => r.withResult v

/-- An image load of port `p` may take the slot, and `base` is the state in which its pages are taken: a FREE slot as it stands; a
READY slot of the port, or of any port with the key in SERVICE, neither protected nor in use, once its pages have returned and
its owner has been told (R4, R5, R8). -/
abbrev State.imageSlotTaken (s : State) (p : Port) (i : ImageId) (base : State) : Prop :=
  (s.images[i].state = .free ∧ base = s) ∨
    ∃ q, s.images[i].state = .ready ∧ s.images[i].owner = some q ∧ (q = p ∨ s.key = .service) ∧
      s.images[i].isProtected = false ∧ s.images[i].refcount = 0 ∧
      base = (s.setPool (s.pool ++ s.images[i].pages)).notify q (.image i .deleted)

/-- Likewise for an artwork load (R20). -/
abbrev State.artworkSlotTaken (s : State) (p : Port) (i : ArtworkId) (base : State) : Prop :=
  (s.artworks[i].state = .free ∧ base = s) ∨
    ∃ q, s.artworks[i].state = .ready ∧ s.artworks[i].owner = some q ∧ (q = p ∨ s.key = .service) ∧
      s.artworks[i].refcount = 0 ∧ base = (s.setPool (s.pool ++ s.artworks[i].pages)).notify q (.artwork i .deleted)

/-- The port that brings a command: the client whose transaction, command or line it is; none for the other parties. -/
def portOf : Instr → Option Port
  | .linkReset p | .linkResetRelease p | .putCommands p _ | .takeNotices p _ | .bulkWrite p _ | .bulkRead p _ | .linkStatus p
  | .unknownTransaction p | .replyReturn p | .badCommand p | .loadImage p | .loadFromDisc p | .deleteImage p | .protectImage p
  | .unprotectImage p | .markNoExport p | .exportImage p | .loadArtwork p | .deleteArtwork p | .submitJob p | .pauseJob p
  | .resumeJob p | .cancelJob p | .killJob p | .openTray p | .closeTray p | .laneOnline p | .laneOffline p | .clearLane p
  | .setFeedBudget p | .setBinClass p | .clearBinFault p | .clearArmFault p | .clearPrinterFault p | .setPrintParams p
  | .setInkCapacity p | .setNoticeMask p | .setAttention p | .towerReset p _ | .attentionHoldExpiry p
  | .imageStagingWrite p _ | .artworkStagingWrite p _ => some p
  | .powerOnReset | .ident _ _ _ _ | .trayState _ _ | .media _ _ | .credit _ _ _ | .bufferEmpty _ | .writeRecovered _
  | .writeError _ | .finalizeDone _ | .readData _ _ _ | .readFail _ _ | .error _ _ | .driveMalformedMessage _
  | .laneTimerExpiry _ | .transferCompletion | .armStepDone | .armDriverFault | .armStepTimeout | .sensorScan _ _ | .trayDone _
  | .bandDone _ | .temp _ | .printerError _ | .printerMalformedReport | .printerTimeout | .bandWaitExpiry => none

/-! ## The pages -/

/-- The page numbers of an ordered list of pages (R1). -/
def pagesOf (extents : List Extent) : List Nat := extents.flatMap fun e => List.range' e.start e.len

/-- Every page held by an image slot or an artwork slot, and every page in the pool (R1). -/
def State.allPages (s : State) : List Nat :=
  pagesOf s.pool ++ s.images.toList.flatMap (fun v => pagesOf v.pages) ++ s.artworks.toList.flatMap fun v => pagesOf v.pages

/-- Each of the 16,384 pages stands in exactly one place, and a FREE slot holds none (R1, R3, R19). -/
def State.pagesPlaced (s : State) : Prop :=
  s.allPages.Perm (List.range pageCount) ∧ (∀ i : ImageId, s.images[i].state = .free → s.images[i].pages = []) ∧
    ∀ i : ArtworkId, s.artworks[i].state = .free → s.artworks[i].pages = []

/-- Image memory is in its canonical form. -/
def State.memWf (s : State) : Prop := Memory.wf s.mem = true

/-! ## Between events -/

/-- No follow-up computation is owed between events (log 12). -/
abbrev State.settled (s : State) : Prop := s.due = Due.nothing

/-! ## Ranges -/

/-- Every port record keeps to the ranges of R177. -/
def PortRecord.inRange (r : PortRecord) : Bool :=
  decide (r.commands.length ≤ 16) && decide (r.notices.length ≤ 32) && decide (r.lost ≤ 65535) && decide (1 ≤ r.threshold) &&
    decide (r.threshold ≤ 32) && decide (r.hold ≤ 1000) && decide (r.staging.length ≤ stagingBytes)

/-- The three port records keep to the ranges of R177. -/
def State.portsInRange (s : State) : Prop := ∀ p : Port, s.ports[p].inRange = true

/-- The settings that commands clamp stay in their ranges (R96, R103, R157, R174, R175). -/
def State.settingsInRange (s : State) : Prop :=
  32768 ≤ s.budget ∧ s.budget ≤ 262144 ∧ 120 ≤ s.printer.w0 ∧ s.printer.w0 ≤ 260 ∧ s.printer.k ≤ 15 ∧ 40 ≤ s.printer.tref ∧
    s.printer.tref ≤ 160 ∧ 100 ≤ s.printer.capacity ∧ s.printer.capacity ≤ 60000

/-- A lane's fail count is at most 3, and while it burns its credits are at most the buffer size of its drive (R67, R77). -/
def Lane.inRange (l : Lane) : Bool :=
  decide (l.failCount ≤ 3) &&
    (!decide (l.state = .burning) || decide (l.credits ≤ (l.identity.map (·.buffer)).getD 0))

/-- Every lane record keeps to its ranges. -/
def State.lanesInRange (s : State) : Prop := ∀ n : LaneId, s.lanes[n].inRange = true

/-! ## Jobs, channels, the arm -/

/-- The ranks of the live jobs are 0 up to their number less 1, each used once (R27). -/
def State.ranksInOrder (s : State) : Prop := (s.liveJobs.map fun e => e.2.rank).Perm (List.range s.liveJobs.length)

/-- No two entries of the verify queue hold one CRC channel, and a channel is FREE exactly when no entry holds it (R112, R114). -/
def State.channelsMatch (s : State) : Prop :=
  (s.verifyQueue.filterMap (·.channel)).Nodup ∧
    ∀ k : Fin 2, s.crc[k] = .free ↔ ∀ e ∈ s.verifyQueue, e.channel ≠ some k

/-- A step runs only in HOMING or SERVING, with its timer; a resume state, HOMING or SERVING, is held exactly in HELD, a fault cause
exactly in FAULT (R126, R127, R129). -/
def Arm.consistent (a : Arm) : Bool :=
  (a.step.isSome == a.timer.isSome) && (a.step.isNone || decide (a.state = .homing) || decide (a.state = .serving)) &&
    (a.resume.isSome == decide (a.state = .held)) && decide (a.resume ∈ [none, some .homing, some .serving]) &&
    (a.fault.isSome == decide (a.state = .fault))

end Sys2Proof.Machine
end

