-- ==== Sys2Proof/Certificates/Slice0/Obligations.lean ====
section
/-! DEFINITION. The statements for the provers: what each command does to the state, where it is refused, and the invariants that
every step keeps. A statement about a client command speaks of the command that waits at its block (`commandWaits`), and its next
state carries the reply (`replied`); `settle` stands for the follow-up computations that an event owes (R46, R101, R108, R114,
R129, R132), which `FollowUpsLeaveTheRestAlone` frames. -/

open Sys2Proof Sys2Proof.Machine

/-! ## The step and the resets -/

/-- A step takes the command at the front of the queue and runs it with the queue's rest. -/
def Obligations.StepRunsFrontCommand : Prop :=
  ∀ (c : Instr) (rest : List Instr) (s : State), step { s with pending := c :: rest } = exec c { s with pending := rest }

/-- The model's choice of log 2: on an empty queue one millisecond goes by; the clock and the running guards move, nothing else.
-/
def Obligations.IdleStepIsOneMillisecond : Prop :=
  ∀ s : State, s.pending = [] →
    step s = .next { s with
      now := s.now + 1
      lanes := s.lanes.map fun l => { l with timer := l.timer.map fun t => ⟨t.limit, min t.limit (t.elapsed + 1)⟩ }
      arm := { s.arm with timer := s.arm.timer.map fun t => ⟨t.limit, min t.limit (t.elapsed + 1)⟩ }
      printer := { s.printer with timer := s.printer.timer.map fun t => ⟨t.limit, min t.limit (t.elapsed + 1)⟩ } }

/-- POWER_ON_RESET leaves every field at its power-on value; a port whose link-reset line is asserted stays held (the contents
of memory, the pool's order, the line's level and the model's own counters of milliseconds and ages are the model's choices of
logs 3, 4, 17 and 23; the waiting commands wait on). -/
def Obligations.PowerOnResetSetsEveryField : Prop :=
  ∀ s : State, ∃ t, exec .powerOnReset s = .next t ∧ t.pending = s.pending ∧ t.now = 0 ∧ t.nextAge = 0 ∧
    (∀ p : Port, t.ports[p] = ⟨[], none, [], [], 0, 0, 1, 0, false, .none, [], s.ports[p].resetHeld⟩) ∧
    t.mem = [] ∧ t.pool = [⟨0, 16384⟩] ∧
    (∀ i : ImageId, t.images[i] = ⟨.free, none, none, none, 0, 0, [], 0, 0, false, false⟩) ∧
    (∀ i : ArtworkId, t.artworks[i] = ⟨.free, none, 0, [], 0, ⟨0, 0, 0, 0⟩, ⟨0, 0, 0, 0⟩, 0⟩) ∧
    (∀ i : TableId, t.jobs[i] = ⟨0, none⟩) ∧ t.rotation = 2 ∧ (∀ i : TableId, t.discs[i] = none) ∧ t.serial = 1 ∧
    (∀ n : LaneId, t.lanes[n] =
      ⟨.offline, false, none, none, none, false, none, [], none, 0, 0, 0, 0, 0, false, none, none, none, none⟩) ∧
    t.budget = 196608 ∧ t.startQueue = [] ∧ t.channel = none ∧ t.verifyQueue = [] ∧ (∀ k : Fin 2, t.crc[k] = .free) ∧
    t.arm = ⟨.homing, none, .unknown, none, none, none, none, 0, none, false, false, false⟩ ∧ t.requests = [] ∧
    t.binA = ⟨.m, false, false⟩ ∧ t.binB = ⟨.l, false, false⟩ ∧ t.outputFull = false ∧ t.rejectFull = false ∧
    (∀ v : Fin 14, t.sensors[v] = ⟨false, 0⟩) ∧ t.scans = 0 ∧ t.key = .lock ∧
    t.printer = ⟨.trayOut, 0, 0, ⟨.free, []⟩, ⟨.free, []⟩, none, 255, 180, 3, 80, ⟨0, 0, 0, 0⟩, 4000, false, false,
      some ⟨5000, 0⟩, none, none⟩ ∧ t.out = [.printer [2]] ∧ t.due = Due.nothing

/-- LINK_RESET clears the port record, leaves an untaken command at its block and holds the port; its release lets transactions
in again. Without a stream nothing else changes. With an inbound stream the load fails after the clearing, so that its notices
are the first: an artwork's slot is freed with ARTWORK FAILED, an image load fails as FailedImageLoadReleasesEverything says. An
export ends: its reference is released at once, or, with its chunk in flight, is left to the completion, which no one wants any
more. -/
def Obligations.LinkResetClearsThePort : Prop :=
  (∀ (p : Port) (s : State), s.settled → s.ports[p].resetHeld = false →
    let cleared (stream : Stream) (staging : List Byte) : State := s.modPort p fun r =>
      { commands := [], outstanding := none, orphans := r.orphans ++ r.leftAtBlock, notices := [], lost := 0, mask := 0
        threshold := 1, hold := 0, line := false, stream := stream, staging := staging, resetHeld := true }
    (s.ports[p].stream = .none → exec (.linkReset p) s = .next (cleared .none s.ports[p].staging)) ∧
    (∀ i : ImageId, s.ports[p].stream = .image i → s.images[i].state = .loadWait ∨ s.images[i].state = .loading →
      exec (.linkReset p) s = .next (((cleared (.image i) s.ports[p].staging).failImageLoad i).settle)) ∧
    (∀ i : ArtworkId, s.ports[p].stream = .artwork i → s.artworks[i].state = .loading → s.artworks[i].owner = some p →
      exec (.linkReset p) s = .next ((((cleared .none []).setPool (s.pool ++ s.artworks[i].pages)).modArtwork i
        fun _ => ArtworkSlot.freed).notify p (.artwork i .failed))) ∧
    ∀ i position buffer, s.ports[p].stream = .outbound i position buffer →
      (∀ slot k, s.channel = some ⟨.client p slot k, true⟩ →
        exec (.linkReset p) s = .next ((cleared .none []).setChannel (some ⟨.client p slot k, false⟩))) ∧
      ((∀ slot k, s.channel ≠ some ⟨.client p slot k, true⟩) →
        exec (.linkReset p) s = .next ((cleared .none []).modImage i fun v => { v with refcount := v.refcount - 1 }))) ∧
  ∀ (p : Port) (s : State), exec (.linkResetRelease p) s = .next (s.modPort p fun r => { r with resetHeld := false })

/-- TOWER_RESET with the key in SERVICE: no load and no export is left, every live job has the end reason KILLED, READY images
stay READY with their protection, and the follow-up computations come after, a start computation among them; with the key
elsewhere it is refused KEY_LOCKED. -/
def Obligations.TowerResetEndsLoadsAndKillsJobs : Prop :=
  ∀ (p : Port) (loadsFirst : Bool) (r : CommandRecord) (s : State), s.commandWaits p r 50 →
    (s.key = .service → ∃ u : State, exec (.towerReset p loadsFirst) s = .next (u.settle.replied p ⟨.ok, []⟩) ∧
      (∀ i : ImageId, u.images[i].state ≠ .loadWait ∧ u.images[i].state ≠ .loading) ∧
      (∀ i : ArtworkId, u.artworks[i].state ≠ .loading) ∧
      (∀ q : Port, ∀ i position buffer, u.ports[q].stream ≠ .outbound i position buffer) ∧
      (∀ e ∈ u.liveJobs, e.2.endReason = some .killed) ∧
      (∀ i : ImageId, s.images[i].state = .ready →
        u.images[i].state = .ready ∧ u.images[i].isProtected = s.images[i].isProtected ∧
          u.images[i].noExport = s.images[i].noExport) ∧
      u.mem = s.mem ∧ u.budget = s.budget ∧ u.serial = s.serial ∧ u.key = s.key ∧ u.sensors = s.sensors ∧
      u.due.start = true) ∧
    (s.key ≠ .service → s.settled → exec (.towerReset p loadsFirst) s = .next (s.replied p ⟨.keyLocked, []⟩))

/-! ## Transactions -/

/-- PUT_COMMANDS: the records that fit join the queue, the count is answered, and the oldest command becomes outstanding if none
is; while reset held is set the answer is 0 and nothing changes. TAKE_NOTICES: the oldest notices are answered and removed, a
due LOST notice joins, and the line is deasserted on an empty queue and tested on another one. That this test takes a threshold
which a SET-ATTENTION without its REPLY has just lowered, and so can assert the line though no notice joins, is the model's choice
(log 8). -/
def Obligations.CommandsInAndNoticesOut : Prop :=
  (∀ (p : Port) (records : List CommandRecord) (s : State),
      (s.ports[p].resetHeld = true → exec (.putCommands p records) s = .next (s.emit (.answer p [0]))) ∧
      (s.ports[p].resetHeld = false → exec (.putCommands p records) s =
        .next ((s.modPort p fun r =>
          match r.outstanding, r.commands ++ records.take (16 - r.commands.length) with
          | none, first :: rest => { r with commands := rest, outstanding := some ⟨first, none⟩ }
          | _, q => { r with commands := q }).emit
            (.answer p [BitVec.ofNat 8 (min records.length (16 - s.ports[p].commands.length))])))) ∧
  ∀ (p : Port) (n : Byte) (s : State),
    (s.ports[p].resetHeld = true → exec (.takeNotices p n) s = .next (s.emit (.answer p [0]))) ∧
    (s.ports[p].resetHeld = false → exec (.takeNotices p n) s =
      .next ((s.modPort p fun r =>
        let left := r.notices.drop n.toNat
        let due := decide (0 < r.lost) && decide (left.length < 32)
        let queue := if due then left ++ [(.lost r.lost, s.now)] else left
        { r with
          notices := queue
          lost := if due then 0 else r.lost
          line := match queue with
            | [] => false
            | (_, t) :: _ =>
              r.line || decide (r.threshold ≤ queue.length) || (decide (0 < r.hold) && decide (r.hold ≤ s.now - t)) }).emit
        (.answer p (BitVec.ofNat 8 (s.ports[p].notices.take n.toNat).length ::
          ((s.ports[p].notices.take n.toNat).map fun v => noticeRecord v.1).flatten))))

/-- BULK_WRITE: the smallest of the bytes offered, the staging space and the bytes still due joins the staging area; with no
load that takes bytes the count is 0 and nothing changes. BULK_READ: bytes leave the outbound buffer and the position advances;
an emptied buffer before the image's end asks for the next chunk; at the image's size the export ends and gives its reference
up; with no export the count is 0. -/
def Obligations.BulkStreamsCarryTheirBytes : Prop :=
  (∀ (p : Port) (bytes : List Byte) (s : State), s.ports[p].resetHeld = false →
      (∀ i : ImageId, s.ports[p].stream = .image i → s.images[i].state = .loading →
        exec (.bulkWrite p bytes) s =
          let k := min bytes.length (min (65536 - s.ports[p].staging.length) (s.images[i].size - s.images[i].received))
          .next (((s.modPort p fun r => { r with staging := r.staging ++ bytes.take k }).modImage i
            fun v => { v with received := v.received + k }).emit (.answer p (leBytes 4 k)))) ∧
      (∀ i : ArtworkId, s.ports[p].stream = .artwork i → s.artworks[i].state = .loading →
        exec (.bulkWrite p bytes) s =
          let k := min bytes.length
            (min (65536 - s.ports[p].staging.length) (s.artworks[i].bands * 262144 - s.artworks[i].received))
          .next (((s.modPort p fun r => { r with staging := r.staging ++ bytes.take k }).modArtwork i
            fun v => { v with received := v.received + k }).emit (.answer p (leBytes 4 k)))) ∧
      (∀ i : ImageId, s.ports[p].stream = .image i → s.images[i].state = .loadWait →
        exec (.bulkWrite p bytes) s = .next (s.emit (.answer p [0, 0, 0, 0]))) ∧
      (s.ports[p].stream = .none → exec (.bulkWrite p bytes) s = .next (s.emit (.answer p [0, 0, 0, 0])))) ∧
  ∀ (p : Port) (n : Word32) (s : State), s.settled → s.ports[p].resetHeld = false →
    (∀ i position buffer, s.ports[p].stream = .outbound i position buffer → 0 < n.toNat → n.toNat < buffer.length →
      position + n.toNat < s.images[i].size →
      exec (.bulkRead p n) s = .next ((s.modPort p fun r =>
        { r with stream := .outbound i (position + n.toNat) (buffer.drop n.toNat) }).emit
          (.answer p (leBytes 4 n.toNat ++ buffer.take n.toNat)))) ∧
    (∀ i position buffer, s.ports[p].stream = .outbound i position buffer → 0 < buffer.length → buffer.length ≤ n.toNat →
      position + buffer.length < s.images[i].size →
      exec (.bulkRead p n) s = .next (((s.modPort p fun r =>
        { r with stream := .outbound i (position + buffer.length) [] }).oweGrant.settle).emit
          (.answer p (leBytes 4 buffer.length ++ buffer)))) ∧
    (∀ i position buffer, s.ports[p].stream = .outbound i position buffer → 0 < buffer.length → buffer.length ≤ n.toNat →
      s.images[i].size ≤ position + buffer.length →
      exec (.bulkRead p n) s = .next (((s.modImage i fun v => { v with refcount := v.refcount - 1 }).modPort p fun r =>
        { r with stream := .none, staging := [] }).emit (.answer p (leBytes 4 buffer.length ++ buffer)))) ∧
    (s.ports[p].stream = .none → exec (.bulkRead p n) s = .next (s.emit (.answer p [0, 0, 0, 0])))

/-- LINK_STATUS answers the counts, the marks and the state of the stream, and an unknown transaction a count of 0; neither
changes anything else. While reset held is set the answer carries the record as it stands: the model's reading of R178 (log 24). -/
def Obligations.LinkStatusReportsThePort : Prop :=
  ∀ (p : Port) (s : State),
    (exec (.linkStatus p) s = .next (s.emit (.answer p
      ([BitVec.ofNat 8 s.ports[p].commands.length, BitVec.ofNat 8 s.ports[p].notices.length] ++ leBytes 2 s.ports[p].lost ++
        [BitVec.ofNat 8 ((if s.ports[p].line then 1 else 0) + 2 * (if s.ports[p].resetHeld then 1 else 0))] ++
        match s.ports[p].stream with
        | .none => [0, 0, 0, 0, 0, 0, 0, 0, 0, 0, 0, 0, 0, 0, 0]
        | .image i =>
          [1, BitVec.ofNat 8 i.val, if s.images[i].state = .loading then 1 else 0] ++
            leBytes 8 (s.images[i].size - s.images[i].received) ++ [0, 0, 0, 0]
        | .artwork i =>
          [2, BitVec.ofNat 8 i.val, 0] ++ leBytes 8 (s.artworks[i].bands * 262144 - s.artworks[i].received) ++ [0, 0, 0, 0]
        | .outbound i position buffer =>
          [3, BitVec.ofNat 8 i.val, 0] ++ leBytes 8 (s.images[i].size - position) ++ leBytes 4 buffer.length)))) ∧
    exec (.unknownTransaction p) s = .next (s.emit (.answer p [0]))

/-- REPLY_RETURN: the REPLY joins the notices with the line's test (and, after a SET-ATTENTION, the test against the new
settings, log 8), the command ceases to be outstanding and the oldest queued one becomes it. BAD_COMMAND: a command whose code
no command has is answered BAD_COMMAND at once, and the next one is passed. -/
def Obligations.RepliesPassTheNextCommand : Prop :=
  (∀ (p : Port) (command : CommandRecord) (v : Reply) (s : State), s.ports[p].outstanding = some ⟨command, some v⟩ →
      exec (.replyReturn p) s = .next (s.modPort p fun r =>
        let joined := r.join (.reply v.code (recordTag command) command[0] v.data (command.toList.drop 2)) s.now
        let tested := if recordCode command = 49 then joined.testLine s.now else joined
        match r.commands with
        | [] => { tested with outstanding := none }
        | first :: rest => { tested with commands := rest, outstanding := some ⟨first, none⟩ })) ∧
  ∀ (p : Port) (command : CommandRecord) (s : State), s.ports[p].outstanding = some ⟨command, none⟩ →
    commandCodes.contains (recordCode command) = false →
    exec (.badCommand p) s = .next (s.modPort p fun r =>
      let joined := r.join (.reply .badCommand (recordTag command) command[0] [] (command.toList.drop 2)) s.now
      match r.commands with
      | [] => { joined with outstanding := none }
      | first :: rest => { joined with commands := rest, outstanding := some ⟨first, none⟩ })

/-- SET_NOTICE_MASK: the groups of the set parameter join the mask, then those of the clear parameter leave it; the reply
carries the mask. SET_ATTENTION: threshold and hold time are clamped, never refused, and returned; the line is tested at the
REPLY (log 8). The hold time's expiry asserts the line when the oldest notice's age has reached the hold time; a younger oldest
notice, an empty queue or a hold time of 0 leaves the port as it is (log 2). -/
def Obligations.PortSettingsAreTaken : Prop :=
  (∀ (p : Port) (r : CommandRecord) (s : State), s.settled → s.commandWaits p r 48 →
      exec (.setNoticeMask p) s = .next
        ((s.modPort p fun v => { v with mask := (v.mask ||| r[2]) &&& ~~~r[3] }).replied p
          ⟨.ok, [(s.ports[p].mask ||| r[2]) &&& ~~~r[3]]⟩)) ∧
  (∀ (p : Port) (r : CommandRecord) (s : State), s.settled → s.commandWaits p r 49 →
    exec (.setAttention p) s =
      let threshold := max 1 (min 32 (recordByte r 2))
      let hold := min 1000 (recordByte r 3 + 256 * recordByte r 4)
      .next ((s.modPort p fun v => { v with threshold := threshold, hold := hold }).replied p
        ⟨.ok, BitVec.ofNat 8 threshold :: leBytes 2 hold⟩)) ∧
  ∀ (p : Port) (s : State),
    (∀ v queued rest, s.ports[p].notices = (v, queued) :: rest → 0 < s.ports[p].hold → s.ports[p].hold ≤ s.now - queued →
      exec (.attentionHoldExpiry p) s = .next (s.modPort p fun v => { v with line := true })) ∧
    (∀ v queued rest, s.ports[p].notices = (v, queued) :: rest → s.now - queued < s.ports[p].hold →
      exec (.attentionHoldExpiry p) s = .next s) ∧
    (s.ports[p].notices = [] ∨ s.ports[p].hold = 0 → exec (.attentionHoldExpiry p) s = .next s)

/-! ## Images and artwork -/

/-- LOAD_IMAGE into a FREE slot, or in place of a READY image: the slot, its pages, the stream and the verify queue.
LOAD_FROM_DISC of a master likewise: size and class are those of the master report, the lane waits for a channel. A replaced
image's pages return first and its owner is told; its no-export flag stays. Which pages the pool gives up, and where returned
pages join it, is the model's choice (log 4: R1 gives the pool no order). -/
def Obligations.ImageLoadsTakeTheSlot : Prop :=
  (∀ (p : Port) (r : CommandRecord) (i : ImageId) (cls : MediaClass) (size : Nat) (s base : State), s.commandWaits p r 1 →
      imageParam r = some i → classOfCode (recordByte r 3) = some cls → size = recordField r 4 8 → 0 < size →
      size ≤ classLimit cls → s.ports[p].stream = .none → s.imageSlotTaken p i base → imagePages size ≤ pagesIn base.pool →
      exec (.loadImage p) s =
        let pages := takePages base.pool (imagePages size)
        let u := (base.setPool pages.2).modImage i fun v =>
          { v with
            state := .loadWait, owner := some p, source := some .stream, cls := some cls, size := size
            segments := segmentCount size, pages := pages.1, received := 0, isProtected := false
            noExport := v.noExport || decide (recordByte r 12 ≠ 0) }
        .next ((((u.modPort p fun v => { v with stream := .image i, staging := [] }).joinVerifyQueue (.bulk p i)).settle).replied
          p ⟨.ok, []⟩)) ∧
  ∀ (p : Port) (r : CommandRecord) (i : ImageId) (n : LaneId) (cls : MediaClass) (size : Nat) (s base : State),
    s.commandWaits p r 2 → imageParam r = some i → indexBelow 8 (recordByte r 3) = some n → s.lanes[n].state = .master →
    s.lanes[n].master = some (cls, size) → 0 < size → size ≤ classLimit cls → s.imageSlotTaken p i base →
    imagePages size ≤ pagesIn base.pool →
    exec (.loadFromDisc p) s =
      let pages := takePages base.pool (imagePages size)
      let u := (base.setPool pages.2).modImage i fun v =>
        { v with
          state := .loadWait, owner := some p, source := some (.lane n), cls := some cls, size := size
          segments := segmentCount size, pages := pages.1, received := 0, isProtected := false
          noExport := v.noExport || decide (recordByte r 4 ≠ 0) }
      .next ((((u.modLane n fun l => { l with state := .sourceWait }).joinVerifyQueue (.source n i)).settle).replied p ⟨.ok, []⟩)

/-- LOAD_IMAGE's refusals, in order: the parameters, an open stream, and the slot's checks. LOAD_FROM_DISC's, in order: the
parameters, a lane that is not in MASTER, a recorded size of 0 or above its class's limit, and the same slot checks. A refused
command changes nothing but its reply. -/
def Obligations.LoadImageRefusalsInOrder : Prop :=
  ∀ (p : Port) (r : CommandRecord) (s : State), s.settled →
    let slotRefusal (i : ImageId) (size : Nat) : Option ResultCode :=
      if s.images[i].state = .loadWait ∨ s.images[i].state = .loading then some .wrongState
      else if s.images[i].state = .ready ∧ s.images[i].owner ≠ some p ∧ s.key ≠ .service then some .notOwner
      else if s.images[i].state = .ready ∧ s.images[i].isProtected = true then some .slotProtected
      else if s.images[i].state = .ready ∧ 0 < s.images[i].refcount then some .inUse
      else if pagesIn s.pool + (if s.images[i].state = .ready then pagesIn s.images[i].pages else 0) < imagePages size then
        some .noSpace
      else none
    (s.commandWaits p r 1 →
      let size := recordField r 4 8
      ((imageParam r = none ∨ classOfCode (recordByte r 3) = none ∨ size = 0 ∨
          ∃ cls, classOfCode (recordByte r 3) = some cls ∧ classLimit cls < size) →
        exec (.loadImage p) s = .next (s.replied p ⟨.badParam, []⟩)) ∧
      ∀ i cls, imageParam r = some i → classOfCode (recordByte r 3) = some cls → 0 < size → size ≤ classLimit cls →
        ∀ code, (if s.ports[p].stream ≠ .none then some .busy else slotRefusal i size) = some code →
          exec (.loadImage p) s = .next (s.replied p ⟨code, []⟩)) ∧
    (s.commandWaits p r 2 →
      (7 < recordByte r 2 ∨ 7 < recordByte r 3 → exec (.loadFromDisc p) s = .next (s.replied p ⟨.badParam, []⟩)) ∧
      ∀ (i : ImageId) (n : LaneId), i.val = recordByte r 2 → n.val = recordByte r 3 →
        (s.lanes[n].state ≠ .master → exec (.loadFromDisc p) s = .next (s.replied p ⟨.wrongState, []⟩)) ∧
        ∀ cls size, s.lanes[n].state = .master → s.lanes[n].master = some (cls, size) →
          ∀ code, (if size = 0 ∨ classLimit cls < size then some .badParam else slotRefusal i size) = some code →
            exec (.loadFromDisc p) s = .next (s.replied p ⟨code, []⟩))

/-- DELETE_IMAGE: its refusals in order; a READY slot is freed, its pages return and its owner is told; a load fails. That the
pages join the end of the pool is the model's choice (log 4: R1 gives the pool no order). -/
def Obligations.DeleteImageChecksThenFrees : Prop :=
  ∀ (p : Port) (r : CommandRecord) (s : State), s.settled → s.commandWaits p r 3 →
    (7 < recordByte r 2 → exec (.deleteImage p) s = .next (s.replied p ⟨.badParam, []⟩)) ∧
    ∀ i : ImageId, imageParam r = some i →
      (∀ code, (if s.images[i].state = .free then some ResultCode.noSuch
          else if s.images[i].owner ≠ some p ∧ s.key ≠ .service then some .notOwner
          else if s.images[i].isProtected = true then some .slotProtected
          else if 0 < s.images[i].refcount then some .inUse
          else none) = some code → exec (.deleteImage p) s = .next (s.replied p ⟨code, []⟩)) ∧
      (∀ q, s.images[i].owner = some q → (q = p ∨ s.key = .service) → s.images[i].isProtected = false →
        s.images[i].refcount = 0 →
        (s.images[i].state = .ready → exec (.deleteImage p) s =
          .next ((((s.setPool (s.pool ++ s.images[i].pages)).modImage i fun _ => ImageSlot.freed).notify q
            (.image i .deleted)).replied p ⟨.ok, []⟩)) ∧
        (s.images[i].state = .loadWait ∨ s.images[i].state = .loading →
          exec (.deleteImage p) s = .next ((s.failImageLoad i).settle.replied p ⟨.ok, []⟩)))

/-- An image load that fails, as one event: the slot is as FREE slots are, its pages are in the pool (at its end: the model's
choice of log 4, R1 gives the pool no order), its entry has left the verify queue, the CRC channel that the entry held is FREE and
the other channels are as before, no live job names the slot, the stream that fed it is closed, and the lane that fed it is in
MASTER with its report and its timer stopped, its reads aborted if they had begun; a lane in another state, and every other lane,
is as before. -/
def Obligations.FailedImageLoadReleasesEverything : Prop :=
  ∀ (i : ImageId) (s : State), s.images[i].state = .loadWait ∨ s.images[i].state = .loading →
    (s.failImageLoad i).images[i] = ImageSlot.freed ∧ (s.failImageLoad i).pool = s.pool ++ s.images[i].pages ∧
      (∀ e ∈ (s.failImageLoad i).verifyQueue, e.ofSlot i = false) ∧
      (∀ e ∈ (s.failImageLoad i).liveJobs, e.2.image ≠ i) ∧
      (∀ p, s.images[i].source = some .stream → s.images[i].owner = some p →
        (s.failImageLoad i).ports[p].stream = .none ∧ (s.failImageLoad i).ports[p].staging = []) ∧
      (∀ c : Fin 2,
        ((∃ e ∈ s.verifyQueue, e.ofSlot i = true ∧ e.channel = some c) → (s.failImageLoad i).crc[c] = .free) ∧
        ((∀ e ∈ s.verifyQueue, e.ofSlot i = true → e.channel ≠ some c) → (s.failImageLoad i).crc[c] = s.crc[c])) ∧
      (∀ n : LaneId,
        (s.images[i].source = some (.lane n) → s.lanes[n].state = .sourceWait →
          (s.failImageLoad i).lanes[n] = { s.lanes[n] with state := .master, timer := none } ∧
            (s.failImageLoad i).out = s.out) ∧
        (s.images[i].source = some (.lane n) → s.lanes[n].state = .sourceRead →
          (s.failImageLoad i).lanes[n] =
              { s.lanes[n] with state := .master, timer := none, unanswered := none, heldBack := none } ∧
            (s.failImageLoad i).out = s.out ++ [.drive n [8]]) ∧
        (s.images[i].source ≠ some (.lane n) ∨ s.lanes[n].state ≠ .sourceWait ∧ s.lanes[n].state ≠ .sourceRead →
          (s.failImageLoad i).lanes[n] = s.lanes[n])) ∧
      (∀ k : ImageId, k ≠ i → (s.failImageLoad i).images[k].state = s.images[k].state ∧
        (s.failImageLoad i).images[k].pages = s.images[k].pages) ∧ (s.failImageLoad i).mem = s.mem

/-- PROTECT_IMAGE sets the flag of a READY slot for its owner; MARK_NO_EXPORT sets its flag on any slot that is not FREE, for
the owner or with the key in SERVICE. Each changes only its flag. EXPORT_IMAGE: its refusals in order, and the opening of the
stream with a reference to the slot; a grant of the read channel is owed. -/
def Obligations.MarksAndExportOnAnImage : Prop :=
  (∀ (p : Port) (r : CommandRecord) (i : ImageId) (s : State), s.settled → imageParam r = some i →
      (s.commandWaits p r 4 → s.images[i].state = .ready → s.images[i].owner = some p →
        exec (.protectImage p) s = .next ((s.modImage i fun v => { v with isProtected := true }).replied p ⟨.ok, []⟩)) ∧
      (s.commandWaits p r 6 → s.images[i].state ≠ .free → s.images[i].owner = some p ∨ s.key = .service →
        exec (.markNoExport p) s = .next ((s.modImage i fun v => { v with noExport := true }).replied p ⟨.ok, []⟩))) ∧
  ∀ (p : Port) (r : CommandRecord) (i : ImageId) (s : State), s.settled → s.commandWaits p r 7 → imageParam r = some i →
    exec (.exportImage p) s =
      if s.images[i].state ≠ .ready then .next (s.replied p ⟨.wrongState, []⟩)
      else if s.images[i].noExport then .next (s.replied p ⟨.noExport, []⟩)
      else if s.ports[p].stream ≠ .none then .next (s.replied p ⟨.busy, []⟩)
      else .next (((((s.modImage i fun v => { v with refcount := v.refcount + 1 }).modPort p fun v =>
        { v with stream := .outbound i 0 [], staging := [] }).oweGrant).settle).replied p ⟨.ok, []⟩)

/-- R15: UNPROTECT_IMAGE's checks in order, and its one effect. -/
def Obligations.UnprotectImageChecksThenClears : Prop :=
  ∀ (p : Port) (r : CommandRecord) (s : State), s.settled → s.commandWaits p r 5 →
    (7 < recordByte r 2 → exec (.unprotectImage p) s = .next (s.replied p ⟨.badParam, []⟩)) ∧
    ∀ i : ImageId, i.val = recordByte r 2 →
      exec (.unprotectImage p) s =
        if s.images[i].state = .free then .next (s.replied p ⟨.noSuch, []⟩)
        else if s.images[i].owner ≠ some p then .next (s.replied p ⟨.notOwner, []⟩)
        else if s.key = .lock then .next (s.replied p ⟨.keyLocked, []⟩)
        else .next ((s.modImage i fun v => { v with isProtected := false }).replied p ⟨.ok, []⟩)

/-- LOAD_ARTWORK's refusals, in order, each changing nothing but the reply; into a FREE slot, or in place of READY artwork, whose
pages return first and whose owner is told: the slot, its pages and the stream. DELETE_ARTWORK: its refusals in order; a READY
slot is freed with ARTWORK DELETED, a load fails: its stream closes, the slot is freed with ARTWORK FAILED. The order in which
the pool gives pages up and takes them back is the model's choice (log 4: R1 gives it none). -/
def Obligations.ArtworkIsLoadedAndDeleted : Prop :=
  (∀ (p : Port) (r : CommandRecord) (s : State), s.settled → s.commandWaits p r 8 →
      (3 < recordByte r 2 ∨ recordByte r 3 = 0 ∨ 64 < recordByte r 3 →
        exec (.loadArtwork p) s = .next (s.replied p ⟨.badParam, []⟩)) ∧
      ∀ i, artworkParam r = some i → 1 ≤ recordByte r 3 → recordByte r 3 ≤ 64 →
        (∀ code, (if s.ports[p].stream ≠ .none then some ResultCode.busy
            else if s.artworks[i].state = .loading then some .wrongState
            else if s.artworks[i].state = .ready ∧ s.artworks[i].owner ≠ some p ∧ s.key ≠ .service then some .notOwner
            else if s.artworks[i].state = .ready ∧ 0 < s.artworks[i].refcount then some .inUse
            else if pagesIn s.pool + (if s.artworks[i].state = .ready then pagesIn s.artworks[i].pages else 0) <
              artworkPages (recordByte r 3) then some .noSpace
            else none) = some code → exec (.loadArtwork p) s = .next (s.replied p ⟨code, []⟩)) ∧
        ∀ base, s.ports[p].stream = .none → s.artworkSlotTaken p i base →
          artworkPages (recordByte r 3) ≤ pagesIn base.pool →
          exec (.loadArtwork p) s =
            let pages := takePages base.pool (artworkPages (recordByte r 3))
            .next ((((base.setPool pages.2).modArtwork i fun v =>
              { v with
                state := .loading, owner := some p, bands := recordByte r 3, pages := pages.1, received := 0
                weights := ⟨0, 0, 0, 0⟩, costs := ⟨0, 0, 0, 0⟩ }).modPort p fun v =>
                  { v with stream := .artwork i, staging := [] }).replied p ⟨.ok, []⟩)) ∧
  ∀ (p : Port) (r : CommandRecord) (s : State), s.settled → s.commandWaits p r 9 →
    (3 < recordByte r 2 → exec (.deleteArtwork p) s = .next (s.replied p ⟨.badParam, []⟩)) ∧
    ∀ i, artworkParam r = some i →
      (∀ code, (if s.artworks[i].state = .free then some ResultCode.noSuch
          else if s.artworks[i].owner ≠ some p ∧ s.key ≠ .service then some .notOwner
          else if 0 < s.artworks[i].refcount then some .inUse
          else none) = some code → exec (.deleteArtwork p) s = .next (s.replied p ⟨code, []⟩)) ∧
      (∀ q, s.artworks[i].owner = some q → (q = p ∨ s.key = .service) → s.artworks[i].refcount = 0 →
        (s.artworks[i].state = .ready → exec (.deleteArtwork p) s =
          .next ((((s.setPool (s.pool ++ s.artworks[i].pages)).modArtwork i fun _ => ArtworkSlot.freed).notify q
            (.artwork i .deleted)).replied p ⟨.ok, []⟩)) ∧
        (s.artworks[i].state = .loading → exec (.deleteArtwork p) s =
          .next (((((s.modPort q fun v => { v with stream := .none, staging := [] }).setPool
            (s.pool ++ s.artworks[i].pages)).modArtwork i fun _ => ArtworkSlot.freed).notify q
              (.artwork i .failed)).replied p ⟨.ok, []⟩)))

/-- IMAGE_STAGING_WRITE: the oldest staged bytes, at most `count`, are taken in order (log 26), each by `bulkByte`; after the
last segment the load ends. One byte within a segment is stored at its offset and passed to the remainder; the last byte of a
segment also stores the segment's CRC, least significant byte first, and moves on to the next segment. Entries that leave the
verify queue free the channels they held, and a grant is owed. The end of a load: the slot is READY without a source, its entry
has left the queue, its owner's stream closes or its lane is MASTER with its timer stopped, the owner has IMAGE READY, and then each
QUEUED job of the slot, in rank order, is ACTIVE with JOB ACTIVE to its owner, a claim attempt owed. -/
def Obligations.ImageStagingWriteStoresAndDigests : Prop :=
  (∀ (p : Port) (count : Nat) (i : ImageId) (k : Fin 2) (segment fill : Nat) (remainder : Word32) (s : State),
    s.ports[p].stream = .image i → s.slotChannel i = some k → s.crc[k] = .bulk segment fill remainder →
    pagesMapped s.images[i].pages (imagePages s.images[i].size) = true →
    exec (.imageStagingWrite p count) s =
      let x := (s.ports[p].staging.take count).foldl (bulkByte s.images[i]) ⟨s.mem, segment, fill, remainder⟩
      let u := ((s.setMem x.mem).setCrc k (.bulk x.segment x.fill x.remainder)).modPort p
        fun v => { v with staging := v.staging.drop count }
      .next (if x.segment = s.images[i].segments then (u.finishImageLoad i).settle else u.settle)) ∧
  (∀ (v : ImageSlot) (m : List Host.Cell) (segment fill : Nat) (remainder : Word32) (b : Byte),
    fill + 1 ≠ segmentLength v.size v.segments segment →
    bulkByte v ⟨m, segment, fill, remainder⟩ b =
      ⟨memWrite m (slotAddress v.pages (65536 * segment + fill)) b, segment, fill + 1, crcByte remainder b⟩) ∧
  (∀ (v : ImageSlot) (m : List Host.Cell) (segment fill : Nat) (remainder : Word32) (b : Byte),
    fill + 1 = segmentLength v.size v.segments segment →
    bulkByte v ⟨m, segment, fill, remainder⟩ b =
      ⟨writeSlot (memWrite m (slotAddress v.pages (65536 * segment + fill)) b) v.pages
        (dataPages v.size * 1048576 + 4 * segment) (leBytes 4 (~~~crcByte remainder b).toNat), segment + 1, 0, 0xFFFFFFFF⟩) ∧
  (∀ (leaves : VerifyEntry → Bool) (s : State),
    let t := s.leaveVerifyQueue leaves
    t = { s with verifyQueue := s.verifyQueue.filter fun e => !leaves e, crc := t.crc, due := t.due } ∧
    ∀ c : Fin 2,
      ((∃ e ∈ s.verifyQueue, leaves e = true ∧ e.channel = some c) → t.crc[c] = .free ∧ t.due.crc = true) ∧
      ((∀ e ∈ s.verifyQueue, leaves e = true → e.channel ≠ some c) → t.crc[c] = s.crc[c])) ∧
  ∀ (i : ImageId) (p : Port) (waiting : List (Handle × Job)) (s : State), s.images[i].owner = some p →
    (∀ e, e ∈ waiting ↔ s.jobs[e.1.index] = ⟨e.1.generation, some e.2⟩ ∧ e.2.image = i ∧ e.2.state = .queued) →
    waiting.Pairwise (fun a b => a.2.rank < b.2.rank) → (∀ e ∈ waiting, e.2.rank < 16) →
    let ready := (s.modImage i fun v => { v with state := .ready, source := none }).leaveVerifyQueue (VerifyEntry.ofSlot i)
    let told (t : State) : State := waiting.foldl (fun u e =>
      ((u.setJobEntry e.1.index ⟨e.1.generation, some { e.2 with state := .active }⟩).notify e.2.owner (.jobActive e.1)).oweClaim)
        (t.notify p (.image i .ready))
    (s.images[i].source = some .stream →
      s.finishImageLoad i = told (ready.modPort p fun r => { r with stream := .none, staging := [] })) ∧
    ∀ n : LaneId, s.images[i].source = some (.lane n) → s.lanes[n].state = .sourceRead →
      s.finishImageLoad i = told (ready.modLane n fun l => { l with state := .master, timer := none })

/-- The bytes of a whole segment, staged from its start, leave the segment's data and then the CRC-32 of exactly these bytes in
its digest entry, and the channel stands at the start of the next segment. -/
def Obligations.StagedSegmentEndsWithItsCrc : Prop :=
  ∀ (v : ImageSlot) (m : List Host.Cell) (segment : Nat) (bytes : List Byte), bytes ≠ [] →
    bytes.length = segmentLength v.size v.segments segment →
    bytes.foldl (bulkByte v) ⟨m, segment, 0, 0xFFFFFFFF⟩ =
      ⟨writeSlot (writeSlot m v.pages (65536 * segment) bytes) v.pages (dataPages v.size * 1048576 + 4 * segment)
        (leBytes 4 (crc32 bytes).toNat), segment + 1, 0, 0xFFFFFFFF⟩

/-- Bytes stored in a slot are read back from it, when its pages are distinct and hold them. -/
def Obligations.StoredBytesAreReadBack : Prop :=
  ∀ (m : List Host.Cell) (pages : List Extent) (off : Nat) (bytes : List Byte), Memory.wf m = true → (pagesOf pages).Nodup →
    off + bytes.length ≤ pagesIn pages * 1048576 → readSlot (writeSlot m pages off bytes) pages off bytes.length = bytes

/-- ARTWORK_STAGING_WRITE: the oldest staged bytes, at most `count`, are stored behind those already written and their weights
are added (log 26); after the last pixel byte the costs are the weights divided by 65,536, rounded up, the slot is READY, the
stream closes and the owner is told. -/
def Obligations.ArtworkStagingWriteStoresAndWeighs : Prop :=
  ∀ (p : Port) (count : Nat) (i : ArtworkId) (s : State), s.ports[p].stream = .artwork i → s.artworks[i].state = .loading →
    pagesMapped s.artworks[i].pages (artworkPages s.artworks[i].bands) = true →
    let taken := s.ports[p].staging.take count
    let written := s.artworks[i].received - s.ports[p].staging.length
    let weights := taken.foldl inkAddPixel s.artworks[i].weights
    let stored := s.setMem (writeSlot s.mem s.artworks[i].pages written taken)
    (written + taken.length ≠ s.artworks[i].bands * 262144 → exec (.artworkStagingWrite p count) s =
      .next ((stored.modArtwork i fun v => { v with weights := weights }).modPort p fun v =>
        { v with staging := v.staging.drop count })) ∧
    ∀ q, written + taken.length = s.artworks[i].bands * 262144 → s.artworks[i].owner = some q →
      exec (.artworkStagingWrite p count) s =
        .next (((stored.modArtwork i fun v =>
          { v with
            weights := weights, state := .ready
            costs := ⟨(weights.c + 65535) / 65536, (weights.m + 65535) / 65536, (weights.y + 65535) / 65536,
              (weights.k + 65535) / 65536⟩ }).modPort p fun v => { v with stream := .none, staging := [] }).notify q
                (.artwork i .ready))

/-! ## Jobs -/

/-- SUBMIT_JOB's refusals, in order, each changing nothing but the reply: the parameters, a FREE image slot, the speeds, an
artwork slot that is not READY, a full job table. Else it admits a job: the lowest FREE entry, the record with its clamped
values, the references, and the handle and state in the reply; a job of a READY image is ACTIVE and owes a claim attempt. -/
def Obligations.SubmitJobAdmits : Prop :=
  (∀ (p : Port) (r : CommandRecord) (s : State), s.settled → s.commandWaits p r 16 →
    let malformed : Prop := 7 < recordByte r 2 ∨ (recordByte r 3 ≠ 255 ∧ 3 < recordByte r 3) ∨ recordField r 4 2 = 0 ∨
      9999 < recordField r 4 2 ∨ 2 < recordByte r 6 ∨ (recordByte r 3 ≠ 255 ∧ 2 < recordByte r 13)
    (malformed → exec (.submitJob p) s = .next (s.replied p ⟨.badParam, []⟩)) ∧
    ∀ i : ImageId, i.val = recordByte r 2 → ¬malformed →
      (s.images[i].state = .free → exec (.submitJob p) s = .next (s.replied p ⟨.noSuch, []⟩)) ∧
      ∀ cls, s.images[i].state ≠ .free → s.images[i].cls = some cls →
        ∀ code, (if recordByte r 8 ∉ classSpeeds cls ∨ recordByte r 9 ∉ classSpeeds cls ∨ recordByte r 9 < recordByte r 8 then
            some ResultCode.badParam
          else if ∃ w : ArtworkId, w.val = recordByte r 3 ∧ s.artworks[w].state ≠ .ready then some .notReady
          else if ∀ k : TableId, s.jobs[k].job ≠ none then some .noSpace
          else none) = some code → exec (.submitJob p) s = .next (s.replied p ⟨code, []⟩)) ∧
  ∀ (p : Port) (r : CommandRecord) (i : ImageId) (cls : MediaClass) (verify : VerifyMode) (k : TableId) (s : State),
    s.settled → s.commandWaits p r 16 → imageParam r = some i → 1 ≤ recordField r 4 2 → recordField r 4 2 ≤ 9999 →
    submitVerify r = some verify → s.images[i].state ≠ .free → s.images[i].cls = some cls →
    (classSpeeds cls).contains (recordByte r 8) = true → (classSpeeds cls).contains (recordByte r 9) = true →
    recordByte r 8 ≤ recordByte r 9 → s.freeJobEntry = some k →
    let st : JobState := if s.images[i].state = .ready then .active else .queued
    let job (artwork : Option ArtworkId) (quality : Quality) : Job :=
      { owner := p, image := i, artwork := artwork, copies := recordField r 4 2, good := 0, failed := 0, spoiled := 0
        inFlight := 0, lanesHeld := 0, verify := verify, speedMin := recordByte r 8, speedMax := recordByte r 9
        tolerance := if recordByte r 10 = 255 then 2 else min 15 (recordByte r 10)
        failLimit := recordByte r 11, laneLimit := max 1 (min 8 (recordByte r 12)), quality := quality, state := st
        endReason := none, rank := s.liveJobs.length }
    let admitted (artwork : Option ArtworkId) (quality : Quality) : State :=
      (s.setJobEntry k ⟨s.jobs[k].generation, some (job artwork quality)⟩).modImage i
        fun v => { v with refcount := v.refcount + 1 }
    let reply : Reply :=
      ⟨.ok, [BitVec.ofNat 8 k.val, s.jobs[k].generation, if s.images[i].state = .ready then 1 else 0]⟩
    (recordByte r 3 = 255 → exec (.submitJob p) s =
      .next (if s.images[i].state = .ready then (((admitted none .normal).oweClaim).settle).replied p reply
        else (admitted none .normal).replied p reply)) ∧
    ∀ (w : ArtworkId) (quality : Quality), w.val = recordByte r 3 → qualityOf (recordByte r 13) = some quality →
      s.artworks[w].state = .ready → exec (.submitJob p) s =
        let both := (admitted (some w) quality).modArtwork w fun v => { v with refcount := v.refcount + 1 }
        .next (if s.images[i].state = .ready then ((both.oweClaim).settle).replied p reply else both.replied p reply)

/-- R28: the handle check of the four commands that name a job: an index above 15 is refused BAD_PARAM, a FREE entry or another generation
NO_SUCH, and a refused command changes nothing. -/
def Obligations.HandleCheckComesFirst : Prop :=
  ∀ (p : Port) (r : CommandRecord) (s : State), s.settled →
    let refusal : Option ResultCode :=
      if 15 < recordByte r 2 then some .badParam
      else if ∀ i : TableId, i.val = recordByte r 2 → s.jobs[i].job = none ∨ s.jobs[i].generation ≠ r[3] then some .noSuch
      else none
    ∀ code, refusal = some code →
      (s.commandWaits p r 17 → exec (.pauseJob p) s = .next (s.replied p ⟨code, []⟩)) ∧
      (s.commandWaits p r 18 → exec (.resumeJob p) s = .next (s.replied p ⟨code, []⟩)) ∧
      (s.commandWaits p r 19 → exec (.cancelJob p) s = .next (s.replied p ⟨code, []⟩)) ∧
      (s.commandWaits p r 20 → exec (.killJob p) s = .next (s.replied p ⟨code, []⟩))

/-- PAUSE_JOB on a live job: NOT_OWNER for another client, PAUSED with JOB PAUSED from QUEUED or ACTIVE, no change from PAUSED,
WRONG_STATE from DRAINING. RESUME_JOB on a live job: NOT_OWNER for another client; a PAUSED job becomes ACTIVE when its image is
READY, which owes a claim attempt, else QUEUED, with JOB RESUMED; no change from QUEUED or ACTIVE; WRONG_STATE from DRAINING. -/
def Obligations.PauseAndResumeByState : Prop :=
  (∀ (p : Port) (r : CommandRecord) (i : TableId) (j : Job) (s : State), s.settled → s.commandWaits p r 17 →
      i.val = recordByte r 2 → s.jobs[i] = ⟨r[3], some j⟩ →
      exec (.pauseJob p) s =
        if j.owner ≠ p then .next (s.replied p ⟨.notOwner, []⟩)
        else if j.state = .queued ∨ j.state = .active then
          .next (((s.setJobEntry i ⟨r[3], some { j with state := .paused }⟩).notify p (.jobPaused ⟨i, r[3]⟩)).replied p ⟨.ok, []⟩)
        else if j.state = .paused then .next (s.replied p ⟨.ok, []⟩)
        else .next (s.replied p ⟨.wrongState, []⟩)) ∧
  ∀ (p : Port) (r : CommandRecord) (i : TableId) (j : Job) (s : State), s.settled → s.commandWaits p r 18 →
    i.val = recordByte r 2 → s.jobs[i] = ⟨r[3], some j⟩ →
    exec (.resumeJob p) s =
      if j.owner ≠ p then .next (s.replied p ⟨.notOwner, []⟩)
      else if j.state = .paused then
        if s.images[j.image].state = .ready then
          .next ((((s.setJobEntry i ⟨r[3], some { j with state := .active }⟩).notify p
            (.jobResumed ⟨i, r[3]⟩)).oweClaim.settle).replied p ⟨.ok, []⟩)
        else
          .next (((s.setJobEntry i ⟨r[3], some { j with state := .queued }⟩).notify p
            (.jobResumed ⟨i, r[3]⟩)).replied p ⟨.ok, []⟩)
      else if j.state = .queued ∨ j.state = .active then .next (s.replied p ⟨.ok, []⟩)
      else .next (s.replied p ⟨.wrongState, []⟩)

/-- CANCEL_JOB and KILL_JOB on a live job: NOT_OWNER unless the key is in SERVICE; CANCEL is refused WRONG_STATE while the job
drains, KILL has no further effect on a killed job; else the job drains with its reason. -/
def Obligations.CancelAndKillDrainTheJob : Prop :=
  ∀ (p : Port) (r : CommandRecord) (i : TableId) (j : Job) (s : State), s.settled → i.val = recordByte r 2 →
    s.jobs[i] = ⟨r[3], some j⟩ →
    (s.commandWaits p r 19 → exec (.cancelJob p) s =
      if j.owner ≠ p ∧ s.key ≠ .service then .next (s.replied p ⟨.notOwner, []⟩)
      else if j.state = .draining then .next (s.replied p ⟨.wrongState, []⟩)
      else .next ((s.drainJob ⟨i, r[3]⟩ .cancelled).settle.replied p ⟨.ok, []⟩)) ∧
    (s.commandWaits p r 20 → exec (.killJob p) s =
      if j.owner ≠ p ∧ s.key ≠ .service then .next (s.replied p ⟨.notOwner, []⟩)
      else if j.state = .draining ∧ j.endReason = some .killed then .next (s.replied p ⟨.ok, []⟩)
      else .next ((s.drainJob ⟨i, r[3]⟩ .killed).settle.replied p ⟨.ok, []⟩))

/-- A job that drains has ended or is DRAINING with its reason, and none of its lanes waits for a start; after a kill none of
its lanes burns, waits for a verify or verifies either. Once its lanes have been handled it ends if nothing is in flight, else its
owner is told that it drains. A job that ends: JOB ended goes to its owner with the final counts, the entry is freed with its
generation raised, the ranks above it fall by 1, its slots lose a reference, and nothing else changes. The drain check ends a
draining job with nothing in flight by its end reason. A record that closes leaves its entry FREE; a reason given at the closing
replaces an earlier one. With a live job, the job's owner has the DISC notice with the record as it stands, in-flight falls by 1,
and the count that fate and reason name rises: good at OUTPUT, spoiled at REJECT for WRONG_MEDIA or TOO_SMALL, else failed, the
last two up to 65,535. Then a draining job faces the drain check, one whose good count has reached its copies ends DONE, one whose
failed count has reached its fail limit drains, and a claim attempt is owed. -/
def Obligations.DrainFreesTheWaitingLanes : Prop :=
  (∀ (h : Handle) (reason : EndReason) (s : State), (s.jobOf h).isSome →
    (∀ j, (s.drainJob h reason).jobOf h = some j → j.state = .draining ∧ j.endReason = some reason) ∧
    (∀ n : LaneId, (s.drainJob h reason).lanes[n].job = some h → (s.drainJob h reason).lanes[n].state ≠ .feedWait) ∧
    (reason = .killed → ∀ n : LaneId, (s.drainJob h reason).lanes[n].job = some h →
      (s.drainJob h reason).lanes[n].state ≠ .burning ∧ (s.drainJob h reason).lanes[n].state ≠ .verifyWait ∧
        (s.drainJob h reason).lanes[n].state ≠ .verifying) ∧
    ∀ j, (s.drainLanes h reason).jobOf h = some j → s.drainJob h reason =
      if j.inFlight = 0 then (s.drainLanes h reason).endJob h (match reason with
        | .cancelled => .cancelled
        | .killed => .killed
        | .failLimit => .failed)
      else (s.drainLanes h reason).notify j.owner (.jobDraining h reason)) ∧
  (∀ (h : Handle) (result : JobResult) (j : Job) (s : State), s.jobOf h = some j →
    let t := s.endJob h result
    t.jobs[h.index] = ⟨h.generation + 1, none⟩ ∧
    (∀ k, k ≠ h.index → t.jobs[k] =
      { s.jobs[k] with job := s.jobs[k].job.map fun x => if j.rank < x.rank then { x with rank := x.rank - 1 } else x }) ∧
    (∀ i : ImageId, t.images[i] =
      if i = j.image then { s.images[i] with refcount := s.images[i].refcount - 1 } else s.images[i]) ∧
    (∀ i : ArtworkId, t.artworks[i] =
      if j.artwork = some i then { s.artworks[i] with refcount := s.artworks[i].refcount - 1 } else s.artworks[i]) ∧
    t = { s.notify j.owner (.jobEnded h result j.good j.failed j.spoiled) with
      jobs := t.jobs, images := t.images, artworks := t.artworks }) ∧
  ∀ (h : Handle) (j : Job) (ended : JobResult) (s : State), s.jobOf h = some j →
    (match j.endReason with
      | some .cancelled => ended = .cancelled
      | some .killed => ended = .killed
      | some .failLimit => ended = .failed
      | none => j.state ≠ .draining) →
    (s.drainCheck h = if j.state = .draining ∧ j.inFlight = 0 then s.endJob h ended else s) ∧
    ∀ (loc : Location) (i : TableId) (d : Disc) (fate : Option Fate) (why : Option FailReason), s.discs[i] = some d →
      d.location = loc → (∀ k < i, ∀ x, s.discs[k] = some x → x.location ≠ loc) →
      let closed : Disc := { d with fate := fate, reason := if why = none then d.reason else why }
      let freed := s.setDisc i none
      ((∀ x, d.job = some x → s.jobOf x = none) → s.closeDiscAt loc fate why = freed) ∧
      (d.job = some h →
        let less : Job := { j with inFlight := j.inFlight - 1 }
        let counted : Job :=
          if fate = some .output then { less with good := j.good + 1 }
          else if fate = some .reject ∧ (closed.reason = some .wrongMedia ∨ closed.reason = some .tooSmall) then
            { less with spoiled := min 65535 (j.spoiled + 1) }
          else { less with failed := min 65535 (j.failed + 1) }
        let told := (freed.notify j.owner (.disc h closed)).setJobEntry h.index ⟨h.generation, some counted⟩
        s.closeDiscAt loc fate why = State.oweClaim (
          if j.state = .draining then (if counted.inFlight = 0 then told.endJob h ended else told)
          else if counted.good = counted.copies then told.endJob h .done
          else if counted.failLimit ≠ 0 ∧ counted.failLimit ≤ counted.failed then told.drainJob h .failLimit
          else told))

/-! ## The operator's commands on lanes -/

/-- OPEN_TRAY on an IDLE, MASTER or FOREIGN lane: TRAY-OPEN is sent and the lane is OPENING for the operator; CLOSE_TRAY on a
lane open for the operator: TRAY-CLOSE, CLOSING. The drive has answered its last tray command. -/
def Obligations.TrayCommandsMoveTheTray : Prop :=
  ∀ (p : Port) (r : CommandRecord) (n : LaneId) (s : State), s.settled → laneParam r = some n →
    s.lanes[n].unanswered = none →
    (s.commandWaits p r 24 → s.lanes[n].state = .idle ∨ s.lanes[n].state = .master ∨ s.lanes[n].state = .foreign →
      exec (.openTray p) s = .next (((s.emit (.drive n [1])).modLane n fun l =>
        { l with
          state := .opening, purpose := some .operator, master := none, timer := some ⟨8000, 0⟩
          unanswered := some .openTray }).replied p ⟨.ok, []⟩)) ∧
    (s.commandWaits p r 25 → s.lanes[n].state = .opened → s.lanes[n].purpose = some .operator →
      exec (.closeTray p) s = .next (((s.emit (.drive n [2])).modLane n fun l =>
        { l with
          state := .closing, purpose := some .operator, timer := some ⟨8000, 0⟩
          unanswered := some .closeTray }).replied p ⟨.ok, []⟩))

/-- LANE_ONLINE on a held lane with an identity clears held, the mark and the fail count and begins the start-up close;
LANE_OFFLINE on an IDLE lane makes it OFFLINE and held; CLEAR_LANE on a SPARE lane makes it DONE with its UNLOAD queued. -/
def Obligations.LaneCommandsChangeTheLane : Prop :=
  ∀ (p : Port) (r : CommandRecord) (n : LaneId) (s : State), s.settled → laneParam r = some n →
    (s.commandWaits p r 26 → s.lanes[n].state = .offline → s.lanes[n].identity.isSome → s.lanes[n].unanswered = none →
      exec (.laneOnline p) s = .next (((s.emit (.drive n [2])).modLane n fun l =>
        { l with
          state := .closing, held := false, quarantine := false, failCount := 0, startUp := true, purpose := none
          timer := some ⟨8000, 0⟩, unanswered := some .closeTray, heldBack := none, faultMove := none }).replied p ⟨.ok, []⟩)) ∧
    (s.commandWaits p r 27 → s.lanes[n].state = .idle →
      exec (.laneOffline p) s = .next ((s.modLane n fun l =>
        { l with state := .offline, held := true, timer := none, faultMove := none, heldBack := none }).replied p ⟨.ok, []⟩)) ∧
    (s.commandWaits p r 28 → s.lanes[n].state = .spare → s.hasRequest n = false →
      exec (.clearLane p) s = .next ((((((s.modLane n fun l => { l with state := .done, timer := none }).setRequests
        (s.requests ++ [⟨.unload, some n, some n, none, s.nextAge, false, none⟩])).passAge).oweSelect).settle).replied
          p ⟨.ok, []⟩)) ∧
    (s.commandWaits p r 28 → s.lanes[n].state ≠ .spare →
      exec (.clearLane p) s = .next (s.replied p ⟨.wrongState, []⟩))

/-! ## Settings -/

/-- SET_FEED_BUDGET: KEY_LOCKED with the key in LOCK; else the budget takes the value brought into 32,768..262,144, a start
computation is owed, and the reply carries the budget. SET_PRINT_PARAMS and SET_INK_CAPACITY clamp their values and return them;
the ink levels stay. -/
def Obligations.SettingsAreClamped : Prop :=
  (∀ (p : Port) (r : CommandRecord) (s : State), s.settled → s.commandWaits p r 32 →
      exec (.setFeedBudget p) s =
        if s.key = .lock then .next (s.replied p ⟨.keyLocked, []⟩)
        else
          let v := max 32768 (min 262144 (recordField r 2 4))
          .next ((((s.setBudget v).oweStart).settle).replied p ⟨.ok, leBytes 4 v⟩)) ∧
  ∀ (p : Port) (r : CommandRecord) (s : State), s.settled →
    (s.commandWaits p r 41 → exec (.setPrintParams p) s =
      let w0 := max 120 (min 260 (recordField r 2 2))
      let k := min 15 (recordByte r 4)
      let tref := max 40 (min 160 (recordByte r 5))
      .next ((s.modPrinter fun v => { v with w0 := w0, k := k, tref := tref }).replied p
        ⟨.ok, leBytes 2 w0 ++ [BitVec.ofNat 8 k, BitVec.ofNat 8 tref]⟩)) ∧
    (s.commandWaits p r 42 → exec (.setInkCapacity p) s =
      let v := max 100 (min 60000 (recordField r 2 2))
      let ink := s.printer.levels
      .next ((s.modPrinter fun x => { x with capacity := v }).replied p
        ⟨.ok, leBytes 2 v ++ (leBytes 2 ink.c ++ leBytes 2 ink.m ++ leBytes 2 ink.y ++ leBytes 2 ink.k)⟩))

/-- SET_BIN_CLASS and CLEAR_BIN_FAULT: the bin's record changes, a claim attempt and a selection are owed; SET_BIN_CLASS is
refused while the arm serves a FEED from that bin. CLEAR_ARM_FAULT: WRONG_STATE outside FAULT or with a disc in the grip; else
the arm homes, or is HELD while the door is open. CLEAR_PRINTER_FAULT: WRONG_STATE outside FAULT; else TRAY-OUT is sent and the
printer is in TRAY_OUT. -/
def Obligations.BinsAndFaultsAreSetRight : Prop :=
  (∀ (p : Port) (r : CommandRecord) (which : Bin) (s : State), s.settled → binOfCode (recordByte r 2) = some which →
      (∀ cls, s.commandWaits p r 33 → classOfCode (recordByte r 3) = some cls →
        exec (.setBinClass p) s =
          if s.arm.sourceBin = some which then .next (s.replied p ⟨.wrongState, []⟩)
          else .next (((((s.modBin which fun v => { v with cls := cls }).oweClaim).oweSelect).settle).replied p ⟨.ok, []⟩)) ∧
      (s.commandWaits p r 34 → (s.binRecord which).fault = true →
        exec (.clearBinFault p) s =
          .next (((((s.modBin which fun v => { v with fault := false }).oweClaim).oweSelect).settle).replied p ⟨.ok, []⟩))) ∧
  ∀ (p : Port) (r : CommandRecord) (s : State), s.settled →
    (s.commandWaits p r 35 → exec (.clearArmFault p) s =
      if s.arm.state ≠ .fault ∨ s.gripCount ≠ 0 then .next (s.replied p ⟨.wrongState, []⟩)
      else if s.sensor .doorClosed then
        .next (((s.emit (.arm .home)).modArm fun a =>
          { a with
            state := .homing, fault := none, position := .unknown, byClear := true, step := some .home
            timer := some ⟨20000, 0⟩ }).replied p ⟨.ok, []⟩)
      else
        .next ((s.modArm fun a =>
          { a with state := .held, resume := some .homing, fault := none, position := .unknown, byClear := true }).replied p
            ⟨.ok, []⟩)) ∧
    (s.commandWaits p r 40 → exec (.clearPrinterFault p) s =
      if s.printer.state ≠ .fault then .next (s.replied p ⟨.wrongState, []⟩)
      else .next (((s.emit (.printer [2])).modPrinter fun v =>
        { v with state := .trayOut, fault := none, timer := some ⟨5000, 0⟩, outDone := none }).replied p ⟨.ok, []⟩))

/-! ## The drives -/

/-- IDENT outside FAULT: the identity is taken; an OFFLINE lane that is not held sends TRAY-CLOSE and starts up, a held one
stays; a lane at work faults with cause RESTART. A malformed IDENT is an ERROR with code 255 and records nothing. -/
def Obligations.IdentStartsTheLane : Prop :=
  ∀ (n : LaneId) (buffer : BitVec 16) (l m : Bool) (s : State),
    (identOk buffer l m = true → s.lanes[n].state = .offline → s.lanes[n].held = false →
      exec (.ident n buffer l m) s = .next ((s.emit (.drive n [2])).modLane n fun v =>
        { v with
          state := .closing, identity := some ⟨buffer.toNat, l, m⟩, startUp := true, purpose := none
          timer := some ⟨8000, 0⟩, unanswered := some .closeTray, heldBack := none })) ∧
    (identOk buffer l m = true → (s.lanes[n].state = .offline ∧ s.lanes[n].held = true ∨ s.lanes[n].state = .fault) →
      exec (.ident n buffer l m) s = .next (s.modLane n fun v => { v with identity := some ⟨buffer.toNat, l, m⟩ })) ∧
    (identOk buffer l m = true → s.lanes[n].state ≠ .offline → s.lanes[n].state ≠ .fault →
      exec (.ident n buffer l m) s =
        .next (((s.modLane n fun v => { v with identity := some ⟨buffer.toNat, l, m⟩ }).laneFault n .restart).settle)) ∧
    (identOk buffer l m = false → s.lanes[n].state ≠ .offline → s.lanes[n].state ≠ .fault →
      exec (.ident n buffer l m) s = .next ((s.laneFault n (.error 255)).settle))

/-- TRAY_STATE records the position; OPEN answers a TRAY-OPEN, CLOSED a TRAY-CLOSE, and only the answer ends the wait for it. OPEN
ends an OPENING with its timer; CLOSED ends a CLOSING with a PROBE, or after a PICK with IDLE and a claim attempt; CLOSED on a tray
opening or open for the operator is the operator's, and probes; OPEN on a resting lane is the operator's; a position that the lane
does not hold its tray at faults it with cause TRAY; MOVING during a move or on a resting lane is recorded only. That the tray
purpose becomes absent on entering PROBING and IDLE is the model's choice (log 32). So is what becomes of a tray command held back
for the answer to another one: it is dropped when its own move has ended, and else sent after the answer has acted (log 9). So is
that a lane which is held or has no identity becomes OFFLINE, not IDLE, after a PICK (log 22). In FAULT, with another position
awaited, the answer only sends what is held back; the awaited position ends the move, and the opening of a fault unload calls
the arm. -/
def Obligations.TrayReportsMoveTheLane : Prop :=
  ∀ (n : LaneId) (s : State),
    let ends (pos : TrayPosition) (c : Option TrayCommand) : Option TrayCommand :=
      if c = some .openTray ∧ pos = .opened ∨ c = some .closeTray ∧ pos = .closed then none else c
    let seen (pos : TrayPosition) (l : Lane) : Lane :=
      { l with report := some pos, unanswered := ends pos l.unanswered, heldBack := ends pos l.heldBack }
    let sent (u : State) : State := match u.lanes[n].unanswered, u.lanes[n].heldBack with
      | none, some v =>
        (u.emit (.drive n [match v with
          | .openTray => 1
          | .closeTray => 2])).modLane n fun l => { l with unanswered := some v, heldBack := none }
      | _, _ => u
    (∀ v, s.lanes[n].state = .opening → s.lanes[n].purpose = some v →
      exec (.trayState n .opened) s = .next ((sent ((s.modLane n fun l =>
        { seen .opened l with state := .opened, timer := none }).oweArm)).settle)) ∧
    (s.settled → s.lanes[n].state = .closing → s.lanes[n].purpose ≠ some .pick →
      exec (.trayState n .closed) s = .next (sent ((s.emit (.drive n [3])).modLane n fun l =>
        { seen .closed l with state := .probing, purpose := none, timer := some ⟨20000, 0⟩ }))) ∧
    (s.lanes[n].state = .closing → s.lanes[n].purpose = some .pick → s.lanes[n].quarantine = false →
      exec (.trayState n .closed) s = .next ((sent (
        if s.lanes[n].held = true ∨ s.lanes[n].identity = none then
          s.modLane n fun l => { seen .closed l with state := .offline, purpose := none, timer := none }
        else (s.modLane n fun l => { seen .closed l with state := .idle, purpose := none, timer := none }).oweClaim)).settle)) ∧
    (s.settled → s.lanes[n].state = .opening ∨ s.lanes[n].state = .opened → s.lanes[n].purpose = some .operator →
      exec (.trayState n .closed) s = .next ((s.emit (.drive n [3])).modLane n fun l =>
        { seen .closed l with state := .probing, purpose := none, timer := some ⟨20000, 0⟩, heldBack := none })) ∧
    (s.settled → s.lanes[n].state = .idle ∨ s.lanes[n].state = .master ∨ s.lanes[n].state = .foreign →
      exec (.trayState n .opened) s = .next (sent (s.modLane n fun l =>
        { seen .opened l with state := .opened, purpose := some .operator, master := none }))) ∧
    (s.settled → s.lanes[n].state ∈ [LaneState.opening, .closing, .idle, .master, .foreign] →
      exec (.trayState n .moving) s = .next (sent (s.modLane n (seen .moving)))) ∧
    (∀ pos,
      (s.lanes[n].state = .opening ∧ (s.lanes[n].purpose = some .place ∨ s.lanes[n].purpose = some .pick) ∧ pos = .closed ∨
        s.lanes[n].state = .opened ∧ (s.lanes[n].purpose = some .place ∨ s.lanes[n].purpose = some .pick) ∧ pos ≠ .opened ∨
        s.lanes[n].state = .closing ∧ pos = .opened ∨
        s.lanes[n].state ∈ [LaneState.awaitDisc, .probing, .feedWait, .burning, .finalizing, .verifyWait, .verifying, .done,
          .spare, .sourceWait, .sourceRead] ∧ pos ≠ .closed) →
      exec (.trayState n pos) s = .next ((sent ((s.modLane n (seen pos)).laneFault n .tray)).settle)) ∧
    (s.lanes[n].state = .fault →
      (∀ pos, s.settled →
        (s.lanes[n].faultMove = some .unloadOpening ∨ s.lanes[n].faultMove = some .operatorOpening) ∧ pos ≠ .opened ∨
          (s.lanes[n].faultMove = some .unloadClosing ∨ s.lanes[n].faultMove = some .operatorClosing) ∧ pos ≠ .closed →
        exec (.trayState n pos) s = .next (sent (s.modLane n (seen pos)))) ∧
      (s.lanes[n].faultMove = some .unloadOpening → exec (.trayState n .opened) s = .next ((sent ((s.modLane n fun l =>
        { seen .opened l with faultMove := some .unloadOpen, timer := none }).oweArm)).settle)) ∧
      (s.settled → s.lanes[n].faultMove = some .unloadClosing → s.lanes[n].quarantine = false →
        exec (.trayState n .closed) s = .next (sent (s.modLane n fun l =>
          { seen .closed l with faultMove := none, purpose := none, timer := none }))) ∧
      ∀ pos, s.settled → s.lanes[n].faultMove = some .operatorOpening ∧ pos = .opened ∨
          s.lanes[n].faultMove = some .operatorClosing ∧ pos = .closed →
        exec (.trayState n pos) s = .next (sent (s.modLane n fun l => { seen pos l with faultMove := none, timer := none })))

/-- MEDIA in PROBING. Without a disc record: an empty tray at a start-up is LANE ONLINE and IDLE; a recorded disc is a master; a
blank or an unusable disc is foreign, a blank with its speeds kept. That a lane which becomes IDLE here has no tray purpose left
is the model's choice (log 32). For a fed disc: a blank of the image's class with room for it
waits for its start, or is offered when its job drains; one of another class, a recorded or an unusable disc fails WRONG_MEDIA, a
smaller blank TOO_SMALL, and the lane is DONE; an empty tray closes the record LOST. Elsewhere MEDIA is discarded; a malformed one
is an ERROR 255. A blank given up passes to the first eligible job of another handle, or becomes a spare; the old job's drain
check follows. A claim serves the first eligible job, on its lowest free SPARE lane, else its lowest free IDLE lane; an attempt
ends when no job is eligible. First is by the clients in turn after the rotation pointer, then by rank. -/
def Obligations.ProbeAnswersSortTheTray : Prop :=
  (∀ (n : LaneId) (s : State), s.lanes[n].state = .probing → s.discAt (.tray n) = none →
      let probed := s.modLane n fun l => { l with timer := none, startUp := false }
      (∀ id, s.lanes[n].startUp = true → s.lanes[n].identity = some id →
        exec (.media n .absent) s = .next (((probed.raise .lane (.laneOnline n id)).enterIdle n).settle)) ∧
      (s.lanes[n].startUp = false →
        exec (.media n .absent) s =
          .next (((s.modLane n fun l => { l with state := .idle, purpose := none, timer := none }).oweClaim).settle)) ∧
      (∀ cls (size : BitVec 64), s.settled → exec (.media n (.recorded cls size)) s =
        .next ((probed.modLane n fun l => { l with state := .master, master := some (cls, size.toNat) }).raise .lane
          (.laneMaster n cls size.toNat))) ∧
      (∀ cls capacity speeds, s.settled → mediaOk (.blank cls capacity speeds) = true →
        exec (.media n (.blank cls capacity speeds)) s = .next ((probed.modLane n fun l =>
          { l with state := .foreign, blankSpeeds := speeds.map (·.toNat) }).raise .lane (.laneForeign n true))) ∧
      (s.settled → exec (.media n .unusable) s =
        .next ((probed.modLane n fun l => { l with state := .foreign }).raise .lane (.laneForeign n false)))) ∧
  (∀ (n : LaneId) (s : State), s.lanes[n].state = .probing → (s.discAt (.tray n)).isSome →
      (∀ report, report = .unusable ∨ (∃ cls size, report = .recorded cls size) →
        exec (.media n report) s = .next (((s.modDiscAt (.tray n) fun d => d.fail .wrongMedia).enterDone n).settle)) ∧
      exec (.media n .absent) s =
        .next ((((s.laneLeavesJob n).closeDiscAt (.tray n) none (some .lost)).enterIdle n).settle) ∧
      ∀ (h : Handle) (j : Job) (cls : MediaClass) (capacity : BitVec 24) (speeds : List Byte),
        s.lanes[n].job = some h → s.jobOf h = some j → mediaOk (.blank cls capacity speeds) = true →
        let probed := (s.modLane n fun l => { l with blankSpeeds := speeds.map (·.toNat), timer := none }).modDiscAt (.tray n)
          fun d => { d with cls := some cls, capacity := capacity.toNat }
        (s.images[j.image].cls = some cls → s.images[j.image].segments ≤ capacity.toNat →
          exec (.media n (.blank cls capacity speeds)) s =
            if j.state = .draining then .next ((probed.offerBlank n h).settle)
            else .next ((((probed.modDiscAt (.tray n) fun d => { d with phase := .ready }).modLane n fun l =>
              { l with state := .feedWait }).joinStartQueue n).settle)) ∧
        (s.images[j.image].cls ≠ some cls → exec (.media n (.blank cls capacity speeds)) s =
          .next (((probed.modDiscAt (.tray n) fun d => d.fail .wrongMedia).enterDone n).settle)) ∧
        (s.images[j.image].cls = some cls → capacity.toNat < s.images[j.image].segments →
          exec (.media n (.blank cls capacity speeds)) s =
            .next (((probed.modDiscAt (.tray n) fun d => d.fail .tooSmall).enterDone n).settle))) ∧
  (∀ (n : LaneId) (report : MediaReport) (s : State),
      (mediaOk report = true → s.lanes[n].state ≠ .probing → exec (.media n report) s = .next s) ∧
      (mediaOk report = false → exec (.media n report) s = .next ((s.laneError n 255).settle))) ∧
  ∀ s : State,
    let wants (e : Handle × Job) : Prop := s.jobs[e.1.index] = ⟨e.1.generation, some e.2⟩ ∧ e.2.state = .active ∧
      e.2.good + e.2.inFlight < e.2.copies ∧ e.2.lanesHeld < e.2.laneLimit
    let fits (j : Job) (n : LaneId) : Prop := ∃ d, s.discAt (.tray n) = some d ∧ d.cls.isSome ∧
      d.cls = s.images[j.image].cls ∧ s.images[j.image].segments ≤ d.capacity
    let first (able : Handle × Job → Prop) (e : Handle × Job) : Prop := able e ∧ ∀ x, able x → x = e ∨
      (e.2.owner - (s.rotation + 1)).val < (x.2.owner - (s.rotation + 1)).val ∨ (e.2.owner = x.2.owner ∧ e.2.rank < x.2.rank)
    let free (n : LaneId) : Prop := s.lanes[n].job = none ∧ s.lanes[n].quarantine = false
    let spare (j : Job) (n : LaneId) : Prop := s.lanes[n].state = .spare ∧ free n ∧ fits j n
    let idle (j : Job) (n : LaneId) : Prop := s.lanes[n].state = .idle ∧ free n ∧ ∃ cls id,
      s.images[j.image].cls = some cls ∧ s.lanes[n].identity = some id ∧ (cls = .l → id.burnsL = true) ∧
        (cls = .m → id.burnsM = true) ∧ ∃ which, s.binRecord which = ⟨cls, true, false⟩
    let eligible (e : Handle × Job) : Prop := wants e ∧ ∃ n, spare e.2 n ∨ idle e.2 n
    let more (s : State) (h : Handle) (j : Job) : State :=
      s.setJobEntry h.index ⟨h.generation, some { j with lanesHeld := j.lanesHeld + 1, inFlight := j.inFlight + 1 }⟩
    ((∀ e, ¬eligible e) → s.claimOne = none ∧ s.claimAttempt = s) ∧ s.claimAttempt.claimOne = none ∧
    (∀ h j n, first eligible (h, j) → spare j n → (∀ m, spare j m → n ≤ m) → s.claimOne =
      some ((((more (s.setRotation j.owner) h j).modLane n fun l => { l with job := some h }).modDiscAt (.tray n) fun d =>
        { d with job := some h, phase := .ready }).enterFeedWait n)) ∧
    (∀ h j n, first eligible (h, j) → (∀ m, ¬spare j m) → idle j n → (∀ m, idle j m → n ≤ m) → s.claimOne =
      some (((more (s.setRotation j.owner) h j).modLane n fun l => { l with job := some h, state := .awaitDisc }).queueRequest
        .feed (some n) s.images[j.image].cls)) ∧
    ∀ (n : LaneId) (h : Handle) (old : Job), s.jobOf h = some old → (s.discAt (.tray n)).isSome →
      let takes (e : Handle × Job) : Prop := e.1 ≠ h ∧ wants e ∧ s.lanes[n].quarantine = false ∧ fits e.2 n
      let gone := s.setJobEntry h.index
        ⟨h.generation, some { old with lanesHeld := old.lanesHeld - 1, inFlight := old.inFlight - 1 }⟩
      (∀ h' j', first takes (h', j') → s.offerBlank n h =
        ((((((more gone h' j').modDiscAt (.tray n) fun d => { d with job := some h', phase := .ready }).modLane n fun l =>
          { l with job := some h' }).setRotation j'.owner).enterFeedWait n).drainCheck h).oweClaim) ∧
      ((∀ e, ¬takes e) → s.offerBlank n h =
        (((gone.modDiscAt (.tray n) fun d => { d with job := none, phase := .spare }).modLane n fun l =>
          { l with job := none, state := .spare }).drainCheck h).oweClaim)

/-- CREDIT in BURNING: credits rise by what was freed up to the buffer size, committed rises to the total given, the timer
restarts; once every segment is committed FINALIZE is sent and a start computation is owed. A total above the sent count is an
ERROR with code 255. -/
def Obligations.CreditCountsSegments : Prop :=
  ∀ (n : LaneId) (freed : BitVec 16) (committed : BitVec 24) (id : Identity) (t : Timer) (s : State),
    s.lanes[n].state = .burning → s.lanes[n].identity = some id → s.lanes[n].timer = some t →
    let counted := s.modLane n fun l =>
      { l with
        credits := min id.buffer (l.credits + freed.toNat), committed := max l.committed committed.toNat
        timer := some ⟨t.limit, 0⟩ }
    (s.settled → committed.toNat ≤ s.lanes[n].sent → max s.lanes[n].committed committed.toNat < s.laneSegments n →
      0 < s.lanes[n].credits → exec (.credit n freed committed) s = .next counted) ∧
    (committed.toNat ≤ s.lanes[n].sent → max s.lanes[n].committed committed.toNat < s.laneSegments n →
      s.lanes[n].credits = 0 → 0 < min id.buffer freed.toNat →
      exec (.credit n freed committed) s = .next (counted.oweGrant.settle)) ∧
    (committed.toNat ≤ s.lanes[n].sent → s.laneSegments n ≤ max s.lanes[n].committed committed.toNat →
      exec (.credit n freed committed) s =
        .next (((((counted.emit (.drive n [6])).modLane n fun l =>
          { l with state := .finalizing, timer := some ⟨180000, 0⟩ }).modDiscAt (.tray n)
            fun d => { d with phase := .finalizing }).oweStart).settle)) ∧
    (s.lanes[n].sent < committed.toNat →
      exec (.credit n freed committed) s = .next ((s.laneError n 255).settle))

/-- BUFFER_EMPTY and WRITE_RECOVERED in BURNING change the disc's record and restart the timer: one underrun more, up to 255,
and a forced verify above the job's tolerance; a forced verify. In every other state both change nothing. WRITE_ERROR in
BURNING: the disc fails with WRITE_ERROR, ABORT is sent, a chunk in flight for the lane is dropped, the lane is DONE with one
failure more and its UNLOAD, and a start computation is owed. -/
def Obligations.BurnEventsMarkTheDisc : Prop :=
  (∀ (n : LaneId) (s : State),
      (∀ t j, s.lanes[n].state = .burning → s.lanes[n].timer = some t → s.jobOfOpt s.lanes[n].job = some j →
        exec (.bufferEmpty n) s = .next ((s.modDiscAt (.tray n) fun d =>
          { d with
            underruns := min 255 (d.underruns + 1)
            forced := d.forced || decide (j.tolerance < min 255 (d.underruns + 1)) }).modLane n fun l =>
              { l with timer := some ⟨t.limit, 0⟩ })) ∧
      (∀ t, s.lanes[n].state = .burning → s.lanes[n].timer = some t →
        exec (.writeRecovered n) s = .next ((s.modDiscAt (.tray n) fun d => { d with forced := true }).modLane n fun l =>
          { l with timer := some ⟨t.limit, 0⟩ })) ∧
      (s.lanes[n].state ≠ .burning → exec (.bufferEmpty n) s = .next s ∧ exec (.writeRecovered n) s = .next s)) ∧
  ∀ (n : LaneId) (s : State), s.lanes[n].state = .burning → s.hasRequest n = false →
    exec (.writeError n) s =
      let disc := s.modDiscAt (.tray n) fun d => d.fail .writeError
      let channel := (disc.emit (.drive n [8])).setChannel (s.channel.map fun t =>
        match t.recipient with
        | .lane m _ _ => if m = n then ⟨t.recipient, false⟩ else t
        | _ => t)
      let lane := channel.modLane n fun l =>
        { l with
          state := .done, timer := none, unanswered := none, heldBack := none, failCount := min 3 (l.failCount + 1)
          quarantine := l.quarantine || decide (2 ≤ l.failCount) }
      .next (((((lane.setRequests (s.requests ++ [⟨.unload, some n, some n, none, s.nextAge, false, none⟩])).passAge).oweSelect
        ).oweStart).settle)

/-- FINALIZE_DONE in FINALIZING: a killed job's disc fails KILLED; a disc that needs a verify is BURNED and joins the verify
queue; another one is BURNED and its lane DONE with the fail count 0. -/
def Obligations.FinalizeDoneRoutesTheDisc : Prop :=
  ∀ (n : LaneId) (d : Disc) (j : Job) (s : State), s.lanes[n].state = .finalizing → s.discAt (.tray n) = some d →
    s.jobOfOpt s.lanes[n].job = some j →
    exec (.finalizeDone n) s =
      let burned := s.modDiscAt (.tray n) fun d => { d with phase := .burned }
      if j.endReason = some .killed then .next (((s.modDiscAt (.tray n) fun d => d.fail .killed).enterDone n).settle)
      else if d.forced = true ∨ j.verify ≠ .none then
        .next (((burned.modLane n fun l => { l with state := .verifyWait, timer := none }).joinVerifyQueue
          (.verify n d.serial)).settle)
      else .next (((burned.enterDone n).modLane n fun l => { l with failCount := 0 }).settle)

/-- READ_DATA and READ_FAIL in VERIFYING, for an outstanding index: a CRC that equals the digest entry takes the index off the list
and asks for the next READ of the set, if one is left; with none outstanding any more the verify ends with PASS: the record is
PASSED, the lane DONE with fail count 0 and its UNLOAD queued, its entry has left the queue and its channel is FREE. Another CRC
fails the verify with the segment as first bad segment; a READ-FAIL fails it UNREADABLE. READ_DATA in SOURCE_READ: the segment's
data and its CRC are stored, bytes received rises, and the next READ is sent, if one is left; with every segment digested the load
ends as ImageStagingWriteStoresAndDigests says, the slot READY and the lane MASTER with its timer stopped. READ_FAIL fails the load.
-/
def Obligations.ReadsCompareOrStoreASegment : Prop :=
  (∀ (n : LaneId) (index : BitVec 24) (data : List Byte) (e : VerifyEntry) (k : Fin 2) (set : VerifySet) (next : Nat)
      (outstanding : List Nat) (matched : Nat) (v : ImageSlot) (t : Timer) (s : State),
      s.lanes[n].state = .verifying → s.laneChannel n = some (e, k) → s.crc[k] = .verify set next outstanding matched →
      outstanding.contains index.toNat = true → s.lanes[n].timer = some t →
      let failing (result : VerifyResult) (reason : FailReason) : State :=
        ((((s.modDiscAt (.tray n) fun d => { d.fail reason with verify := some result }).sendAbort n).enterDone n).chargeLane
          n).leaveVerifyQueue (VerifyEntry.ofLane n)
      (s.verifyImage n = some v → data.length = segmentLength v.size v.segments index.toNat →
        pagesMapped v.pages (imagePages v.size) = true →
        (crc32 data = s.digest v index.toNat → next < set.size → s.settled →
          exec (.readData n index data) s = .next (((s.modLane n fun l => { l with timer := some ⟨t.limit, 0⟩ }).setCrc k
            (.verify set (next + 1) (outstanding.erase index.toNat ++ [set.index next]) (matched + 1))).emit
              (.drive n (7 :: leBytes 3 (set.index next))))) ∧
        (crc32 data = s.digest v index.toNat → set.size ≤ next → outstanding.erase index.toNat ≠ [] → s.settled →
          exec (.readData n index data) s = .next ((s.modLane n fun l => { l with timer := some ⟨t.limit, 0⟩ }).setCrc k
            (.verify set next (outstanding.erase index.toNat) (matched + 1)))) ∧
        (crc32 data = s.digest v index.toNat → set.size ≤ next → outstanding = [index.toNat] → s.hasRequest n = false →
          let passed := (((((s.setCrc k (.verify set next [] (matched + 1))).modDiscAt (.tray n) fun d =>
            { d with verify := some .pass, phase := .passed }).modLane n fun l =>
              { l with state := .done, timer := none, failCount := 0 }).setRequests
                (s.requests ++ [⟨.unload, some n, some n, none, s.nextAge, false, none⟩])).passAge).oweSelect
          let left := passed.leaveVerifyQueue (VerifyEntry.ofLane n)
          exec (.readData n index data) s = .next left.settle ∧ left.crc[k] = .free ∧
            left.verifyQueue = s.verifyQueue.filter fun x => !x.ofLane n) ∧
        (crc32 data ≠ s.digest v index.toNat →
          exec (.readData n index data) s = .next ((failing (.mismatch index.toNat) .verifyMismatch).settle))) ∧
      exec (.readFail n index) s = .next ((failing (.unreadable index.toNat) .unreadable).settle)) ∧
  ∀ (n : LaneId) (index : BitVec 24) (data : List Byte) (e : VerifyEntry) (k : Fin 2) (i : ImageId) (next : Nat)
    (outstanding : List Nat) (digested : Nat) (t : Timer) (s : State),
    s.lanes[n].state = .sourceRead → s.laneChannel n = some (e, k) → s.crc[k] = .source next outstanding digested →
    s.sourceSlotOf n = some i → outstanding.contains index.toNat = true → s.lanes[n].timer = some t →
    (data.length = segmentLength s.images[i].size s.images[i].segments index.toNat →
      pagesMapped s.images[i].pages (imagePages s.images[i].size) = true →
      let stored := ((s.setMem (writeSlot (writeSlot s.mem s.images[i].pages (65536 * index.toNat) data) s.images[i].pages
        (dataPages s.images[i].size * 1048576 + 4 * index.toNat) (leBytes 4 (crc32 data).toNat))).modImage i
          fun v => { v with received := v.received + data.length }).modLane n fun l => { l with timer := some ⟨t.limit, 0⟩ }
      let ended := stored.setCrc k (.source next (outstanding.erase index.toNat) (digested + 1))
      (next < s.images[i].segments → digested + 1 < s.images[i].segments → s.settled →
        exec (.readData n index data) s =
          .next ((stored.setCrc k (.source (next + 1) (outstanding.erase index.toNat ++ [next]) (digested + 1))).emit
            (.drive n (7 :: leBytes 3 next)))) ∧
      (s.images[i].segments ≤ next → digested + 1 < s.images[i].segments → s.settled →
        exec (.readData n index data) s = .next ended) ∧
      (s.images[i].segments ≤ next → digested + 1 = s.images[i].segments →
        exec (.readData n index data) s = .next ((ended.finishImageLoad i).settle) ∧
          (ended.finishImageLoad i).images[i].state = .ready ∧
          (ended.finishImageLoad i).lanes[n] = { s.lanes[n] with state := .master, timer := none })) ∧
    exec (.readFail n index) s = .next ((s.failImageLoad i).settle)

/-- ERROR, a malformed message and an expired timer fault the lane, outside OFFLINE and FAULT, with their causes. In OFFLINE and
FAULT an ERROR or a malformed message changes nothing, and in FAULT an expired timer gives up the close of a fault unload or the
operator's move, the purpose and the report kept; the model drops a tray command held back (log 9) and leaves a tray that is open
for the PICK alone (log 22). While a fault unload opens its tray, each of the three ends it STUCK: the UNLOAD is dropped and the
arm released from it, the lane leaves its job, and the record closes STUCK. That the tray purpose stays is the model's choice (log
32). A timer that does not run cannot expire (log 2). -/
def Obligations.ErrorsAndTimeoutsFaultTheLane : Prop :=
  (∀ (n : LaneId) (code : Byte) (s : State), s.lanes[n].state ≠ .offline → s.lanes[n].state ≠ .fault →
    exec (.error n code) s = .next ((s.laneFault n (.error code)).settle) ∧
    exec (.driveMalformedMessage n) s = .next ((s.laneFault n (.error 255)).settle) ∧
    (s.lanes[n].timer.isSome → exec (.laneTimerExpiry n) s = .next ((s.laneFault n (.timeout s.lanes[n].state)).settle))) ∧
  (∀ (n : LaneId) (code : Byte) (s : State),
    (s.settled → s.lanes[n].state = .offline ∨ s.lanes[n].state = .fault ∧ s.lanes[n].faultMove ≠ some .unloadOpening →
      exec (.error n code) s = .next s ∧ exec (.driveMalformedMessage n) s = .next s) ∧
    (s.lanes[n].timer = none → exec (.laneTimerExpiry n) s = .next s) ∧
    (s.settled → s.lanes[n].state = .fault → s.lanes[n].timer.isSome → s.lanes[n].faultMove ≠ some .unloadOpening →
      exec (.laneTimerExpiry n) s = .next (s.modLane n fun l =>
        if l.faultMove = some .unloadOpen then { l with timer := none }
        else { l with timer := none, faultMove := none, heldBack := none }))) ∧
  ∀ (n : LaneId) (code : Byte) (r : Request) (s : State), s.lanes[n].state = .fault →
    s.lanes[n].faultMove = some .unloadOpening → s.laneRequest .unload n = some r →
    let dropped := (s.modLane n fun l => { l with timer := none, faultMove := none, heldBack := none }).setRequests
      (s.requests.filter fun x => decide (x.age ≠ r.age))
    let released := if s.arm.request = some r.age then (dropped.modArm fun a => { a with request := none }).oweArm else dropped
    let left := match s.lanes[n].job with
      | none => released
      | some h => released.modJob h fun j => { j with lanesHeld := j.lanesHeld - 1 }
    let stuck := ((left.modLane n fun l => { l with job := none }).closeDiscAt (.tray n) none (some .stuck)).settle
    exec (.error n code) s = .next stuck ∧ exec (.driveMalformedMessage n) s = .next stuck ∧
      (s.lanes[n].timer.isSome → exec (.laneTimerExpiry n) s = .next stuck)

/-- A lane fault as one event: the lane is in FAULT, out of the start queue and the verify queue, a transfer for it is no longer
wanted, and the disc in its tray is FAILED, with LANE_FAULT unless it had failed before. For a lane that holds no claim and feeds
no disc, exactly: ABORT is sent, the timer stops, a disc that had not failed before is charged, with the quarantine mark at 3, and
its destination if fixed is REJECT; an UNLOAD is queued unless a request names the lane; a SOURCE load of the lane fails; a start
computation is owed after BURNING; LANE FAULT goes out with the serial of the disc that failed. An unload that was opening opens
again, or finds its tray open and calls the arm, as does one that was open. For a lane that holds a claim, with no disc picked, the
claim ends: the FEED is withdrawn, or keeps its place without its lane while the arm serves it, in-flight and lanes held fall, the
drain check follows. With the disc on the arm it becomes FAILED and goes to REJECT, its FEED without its lane (log 11), unless its
PLACE at the tray is running; one whose PLACE an arm fault has ended counts as not issued, which is the model's choice (log 38). -/
def Obligations.LaneFaultTakesTheLaneOut : Prop :=
  (∀ (n : LaneId) (cause : LaneCause) (s : State),
    (s.laneFault n cause).lanes[n].state = .fault ∧ n ∉ (s.laneFault n cause).startQueue ∧
      (∀ e ∈ (s.laneFault n cause).verifyQueue, e.ofLane n = false) ∧
      (∀ t, (s.laneFault n cause).channel = some t → t.recipient.isLane n = true → t.wanted = false) ∧
      (∀ d, s.discAt (.tray n) = some d → d.phase ≠ .failed →
        ∃ d', (s.laneFault n cause).discAt (.tray n) = some d' ∧ d'.phase = .failed ∧ d'.reason = some .laneFault ∧
          d'.serial = d.serial) ∧
      (s.laneFault n cause).mem = s.mem ∧ (s.laneFault n cause).budget = s.budget) ∧
  (∀ (n : LaneId) (cause : LaneCause) (s : State),
    let t := s.laneFault n cause
    let l := s.lanes[n]
    let hurt : Option Disc := (s.discAt (.tray n)).filter fun d => decide (d.phase ≠ .failed)
    let after : Lane :=
      { l with
        state := .fault, timer := none, faultMove := none, unanswered := none, heldBack := none
        failCount := if hurt.isSome then min 3 (l.failCount + 1) else l.failCount
        quarantine := l.quarantine || (hurt.isSome && decide (2 ≤ l.failCount)) }
    let moving : Prop := l.state = .opening ∨ l.state = .opened
    ¬(l.state = .awaitDisc ∨ moving ∧ l.purpose = some .place) →
      t.discAt (.tray n) = (s.discAt (.tray n)).map (fun d =>
        if d.phase = .failed then d
        else { d with phase := .failed, reason := some .laneFault, destination := d.destination.map fun _ => .reject }) ∧
      t.requests = (if (s.discAt (.tray n)).isSome ∧ s.hasRequest n = false then
        s.requests ++ [⟨.unload, some n, some n, none, s.nextAge, false, none⟩] else s.requests) ∧
      (∀ m, m ≠ n → t.lanes[m] = s.lanes[m]) ∧ (l.state = .burning → t.due.start = true) ∧
      (¬(moving ∧ l.purpose = some .pick) → t.lanes[n] = after ∧ t.out = s.out ++ [.drive n [8]]) ∧
      (l.purpose = some .pick → l.state = .opened ∨ l.state = .opening ∧ l.report = some .opened →
        t.lanes[n] = { after with faultMove := some .unloadOpen } ∧ t.out = s.out ++ [.drive n [8]] ∧ t.due.arm = true) ∧
      (l.purpose = some .pick → l.state = .opening → l.report ≠ some .opened →
        t.lanes[n] = { after with faultMove := some .unloadOpening, timer := some ⟨8000, 0⟩, unanswered := some .openTray } ∧
          t.out = s.out ++ [.drive n [8], .drive n [1]]) ∧
      (s.sourceSlotOf n = none → t.ports = (s.raise .lane (.laneFault n cause (hurt.map (·.serial)))).ports) ∧
      ∀ i, s.sourceSlotOf n = some i → s.images[i].state = .loadWait ∨ s.images[i].state = .loading →
        t.images[i] = ImageSlot.freed ∧ ∀ e ∈ t.liveJobs, e.2.image ≠ i) ∧
  ∀ (n : LaneId) (cause : LaneCause) (h : Handle) (j : Job) (r : Request) (s : State), n ∉ s.startQueue →
    (∀ e ∈ s.verifyQueue, e.ofLane n = false) → (∀ t, s.channel = some t → t.recipient.isLane n = false) →
    s.sourceSlotOf n = none → s.discAt (.tray n) = none → s.lanes[n].job = some h → s.jobOf h = some j →
    s.laneRequest .feed n = some r →
    let placing : Prop := (s.lanes[n].state = .opening ∨ s.lanes[n].state = .opened) ∧ s.lanes[n].purpose = some .place
    let running : Prop := s.arm.step = some .place ∧ s.arm.position = .known (.tray n)
    let faulted := ((s.emit (.drive n [8])).modLane n fun l =>
      { l with state := .fault, timer := none, faultMove := none, unanswered := none, heldBack := none }).raise .lane
        (.laneFault n cause none)
    let withoutLane (t : State) : State :=
      t.setRequests (s.requests.map fun x => if x.age = r.age then { x with lane := none } else x)
    let leaves (t : State) (v : Job) : State :=
      (t.setJobEntry h.index ⟨h.generation, some { v with lanesHeld := v.lanesHeld - 1 }⟩).modLane n fun l => { l with job := none }
    (s.lanes[n].state = .awaitDisc ∨ placing ∧ r.disc = none → s.laneFault n cause =
      ((leaves (if r.taken = true ∧ s.arm.request = some r.age then withoutLane faulted
        else faulted.setRequests (s.requests.filter fun x => decide (x.age ≠ r.age)))
          { j with inFlight := j.inFlight - 1 }).drainCheck h).oweClaim) ∧
    (placing → r.disc ≠ none → running → s.laneFault n cause = faulted) ∧
    (placing → r.disc ≠ none → ¬running → s.laneFault n cause = (withoutLane (leaves (faulted.modDiscAt .arm fun d =>
      { d.fail .laneFault with destination := some .reject }) j)).oweArm)

/-! ## The read channel and the start of burns -/

/-- TRANSFER_COMPLETION of a wanted transfer: a segment goes to its drive and sent rises; a quarter joins its band buffer, which is
FULL with the fourth: the fetch band rises, and a printer that waits for this band tries to start it; a chunk fills the outbound
buffer. A transfer that no one wants delivers nothing; an ended export's reference is released. The channel is IDLE, the printer
may raise its next fetch, a grant is owed. With the channel IDLE nothing happens. A grant goes to the critical lane (slack below
500 ms) of least slack, then to an urgent fetch, the calm lane of least slack, a prefetch, and the lowest port whose export waits
for a chunk; of equal slacks to the lowest lane. It takes a credit, or the fetch request. A CRC channel, the lowest FREE one, goes
to the oldest waiting entry, whose work it starts: a bulk slot is LOADING; a lane is VERIFYING with its record, or SOURCE_READ with
its slot LOADING, its timer at 10,000 ms and its first READs sent, at most 4. -/
def Obligations.TransferCompletionDelivers : Prop :=
  (∀ s : State,
    (s.channel = none → exec .transferCompletion s = .next s) ∧
    (∀ n slot k, s.channel = some ⟨.lane n slot k, false⟩ →
      exec .transferCompletion s = .next (((s.setChannel none).oweGrant).settle)) ∧
    (∀ slot band q which, s.channel = some ⟨.band slot band q which, false⟩ →
      exec .transferCompletion s = .next (((s.setChannel none).raiseFetch.oweGrant).settle)) ∧
    (∀ p slot k, s.channel = some ⟨.client p slot k, false⟩ →
      exec .transferCompletion s =
        .next ((((s.setChannel none).modImage slot fun v => { v with refcount := v.refcount - 1 }).oweGrant).settle)) ∧
    (∀ n slot k, s.channel = some ⟨.lane n slot k, true⟩ →
      pagesMapped s.images[slot].pages (imagePages s.images[slot].size) = true →
      exec .transferCompletion s =
        let data := readSlot s.mem s.images[slot].pages (65536 * k) (segmentLength s.images[slot].size s.images[slot].segments k)
        .next (((((s.setChannel none).emit (.drive n ([5] ++ leBytes 3 k ++ leBytes 2 (data.length - 1) ++ data))).modLane n
          fun l => { l with sent := l.sent + 1 }).oweGrant).settle)) ∧
    (∀ slot band q which, s.channel = some ⟨.band slot band q which, true⟩ →
      pagesMapped s.artworks[slot].pages (artworkPages s.artworks[slot].bands) = true →
      let data := (s.printer.buffer which).data ++ readSlot s.mem s.artworks[slot].pages (262144 * band + 65536 * q) 65536
      (q < 3 → exec .transferCompletion s =
        .next (((((s.setChannel none).modPrinter fun v => v.setBuffer which ⟨.filling band (q + 1), data⟩).raiseFetch
          ).oweGrant).settle)) ∧
      (q = 3 → exec .transferCompletion s =
        let full := (s.setChannel none).modPrinter fun v =>
          { v.setBuffer which ⟨.full band, data⟩ with fetchBand := v.fetchBand + 1 }
        if (s.printer.state = .fetchWait ∨ s.printer.state = .bandWait) ∧ s.printer.nextBand = band then
          .next ((full.tryStartBand.raiseFetch.oweGrant).settle)
        else .next ((full.raiseFetch.oweGrant).settle))) ∧
    (∀ p slot k i position buffer, s.channel = some ⟨.client p slot k, true⟩ →
      s.ports[p].stream = .outbound i position buffer →
      pagesMapped s.images[slot].pages (imagePages s.images[slot].size) = true →
      exec .transferCompletion s =
        .next ((((s.setChannel none).modPort p fun r =>
          { r with
            stream := .outbound i position (readSlot s.mem s.images[slot].pages (65536 * k)
              (segmentLength s.images[slot].size s.images[slot].segments k)) }).oweGrant).settle))) ∧
  (∀ s : State,
    let able (n : LaneId) : Prop := s.lanes[n].state = .burning ∧ 1 ≤ s.lanes[n].credits ∧ s.lanes[n].granted < s.laneSegments n
    let slack (n : LaneId) : Nat := (((s.lanes[n].identity.map (·.buffer)).getD 0) - s.lanes[n].credits) * 64000 / s.laneDemand n
    let critical (n : LaneId) : Prop := able n ∧ slack n < 500
    let least (p : LaneId → Prop) (n : LaneId) : Prop := p n ∧ ∀ m, p m → slack n < slack m ∨ (slack n = slack m ∧ n ≤ m)
    let granted (n : LaneId) : Prop := ∀ slot, s.laneImageId n = some slot → s.chooseGrant =
      (s.setChannel (some ⟨.lane n slot s.lanes[n].granted, true⟩)).modLane n
        fun l => { l with granted := l.granted + 1, credits := l.credits - 1 }
    let waits (p : Port) (i : ImageId) (position : Nat) : Prop :=
      s.ports[p].stream = .outbound i position [] ∧ position < s.images[i].size
    (s.channel ≠ none → s.chooseGrant = s) ∧
    (s.channel = none →
      (∀ n, least critical n → granted n) ∧
      (∀ f, (∀ n, ¬critical n) → s.printer.state = .bandWait ∨ (∀ n, ¬able n) → s.printer.request = some f → s.chooseGrant =
        (s.setChannel (some ⟨.band f.slot f.band f.quarter f.buffer, true⟩)).modPrinter fun v => { v with request := none }) ∧
      (∀ n, (∀ m, ¬critical m) → ¬(s.printer.state = .bandWait ∧ s.printer.request.isSome) → least able n → granted n) ∧
      ((∀ n, ¬able n) → s.printer.request = none →
        (∀ p i position, waits p i position → (∀ q < p, ∀ i position, ¬waits q i position) → s.chooseGrant =
          s.setChannel (some ⟨.client p i (position / 65536), true⟩)) ∧
        ((∀ p i position, ¬waits p i position) → s.chooseGrant = s)))) ∧
  ∀ (rounds : Nat) (s : State),
    s.crcGrants = State.crcRounds 2 s ∧ State.crcRounds 0 s = s ∧
    ((∀ k : Fin 2, s.crc[k] ≠ .free) ∨ (∀ e ∈ s.verifyQueue, e.channel ≠ none) → State.crcRounds rounds s = s) ∧
    ∀ (k : Fin 2) (before : List VerifyEntry) (e : VerifyEntry) (after : List VerifyEntry), s.crc[k] = .free →
      (∀ m < k, s.crc[m] ≠ .free) → s.verifyQueue = before ++ e :: after → (∀ x ∈ before, x.channel ≠ none) → e.channel = none →
      let held := s.setVerifyQueue (before ++ { e with channel := some k } :: after)
      State.crcRounds (rounds + 1) s = State.crcRounds rounds (held.startWork k e.work) ∧
      let loads (i : ImageId) (t : State) : State := t.modImage i fun v =>
        { v with state := if v.state = .loadWait then .loading else v.state }
      let reads (n : LaneId) (indices : List Nat) (t : State) : State :=
        indices.foldl (fun u x => u.emit (.drive n (7 :: leBytes 3 x))) t
      (∀ p i, e.work = .bulk p i → held.startWork k e.work = loads i (held.setCrc k (.bulk 0 0 0xFFFFFFFF))) ∧
      (∀ n serial, e.work = .verify n serial →
        let set := s.verifySetFor serial
        let first := (List.range (min 4 set.size)).map set.index
        let granted := held.setCrc k (.verify set (min 4 set.size) first 0)
        held.startWork k e.work = reads n first ((granted.modDiscAt (.tray n) fun d => { d with phase := .verifying }).modLane n
          fun l => { l with state := .verifying, timer := some ⟨10000, 0⟩ })) ∧
      ∀ n i, e.work = .source n i →
        let first := List.range (min 4 s.images[i].segments)
        held.startWork k e.work = reads n first ((loads i (held.setCrc k (.source (min 4 s.images[i].segments) first 0))).modLane n
          fun l => { l with state := .sourceRead, timer := some ⟨10000, 0⟩ })

/-- The candidate set: the blank speeds inside the job's range; if none is, the highest below it; if none is below, the lowest above
it; of a list that is not empty it is not empty. The start speed is a candidate whose demand fits the available rate, and no higher
candidate fits; there is none exactly when no candidate fits. A start: START-WRITE with the speed and the image's segment count,
counts 0, credits the buffer size, BURNING under 10,000 ms, the record BURNING at the speed, a grant owed. A start computation
starts the head of the queue as long as the head can start, and stops at the first that cannot. It never starts a lane past the
budget: when the burning lanes fit the budget less the print reserve before it, they do so after it, at whatever speeds it started
lanes. -/
def Obligations.StartsFitTheBudget : Prop :=
  (∀ (speeds : List Nat) (lo hi v : Nat),
      (v ∈ candidateSpeeds speeds lo hi ↔ v ∈ speeds ∧
        (lo ≤ v ∧ v ≤ hi ∨ (∀ w ∈ speeds, ¬(lo ≤ w ∧ w ≤ hi)) ∧
          (v < lo ∧ (∀ w ∈ speeds, w < lo → w ≤ v) ∨
            (∀ w ∈ speeds, lo ≤ w) ∧ hi < v ∧ ∀ w ∈ speeds, hi < w → v ≤ w))) ∧
      (speeds ≠ [] → candidateSpeeds speeds lo hi ≠ [])) ∧
  (∀ (cls : MediaClass) (candidates : List Nat) (available : Int),
      (∀ v, startSpeed cls candidates available = some v ↔
        v ∈ candidates ∧ ((v * baseRate cls : Nat) : Int) ≤ available ∧
          ∀ w ∈ candidates, ((w * baseRate cls : Nat) : Int) ≤ available → w ≤ v) ∧
      (startSpeed cls candidates available = none ↔ ∀ w ∈ candidates, available < ((w * baseRate cls : Nat) : Int))) ∧
  (∀ (n : LaneId) (speed : Nat) (id : Identity) (s : State), s.lanes[n].identity = some id → s.startLane n speed =
      (((s.emit (.drive n (4 :: BitVec.ofNat 8 speed :: leBytes 3 (s.laneSegments n)))).modLane n fun l =>
        { l with
          state := .burning, granted := 0, sent := 0, committed := 0, credits := id.buffer
          timer := some ⟨10000, 0⟩ }).modDiscAt (.tray n) fun d =>
            { d with phase := .burning, speed := some speed }).oweGrant) ∧
  (∀ s : State, (s.startQueue = [] → s.startComputation = s) ∧
    ∀ (n : LaneId) (rest : List LaneId) (d : Disc) (cls : MediaClass) (j : Job), s.startQueue = n :: rest →
      s.discAt (.tray n) = some d → d.cls = some cls → s.jobOfOpt s.lanes[n].job = some j →
      let speed := startSpeed cls (candidateSpeeds s.lanes[n].blankSpeeds j.speedMin j.speedMax)
        ((s.budget : Int) - 4096 - s.burningSum)
      (speed = none → s.startComputation = s) ∧
      ∀ v, speed = some v → s.startComputation = ((s.setStartQueue rest).startLane n v).startComputation) ∧
  ∀ s : State, 4096 + s.burningSum ≤ s.budget →
    4096 + s.startComputation.burningSum ≤ s.startComputation.budget ∧ s.startComputation.budget = s.budget

/-! ## Verification -/

/-- R119: the verify set of a granted VERIFY entry, formed from the record's forced verify flag, the job's mode and the image's
segment count, stands in the channel that the grant gives: every index, or the multiples of the interval and the last index;
ascending, without repeats, of the stated size. -/
def Obligations.VerifySetIsFormedAtTheGrant : Prop :=
  ∀ (s : State) (serial : Word32) (d : Disc) (j : Job), s.discOf serial = some d → s.jobOfOpt d.job = some j →
    0 < s.images[j.image].segments →
    let segments := s.images[j.image].segments
    let set := s.verifySetFor serial
    (∀ (k : Fin 2) (n : LaneId), (s.startWork k (.verify n serial)).crc[k] =
      .verify set (min 4 set.size) ((List.range (min 4 set.size)).map set.index) 0) ∧
    (∀ a b, a < b → b < set.size → set.index a < set.index b) ∧
    (d.forced = true ∨ j.verify = .full → set.size = segments ∧
      ∀ x, (∃ a, a < set.size ∧ set.index a = x) ↔ x < segments) ∧
    ∀ interval, d.forced = false → j.verify = .sample interval → 0 < interval →
      (set.size = (segments - 1) / interval + 1 + if (segments - 1) % interval = 0 then 0 else 1) ∧
      ∀ x, (∃ a, a < set.size ∧ set.index a = x) ↔
        x = 0 ∨ (x < segments ∧ x % interval = 0) ∨ x = segments - 1

/-- Two segments that differ in one byte have different CRCs. -/
def Obligations.CrcSeesEveryByte : Prop :=
  ∀ (before after : List Byte) (a b : Byte), a ≠ b → crc32 (before ++ a :: after) ≠ crc32 (before ++ b :: after)

/-! ## The arm -/

/-- ARM_STEP_DONE: TRAVEL ends at its position and the arm's next step follows; HOME with the arm reading home and an empty grip
leaves the arm IDLE and a selection owed, with the notice that the arm is cleared after a CLEAR_ARM_FAULT; with a disc in the grip
it is a GRIP fault, whose step HOME is the model's reading (log 15); without a step the report is discarded. A PLACE in the output
or the reject bin closes the record with that fate, at the printer it moves the record there for the ink check; a FEED's disc is
placed in the lane's tray, which closes for the probe, or in the reject bin, and the FEED leaves the queue; a lane that faulted
meanwhile fails it and queues its UNLOAD, and that one which has left FAULT becomes DONE is the model's choice (log 22). An IDLE
arm selects the oldest eligible PRINT_CLEAR, else UNLOAD, else FEED, takes it, tells its lane if it was waiting, and works out its
first step; in another state, or with no request eligible, it selects nothing. Routing: FAILED and SPARE go to REJECT; PASSED, and
BURNED with no verify required, from a tray to the printer when the job names artwork and is not killed, else to OUTPUT; PRINTED to
OUTPUT; a record in any other phase is not routed. -/
def Obligations.ArmStepDoneMovesTheArm : Prop :=
  (∀ s : State,
      (s.arm.step = none → exec .armStepDone s = .next s) ∧
      (∀ v, s.arm.step = some (.travel v) → exec .armStepDone s =
        .next (((s.modArm fun a => { a with step := none, timer := none, position := .known v }).armContinue).settle)) ∧
      (s.settled → s.arm.step = some .home → s.sensor .armHome = false →
        exec .armStepDone s = .next (s.modArm fun a => { a with homeDone := true })) ∧
      (s.arm.step = some .home → s.sensor .armHome = true →
        let home := s.modArm fun a => { a with step := none, timer := none, homeDone := false, position := .home }
        (s.gripCount = 0 → exec .armStepDone s =
          let idle := (home.modArm fun a => { a with state := .idle, byClear := false }).oweSelect
          .next ((if s.arm.byClear then idle.raise .arm .armCleared else idle).settle)) ∧
        (s.gripCount ≠ 0 → exec .armStepDone s = .next ((home.armFaults .grip (some .home)).settle)))) ∧
  (∀ s : State, s.arm.step = some .place →
    let stopped := s.modArm fun a => { a with step := none, timer := none }
    let idle (u : State) : State := (u.modArm fun a => { a with state := .idle, request := none }).oweSelect
    (s.arm.request = none →
      (s.arm.position = .known .output → exec .armStepDone s =
        .next ((idle (stopped.closeDiscAt .arm (some .output) none)).settle)) ∧
      (s.arm.position = .known .reject → exec .armStepDone s =
        .next ((idle (stopped.closeDiscAt .arm (some .reject) none)).settle)) ∧
      (s.arm.position = .known .printer → exec .armStepDone s =
        .next ((idle ((stopped.modDiscAt .arm fun d => { d with location := .printer, phase := .printing }).inkCheck)).settle))) ∧
    ∀ r, s.served = some r → r.kind = .feed →
      let left (u : State) : State := (u.dropRequest r.age).modArm fun a => { a with request := none }
      (s.arm.position = .known .reject → exec .armStepDone s =
        .next ((idle ((left stopped).closeDiscAt .arm (some .reject) none)).settle)) ∧
      ∀ n : LaneId, s.arm.position = .known (.tray n) →
        let placed := left (stopped.modDiscAt .arm fun d => { d with location := .tray n })
        (s.lanes[n].state = .opened → s.lanes[n].purpose = some .place →
          exec .armStepDone s = .next ((idle (placed.enterClosing n (some .place))).settle)) ∧
        (s.lanes[n].state = .fault → exec .armStepDone s =
          .next ((idle ((placed.failTrayDisc n).queueUnload n)).settle)) ∧
        (s.lanes[n].state ≠ .fault → ¬(s.lanes[n].state = .opened ∧ s.lanes[n].purpose = some .place) →
          let freed := match placed.sourceSlotOf n with
            | none => placed
            | some i => placed.failImageLoad i
          exec .armStepDone s = .next ((idle
            (((freed.modLane n fun l => { l with startUp := false, heldBack := none }).failTrayDisc n).enterDone n)).settle))) ∧
  (∀ (d : Disc) (s : State),
    let required : Prop := d.forced = true ∨ ∃ j, s.jobOfOpt d.job = some j ∧ j.verify ≠ .none
    let labelled : Prop := ∃ n j a, d.location = .tray n ∧ s.jobOfOpt d.job = some j ∧ j.artwork = some a ∧
      j.endReason ≠ some .killed
    (d.phase = .failed ∨ d.phase = .spare → s.routing d = some .reject) ∧ (d.phase = .printed → s.routing d = some .output) ∧
    (d.phase = .passed ∨ d.phase = .burned ∧ ¬required →
      (labelled → s.routing d = some .printer) ∧ (¬labelled → s.routing d = some .output)) ∧
    (d.phase = .burned ∧ required ∨ d.phase ∈ [Phase.fed, .ready, .burning, .finalizing, .verifying, .printing] →
      s.routing d = none)) ∧
  ∀ s : State,
    let free (d : Option Destination) : Prop := d = some .printer ∧ s.printer.state = .empty ∨
      d = some .output ∧ s.outputFull = false ∨ d = some .reject ∧ s.rejectFull = false
    let blanks (cls : Option MediaClass) : Prop := ∃ v which, cls = some v ∧ s.binRecord which = ⟨v, true, false⟩
    let eligible (r : Request) : Prop := match r.kind, r.lane with
      | .feed, some _ => blanks r.cls
      | .feed, none => blanks r.cls ∧ s.rejectFull = false
      | .unload, some n => ∃ d, s.discAt (.tray n) = some d ∧ free (if r.taken then d.destination else s.routing d)
      | .unload, none => False
      | .printClear, _ => ∃ d, s.discAt .printer = some d ∧ free d.destination
    (s.arm.state ≠ .idle ∨ (∀ r ∈ s.requests, ¬eligible r) → s.select = s) ∧
    ∀ before r after, s.arm.state = .idle → s.requests = before ++ r :: after → eligible r →
      (∀ x ∈ before, x.kind = r.kind → ¬eligible x) →
      (r.kind = .printClear ∨ (∀ x ∈ s.requests, x.kind = .printClear → ¬eligible x) ∧
        (r.kind = .unload ∨ ∀ x ∈ s.requests, x.kind = .unload → ¬eligible x)) →
      let source : Bin := if r.cls = some s.binA.cls ∧ s.binA.present = true ∧ s.binA.fault = false then .a else .b
      let up := (s.modArm fun a =>
        { a with
          state := .serving, request := some r.age, attempts := 0, returning := false
          sourceBin := if r.kind = .feed then some source else none }).modRequest r.age fun x => { x with taken := true }
      (r.taken = true ∨ r.kind = .printClear → s.select = up.armContinue) ∧
      (∀ n, r.taken = false → r.kind = .feed → r.lane = some n → s.select = (up.enterOpening n .place).armContinue) ∧
      ∀ n d, r.taken = false → r.kind = .unload → r.lane = some n → s.discAt (.tray n) = some d →
        let fixed := up.modDiscAt (.tray n) fun x => { x with destination := s.routing d }
        s.select = (if s.lanes[n].state = .fault then fixed.faultUnload n else fixed.enterOpening n .pick).armContinue

/-- A PICK at a bin that leaves one disc in the grip creates its record in the lowest FREE entry with the counter's serial, FED
for the lane of the FEED and its job; the counter moves on past 4,294,967,295 to 1. A failed attempt at a bin: with no disc, PICK
again, up to the third attempt, at which the bin faults; with two, PLACE them back, while the bin is present, and then PICK again
or fault the bin. A bin that is absent at a PICK, and one that faults, leave the FEED set aside and the arm IDLE; with the door
open a step that is due leaves the arm HELD. A PICK at the tray of a lane or at the printer: one disc moves the record to the arm,
the request leaves the queue, the lane closes its empty tray or the printer is EMPTY, and the delivery follows; no disc faults the
arm with cause PICK, the record stays; with two the record moves first. -/
def Obligations.PickAtABinCreatesTheRecord : Prop :=
  (∀ (which : Bin) (r : Request) (n : LaneId) (h : Handle) (i : TableId) (s : State), s.arm.step = some .pick →
    s.arm.position = .known (.bin which) → s.gripCount = 1 → s.served = some r → r.origin = some n → r.lane = some n →
    s.lanes[n].job = some h → (tableIds.find? fun i => s.discs[i].isNone) = some i →
    exec .armStepDone s =
      let stopped := s.modArm fun a => { a with step := none, timer := none }
      let created := stopped.setDisc i (some
        { serial := s.serial, job := some h, lane := n, cls := none, capacity := 0, location := .arm, phase := .fed
          speed := none, underruns := 0, forced := false, verify := none, reason := none, degraded := false
          printed := false, destination := none, fate := none })
      .next (((((created.setSerial (if s.serial = 4294967295 then 1 else s.serial + 1)).modRequest r.age
        fun x => { x with disc := some s.serial }).modArm fun a => { a with sourceBin := none }).armContinue).settle)) ∧
  (∀ (which : Bin) (r : Request) (s : State), s.settled → s.arm.state = .serving → s.arm.position = .known (.bin which) →
    s.served = some r → r.kind = .feed → r.disc = none → s.arm.sourceBin = some which →
    let bin := s.binRecord which
    let stopped := s.modArm fun a => { a with step := none, timer := none }
    let held := stopped.modArm fun a => { a with state := .held, resume := some .serving }
    let issued (v : ArmStep) (f : Arm → Arm) : State :=
      (stopped.emit (.arm v)).modArm fun a => f { a with step := some v, timer := some ⟨3000, 0⟩ }
    let aside (u : State) : State := ((u.modArm fun a =>
      { a with state := .idle, request := none, sourceBin := none, attempts := 0, returning := false }).oweSelect).settle
    let faulted := (stopped.modBin which fun v => { v with fault := true }).raise .bin (.bin .fault which)
    let becomes (u : State) : Prop := exec .armStepDone s = .next u
    (s.arm.step = some .pick → s.arm.returning = false →
      (s.gripCount = 0 → s.arm.attempts < 3 →
        (bin.present = true → bin.fault = false → s.sensor .doorClosed = true →
          becomes (issued .pick fun a => { a with attempts := a.attempts + 1 })) ∧
        (bin.present = true → bin.fault = false → s.sensor .doorClosed = false → becomes held) ∧
        (bin.present = false → becomes (aside stopped))) ∧
      (s.gripCount = 0 → 3 ≤ s.arm.attempts → becomes (aside faulted)) ∧
      (s.gripCount = 2 →
        (bin.present = true → s.sensor .doorClosed = true → becomes (issued .place fun a => { a with returning := true })) ∧
        (bin.present = true → s.sensor .doorClosed = false →
          becomes (held.modArm fun a => { a with returning := true })) ∧
        (bin.present = false → becomes (stopped.modArm fun a => { a with returning := true })))) ∧
    (s.arm.step = some .place → s.arm.returning = true →
      (s.arm.attempts < 3 →
        (bin.present = true → bin.fault = false → s.sensor .doorClosed = true →
          becomes (issued .pick fun a => { a with attempts := a.attempts + 1, returning := false })) ∧
        (bin.present = true → bin.fault = false → s.sensor .doorClosed = false →
          becomes (held.modArm fun a => { a with returning := false })) ∧
        (bin.present = false → becomes (aside stopped))) ∧
      (3 ≤ s.arm.attempts → becomes (aside faulted)))) ∧
  ∀ (r : Request) (s : State), s.arm.step = some .pick → s.served = some r →
    let stopped := s.modArm fun a => { a with step := none, timer := none }
    let gone (u : State) : State := (u.dropRequest r.age).modArm fun a => { a with request := none }
    let picked (told : State) : Prop :=
      (s.gripCount = 1 → exec .armStepDone s = .next (told.armContinue.settle)) ∧
      (s.gripCount = 0 → exec .armStepDone s = .next ((stopped.armFaults .pick (some .pick)).settle)) ∧
      (s.gripCount = 2 → exec .armStepDone s = .next ((told.armFaults .pick (some .pick)).settle))
    (∀ n : LaneId, s.arm.position = .known (.tray n) →
      let left := (gone (stopped.modDiscAt (.tray n) fun d => { d with location := .arm })).laneLeavesJob n
      (s.lanes[n].state = .opened → picked (left.enterClosing n (some .pick))) ∧
      (s.lanes[n].state = .fault → picked ((left.sendTray n .closeTray).modLane n fun l =>
        { l with faultMove := some .unloadClosing, timer := some ⟨8000, 0⟩ }))) ∧
    (s.arm.position = .known .printer →
      let left := gone (stopped.modDiscAt .printer fun d => { d with location := .arm })
      picked (((left.modPrinter fun v => { v with state := .empty, nextBand := 0, fetchBand := 0 }).oweSelect).oweArm))

/-- ARM_DRIVER_FAULT and ARM_STEP_TIMEOUT fault the arm with the running step; without one the reports change nothing. An arm
fault ends the step, the request and the pick, and leaves the position unknown; with a disc in the grip that is all but for the
ARM FAULT notice, which carries the cause, the step, the position before and the serial of the record on the arm; with an empty
grip the record on the arm closes LOST first. A FEED that it was picked for leaves the queue and the arm, and its lane leaves its
job: one that is OPEN for it closes its tray with no purpose, one that is OPENING forgets its purpose, and one in another state
only leaves its job (log 31). After a PICK fault at a tray or the printer, a disc that shows in the grip takes its record to the
arm, if the UNLOAD or PRINT_CLEAR there has been taken: the request leaves the queue, the lane leaves its job and closes its tray,
or the printer is EMPTY. A tray command waits for the answer to another one (log 9). -/
def Obligations.ArmFaultsStopTheArm : Prop :=
  (∀ s : State, s.arm.step = none → exec .armDriverFault s = .next s ∧ exec .armStepTimeout s = .next s) ∧
  (∀ (v : ArmStep) (s : State), s.arm.step = some v →
    exec .armDriverFault s = .next ((s.armFaults .driver (some v)).settle) ∧
    exec .armStepTimeout s = .next ((s.armFaults .timeout (some v)).settle) ∧
    ∀ cause, cause = ArmCause.driver ∨ cause = .timeout →
      let stopped : Arm :=
        { s.arm with
          state := .fault, resume := none, position := .unknown, step := none, timer := none, request := none
          sourceBin := none, attempts := 0, fault := some ⟨cause, some v⟩, returning := false, homeDone := false }
      (s.armFaults cause (some v)).arm = stopped ∧
        (s.gripCount ≠ 0 → s.armFaults cause (some v) = (s.modArm fun _ => stopped).raise .arm
          (.armFault ⟨cause, some v⟩ s.arm.position ((s.discAt .arm).map (·.serial)))) ∧
        (s.gripCount = 0 → s.armFaults cause (some v) =
          let lost := (s.modArm fun _ => stopped).loseArmDisc
          lost.raise .arm (.armFault ⟨cause, some v⟩ s.arm.position ((lost.discAt .arm).map (·.serial))))) ∧
  ∀ s : State,
    let lane (n : LaneId) : Lane := s.lanes[n]
    let without (t : State) (age : Nat) : State :=
      (t.setRequests (s.requests.filter fun x => decide (x.age ≠ age))).modArm fun a =>
        { a with request := if a.request = some age then none else a.request }
    let leaves (t : State) (n : LaneId) : State :=
      (match (lane n).job with
        | none => t
        | some h => t.modJob h fun j => { j with lanesHeld := j.lanesHeld - 1 }).modLane n fun l => { l with job := none }
    let close (t : State) (n : LaneId) : State :=
      if (lane n).unanswered = none then (t.emit (.drive n [2])).modLane n fun l => { l with unanswered := some .closeTray }
      else t.modLane n fun l => { l with heldBack := some .closeTray }
    let closing (t : State) (n : LaneId) (v : Option TrayPurpose) : State := (close t n).modLane n fun l =>
      { l with state := .closing, purpose := v, timer := some ⟨8000, 0⟩ }
    let lost (t : State) : State := t.closeDiscAt .arm none (some .lost)
    (s.discAt .arm = none → s.loseArmDisc = s) ∧
    (∀ d : Disc, s.discAt .arm = some d →
      ((∀ r ∈ s.requests, r.disc ≠ some d.serial) → s.loseArmDisc = lost s) ∧
      ∀ (before : List Request) (r : Request) (after : List Request), s.requests = before ++ r :: after →
        (∀ x ∈ before, x.disc ≠ some d.serial) → r.disc = some d.serial →
        (r.lane = none → s.loseArmDisc = lost (without s r.age)) ∧
        ∀ n : LaneId, r.lane = some n →
          let left := leaves (without s r.age) n
          let feeds : Prop := (lane n).purpose = some .place
          (feeds → (lane n).state = .opened → s.loseArmDisc = lost (closing left n none)) ∧
          (feeds → (lane n).state = .opening → s.loseArmDisc = lost (left.modLane n fun l => { l with purpose := none })) ∧
          (¬(feeds ∧ ((lane n).state = .opened ∨ (lane n).state = .opening)) → s.loseArmDisc = lost left)) ∧
    (∀ (n : LaneId) (r : Request), s.arm.position = .known (.tray n) → s.laneRequest .unload n = some r →
      let left := leaves (without (s.modDiscAt (.tray n) fun d => { d with location := .arm }) r.age) n
      (r.taken = true → (s.discAt (.tray n)).isSome →
        ((lane n).state = .opened → s.followPick = closing left n (some .pick)) ∧
        ((lane n).state = .fault → s.followPick = (close left n).modLane n fun l =>
          { l with faultMove := some .unloadClosing, timer := some ⟨8000, 0⟩ })) ∧
      (r.taken = false ∨ s.discAt (.tray n) = none → s.followPick = s)) ∧
    (∀ (before : List Request) (r : Request) (after : List Request), s.arm.position = .known .printer →
      s.requests = before ++ r :: after → r.kind = .printClear → (∀ x ∈ before, x.kind ≠ .printClear) →
      (r.taken = true → (s.discAt .printer).isSome → s.followPick =
        (((without (s.modDiscAt .printer fun d => { d with location := .arm }) r.age).modPrinter fun v =>
          { v with state := .empty, nextBand := 0, fetchBand := 0 }).oweSelect).oweArm) ∧
      (r.taken = false ∨ s.discAt .printer = none → s.followPick = s)) ∧
    ((∀ n : LaneId, s.arm.position = .known (.tray n) → s.laneRequest .unload n = none) →
      (s.arm.position = .known .printer → ∀ x ∈ s.requests, x.kind ≠ .printClear) → s.followPick = s)

/-! ## The sensors -/

/-- SENSOR_SCAN: a reading equal to the debounced state clears the count; a differing one counts, and the third in a row becomes
the debounced state. A scan that completes no change changes nothing else, but that the third scan of the start-up derives the
key. When one sensor's change completes, after the start-up, its consumers act: a bin's present field, a full flag, each with its
notice; DOOR, and the door's closing releases the arm (that an arm HOMING without a step issues HOME then is the model's reading,
log 14); the key of the two contacts, with KEY when it differs; a grip that shows no disc is a drop, whose fault carries the step
running, which is the model's reading (log 15), or the removal of a faulted arm's disc; one that shows a disc is followed after a
PICK fault; the arm's and the
printer tray's awaited home readings; the lid's opening while PRINTING; a cartridge refills or empties its channels, and its
arrival repeats the ink check of INK_HOLD. -/
def Obligations.ScanDebouncesEverySensor : Prop :=
  (∀ (readings : BitVec 32) (order : List Sensor) (s : State),
    (∃ t, exec (.sensorScan readings order) s = .next t ∧ ∀ v : Sensor,
      t.sensors[sensorPlace v] =
        let before := s.sensors[sensorPlace v]
        let reading := readings.getLsbD (sensorBit v)
        if reading = before.active then ⟨before.active, 0⟩
        else if before.count < 2 then ⟨before.active, before.count + 1⟩
        else ⟨reading, 0⟩) ∧
    ((∀ v : Sensor, readings.getLsbD (sensorBit v) = s.sensors[sensorPlace v].active ∨ s.sensors[sensorPlace v].count < 2) →
      (s.scans = 3 → ∃ t, exec (.sensorScan readings order) s = .next t ∧ t = { s with sensors := t.sensors }) ∧
      (s.scans = 2 → ∃ sensors, exec (.sensorScan readings order) s =
        let key := keyOf (s.sensor .keyLock) (s.sensor .keyService)
        let u := { s with sensors := sensors, scans := 3 }
        .next (if key = s.key then u else (u.setKey key).raise .key (.key key s.key))))) ∧
  ∀ (readings : BitVec 32) (order : List Sensor) (v : Sensor) (s : State), s.settled → s.scans = 3 →
    let on := readings.getLsbD (sensorBit v)
    on ≠ s.sensors[sensorPlace v].active → 2 ≤ s.sensors[sensorPlace v].count →
    (∀ w, w ≠ v → readings.getLsbD (sensorBit w) = s.sensors[sensorPlace w].active ∨ s.sensors[sensorPlace w].count < 2) →
    ∃ u : State, u = { s with sensors := u.sensors } ∧
      (∀ w, u.sensors[sensorPlace w].active = if w = v then on else s.sensors[sensorPlace w].active) ∧
      let becomes (t : State) : Prop := exec (.sensorScan readings order) s = .next t
      let key := keyOf (u.sensor .keyLock) (u.sensor .keyService)
      let levels := s.printer.levels
      let full := s.printer.capacity
      match v, on with
      | .binAPresent, true => becomes ((((((u.modBin .a fun b => { b with present := true }).raise .bin
          (.bin .present .a)).oweClaim).oweSelect).oweArm).settle)
      | .binBPresent, true => becomes ((((((u.modBin .b fun b => { b with present := true }).raise .bin
          (.bin .present .b)).oweClaim).oweSelect).oweArm).settle)
      | .binAPresent, false => becomes ((u.modBin .a fun b => { b with present := false }).raise .bin (.bin .empty .a))
      | .binBPresent, false => becomes ((u.modBin .b fun b => { b with present := false }).raise .bin (.bin .empty .b))
      | .outputFull, true => becomes ((u.setOutputFull true).raise .outputReject (.outputFull true))
      | .outputFull, false => becomes (((((u.setOutputFull false).raise .outputReject (.outputFull false)).oweSelect).oweArm).settle)
      | .rejectFull, true => becomes ((u.setRejectFull true).raise .outputReject (.rejectFull true))
      | .rejectFull, false => becomes (((((u.setRejectFull false).raise .outputReject (.rejectFull false)).oweSelect).oweArm).settle)
      | .doorClosed, false => becomes (u.raise .door (.door false))
      | .doorClosed, true =>
        let told := u.raise .door (.door true)
        (s.arm.state = .held → s.arm.resume = some .serving →
          becomes (((told.modArm fun a => { a with state := .serving, resume := none }).armContinue).settle)) ∧
        (s.arm.step = none → s.arm.state = .homing ∨ s.arm.state = .held ∧ s.arm.resume = some .homing →
          becomes ((told.emit (.arm .home)).modArm fun a =>
            { a with
              state := .homing, step := some .home, timer := some ⟨20000, 0⟩
              resume := if s.arm.state = .held then none else a.resume })) ∧
        (s.arm.state ≠ .held → ¬(s.arm.state = .homing ∧ s.arm.step = none) → becomes told)
      | .keyLock, _ | .keyService, _ =>
        becomes (if key = s.key then u else (u.setKey key).raise .key (.key key s.key))
      | .gripOne, _ | .gripTwo, _ =>
        (s.gripCount ≠ 0 → u.gripCount = 0 →
          (s.arm.state = .fault → becomes (u.loseArmDisc.settle)) ∧
          (s.arm.state ≠ .fault → (s.discAt .arm).isSome → s.arm.step ≠ some .place →
            becomes ((u.armFaults .drop s.arm.step).settle)) ∧
          (s.arm.state ≠ .fault → s.discAt .arm = none ∨ s.arm.step = some .place → becomes u)) ∧
        (s.gripCount = 0 → u.gripCount ≠ 0 → becomes
          (if s.arm.state = .fault ∧ ∃ f, s.arm.fault = some f ∧ f.cause = .pick then u.followPick.settle else u)) ∧
        ((s.gripCount = 0 ↔ u.gripCount = 0) → becomes u)
      | .armHome, _ => becomes (if on ∧ s.arm.step = some .home ∧ s.arm.homeDone = true then u.homed.settle else u)
      | .lidClosed, _ => becomes (if on = false ∧ s.printer.state = .printing then (u.printerFaults .lid).settle else u)
      | .printerTrayHome, _ =>
        (∀ disc, on = true → s.printer.state = .trayOut → s.printer.outDone = some disc → becomes ((u.endTrayOut disc).settle)) ∧
        (on = false ∨ s.printer.state ≠ .trayOut ∨ s.printer.outDone = none → becomes u)
      | .blackPresent, false => becomes (u.modPrinter fun x => { x with levels := ⟨levels.c, levels.m, levels.y, 0⟩ })
      | .colourPresent, false => becomes (u.modPrinter fun x => { x with levels := ⟨0, 0, 0, levels.k⟩ })
      | .blackPresent, true =>
        let filled := u.modPrinter fun x => { x with levels := ⟨levels.c, levels.m, levels.y, full⟩, blackLow := false }
        becomes (if s.printer.state = .inkHold then filled.inkCheck.settle else filled)
      | .colourPresent, true =>
        let filled := u.modPrinter fun x => { x with levels := ⟨full, full, full, levels.k⟩, colourLow := false }
        becomes (if s.printer.state = .inkHold then filled.inkCheck.settle else filled)

/-! ## The printer -/

/-- TRAY_DONE: in TRAY_IN the first band is tried, whatever disc indication it carries (that the one of a move in is ignored is
the model's reading, log 27); in TRAY_OUT with the tray at home an empty tray without a record leaves
EMPTY, a disc without a record is a FOREIGN fault, and a record's disc is FINISHED with its destination and its PRINT_CLEAR;
with the tray not home the report is kept (log 25); elsewhere it is discarded. BAND_DONE for the band being printed: its buffer
is FREE and the next band is tried; after the label's last band the label is complete; a band that is not being printed is
discarded. The ink check passes when every level is at least its cost: TRAY-IN is sent and the fetch begins; else the disc of a
killed job returns unprinted and any other is held in INK_HOLD with INK OUT. A complete label debits its costs, no level below 0,
raises INK LOW once for a cartridge with a channel below a tenth of the capacity (black before colour: log 36), marks the disc
PRINTED and sends TRAY-OUT. -/
def Obligations.PrinterReportsMoveTheLabel : Prop :=
  (∀ (disc : Bool) (s : State),
      (s.printer.state = .trayIn → exec (.trayDone disc) s =
        .next (((s.modPrinter fun v => { v with timer := none }).tryStartBand).settle)) ∧
      (s.printer.state = .trayOut → s.sensor .printerTrayHome = true → s.discAt .printer = none → disc = false →
        exec (.trayDone disc) s = .next ((((s.modPrinter fun v =>
          { v with state := .empty, timer := none, outDone := none }).oweSelect).oweArm).settle)) ∧
      (s.printer.state = .trayOut → s.sensor .printerTrayHome = true → s.discAt .printer = none → disc = true →
        exec (.trayDone disc) s = .next ((s.printerFaults .foreign).settle)) ∧
      (∀ d, s.printer.state = .trayOut → s.sensor .printerTrayHome = true → s.discAt .printer = some d →
        exec (.trayDone disc) s = .next ((((((s.modPrinter fun v =>
          { v with state := .finished, timer := none, outDone := none }).modDiscAt .printer
            fun x => { x with destination := s.routing d }).setRequests
              (s.requests ++ [⟨.printClear, none, none, none, s.nextAge, false, none⟩])).passAge).oweSelect).settle)) ∧
      (s.settled → s.printer.state = .trayOut → s.sensor .printerTrayHome = false →
        exec (.trayDone disc) s = .next (s.modPrinter fun v => { v with outDone := some disc })) ∧
      (s.printer.state ≠ .trayIn → s.printer.state ≠ .trayOut → exec (.trayDone disc) s = .next s)) ∧
  (∀ (band : Byte) (s : State),
    (∀ which, s.printer.state = .printing → s.printer.nextBand = band.toNat →
      (s.printer.buffer which).state = .inUse band.toNat →
      which = .a ∨ s.printer.bufferA.state ≠ .inUse band.toNat →
      exec (.bandDone band) s =
        let freed := s.modPrinter fun v => { v.setBuffer which ⟨.free, []⟩ with timer := none, nextBand := v.nextBand + 1 }
        .next (((if band.toNat + 1 = s.labelBands then freed.completeLabel else freed.tryStartBand).raiseFetch).settle)) ∧
    (s.printer.state ≠ .printing ∨ s.printer.nextBand ≠ band.toNat → exec (.bandDone band) s = .next s)) ∧
  ∀ (j : Job) (a : ArtworkId) (s : State), s.printerJob = some j → j.artwork = some a →
    let costs := s.artworks[a].costs
    let levels := s.printer.levels
    let enough : Prop := costs.c ≤ levels.c ∧ costs.m ≤ levels.m ∧ costs.y ≤ levels.y ∧ costs.k ≤ levels.k
    let left : Ink := ⟨levels.c - costs.c, levels.m - costs.m, levels.y - costs.y, levels.k - costs.k⟩
    let tenth := s.printer.capacity / 10
    let debited := s.modPrinter fun v => { v with levels := left }
    let black := if s.printer.blackLow = false ∧ left.k < tenth then
        (debited.modPrinter fun v => { v with blackLow := true }).raise .ink (.inkLow true left)
      else debited
    let colour := if s.printer.colourLow = false ∧ (left.c < tenth ∨ left.m < tenth ∨ left.y < tenth) then
        (black.modPrinter fun v => { v with colourLow := true }).raise .ink (.inkLow false left)
      else black
    let trayOut (u : State) : State :=
      (u.emit (.printer [2])).modPrinter fun v => { v with state := .trayOut, timer := some ⟨5000, 0⟩, outDone := none }
    (enough → s.inkCheck = ((s.emit (.printer [1])).modPrinter fun v =>
      { v with state := .trayIn, timer := some ⟨5000, 0⟩ }).raiseFetch) ∧
    (¬enough → j.endReason = some .killed → s.inkCheck =
      trayOut (s.modDiscAt .printer fun d => { d with phase := if d.verify = some .pass then .passed else .burned })) ∧
    (¬enough → j.endReason ≠ some .killed → s.inkCheck =
      (s.modPrinter fun v => { v with state := .inkHold, timer := none }).raise .ink (.inkOut levels costs)) ∧
    s.completeLabel = trayOut (colour.modDiscAt .printer fun d => { d with phase := .printed, printed := true })

/-- The attempt to start the next band. With no buffer FULL with it, the printer is in FETCH_WAIT for band 0 and else in BAND_WAIT
under 2,000 ms, which makes the fetch urgent. With one FULL, an open lid is a LID fault, a head at 120 or above a THERMAL_PAUSE
under 5,000 ms with its notice, and else the band is sent with the strobe width of R168: W0 and a term that follows the head
reading, floored, brought into 120..260 and capped at three quarters of the firing period. The next fetch request is raised in the
print sequence, with no request and no quarter in flight: for the next quarter of the buffer FILLING with the fetch band, or, below
the artwork's band count, for the first quarter into a FREE buffer, which is then FILLING; else nothing is raised. Where both
buffers would do, A is taken. -/
def Obligations.BandIsSentWithItsStrobeWidth : Prop :=
  (∀ s : State,
    let full (which : BufferId) : Prop := (s.printer.buffer which).state = .full s.printer.nextBand
    (¬full .a → ¬full .b →
      (s.printer.nextBand = 0 → s.tryStartBand = s.modPrinter fun v => { v with state := .fetchWait, timer := none }) ∧
      (s.printer.nextBand ≠ 0 →
        s.tryStartBand = (s.modPrinter fun v => { v with state := .bandWait, timer := some ⟨2000, 0⟩ }).oweGrant)) ∧
    ∀ which, full which → which = .a ∨ ¬full .a →
      (s.sensor .lidClosed = false → s.tryStartBand = s.printerFaults .lid) ∧
      (s.sensor .lidClosed = true → 120 ≤ s.printer.head → s.tryStartBand =
        (s.modPrinter fun v => { v with state := .thermalPause, timer := some ⟨5000, 0⟩ }).raise .printer
          (.thermal true s.printer.head)) ∧
      ∀ j, s.printerJob = some j → s.sensor .lidClosed = true → s.printer.head < 120 →
        s.tryStartBand =
          let period := match j.quality with
            | .draft => 320
            | .normal => 700
            | .fine => 1000
          let raw : Int := s.printer.w0 + Int.floor ((((s.printer.tref : Int) - s.printer.head) * s.printer.k : Rat) / 8)
          let width := min (max 120 (min 260 raw)).toNat (period * 3 / 4)
          let data := (s.printer.buffer which).data
          ((s.emit (.printer ([3, BitVec.ofNat 8 s.printer.nextBand] ++ leBytes 2 width ++ leBytes 2 period ++ data))).modPrinter
            fun v => { v.setBuffer which ⟨.inUse v.nextBand, data⟩ with state := .printing, timer := some ⟨10000, 0⟩ })) ∧
  ∀ s : State,
    let fetching : Prop := s.printer.state ∈ [PrinterState.trayIn, .fetchWait, .printing, .bandWait, .thermalPause] ∧
      s.printer.request = none ∧ ∀ t, s.channel = some t → t.recipient.isBand = false
    let filling (which : BufferId) (q : Nat) : Prop := (s.printer.buffer which).state = .filling s.printer.fetchBand q
    let free (which : BufferId) : Prop := (s.printer.buffer which).state = .free
    (¬fetching → s.raiseFetch = s) ∧
    ∀ j a, fetching → s.printerJob = some j → j.artwork = some a →
      (∀ which q, filling which q → which = .a ∨ (∀ q, ¬filling .a q) → s.raiseFetch =
        (s.modPrinter fun v => { v with request := some ⟨a, v.fetchBand, q, which⟩ }).oweGrant) ∧
      ((∀ which q, ¬filling which q) →
        (∀ which, free which → which = .a ∨ ¬free .a → s.printer.fetchBand < s.artworks[a].bands → s.raiseFetch =
          (s.modPrinter fun v =>
            { v.setBuffer which ⟨.filling v.fetchBand 0, []⟩ with request := some ⟨a, v.fetchBand, 0, which⟩ }).oweGrant) ∧
        (s.artworks[a].bands ≤ s.printer.fetchBand ∨ (∀ which, ¬free which) → s.raiseFetch = s))

/-- TEMP takes the head reading in every state; in THERMAL_PAUSE it restarts the timer, and a reading of 104 or below reports
the end of the pause and tries the band. BAND_WAIT_EXPIRY in BAND_WAIT: the label is marked degraded and the timer stops;
elsewhere, or with the timer stopped, nothing changes. -/
def Obligations.TempAndBandWaitAreTaken : Prop :=
  (∀ (reading : Byte) (s : State),
      (s.printer.state ≠ .thermalPause →
        exec (.temp reading) s = .next (s.modPrinter fun v => { v with head := reading.toNat })) ∧
      (s.printer.state = .thermalPause → 104 < reading.toNat →
        exec (.temp reading) s = .next (s.modPrinter fun v => { v with head := reading.toNat, timer := some ⟨5000, 0⟩ })) ∧
      (s.printer.state = .thermalPause → reading.toNat ≤ 104 →
        exec (.temp reading) s = .next ((((s.modPrinter fun v =>
          { v with head := reading.toNat, timer := some ⟨5000, 0⟩ }).raise .printer
            (.thermal false reading.toNat)).tryStartBand).settle))) ∧
  ∀ s : State,
    (s.printer.state = .bandWait → s.printer.timer.isSome → exec .bandWaitExpiry s =
      .next ((s.modDiscAt .printer fun d => { d with degraded := true }).modPrinter fun v => { v with timer := none })) ∧
    (s.printer.state ≠ .bandWait ∨ s.printer.timer = none → exec .bandWaitExpiry s = .next s)

/-- PRINTER_ERROR, a malformed report (code 255) and the printer's timer fault the printer in the states that R158 and R172
name; an error changes nothing in the other states. A printer fault as one event: ABORT is sent, the printer is in FAULT with
its buffers FREE and no request, a quarter in flight is no longer wanted, and the disc being printed is FAILED with PRINT_FAULT.
-/
def Obligations.PrinterErrorsFaultThePrinter : Prop :=
  (∀ (code : Byte) (s : State),
      (s.printer.state ∈ [PrinterState.trayIn, .fetchWait, .printing, .bandWait, .thermalPause, .trayOut] →
        exec (.printerError code) s = .next ((s.printerFaults (.error code)).settle) ∧
        exec .printerMalformedReport s = .next ((s.printerFaults (.error 255)).settle)) ∧
      (s.printer.state ∈ [PrinterState.empty, .inkHold, .finished, .fault] →
        exec (.printerError code) s = .next s ∧ exec .printerMalformedReport s = .next s) ∧
      (s.printer.state ∈ [PrinterState.trayIn, .printing, .thermalPause, .trayOut] → s.printer.timer.isSome →
        exec .printerTimeout s = .next ((s.printerFaults (.timeout s.printer.state)).settle))) ∧
  ∀ (cause : PrinterCause) (s : State),
    (s.printerFaults cause).printer =
      { s.printer with
        state := .fault, fault := some cause, timer := none, request := none, bufferA := ⟨.free, []⟩
        bufferB := ⟨.free, []⟩, outDone := none } ∧
      (s.printerFaults cause).out = s.out ++ [.printer [4]] ∧
      (∀ t, (s.printerFaults cause).channel = some t → t.recipient.isBand = true → t.wanted = false) ∧
      (∀ d, s.discAt .printer = some d → d.phase = .printing →
        (s.printerFaults cause).discAt .printer = some { d with phase := .failed, reason := some .printFault }) ∧
      (s.printerFaults cause).lanes = s.lanes ∧ (s.printerFaults cause).arm = s.arm ∧
        (s.printerFaults cause).jobs = s.jobs ∧ (s.printerFaults cause).images = s.images

/-! ## What every step keeps -/

/-- Each of the 16,384 pages stands in exactly one place, the pool or one slot, and FREE slots hold none: every step keeps it.
-/
def Obligations.EveryStepKeepsThePages : Prop :=
  ∀ s t : State, s.pagesPlaced → step s = .next t → t.pagesPlaced

/-- The ranks of the live jobs are 0 up to their number less 1, each used once: every step keeps it. -/
def Obligations.EveryStepKeepsTheRanks : Prop :=
  ∀ s t : State, s.ranksInOrder → step s = .next t → t.ranksInOrder

/-- The CRC channels are held by exactly the running entries of the verify queue, each by one: every step keeps it. -/
def Obligations.EveryStepKeepsTheChannels : Prop :=
  ∀ s t : State, s.channelsMatch → step s = .next t → t.channelsMatch

/-- Image memory keeps its canonical form, and only POWER_ON_RESET, the staging writes and READ_DATA change it. -/
def Obligations.EveryStepKeepsTheMemoryForm : Prop :=
  (∀ s t : State, s.memWf → step s = .next t → t.memWf) ∧
  ∀ (c : Instr) (s t : State), exec c s = .next t → t.mem ≠ s.mem →
    c = .powerOnReset ∨ (∃ p n, c = .imageStagingWrite p n) ∨ (∃ p n, c = .artworkStagingWrite p n) ∨
      ∃ n index data, c = .readData n index data

/-- Port records, settings and lane records keep to their ranges. A step of the arm runs only in HOMING or SERVING and with its
timer; a resume state, one of these two, is held exactly in HELD, a fault cause exactly in FAULT: every step of the machine
keeps it. -/
def Obligations.EveryStepKeepsTheRecordsInRange : Prop :=
  ((∀ s t : State, s.portsInRange → step s = .next t → t.portsInRange) ∧
    (∀ s t : State, s.settingsInRange → step s = .next t → t.settingsInRange) ∧
    ∀ s t : State, s.lanesInRange → step s = .next t → t.lanesInRange) ∧
  ∀ s t : State, s.arm.consistent = true → step s = .next t → t.arm.consistent = true

/-- No follow-up computation is left owed between events (log 12): every step keeps it. The follow-up computations of an event
touch only jobs, discs, lanes, queues, channels, the arm, the requests and their ages, the messages put out, the printer's fetch
request, and the state of an image slot whose load is granted its channel: no port record, no image memory or pool, no artwork,
nothing else of the printer or of an image slot, no setting, sensor or bin. A settled state is left as it is. -/
def Obligations.FollowUpsLeaveTheRestAlone : Prop :=
  (∀ s t : State, s.settled → step s = .next t → t.settled) ∧
  ∀ s : State, s.settle.settled ∧ (s.settled → s.settle = s) ∧
    s.settle.ports = s.ports ∧ s.settle.mem = s.mem ∧ s.settle.pool = s.pool ∧ s.settle.artworks = s.artworks ∧
    s.settle.budget = s.budget ∧ s.settle.serial = s.serial ∧ s.settle.now = s.now ∧ s.settle.pending = s.pending ∧
    s.settle.sensors = s.sensors ∧ s.settle.key = s.key ∧ s.settle.scans = s.scans ∧ s.settle.binA = s.binA ∧
    s.settle.binB = s.binB ∧ s.settle.outputFull = s.outputFull ∧ s.settle.rejectFull = s.rejectFull ∧
    s.settle.printer = { s.printer with request := s.settle.printer.request } ∧
    ∀ i : ImageId, s.settle.images[i] = { s.images[i] with state := s.settle.images[i].state } ∧
      (s.settle.images[i].state = s.images[i].state ∨
        (s.images[i].state = .loadWait ∧ s.settle.images[i].state = .loading))

/-- The reset state meets every invariant that the steps keep. -/
def Obligations.ResetMeetsTheInvariants : Prop :=
  State.reset.pagesPlaced ∧ State.reset.ranksInOrder ∧ State.reset.channelsMatch ∧ State.reset.memWf ∧
    State.reset.portsInRange ∧ State.reset.settingsInRange ∧ State.reset.lanesInRange ∧
    State.reset.arm.consistent = true ∧ State.reset.settled

/-- No command changes the waiting queue; only POWER_ON_RESET besides SET_FEED_BUDGET changes the budget, besides ARM_STEP_DONE
the serial counter, besides SENSOR_SCAN the sensors, the key and the full flags, besides those three and the bin commands a bin.
-/
def Obligations.QuietPartsHaveTheirWriters : Prop :=
  ∀ (c : Instr) (s t : State), exec c s = .next t →
    t.pending = s.pending ∧
    (c ≠ .powerOnReset → t.now = s.now ∧
      ((∀ p, c ≠ .setFeedBudget p) → t.budget = s.budget) ∧
      (c ≠ .armStepDone → t.serial = s.serial) ∧
      ((∀ readings order, c ≠ .sensorScan readings order) → t.sensors = s.sensors ∧ t.key = s.key ∧ t.scans = s.scans ∧
        t.outputFull = s.outputFull ∧ t.rejectFull = s.rejectFull ∧
        (c ≠ .armStepDone → (∀ p, c ≠ .setBinClass p) → (∀ p, c ≠ .clearBinFault p) →
          t.binA = s.binA ∧ t.binB = s.binB)))

/-- What a port brings touches no other port's command queue, outstanding command, settings or line level: only POWER_ON_RESET
and the commands and transactions of the port itself write them. -/
def Obligations.PortsAreKeptApart : Prop :=
  ∀ (c : Instr) (s t : State) (q : Port), exec c s = .next t → c ≠ .powerOnReset → portOf c ≠ some q →
    t.ports[q].commands = s.ports[q].commands ∧ t.ports[q].outstanding = s.ports[q].outstanding ∧
      t.ports[q].orphans = s.ports[q].orphans ∧ t.ports[q].mask = s.ports[q].mask ∧
      t.ports[q].threshold = s.ports[q].threshold ∧ t.ports[q].hold = s.ports[q].hold ∧
      t.ports[q].resetHeld = s.ports[q].resetHeld
end

