-- ==== Sys2Proof/Laws/State.lean ====
section
/-! SUPPORT. One lemma for each field under each named update of the state, true by rfl, and reads of a table after a write to it. -/

namespace Sys2Proof.Machine

variable (s : State)

/-! ## modPort -/

@[simp] theorem State.modPort_pending (p : Port) (f : PortRecord → PortRecord) : (s.modPort p f).pending = s.pending := rfl
@[simp] theorem State.modPort_now (p : Port) (f : PortRecord → PortRecord) : (s.modPort p f).now = s.now := rfl
@[simp] theorem State.modPort_out (p : Port) (f : PortRecord → PortRecord) : (s.modPort p f).out = s.out := rfl
@[simp] theorem State.modPort_mem (p : Port) (f : PortRecord → PortRecord) : (s.modPort p f).mem = s.mem := rfl
@[simp] theorem State.modPort_pool (p : Port) (f : PortRecord → PortRecord) : (s.modPort p f).pool = s.pool := rfl
@[simp] theorem State.modPort_images (p : Port) (f : PortRecord → PortRecord) : (s.modPort p f).images = s.images := rfl
@[simp] theorem State.modPort_artworks (p : Port) (f : PortRecord → PortRecord) : (s.modPort p f).artworks = s.artworks := rfl
@[simp] theorem State.modPort_jobs (p : Port) (f : PortRecord → PortRecord) : (s.modPort p f).jobs = s.jobs := rfl
@[simp] theorem State.modPort_rotation (p : Port) (f : PortRecord → PortRecord) : (s.modPort p f).rotation = s.rotation := rfl
@[simp] theorem State.modPort_discs (p : Port) (f : PortRecord → PortRecord) : (s.modPort p f).discs = s.discs := rfl
@[simp] theorem State.modPort_serial (p : Port) (f : PortRecord → PortRecord) : (s.modPort p f).serial = s.serial := rfl
@[simp] theorem State.modPort_lanes (p : Port) (f : PortRecord → PortRecord) : (s.modPort p f).lanes = s.lanes := rfl
@[simp] theorem State.modPort_budget (p : Port) (f : PortRecord → PortRecord) : (s.modPort p f).budget = s.budget := rfl
@[simp] theorem State.modPort_startQueue (p : Port) (f : PortRecord → PortRecord) : (s.modPort p f).startQueue = s.startQueue := rfl
@[simp] theorem State.modPort_channel (p : Port) (f : PortRecord → PortRecord) : (s.modPort p f).channel = s.channel := rfl
@[simp] theorem State.modPort_verifyQueue (p : Port) (f : PortRecord → PortRecord) : (s.modPort p f).verifyQueue = s.verifyQueue := rfl
@[simp] theorem State.modPort_crc (p : Port) (f : PortRecord → PortRecord) : (s.modPort p f).crc = s.crc := rfl
@[simp] theorem State.modPort_arm (p : Port) (f : PortRecord → PortRecord) : (s.modPort p f).arm = s.arm := rfl
@[simp] theorem State.modPort_requests (p : Port) (f : PortRecord → PortRecord) : (s.modPort p f).requests = s.requests := rfl
@[simp] theorem State.modPort_nextAge (p : Port) (f : PortRecord → PortRecord) : (s.modPort p f).nextAge = s.nextAge := rfl
@[simp] theorem State.modPort_binA (p : Port) (f : PortRecord → PortRecord) : (s.modPort p f).binA = s.binA := rfl
@[simp] theorem State.modPort_binB (p : Port) (f : PortRecord → PortRecord) : (s.modPort p f).binB = s.binB := rfl
@[simp] theorem State.modPort_outputFull (p : Port) (f : PortRecord → PortRecord) : (s.modPort p f).outputFull = s.outputFull := rfl
@[simp] theorem State.modPort_rejectFull (p : Port) (f : PortRecord → PortRecord) : (s.modPort p f).rejectFull = s.rejectFull := rfl
@[simp] theorem State.modPort_sensors (p : Port) (f : PortRecord → PortRecord) : (s.modPort p f).sensors = s.sensors := rfl
@[simp] theorem State.modPort_scans (p : Port) (f : PortRecord → PortRecord) : (s.modPort p f).scans = s.scans := rfl
@[simp] theorem State.modPort_key (p : Port) (f : PortRecord → PortRecord) : (s.modPort p f).key = s.key := rfl
@[simp] theorem State.modPort_printer (p : Port) (f : PortRecord → PortRecord) : (s.modPort p f).printer = s.printer := rfl
@[simp] theorem State.modPort_due (p : Port) (f : PortRecord → PortRecord) : (s.modPort p f).due = s.due := rfl

/-! ## modImage -/

@[simp] theorem State.modImage_pending (i : ImageId) (f : ImageSlot → ImageSlot) : (s.modImage i f).pending = s.pending := rfl
@[simp] theorem State.modImage_now (i : ImageId) (f : ImageSlot → ImageSlot) : (s.modImage i f).now = s.now := rfl
@[simp] theorem State.modImage_out (i : ImageId) (f : ImageSlot → ImageSlot) : (s.modImage i f).out = s.out := rfl
@[simp] theorem State.modImage_ports (i : ImageId) (f : ImageSlot → ImageSlot) : (s.modImage i f).ports = s.ports := rfl
@[simp] theorem State.modImage_mem (i : ImageId) (f : ImageSlot → ImageSlot) : (s.modImage i f).mem = s.mem := rfl
@[simp] theorem State.modImage_pool (i : ImageId) (f : ImageSlot → ImageSlot) : (s.modImage i f).pool = s.pool := rfl
@[simp] theorem State.modImage_artworks (i : ImageId) (f : ImageSlot → ImageSlot) : (s.modImage i f).artworks = s.artworks := rfl
@[simp] theorem State.modImage_jobs (i : ImageId) (f : ImageSlot → ImageSlot) : (s.modImage i f).jobs = s.jobs := rfl
@[simp] theorem State.modImage_rotation (i : ImageId) (f : ImageSlot → ImageSlot) : (s.modImage i f).rotation = s.rotation := rfl
@[simp] theorem State.modImage_discs (i : ImageId) (f : ImageSlot → ImageSlot) : (s.modImage i f).discs = s.discs := rfl
@[simp] theorem State.modImage_serial (i : ImageId) (f : ImageSlot → ImageSlot) : (s.modImage i f).serial = s.serial := rfl
@[simp] theorem State.modImage_lanes (i : ImageId) (f : ImageSlot → ImageSlot) : (s.modImage i f).lanes = s.lanes := rfl
@[simp] theorem State.modImage_budget (i : ImageId) (f : ImageSlot → ImageSlot) : (s.modImage i f).budget = s.budget := rfl
@[simp] theorem State.modImage_startQueue (i : ImageId) (f : ImageSlot → ImageSlot) : (s.modImage i f).startQueue = s.startQueue := rfl
@[simp] theorem State.modImage_channel (i : ImageId) (f : ImageSlot → ImageSlot) : (s.modImage i f).channel = s.channel := rfl
@[simp] theorem State.modImage_verifyQueue (i : ImageId) (f : ImageSlot → ImageSlot) : (s.modImage i f).verifyQueue = s.verifyQueue := rfl
@[simp] theorem State.modImage_crc (i : ImageId) (f : ImageSlot → ImageSlot) : (s.modImage i f).crc = s.crc := rfl
@[simp] theorem State.modImage_arm (i : ImageId) (f : ImageSlot → ImageSlot) : (s.modImage i f).arm = s.arm := rfl
@[simp] theorem State.modImage_requests (i : ImageId) (f : ImageSlot → ImageSlot) : (s.modImage i f).requests = s.requests := rfl
@[simp] theorem State.modImage_nextAge (i : ImageId) (f : ImageSlot → ImageSlot) : (s.modImage i f).nextAge = s.nextAge := rfl
@[simp] theorem State.modImage_binA (i : ImageId) (f : ImageSlot → ImageSlot) : (s.modImage i f).binA = s.binA := rfl
@[simp] theorem State.modImage_binB (i : ImageId) (f : ImageSlot → ImageSlot) : (s.modImage i f).binB = s.binB := rfl
@[simp] theorem State.modImage_outputFull (i : ImageId) (f : ImageSlot → ImageSlot) : (s.modImage i f).outputFull = s.outputFull := rfl
@[simp] theorem State.modImage_rejectFull (i : ImageId) (f : ImageSlot → ImageSlot) : (s.modImage i f).rejectFull = s.rejectFull := rfl
@[simp] theorem State.modImage_sensors (i : ImageId) (f : ImageSlot → ImageSlot) : (s.modImage i f).sensors = s.sensors := rfl
@[simp] theorem State.modImage_scans (i : ImageId) (f : ImageSlot → ImageSlot) : (s.modImage i f).scans = s.scans := rfl
@[simp] theorem State.modImage_key (i : ImageId) (f : ImageSlot → ImageSlot) : (s.modImage i f).key = s.key := rfl
@[simp] theorem State.modImage_printer (i : ImageId) (f : ImageSlot → ImageSlot) : (s.modImage i f).printer = s.printer := rfl
@[simp] theorem State.modImage_due (i : ImageId) (f : ImageSlot → ImageSlot) : (s.modImage i f).due = s.due := rfl

/-! ## modArtwork -/

@[simp] theorem State.modArtwork_pending (i : ArtworkId) (f : ArtworkSlot → ArtworkSlot) : (s.modArtwork i f).pending = s.pending := rfl
@[simp] theorem State.modArtwork_now (i : ArtworkId) (f : ArtworkSlot → ArtworkSlot) : (s.modArtwork i f).now = s.now := rfl
@[simp] theorem State.modArtwork_out (i : ArtworkId) (f : ArtworkSlot → ArtworkSlot) : (s.modArtwork i f).out = s.out := rfl
@[simp] theorem State.modArtwork_ports (i : ArtworkId) (f : ArtworkSlot → ArtworkSlot) : (s.modArtwork i f).ports = s.ports := rfl
@[simp] theorem State.modArtwork_mem (i : ArtworkId) (f : ArtworkSlot → ArtworkSlot) : (s.modArtwork i f).mem = s.mem := rfl
@[simp] theorem State.modArtwork_pool (i : ArtworkId) (f : ArtworkSlot → ArtworkSlot) : (s.modArtwork i f).pool = s.pool := rfl
@[simp] theorem State.modArtwork_images (i : ArtworkId) (f : ArtworkSlot → ArtworkSlot) : (s.modArtwork i f).images = s.images := rfl
@[simp] theorem State.modArtwork_jobs (i : ArtworkId) (f : ArtworkSlot → ArtworkSlot) : (s.modArtwork i f).jobs = s.jobs := rfl
@[simp] theorem State.modArtwork_rotation (i : ArtworkId) (f : ArtworkSlot → ArtworkSlot) : (s.modArtwork i f).rotation = s.rotation := rfl
@[simp] theorem State.modArtwork_discs (i : ArtworkId) (f : ArtworkSlot → ArtworkSlot) : (s.modArtwork i f).discs = s.discs := rfl
@[simp] theorem State.modArtwork_serial (i : ArtworkId) (f : ArtworkSlot → ArtworkSlot) : (s.modArtwork i f).serial = s.serial := rfl
@[simp] theorem State.modArtwork_lanes (i : ArtworkId) (f : ArtworkSlot → ArtworkSlot) : (s.modArtwork i f).lanes = s.lanes := rfl
@[simp] theorem State.modArtwork_budget (i : ArtworkId) (f : ArtworkSlot → ArtworkSlot) : (s.modArtwork i f).budget = s.budget := rfl
@[simp] theorem State.modArtwork_startQueue (i : ArtworkId) (f : ArtworkSlot → ArtworkSlot) : (s.modArtwork i f).startQueue = s.startQueue := rfl
@[simp] theorem State.modArtwork_channel (i : ArtworkId) (f : ArtworkSlot → ArtworkSlot) : (s.modArtwork i f).channel = s.channel := rfl
@[simp] theorem State.modArtwork_verifyQueue (i : ArtworkId) (f : ArtworkSlot → ArtworkSlot) : (s.modArtwork i f).verifyQueue = s.verifyQueue := rfl
@[simp] theorem State.modArtwork_crc (i : ArtworkId) (f : ArtworkSlot → ArtworkSlot) : (s.modArtwork i f).crc = s.crc := rfl
@[simp] theorem State.modArtwork_arm (i : ArtworkId) (f : ArtworkSlot → ArtworkSlot) : (s.modArtwork i f).arm = s.arm := rfl
@[simp] theorem State.modArtwork_requests (i : ArtworkId) (f : ArtworkSlot → ArtworkSlot) : (s.modArtwork i f).requests = s.requests := rfl
@[simp] theorem State.modArtwork_nextAge (i : ArtworkId) (f : ArtworkSlot → ArtworkSlot) : (s.modArtwork i f).nextAge = s.nextAge := rfl
@[simp] theorem State.modArtwork_binA (i : ArtworkId) (f : ArtworkSlot → ArtworkSlot) : (s.modArtwork i f).binA = s.binA := rfl
@[simp] theorem State.modArtwork_binB (i : ArtworkId) (f : ArtworkSlot → ArtworkSlot) : (s.modArtwork i f).binB = s.binB := rfl
@[simp] theorem State.modArtwork_outputFull (i : ArtworkId) (f : ArtworkSlot → ArtworkSlot) : (s.modArtwork i f).outputFull = s.outputFull := rfl
@[simp] theorem State.modArtwork_rejectFull (i : ArtworkId) (f : ArtworkSlot → ArtworkSlot) : (s.modArtwork i f).rejectFull = s.rejectFull := rfl
@[simp] theorem State.modArtwork_sensors (i : ArtworkId) (f : ArtworkSlot → ArtworkSlot) : (s.modArtwork i f).sensors = s.sensors := rfl
@[simp] theorem State.modArtwork_scans (i : ArtworkId) (f : ArtworkSlot → ArtworkSlot) : (s.modArtwork i f).scans = s.scans := rfl
@[simp] theorem State.modArtwork_key (i : ArtworkId) (f : ArtworkSlot → ArtworkSlot) : (s.modArtwork i f).key = s.key := rfl
@[simp] theorem State.modArtwork_printer (i : ArtworkId) (f : ArtworkSlot → ArtworkSlot) : (s.modArtwork i f).printer = s.printer := rfl
@[simp] theorem State.modArtwork_due (i : ArtworkId) (f : ArtworkSlot → ArtworkSlot) : (s.modArtwork i f).due = s.due := rfl

/-! ## modLane -/

@[simp] theorem State.modLane_pending (n : LaneId) (f : Lane → Lane) : (s.modLane n f).pending = s.pending := rfl
@[simp] theorem State.modLane_now (n : LaneId) (f : Lane → Lane) : (s.modLane n f).now = s.now := rfl
@[simp] theorem State.modLane_out (n : LaneId) (f : Lane → Lane) : (s.modLane n f).out = s.out := rfl
@[simp] theorem State.modLane_ports (n : LaneId) (f : Lane → Lane) : (s.modLane n f).ports = s.ports := rfl
@[simp] theorem State.modLane_mem (n : LaneId) (f : Lane → Lane) : (s.modLane n f).mem = s.mem := rfl
@[simp] theorem State.modLane_pool (n : LaneId) (f : Lane → Lane) : (s.modLane n f).pool = s.pool := rfl
@[simp] theorem State.modLane_images (n : LaneId) (f : Lane → Lane) : (s.modLane n f).images = s.images := rfl
@[simp] theorem State.modLane_artworks (n : LaneId) (f : Lane → Lane) : (s.modLane n f).artworks = s.artworks := rfl
@[simp] theorem State.modLane_jobs (n : LaneId) (f : Lane → Lane) : (s.modLane n f).jobs = s.jobs := rfl
@[simp] theorem State.modLane_rotation (n : LaneId) (f : Lane → Lane) : (s.modLane n f).rotation = s.rotation := rfl
@[simp] theorem State.modLane_discs (n : LaneId) (f : Lane → Lane) : (s.modLane n f).discs = s.discs := rfl
@[simp] theorem State.modLane_serial (n : LaneId) (f : Lane → Lane) : (s.modLane n f).serial = s.serial := rfl
@[simp] theorem State.modLane_budget (n : LaneId) (f : Lane → Lane) : (s.modLane n f).budget = s.budget := rfl
@[simp] theorem State.modLane_startQueue (n : LaneId) (f : Lane → Lane) : (s.modLane n f).startQueue = s.startQueue := rfl
@[simp] theorem State.modLane_channel (n : LaneId) (f : Lane → Lane) : (s.modLane n f).channel = s.channel := rfl
@[simp] theorem State.modLane_verifyQueue (n : LaneId) (f : Lane → Lane) : (s.modLane n f).verifyQueue = s.verifyQueue := rfl
@[simp] theorem State.modLane_crc (n : LaneId) (f : Lane → Lane) : (s.modLane n f).crc = s.crc := rfl
@[simp] theorem State.modLane_arm (n : LaneId) (f : Lane → Lane) : (s.modLane n f).arm = s.arm := rfl
@[simp] theorem State.modLane_requests (n : LaneId) (f : Lane → Lane) : (s.modLane n f).requests = s.requests := rfl
@[simp] theorem State.modLane_nextAge (n : LaneId) (f : Lane → Lane) : (s.modLane n f).nextAge = s.nextAge := rfl
@[simp] theorem State.modLane_binA (n : LaneId) (f : Lane → Lane) : (s.modLane n f).binA = s.binA := rfl
@[simp] theorem State.modLane_binB (n : LaneId) (f : Lane → Lane) : (s.modLane n f).binB = s.binB := rfl
@[simp] theorem State.modLane_outputFull (n : LaneId) (f : Lane → Lane) : (s.modLane n f).outputFull = s.outputFull := rfl
@[simp] theorem State.modLane_rejectFull (n : LaneId) (f : Lane → Lane) : (s.modLane n f).rejectFull = s.rejectFull := rfl
@[simp] theorem State.modLane_sensors (n : LaneId) (f : Lane → Lane) : (s.modLane n f).sensors = s.sensors := rfl
@[simp] theorem State.modLane_scans (n : LaneId) (f : Lane → Lane) : (s.modLane n f).scans = s.scans := rfl
@[simp] theorem State.modLane_key (n : LaneId) (f : Lane → Lane) : (s.modLane n f).key = s.key := rfl
@[simp] theorem State.modLane_printer (n : LaneId) (f : Lane → Lane) : (s.modLane n f).printer = s.printer := rfl
@[simp] theorem State.modLane_due (n : LaneId) (f : Lane → Lane) : (s.modLane n f).due = s.due := rfl

/-! ## setJobEntry -/

@[simp] theorem State.setJobEntry_pending (i : TableId) (e : JobEntry) : (s.setJobEntry i e).pending = s.pending := rfl
@[simp] theorem State.setJobEntry_now (i : TableId) (e : JobEntry) : (s.setJobEntry i e).now = s.now := rfl
@[simp] theorem State.setJobEntry_out (i : TableId) (e : JobEntry) : (s.setJobEntry i e).out = s.out := rfl
@[simp] theorem State.setJobEntry_ports (i : TableId) (e : JobEntry) : (s.setJobEntry i e).ports = s.ports := rfl
@[simp] theorem State.setJobEntry_mem (i : TableId) (e : JobEntry) : (s.setJobEntry i e).mem = s.mem := rfl
@[simp] theorem State.setJobEntry_pool (i : TableId) (e : JobEntry) : (s.setJobEntry i e).pool = s.pool := rfl
@[simp] theorem State.setJobEntry_images (i : TableId) (e : JobEntry) : (s.setJobEntry i e).images = s.images := rfl
@[simp] theorem State.setJobEntry_artworks (i : TableId) (e : JobEntry) : (s.setJobEntry i e).artworks = s.artworks := rfl
@[simp] theorem State.setJobEntry_rotation (i : TableId) (e : JobEntry) : (s.setJobEntry i e).rotation = s.rotation := rfl
@[simp] theorem State.setJobEntry_discs (i : TableId) (e : JobEntry) : (s.setJobEntry i e).discs = s.discs := rfl
@[simp] theorem State.setJobEntry_serial (i : TableId) (e : JobEntry) : (s.setJobEntry i e).serial = s.serial := rfl
@[simp] theorem State.setJobEntry_lanes (i : TableId) (e : JobEntry) : (s.setJobEntry i e).lanes = s.lanes := rfl
@[simp] theorem State.setJobEntry_budget (i : TableId) (e : JobEntry) : (s.setJobEntry i e).budget = s.budget := rfl
@[simp] theorem State.setJobEntry_startQueue (i : TableId) (e : JobEntry) : (s.setJobEntry i e).startQueue = s.startQueue := rfl
@[simp] theorem State.setJobEntry_channel (i : TableId) (e : JobEntry) : (s.setJobEntry i e).channel = s.channel := rfl
@[simp] theorem State.setJobEntry_verifyQueue (i : TableId) (e : JobEntry) : (s.setJobEntry i e).verifyQueue = s.verifyQueue := rfl
@[simp] theorem State.setJobEntry_crc (i : TableId) (e : JobEntry) : (s.setJobEntry i e).crc = s.crc := rfl
@[simp] theorem State.setJobEntry_arm (i : TableId) (e : JobEntry) : (s.setJobEntry i e).arm = s.arm := rfl
@[simp] theorem State.setJobEntry_requests (i : TableId) (e : JobEntry) : (s.setJobEntry i e).requests = s.requests := rfl
@[simp] theorem State.setJobEntry_nextAge (i : TableId) (e : JobEntry) : (s.setJobEntry i e).nextAge = s.nextAge := rfl
@[simp] theorem State.setJobEntry_binA (i : TableId) (e : JobEntry) : (s.setJobEntry i e).binA = s.binA := rfl
@[simp] theorem State.setJobEntry_binB (i : TableId) (e : JobEntry) : (s.setJobEntry i e).binB = s.binB := rfl
@[simp] theorem State.setJobEntry_outputFull (i : TableId) (e : JobEntry) : (s.setJobEntry i e).outputFull = s.outputFull := rfl
@[simp] theorem State.setJobEntry_rejectFull (i : TableId) (e : JobEntry) : (s.setJobEntry i e).rejectFull = s.rejectFull := rfl
@[simp] theorem State.setJobEntry_sensors (i : TableId) (e : JobEntry) : (s.setJobEntry i e).sensors = s.sensors := rfl
@[simp] theorem State.setJobEntry_scans (i : TableId) (e : JobEntry) : (s.setJobEntry i e).scans = s.scans := rfl
@[simp] theorem State.setJobEntry_key (i : TableId) (e : JobEntry) : (s.setJobEntry i e).key = s.key := rfl
@[simp] theorem State.setJobEntry_printer (i : TableId) (e : JobEntry) : (s.setJobEntry i e).printer = s.printer := rfl
@[simp] theorem State.setJobEntry_due (i : TableId) (e : JobEntry) : (s.setJobEntry i e).due = s.due := rfl

/-! ## setDisc -/

@[simp] theorem State.setDisc_pending (i : TableId) (d : Option Disc) : (s.setDisc i d).pending = s.pending := rfl
@[simp] theorem State.setDisc_now (i : TableId) (d : Option Disc) : (s.setDisc i d).now = s.now := rfl
@[simp] theorem State.setDisc_out (i : TableId) (d : Option Disc) : (s.setDisc i d).out = s.out := rfl
@[simp] theorem State.setDisc_ports (i : TableId) (d : Option Disc) : (s.setDisc i d).ports = s.ports := rfl
@[simp] theorem State.setDisc_mem (i : TableId) (d : Option Disc) : (s.setDisc i d).mem = s.mem := rfl
@[simp] theorem State.setDisc_pool (i : TableId) (d : Option Disc) : (s.setDisc i d).pool = s.pool := rfl
@[simp] theorem State.setDisc_images (i : TableId) (d : Option Disc) : (s.setDisc i d).images = s.images := rfl
@[simp] theorem State.setDisc_artworks (i : TableId) (d : Option Disc) : (s.setDisc i d).artworks = s.artworks := rfl
@[simp] theorem State.setDisc_jobs (i : TableId) (d : Option Disc) : (s.setDisc i d).jobs = s.jobs := rfl
@[simp] theorem State.setDisc_rotation (i : TableId) (d : Option Disc) : (s.setDisc i d).rotation = s.rotation := rfl
@[simp] theorem State.setDisc_serial (i : TableId) (d : Option Disc) : (s.setDisc i d).serial = s.serial := rfl
@[simp] theorem State.setDisc_lanes (i : TableId) (d : Option Disc) : (s.setDisc i d).lanes = s.lanes := rfl
@[simp] theorem State.setDisc_budget (i : TableId) (d : Option Disc) : (s.setDisc i d).budget = s.budget := rfl
@[simp] theorem State.setDisc_startQueue (i : TableId) (d : Option Disc) : (s.setDisc i d).startQueue = s.startQueue := rfl
@[simp] theorem State.setDisc_channel (i : TableId) (d : Option Disc) : (s.setDisc i d).channel = s.channel := rfl
@[simp] theorem State.setDisc_verifyQueue (i : TableId) (d : Option Disc) : (s.setDisc i d).verifyQueue = s.verifyQueue := rfl
@[simp] theorem State.setDisc_crc (i : TableId) (d : Option Disc) : (s.setDisc i d).crc = s.crc := rfl
@[simp] theorem State.setDisc_arm (i : TableId) (d : Option Disc) : (s.setDisc i d).arm = s.arm := rfl
@[simp] theorem State.setDisc_requests (i : TableId) (d : Option Disc) : (s.setDisc i d).requests = s.requests := rfl
@[simp] theorem State.setDisc_nextAge (i : TableId) (d : Option Disc) : (s.setDisc i d).nextAge = s.nextAge := rfl
@[simp] theorem State.setDisc_binA (i : TableId) (d : Option Disc) : (s.setDisc i d).binA = s.binA := rfl
@[simp] theorem State.setDisc_binB (i : TableId) (d : Option Disc) : (s.setDisc i d).binB = s.binB := rfl
@[simp] theorem State.setDisc_outputFull (i : TableId) (d : Option Disc) : (s.setDisc i d).outputFull = s.outputFull := rfl
@[simp] theorem State.setDisc_rejectFull (i : TableId) (d : Option Disc) : (s.setDisc i d).rejectFull = s.rejectFull := rfl
@[simp] theorem State.setDisc_sensors (i : TableId) (d : Option Disc) : (s.setDisc i d).sensors = s.sensors := rfl
@[simp] theorem State.setDisc_scans (i : TableId) (d : Option Disc) : (s.setDisc i d).scans = s.scans := rfl
@[simp] theorem State.setDisc_key (i : TableId) (d : Option Disc) : (s.setDisc i d).key = s.key := rfl
@[simp] theorem State.setDisc_printer (i : TableId) (d : Option Disc) : (s.setDisc i d).printer = s.printer := rfl
@[simp] theorem State.setDisc_due (i : TableId) (d : Option Disc) : (s.setDisc i d).due = s.due := rfl

/-! ## modArm -/

@[simp] theorem State.modArm_pending (f : Arm → Arm) : (s.modArm f).pending = s.pending := rfl
@[simp] theorem State.modArm_now (f : Arm → Arm) : (s.modArm f).now = s.now := rfl
@[simp] theorem State.modArm_out (f : Arm → Arm) : (s.modArm f).out = s.out := rfl
@[simp] theorem State.modArm_ports (f : Arm → Arm) : (s.modArm f).ports = s.ports := rfl
@[simp] theorem State.modArm_mem (f : Arm → Arm) : (s.modArm f).mem = s.mem := rfl
@[simp] theorem State.modArm_pool (f : Arm → Arm) : (s.modArm f).pool = s.pool := rfl
@[simp] theorem State.modArm_images (f : Arm → Arm) : (s.modArm f).images = s.images := rfl
@[simp] theorem State.modArm_artworks (f : Arm → Arm) : (s.modArm f).artworks = s.artworks := rfl
@[simp] theorem State.modArm_jobs (f : Arm → Arm) : (s.modArm f).jobs = s.jobs := rfl
@[simp] theorem State.modArm_rotation (f : Arm → Arm) : (s.modArm f).rotation = s.rotation := rfl
@[simp] theorem State.modArm_discs (f : Arm → Arm) : (s.modArm f).discs = s.discs := rfl
@[simp] theorem State.modArm_serial (f : Arm → Arm) : (s.modArm f).serial = s.serial := rfl
@[simp] theorem State.modArm_lanes (f : Arm → Arm) : (s.modArm f).lanes = s.lanes := rfl
@[simp] theorem State.modArm_budget (f : Arm → Arm) : (s.modArm f).budget = s.budget := rfl
@[simp] theorem State.modArm_startQueue (f : Arm → Arm) : (s.modArm f).startQueue = s.startQueue := rfl
@[simp] theorem State.modArm_channel (f : Arm → Arm) : (s.modArm f).channel = s.channel := rfl
@[simp] theorem State.modArm_verifyQueue (f : Arm → Arm) : (s.modArm f).verifyQueue = s.verifyQueue := rfl
@[simp] theorem State.modArm_crc (f : Arm → Arm) : (s.modArm f).crc = s.crc := rfl
@[simp] theorem State.modArm_requests (f : Arm → Arm) : (s.modArm f).requests = s.requests := rfl
@[simp] theorem State.modArm_nextAge (f : Arm → Arm) : (s.modArm f).nextAge = s.nextAge := rfl
@[simp] theorem State.modArm_binA (f : Arm → Arm) : (s.modArm f).binA = s.binA := rfl
@[simp] theorem State.modArm_binB (f : Arm → Arm) : (s.modArm f).binB = s.binB := rfl
@[simp] theorem State.modArm_outputFull (f : Arm → Arm) : (s.modArm f).outputFull = s.outputFull := rfl
@[simp] theorem State.modArm_rejectFull (f : Arm → Arm) : (s.modArm f).rejectFull = s.rejectFull := rfl
@[simp] theorem State.modArm_sensors (f : Arm → Arm) : (s.modArm f).sensors = s.sensors := rfl
@[simp] theorem State.modArm_scans (f : Arm → Arm) : (s.modArm f).scans = s.scans := rfl
@[simp] theorem State.modArm_key (f : Arm → Arm) : (s.modArm f).key = s.key := rfl
@[simp] theorem State.modArm_printer (f : Arm → Arm) : (s.modArm f).printer = s.printer := rfl
@[simp] theorem State.modArm_due (f : Arm → Arm) : (s.modArm f).due = s.due := rfl

/-! ## modPrinter -/

@[simp] theorem State.modPrinter_pending (f : Printer → Printer) : (s.modPrinter f).pending = s.pending := rfl
@[simp] theorem State.modPrinter_now (f : Printer → Printer) : (s.modPrinter f).now = s.now := rfl
@[simp] theorem State.modPrinter_out (f : Printer → Printer) : (s.modPrinter f).out = s.out := rfl
@[simp] theorem State.modPrinter_ports (f : Printer → Printer) : (s.modPrinter f).ports = s.ports := rfl
@[simp] theorem State.modPrinter_mem (f : Printer → Printer) : (s.modPrinter f).mem = s.mem := rfl
@[simp] theorem State.modPrinter_pool (f : Printer → Printer) : (s.modPrinter f).pool = s.pool := rfl
@[simp] theorem State.modPrinter_images (f : Printer → Printer) : (s.modPrinter f).images = s.images := rfl
@[simp] theorem State.modPrinter_artworks (f : Printer → Printer) : (s.modPrinter f).artworks = s.artworks := rfl
@[simp] theorem State.modPrinter_jobs (f : Printer → Printer) : (s.modPrinter f).jobs = s.jobs := rfl
@[simp] theorem State.modPrinter_rotation (f : Printer → Printer) : (s.modPrinter f).rotation = s.rotation := rfl
@[simp] theorem State.modPrinter_discs (f : Printer → Printer) : (s.modPrinter f).discs = s.discs := rfl
@[simp] theorem State.modPrinter_serial (f : Printer → Printer) : (s.modPrinter f).serial = s.serial := rfl
@[simp] theorem State.modPrinter_lanes (f : Printer → Printer) : (s.modPrinter f).lanes = s.lanes := rfl
@[simp] theorem State.modPrinter_budget (f : Printer → Printer) : (s.modPrinter f).budget = s.budget := rfl
@[simp] theorem State.modPrinter_startQueue (f : Printer → Printer) : (s.modPrinter f).startQueue = s.startQueue := rfl
@[simp] theorem State.modPrinter_channel (f : Printer → Printer) : (s.modPrinter f).channel = s.channel := rfl
@[simp] theorem State.modPrinter_verifyQueue (f : Printer → Printer) : (s.modPrinter f).verifyQueue = s.verifyQueue := rfl
@[simp] theorem State.modPrinter_crc (f : Printer → Printer) : (s.modPrinter f).crc = s.crc := rfl
@[simp] theorem State.modPrinter_arm (f : Printer → Printer) : (s.modPrinter f).arm = s.arm := rfl
@[simp] theorem State.modPrinter_requests (f : Printer → Printer) : (s.modPrinter f).requests = s.requests := rfl
@[simp] theorem State.modPrinter_nextAge (f : Printer → Printer) : (s.modPrinter f).nextAge = s.nextAge := rfl
@[simp] theorem State.modPrinter_binA (f : Printer → Printer) : (s.modPrinter f).binA = s.binA := rfl
@[simp] theorem State.modPrinter_binB (f : Printer → Printer) : (s.modPrinter f).binB = s.binB := rfl
@[simp] theorem State.modPrinter_outputFull (f : Printer → Printer) : (s.modPrinter f).outputFull = s.outputFull := rfl
@[simp] theorem State.modPrinter_rejectFull (f : Printer → Printer) : (s.modPrinter f).rejectFull = s.rejectFull := rfl
@[simp] theorem State.modPrinter_sensors (f : Printer → Printer) : (s.modPrinter f).sensors = s.sensors := rfl
@[simp] theorem State.modPrinter_scans (f : Printer → Printer) : (s.modPrinter f).scans = s.scans := rfl
@[simp] theorem State.modPrinter_key (f : Printer → Printer) : (s.modPrinter f).key = s.key := rfl
@[simp] theorem State.modPrinter_due (f : Printer → Printer) : (s.modPrinter f).due = s.due := rfl

/-! ## setCrc -/

@[simp] theorem State.setCrc_pending (k : Fin 2) (v : CrcChannel) : (s.setCrc k v).pending = s.pending := rfl
@[simp] theorem State.setCrc_now (k : Fin 2) (v : CrcChannel) : (s.setCrc k v).now = s.now := rfl
@[simp] theorem State.setCrc_out (k : Fin 2) (v : CrcChannel) : (s.setCrc k v).out = s.out := rfl
@[simp] theorem State.setCrc_ports (k : Fin 2) (v : CrcChannel) : (s.setCrc k v).ports = s.ports := rfl
@[simp] theorem State.setCrc_mem (k : Fin 2) (v : CrcChannel) : (s.setCrc k v).mem = s.mem := rfl
@[simp] theorem State.setCrc_pool (k : Fin 2) (v : CrcChannel) : (s.setCrc k v).pool = s.pool := rfl
@[simp] theorem State.setCrc_images (k : Fin 2) (v : CrcChannel) : (s.setCrc k v).images = s.images := rfl
@[simp] theorem State.setCrc_artworks (k : Fin 2) (v : CrcChannel) : (s.setCrc k v).artworks = s.artworks := rfl
@[simp] theorem State.setCrc_jobs (k : Fin 2) (v : CrcChannel) : (s.setCrc k v).jobs = s.jobs := rfl
@[simp] theorem State.setCrc_rotation (k : Fin 2) (v : CrcChannel) : (s.setCrc k v).rotation = s.rotation := rfl
@[simp] theorem State.setCrc_discs (k : Fin 2) (v : CrcChannel) : (s.setCrc k v).discs = s.discs := rfl
@[simp] theorem State.setCrc_serial (k : Fin 2) (v : CrcChannel) : (s.setCrc k v).serial = s.serial := rfl
@[simp] theorem State.setCrc_lanes (k : Fin 2) (v : CrcChannel) : (s.setCrc k v).lanes = s.lanes := rfl
@[simp] theorem State.setCrc_budget (k : Fin 2) (v : CrcChannel) : (s.setCrc k v).budget = s.budget := rfl
@[simp] theorem State.setCrc_startQueue (k : Fin 2) (v : CrcChannel) : (s.setCrc k v).startQueue = s.startQueue := rfl
@[simp] theorem State.setCrc_channel (k : Fin 2) (v : CrcChannel) : (s.setCrc k v).channel = s.channel := rfl
@[simp] theorem State.setCrc_verifyQueue (k : Fin 2) (v : CrcChannel) : (s.setCrc k v).verifyQueue = s.verifyQueue := rfl
@[simp] theorem State.setCrc_arm (k : Fin 2) (v : CrcChannel) : (s.setCrc k v).arm = s.arm := rfl
@[simp] theorem State.setCrc_requests (k : Fin 2) (v : CrcChannel) : (s.setCrc k v).requests = s.requests := rfl
@[simp] theorem State.setCrc_nextAge (k : Fin 2) (v : CrcChannel) : (s.setCrc k v).nextAge = s.nextAge := rfl
@[simp] theorem State.setCrc_binA (k : Fin 2) (v : CrcChannel) : (s.setCrc k v).binA = s.binA := rfl
@[simp] theorem State.setCrc_binB (k : Fin 2) (v : CrcChannel) : (s.setCrc k v).binB = s.binB := rfl
@[simp] theorem State.setCrc_outputFull (k : Fin 2) (v : CrcChannel) : (s.setCrc k v).outputFull = s.outputFull := rfl
@[simp] theorem State.setCrc_rejectFull (k : Fin 2) (v : CrcChannel) : (s.setCrc k v).rejectFull = s.rejectFull := rfl
@[simp] theorem State.setCrc_sensors (k : Fin 2) (v : CrcChannel) : (s.setCrc k v).sensors = s.sensors := rfl
@[simp] theorem State.setCrc_scans (k : Fin 2) (v : CrcChannel) : (s.setCrc k v).scans = s.scans := rfl
@[simp] theorem State.setCrc_key (k : Fin 2) (v : CrcChannel) : (s.setCrc k v).key = s.key := rfl
@[simp] theorem State.setCrc_printer (k : Fin 2) (v : CrcChannel) : (s.setCrc k v).printer = s.printer := rfl
@[simp] theorem State.setCrc_due (k : Fin 2) (v : CrcChannel) : (s.setCrc k v).due = s.due := rfl

/-! ## emit -/

@[simp] theorem State.emit_pending (o : Output) : (s.emit o).pending = s.pending := rfl
@[simp] theorem State.emit_now (o : Output) : (s.emit o).now = s.now := rfl
@[simp] theorem State.emit_ports (o : Output) : (s.emit o).ports = s.ports := rfl
@[simp] theorem State.emit_mem (o : Output) : (s.emit o).mem = s.mem := rfl
@[simp] theorem State.emit_pool (o : Output) : (s.emit o).pool = s.pool := rfl
@[simp] theorem State.emit_images (o : Output) : (s.emit o).images = s.images := rfl
@[simp] theorem State.emit_artworks (o : Output) : (s.emit o).artworks = s.artworks := rfl
@[simp] theorem State.emit_jobs (o : Output) : (s.emit o).jobs = s.jobs := rfl
@[simp] theorem State.emit_rotation (o : Output) : (s.emit o).rotation = s.rotation := rfl
@[simp] theorem State.emit_discs (o : Output) : (s.emit o).discs = s.discs := rfl
@[simp] theorem State.emit_serial (o : Output) : (s.emit o).serial = s.serial := rfl
@[simp] theorem State.emit_lanes (o : Output) : (s.emit o).lanes = s.lanes := rfl
@[simp] theorem State.emit_budget (o : Output) : (s.emit o).budget = s.budget := rfl
@[simp] theorem State.emit_startQueue (o : Output) : (s.emit o).startQueue = s.startQueue := rfl
@[simp] theorem State.emit_channel (o : Output) : (s.emit o).channel = s.channel := rfl
@[simp] theorem State.emit_verifyQueue (o : Output) : (s.emit o).verifyQueue = s.verifyQueue := rfl
@[simp] theorem State.emit_crc (o : Output) : (s.emit o).crc = s.crc := rfl
@[simp] theorem State.emit_arm (o : Output) : (s.emit o).arm = s.arm := rfl
@[simp] theorem State.emit_requests (o : Output) : (s.emit o).requests = s.requests := rfl
@[simp] theorem State.emit_nextAge (o : Output) : (s.emit o).nextAge = s.nextAge := rfl
@[simp] theorem State.emit_binA (o : Output) : (s.emit o).binA = s.binA := rfl
@[simp] theorem State.emit_binB (o : Output) : (s.emit o).binB = s.binB := rfl
@[simp] theorem State.emit_outputFull (o : Output) : (s.emit o).outputFull = s.outputFull := rfl
@[simp] theorem State.emit_rejectFull (o : Output) : (s.emit o).rejectFull = s.rejectFull := rfl
@[simp] theorem State.emit_sensors (o : Output) : (s.emit o).sensors = s.sensors := rfl
@[simp] theorem State.emit_scans (o : Output) : (s.emit o).scans = s.scans := rfl
@[simp] theorem State.emit_key (o : Output) : (s.emit o).key = s.key := rfl
@[simp] theorem State.emit_printer (o : Output) : (s.emit o).printer = s.printer := rfl
@[simp] theorem State.emit_due (o : Output) : (s.emit o).due = s.due := rfl

/-! ## oweCrc -/

@[simp] theorem State.oweCrc_pending : (s.oweCrc).pending = s.pending := rfl
@[simp] theorem State.oweCrc_now : (s.oweCrc).now = s.now := rfl
@[simp] theorem State.oweCrc_out : (s.oweCrc).out = s.out := rfl
@[simp] theorem State.oweCrc_ports : (s.oweCrc).ports = s.ports := rfl
@[simp] theorem State.oweCrc_mem : (s.oweCrc).mem = s.mem := rfl
@[simp] theorem State.oweCrc_pool : (s.oweCrc).pool = s.pool := rfl
@[simp] theorem State.oweCrc_images : (s.oweCrc).images = s.images := rfl
@[simp] theorem State.oweCrc_artworks : (s.oweCrc).artworks = s.artworks := rfl
@[simp] theorem State.oweCrc_jobs : (s.oweCrc).jobs = s.jobs := rfl
@[simp] theorem State.oweCrc_rotation : (s.oweCrc).rotation = s.rotation := rfl
@[simp] theorem State.oweCrc_discs : (s.oweCrc).discs = s.discs := rfl
@[simp] theorem State.oweCrc_serial : (s.oweCrc).serial = s.serial := rfl
@[simp] theorem State.oweCrc_lanes : (s.oweCrc).lanes = s.lanes := rfl
@[simp] theorem State.oweCrc_budget : (s.oweCrc).budget = s.budget := rfl
@[simp] theorem State.oweCrc_startQueue : (s.oweCrc).startQueue = s.startQueue := rfl
@[simp] theorem State.oweCrc_channel : (s.oweCrc).channel = s.channel := rfl
@[simp] theorem State.oweCrc_verifyQueue : (s.oweCrc).verifyQueue = s.verifyQueue := rfl
@[simp] theorem State.oweCrc_crc : (s.oweCrc).crc = s.crc := rfl
@[simp] theorem State.oweCrc_arm : (s.oweCrc).arm = s.arm := rfl
@[simp] theorem State.oweCrc_requests : (s.oweCrc).requests = s.requests := rfl
@[simp] theorem State.oweCrc_nextAge : (s.oweCrc).nextAge = s.nextAge := rfl
@[simp] theorem State.oweCrc_binA : (s.oweCrc).binA = s.binA := rfl
@[simp] theorem State.oweCrc_binB : (s.oweCrc).binB = s.binB := rfl
@[simp] theorem State.oweCrc_outputFull : (s.oweCrc).outputFull = s.outputFull := rfl
@[simp] theorem State.oweCrc_rejectFull : (s.oweCrc).rejectFull = s.rejectFull := rfl
@[simp] theorem State.oweCrc_sensors : (s.oweCrc).sensors = s.sensors := rfl
@[simp] theorem State.oweCrc_scans : (s.oweCrc).scans = s.scans := rfl
@[simp] theorem State.oweCrc_key : (s.oweCrc).key = s.key := rfl
@[simp] theorem State.oweCrc_printer : (s.oweCrc).printer = s.printer := rfl

/-! ## oweClaim -/

@[simp] theorem State.oweClaim_pending : (s.oweClaim).pending = s.pending := rfl
@[simp] theorem State.oweClaim_now : (s.oweClaim).now = s.now := rfl
@[simp] theorem State.oweClaim_out : (s.oweClaim).out = s.out := rfl
@[simp] theorem State.oweClaim_ports : (s.oweClaim).ports = s.ports := rfl
@[simp] theorem State.oweClaim_mem : (s.oweClaim).mem = s.mem := rfl
@[simp] theorem State.oweClaim_pool : (s.oweClaim).pool = s.pool := rfl
@[simp] theorem State.oweClaim_images : (s.oweClaim).images = s.images := rfl
@[simp] theorem State.oweClaim_artworks : (s.oweClaim).artworks = s.artworks := rfl
@[simp] theorem State.oweClaim_jobs : (s.oweClaim).jobs = s.jobs := rfl
@[simp] theorem State.oweClaim_rotation : (s.oweClaim).rotation = s.rotation := rfl
@[simp] theorem State.oweClaim_discs : (s.oweClaim).discs = s.discs := rfl
@[simp] theorem State.oweClaim_serial : (s.oweClaim).serial = s.serial := rfl
@[simp] theorem State.oweClaim_lanes : (s.oweClaim).lanes = s.lanes := rfl
@[simp] theorem State.oweClaim_budget : (s.oweClaim).budget = s.budget := rfl
@[simp] theorem State.oweClaim_startQueue : (s.oweClaim).startQueue = s.startQueue := rfl
@[simp] theorem State.oweClaim_channel : (s.oweClaim).channel = s.channel := rfl
@[simp] theorem State.oweClaim_verifyQueue : (s.oweClaim).verifyQueue = s.verifyQueue := rfl
@[simp] theorem State.oweClaim_crc : (s.oweClaim).crc = s.crc := rfl
@[simp] theorem State.oweClaim_arm : (s.oweClaim).arm = s.arm := rfl
@[simp] theorem State.oweClaim_requests : (s.oweClaim).requests = s.requests := rfl
@[simp] theorem State.oweClaim_nextAge : (s.oweClaim).nextAge = s.nextAge := rfl
@[simp] theorem State.oweClaim_binA : (s.oweClaim).binA = s.binA := rfl
@[simp] theorem State.oweClaim_binB : (s.oweClaim).binB = s.binB := rfl
@[simp] theorem State.oweClaim_outputFull : (s.oweClaim).outputFull = s.outputFull := rfl
@[simp] theorem State.oweClaim_rejectFull : (s.oweClaim).rejectFull = s.rejectFull := rfl
@[simp] theorem State.oweClaim_sensors : (s.oweClaim).sensors = s.sensors := rfl
@[simp] theorem State.oweClaim_scans : (s.oweClaim).scans = s.scans := rfl
@[simp] theorem State.oweClaim_key : (s.oweClaim).key = s.key := rfl
@[simp] theorem State.oweClaim_printer : (s.oweClaim).printer = s.printer := rfl

/-! ## oweStart -/

@[simp] theorem State.oweStart_pending : (s.oweStart).pending = s.pending := rfl
@[simp] theorem State.oweStart_now : (s.oweStart).now = s.now := rfl
@[simp] theorem State.oweStart_out : (s.oweStart).out = s.out := rfl
@[simp] theorem State.oweStart_ports : (s.oweStart).ports = s.ports := rfl
@[simp] theorem State.oweStart_mem : (s.oweStart).mem = s.mem := rfl
@[simp] theorem State.oweStart_pool : (s.oweStart).pool = s.pool := rfl
@[simp] theorem State.oweStart_images : (s.oweStart).images = s.images := rfl
@[simp] theorem State.oweStart_artworks : (s.oweStart).artworks = s.artworks := rfl
@[simp] theorem State.oweStart_jobs : (s.oweStart).jobs = s.jobs := rfl
@[simp] theorem State.oweStart_rotation : (s.oweStart).rotation = s.rotation := rfl
@[simp] theorem State.oweStart_discs : (s.oweStart).discs = s.discs := rfl
@[simp] theorem State.oweStart_serial : (s.oweStart).serial = s.serial := rfl
@[simp] theorem State.oweStart_lanes : (s.oweStart).lanes = s.lanes := rfl
@[simp] theorem State.oweStart_budget : (s.oweStart).budget = s.budget := rfl
@[simp] theorem State.oweStart_startQueue : (s.oweStart).startQueue = s.startQueue := rfl
@[simp] theorem State.oweStart_channel : (s.oweStart).channel = s.channel := rfl
@[simp] theorem State.oweStart_verifyQueue : (s.oweStart).verifyQueue = s.verifyQueue := rfl
@[simp] theorem State.oweStart_crc : (s.oweStart).crc = s.crc := rfl
@[simp] theorem State.oweStart_arm : (s.oweStart).arm = s.arm := rfl
@[simp] theorem State.oweStart_requests : (s.oweStart).requests = s.requests := rfl
@[simp] theorem State.oweStart_nextAge : (s.oweStart).nextAge = s.nextAge := rfl
@[simp] theorem State.oweStart_binA : (s.oweStart).binA = s.binA := rfl
@[simp] theorem State.oweStart_binB : (s.oweStart).binB = s.binB := rfl
@[simp] theorem State.oweStart_outputFull : (s.oweStart).outputFull = s.outputFull := rfl
@[simp] theorem State.oweStart_rejectFull : (s.oweStart).rejectFull = s.rejectFull := rfl
@[simp] theorem State.oweStart_sensors : (s.oweStart).sensors = s.sensors := rfl
@[simp] theorem State.oweStart_scans : (s.oweStart).scans = s.scans := rfl
@[simp] theorem State.oweStart_key : (s.oweStart).key = s.key := rfl
@[simp] theorem State.oweStart_printer : (s.oweStart).printer = s.printer := rfl

/-! ## oweArm -/

@[simp] theorem State.oweArm_pending : (s.oweArm).pending = s.pending := rfl
@[simp] theorem State.oweArm_now : (s.oweArm).now = s.now := rfl
@[simp] theorem State.oweArm_out : (s.oweArm).out = s.out := rfl
@[simp] theorem State.oweArm_ports : (s.oweArm).ports = s.ports := rfl
@[simp] theorem State.oweArm_mem : (s.oweArm).mem = s.mem := rfl
@[simp] theorem State.oweArm_pool : (s.oweArm).pool = s.pool := rfl
@[simp] theorem State.oweArm_images : (s.oweArm).images = s.images := rfl
@[simp] theorem State.oweArm_artworks : (s.oweArm).artworks = s.artworks := rfl
@[simp] theorem State.oweArm_jobs : (s.oweArm).jobs = s.jobs := rfl
@[simp] theorem State.oweArm_rotation : (s.oweArm).rotation = s.rotation := rfl
@[simp] theorem State.oweArm_discs : (s.oweArm).discs = s.discs := rfl
@[simp] theorem State.oweArm_serial : (s.oweArm).serial = s.serial := rfl
@[simp] theorem State.oweArm_lanes : (s.oweArm).lanes = s.lanes := rfl
@[simp] theorem State.oweArm_budget : (s.oweArm).budget = s.budget := rfl
@[simp] theorem State.oweArm_startQueue : (s.oweArm).startQueue = s.startQueue := rfl
@[simp] theorem State.oweArm_channel : (s.oweArm).channel = s.channel := rfl
@[simp] theorem State.oweArm_verifyQueue : (s.oweArm).verifyQueue = s.verifyQueue := rfl
@[simp] theorem State.oweArm_crc : (s.oweArm).crc = s.crc := rfl
@[simp] theorem State.oweArm_arm : (s.oweArm).arm = s.arm := rfl
@[simp] theorem State.oweArm_requests : (s.oweArm).requests = s.requests := rfl
@[simp] theorem State.oweArm_nextAge : (s.oweArm).nextAge = s.nextAge := rfl
@[simp] theorem State.oweArm_binA : (s.oweArm).binA = s.binA := rfl
@[simp] theorem State.oweArm_binB : (s.oweArm).binB = s.binB := rfl
@[simp] theorem State.oweArm_outputFull : (s.oweArm).outputFull = s.outputFull := rfl
@[simp] theorem State.oweArm_rejectFull : (s.oweArm).rejectFull = s.rejectFull := rfl
@[simp] theorem State.oweArm_sensors : (s.oweArm).sensors = s.sensors := rfl
@[simp] theorem State.oweArm_scans : (s.oweArm).scans = s.scans := rfl
@[simp] theorem State.oweArm_key : (s.oweArm).key = s.key := rfl
@[simp] theorem State.oweArm_printer : (s.oweArm).printer = s.printer := rfl

/-! ## oweSelect -/

@[simp] theorem State.oweSelect_pending : (s.oweSelect).pending = s.pending := rfl
@[simp] theorem State.oweSelect_now : (s.oweSelect).now = s.now := rfl
@[simp] theorem State.oweSelect_out : (s.oweSelect).out = s.out := rfl
@[simp] theorem State.oweSelect_ports : (s.oweSelect).ports = s.ports := rfl
@[simp] theorem State.oweSelect_mem : (s.oweSelect).mem = s.mem := rfl
@[simp] theorem State.oweSelect_pool : (s.oweSelect).pool = s.pool := rfl
@[simp] theorem State.oweSelect_images : (s.oweSelect).images = s.images := rfl
@[simp] theorem State.oweSelect_artworks : (s.oweSelect).artworks = s.artworks := rfl
@[simp] theorem State.oweSelect_jobs : (s.oweSelect).jobs = s.jobs := rfl
@[simp] theorem State.oweSelect_rotation : (s.oweSelect).rotation = s.rotation := rfl
@[simp] theorem State.oweSelect_discs : (s.oweSelect).discs = s.discs := rfl
@[simp] theorem State.oweSelect_serial : (s.oweSelect).serial = s.serial := rfl
@[simp] theorem State.oweSelect_lanes : (s.oweSelect).lanes = s.lanes := rfl
@[simp] theorem State.oweSelect_budget : (s.oweSelect).budget = s.budget := rfl
@[simp] theorem State.oweSelect_startQueue : (s.oweSelect).startQueue = s.startQueue := rfl
@[simp] theorem State.oweSelect_channel : (s.oweSelect).channel = s.channel := rfl
@[simp] theorem State.oweSelect_verifyQueue : (s.oweSelect).verifyQueue = s.verifyQueue := rfl
@[simp] theorem State.oweSelect_crc : (s.oweSelect).crc = s.crc := rfl
@[simp] theorem State.oweSelect_arm : (s.oweSelect).arm = s.arm := rfl
@[simp] theorem State.oweSelect_requests : (s.oweSelect).requests = s.requests := rfl
@[simp] theorem State.oweSelect_nextAge : (s.oweSelect).nextAge = s.nextAge := rfl
@[simp] theorem State.oweSelect_binA : (s.oweSelect).binA = s.binA := rfl
@[simp] theorem State.oweSelect_binB : (s.oweSelect).binB = s.binB := rfl
@[simp] theorem State.oweSelect_outputFull : (s.oweSelect).outputFull = s.outputFull := rfl
@[simp] theorem State.oweSelect_rejectFull : (s.oweSelect).rejectFull = s.rejectFull := rfl
@[simp] theorem State.oweSelect_sensors : (s.oweSelect).sensors = s.sensors := rfl
@[simp] theorem State.oweSelect_scans : (s.oweSelect).scans = s.scans := rfl
@[simp] theorem State.oweSelect_key : (s.oweSelect).key = s.key := rfl
@[simp] theorem State.oweSelect_printer : (s.oweSelect).printer = s.printer := rfl

/-! ## oweGrant -/

@[simp] theorem State.oweGrant_pending : (s.oweGrant).pending = s.pending := rfl
@[simp] theorem State.oweGrant_now : (s.oweGrant).now = s.now := rfl
@[simp] theorem State.oweGrant_out : (s.oweGrant).out = s.out := rfl
@[simp] theorem State.oweGrant_ports : (s.oweGrant).ports = s.ports := rfl
@[simp] theorem State.oweGrant_mem : (s.oweGrant).mem = s.mem := rfl
@[simp] theorem State.oweGrant_pool : (s.oweGrant).pool = s.pool := rfl
@[simp] theorem State.oweGrant_images : (s.oweGrant).images = s.images := rfl
@[simp] theorem State.oweGrant_artworks : (s.oweGrant).artworks = s.artworks := rfl
@[simp] theorem State.oweGrant_jobs : (s.oweGrant).jobs = s.jobs := rfl
@[simp] theorem State.oweGrant_rotation : (s.oweGrant).rotation = s.rotation := rfl
@[simp] theorem State.oweGrant_discs : (s.oweGrant).discs = s.discs := rfl
@[simp] theorem State.oweGrant_serial : (s.oweGrant).serial = s.serial := rfl
@[simp] theorem State.oweGrant_lanes : (s.oweGrant).lanes = s.lanes := rfl
@[simp] theorem State.oweGrant_budget : (s.oweGrant).budget = s.budget := rfl
@[simp] theorem State.oweGrant_startQueue : (s.oweGrant).startQueue = s.startQueue := rfl
@[simp] theorem State.oweGrant_channel : (s.oweGrant).channel = s.channel := rfl
@[simp] theorem State.oweGrant_verifyQueue : (s.oweGrant).verifyQueue = s.verifyQueue := rfl
@[simp] theorem State.oweGrant_crc : (s.oweGrant).crc = s.crc := rfl
@[simp] theorem State.oweGrant_arm : (s.oweGrant).arm = s.arm := rfl
@[simp] theorem State.oweGrant_requests : (s.oweGrant).requests = s.requests := rfl
@[simp] theorem State.oweGrant_nextAge : (s.oweGrant).nextAge = s.nextAge := rfl
@[simp] theorem State.oweGrant_binA : (s.oweGrant).binA = s.binA := rfl
@[simp] theorem State.oweGrant_binB : (s.oweGrant).binB = s.binB := rfl
@[simp] theorem State.oweGrant_outputFull : (s.oweGrant).outputFull = s.outputFull := rfl
@[simp] theorem State.oweGrant_rejectFull : (s.oweGrant).rejectFull = s.rejectFull := rfl
@[simp] theorem State.oweGrant_sensors : (s.oweGrant).sensors = s.sensors := rfl
@[simp] theorem State.oweGrant_scans : (s.oweGrant).scans = s.scans := rfl
@[simp] theorem State.oweGrant_key : (s.oweGrant).key = s.key := rfl
@[simp] theorem State.oweGrant_printer : (s.oweGrant).printer = s.printer := rfl

/-! ## notify -/

@[simp] theorem State.notify_pending (p : Port) (v : Notice) : (s.notify p v).pending = s.pending := rfl
@[simp] theorem State.notify_now (p : Port) (v : Notice) : (s.notify p v).now = s.now := rfl
@[simp] theorem State.notify_out (p : Port) (v : Notice) : (s.notify p v).out = s.out := rfl
@[simp] theorem State.notify_mem (p : Port) (v : Notice) : (s.notify p v).mem = s.mem := rfl
@[simp] theorem State.notify_pool (p : Port) (v : Notice) : (s.notify p v).pool = s.pool := rfl
@[simp] theorem State.notify_images (p : Port) (v : Notice) : (s.notify p v).images = s.images := rfl
@[simp] theorem State.notify_artworks (p : Port) (v : Notice) : (s.notify p v).artworks = s.artworks := rfl
@[simp] theorem State.notify_jobs (p : Port) (v : Notice) : (s.notify p v).jobs = s.jobs := rfl
@[simp] theorem State.notify_rotation (p : Port) (v : Notice) : (s.notify p v).rotation = s.rotation := rfl
@[simp] theorem State.notify_discs (p : Port) (v : Notice) : (s.notify p v).discs = s.discs := rfl
@[simp] theorem State.notify_serial (p : Port) (v : Notice) : (s.notify p v).serial = s.serial := rfl
@[simp] theorem State.notify_lanes (p : Port) (v : Notice) : (s.notify p v).lanes = s.lanes := rfl
@[simp] theorem State.notify_budget (p : Port) (v : Notice) : (s.notify p v).budget = s.budget := rfl
@[simp] theorem State.notify_startQueue (p : Port) (v : Notice) : (s.notify p v).startQueue = s.startQueue := rfl
@[simp] theorem State.notify_channel (p : Port) (v : Notice) : (s.notify p v).channel = s.channel := rfl
@[simp] theorem State.notify_verifyQueue (p : Port) (v : Notice) : (s.notify p v).verifyQueue = s.verifyQueue := rfl
@[simp] theorem State.notify_crc (p : Port) (v : Notice) : (s.notify p v).crc = s.crc := rfl
@[simp] theorem State.notify_arm (p : Port) (v : Notice) : (s.notify p v).arm = s.arm := rfl
@[simp] theorem State.notify_requests (p : Port) (v : Notice) : (s.notify p v).requests = s.requests := rfl
@[simp] theorem State.notify_nextAge (p : Port) (v : Notice) : (s.notify p v).nextAge = s.nextAge := rfl
@[simp] theorem State.notify_binA (p : Port) (v : Notice) : (s.notify p v).binA = s.binA := rfl
@[simp] theorem State.notify_binB (p : Port) (v : Notice) : (s.notify p v).binB = s.binB := rfl
@[simp] theorem State.notify_outputFull (p : Port) (v : Notice) : (s.notify p v).outputFull = s.outputFull := rfl
@[simp] theorem State.notify_rejectFull (p : Port) (v : Notice) : (s.notify p v).rejectFull = s.rejectFull := rfl
@[simp] theorem State.notify_sensors (p : Port) (v : Notice) : (s.notify p v).sensors = s.sensors := rfl
@[simp] theorem State.notify_scans (p : Port) (v : Notice) : (s.notify p v).scans = s.scans := rfl
@[simp] theorem State.notify_key (p : Port) (v : Notice) : (s.notify p v).key = s.key := rfl
@[simp] theorem State.notify_printer (p : Port) (v : Notice) : (s.notify p v).printer = s.printer := rfl
@[simp] theorem State.notify_due (p : Port) (v : Notice) : (s.notify p v).due = s.due := rfl

/-! ## sendDrive -/

@[simp] theorem State.sendDrive_pending (n : LaneId) (v : DriveMessage) : (s.sendDrive n v).pending = s.pending := rfl
@[simp] theorem State.sendDrive_now (n : LaneId) (v : DriveMessage) : (s.sendDrive n v).now = s.now := rfl
@[simp] theorem State.sendDrive_ports (n : LaneId) (v : DriveMessage) : (s.sendDrive n v).ports = s.ports := rfl
@[simp] theorem State.sendDrive_mem (n : LaneId) (v : DriveMessage) : (s.sendDrive n v).mem = s.mem := rfl
@[simp] theorem State.sendDrive_pool (n : LaneId) (v : DriveMessage) : (s.sendDrive n v).pool = s.pool := rfl
@[simp] theorem State.sendDrive_images (n : LaneId) (v : DriveMessage) : (s.sendDrive n v).images = s.images := rfl
@[simp] theorem State.sendDrive_artworks (n : LaneId) (v : DriveMessage) : (s.sendDrive n v).artworks = s.artworks := rfl
@[simp] theorem State.sendDrive_jobs (n : LaneId) (v : DriveMessage) : (s.sendDrive n v).jobs = s.jobs := rfl
@[simp] theorem State.sendDrive_rotation (n : LaneId) (v : DriveMessage) : (s.sendDrive n v).rotation = s.rotation := rfl
@[simp] theorem State.sendDrive_discs (n : LaneId) (v : DriveMessage) : (s.sendDrive n v).discs = s.discs := rfl
@[simp] theorem State.sendDrive_serial (n : LaneId) (v : DriveMessage) : (s.sendDrive n v).serial = s.serial := rfl
@[simp] theorem State.sendDrive_lanes (n : LaneId) (v : DriveMessage) : (s.sendDrive n v).lanes = s.lanes := rfl
@[simp] theorem State.sendDrive_budget (n : LaneId) (v : DriveMessage) : (s.sendDrive n v).budget = s.budget := rfl
@[simp] theorem State.sendDrive_startQueue (n : LaneId) (v : DriveMessage) : (s.sendDrive n v).startQueue = s.startQueue := rfl
@[simp] theorem State.sendDrive_channel (n : LaneId) (v : DriveMessage) : (s.sendDrive n v).channel = s.channel := rfl
@[simp] theorem State.sendDrive_verifyQueue (n : LaneId) (v : DriveMessage) : (s.sendDrive n v).verifyQueue = s.verifyQueue := rfl
@[simp] theorem State.sendDrive_crc (n : LaneId) (v : DriveMessage) : (s.sendDrive n v).crc = s.crc := rfl
@[simp] theorem State.sendDrive_arm (n : LaneId) (v : DriveMessage) : (s.sendDrive n v).arm = s.arm := rfl
@[simp] theorem State.sendDrive_requests (n : LaneId) (v : DriveMessage) : (s.sendDrive n v).requests = s.requests := rfl
@[simp] theorem State.sendDrive_nextAge (n : LaneId) (v : DriveMessage) : (s.sendDrive n v).nextAge = s.nextAge := rfl
@[simp] theorem State.sendDrive_binA (n : LaneId) (v : DriveMessage) : (s.sendDrive n v).binA = s.binA := rfl
@[simp] theorem State.sendDrive_binB (n : LaneId) (v : DriveMessage) : (s.sendDrive n v).binB = s.binB := rfl
@[simp] theorem State.sendDrive_outputFull (n : LaneId) (v : DriveMessage) : (s.sendDrive n v).outputFull = s.outputFull := rfl
@[simp] theorem State.sendDrive_rejectFull (n : LaneId) (v : DriveMessage) : (s.sendDrive n v).rejectFull = s.rejectFull := rfl
@[simp] theorem State.sendDrive_sensors (n : LaneId) (v : DriveMessage) : (s.sendDrive n v).sensors = s.sensors := rfl
@[simp] theorem State.sendDrive_scans (n : LaneId) (v : DriveMessage) : (s.sendDrive n v).scans = s.scans := rfl
@[simp] theorem State.sendDrive_key (n : LaneId) (v : DriveMessage) : (s.sendDrive n v).key = s.key := rfl
@[simp] theorem State.sendDrive_printer (n : LaneId) (v : DriveMessage) : (s.sendDrive n v).printer = s.printer := rfl
@[simp] theorem State.sendDrive_due (n : LaneId) (v : DriveMessage) : (s.sendDrive n v).due = s.due := rfl

/-! ## sendPrinter -/

@[simp] theorem State.sendPrinter_pending (v : PrinterMessage) : (s.sendPrinter v).pending = s.pending := rfl
@[simp] theorem State.sendPrinter_now (v : PrinterMessage) : (s.sendPrinter v).now = s.now := rfl
@[simp] theorem State.sendPrinter_ports (v : PrinterMessage) : (s.sendPrinter v).ports = s.ports := rfl
@[simp] theorem State.sendPrinter_mem (v : PrinterMessage) : (s.sendPrinter v).mem = s.mem := rfl
@[simp] theorem State.sendPrinter_pool (v : PrinterMessage) : (s.sendPrinter v).pool = s.pool := rfl
@[simp] theorem State.sendPrinter_images (v : PrinterMessage) : (s.sendPrinter v).images = s.images := rfl
@[simp] theorem State.sendPrinter_artworks (v : PrinterMessage) : (s.sendPrinter v).artworks = s.artworks := rfl
@[simp] theorem State.sendPrinter_jobs (v : PrinterMessage) : (s.sendPrinter v).jobs = s.jobs := rfl
@[simp] theorem State.sendPrinter_rotation (v : PrinterMessage) : (s.sendPrinter v).rotation = s.rotation := rfl
@[simp] theorem State.sendPrinter_discs (v : PrinterMessage) : (s.sendPrinter v).discs = s.discs := rfl
@[simp] theorem State.sendPrinter_serial (v : PrinterMessage) : (s.sendPrinter v).serial = s.serial := rfl
@[simp] theorem State.sendPrinter_lanes (v : PrinterMessage) : (s.sendPrinter v).lanes = s.lanes := rfl
@[simp] theorem State.sendPrinter_budget (v : PrinterMessage) : (s.sendPrinter v).budget = s.budget := rfl
@[simp] theorem State.sendPrinter_startQueue (v : PrinterMessage) : (s.sendPrinter v).startQueue = s.startQueue := rfl
@[simp] theorem State.sendPrinter_channel (v : PrinterMessage) : (s.sendPrinter v).channel = s.channel := rfl
@[simp] theorem State.sendPrinter_verifyQueue (v : PrinterMessage) : (s.sendPrinter v).verifyQueue = s.verifyQueue := rfl
@[simp] theorem State.sendPrinter_crc (v : PrinterMessage) : (s.sendPrinter v).crc = s.crc := rfl
@[simp] theorem State.sendPrinter_arm (v : PrinterMessage) : (s.sendPrinter v).arm = s.arm := rfl
@[simp] theorem State.sendPrinter_requests (v : PrinterMessage) : (s.sendPrinter v).requests = s.requests := rfl
@[simp] theorem State.sendPrinter_nextAge (v : PrinterMessage) : (s.sendPrinter v).nextAge = s.nextAge := rfl
@[simp] theorem State.sendPrinter_binA (v : PrinterMessage) : (s.sendPrinter v).binA = s.binA := rfl
@[simp] theorem State.sendPrinter_binB (v : PrinterMessage) : (s.sendPrinter v).binB = s.binB := rfl
@[simp] theorem State.sendPrinter_outputFull (v : PrinterMessage) : (s.sendPrinter v).outputFull = s.outputFull := rfl
@[simp] theorem State.sendPrinter_rejectFull (v : PrinterMessage) : (s.sendPrinter v).rejectFull = s.rejectFull := rfl
@[simp] theorem State.sendPrinter_sensors (v : PrinterMessage) : (s.sendPrinter v).sensors = s.sensors := rfl
@[simp] theorem State.sendPrinter_scans (v : PrinterMessage) : (s.sendPrinter v).scans = s.scans := rfl
@[simp] theorem State.sendPrinter_key (v : PrinterMessage) : (s.sendPrinter v).key = s.key := rfl
@[simp] theorem State.sendPrinter_printer (v : PrinterMessage) : (s.sendPrinter v).printer = s.printer := rfl
@[simp] theorem State.sendPrinter_due (v : PrinterMessage) : (s.sendPrinter v).due = s.due := rfl

/-! ## answer -/

@[simp] theorem State.answer_pending (p : Port) (bytes : List Byte) : (s.answer p bytes).pending = s.pending := rfl
@[simp] theorem State.answer_now (p : Port) (bytes : List Byte) : (s.answer p bytes).now = s.now := rfl
@[simp] theorem State.answer_ports (p : Port) (bytes : List Byte) : (s.answer p bytes).ports = s.ports := rfl
@[simp] theorem State.answer_mem (p : Port) (bytes : List Byte) : (s.answer p bytes).mem = s.mem := rfl
@[simp] theorem State.answer_pool (p : Port) (bytes : List Byte) : (s.answer p bytes).pool = s.pool := rfl
@[simp] theorem State.answer_images (p : Port) (bytes : List Byte) : (s.answer p bytes).images = s.images := rfl
@[simp] theorem State.answer_artworks (p : Port) (bytes : List Byte) : (s.answer p bytes).artworks = s.artworks := rfl
@[simp] theorem State.answer_jobs (p : Port) (bytes : List Byte) : (s.answer p bytes).jobs = s.jobs := rfl
@[simp] theorem State.answer_rotation (p : Port) (bytes : List Byte) : (s.answer p bytes).rotation = s.rotation := rfl
@[simp] theorem State.answer_discs (p : Port) (bytes : List Byte) : (s.answer p bytes).discs = s.discs := rfl
@[simp] theorem State.answer_serial (p : Port) (bytes : List Byte) : (s.answer p bytes).serial = s.serial := rfl
@[simp] theorem State.answer_lanes (p : Port) (bytes : List Byte) : (s.answer p bytes).lanes = s.lanes := rfl
@[simp] theorem State.answer_budget (p : Port) (bytes : List Byte) : (s.answer p bytes).budget = s.budget := rfl
@[simp] theorem State.answer_startQueue (p : Port) (bytes : List Byte) : (s.answer p bytes).startQueue = s.startQueue := rfl
@[simp] theorem State.answer_channel (p : Port) (bytes : List Byte) : (s.answer p bytes).channel = s.channel := rfl
@[simp] theorem State.answer_verifyQueue (p : Port) (bytes : List Byte) : (s.answer p bytes).verifyQueue = s.verifyQueue := rfl
@[simp] theorem State.answer_crc (p : Port) (bytes : List Byte) : (s.answer p bytes).crc = s.crc := rfl
@[simp] theorem State.answer_arm (p : Port) (bytes : List Byte) : (s.answer p bytes).arm = s.arm := rfl
@[simp] theorem State.answer_requests (p : Port) (bytes : List Byte) : (s.answer p bytes).requests = s.requests := rfl
@[simp] theorem State.answer_nextAge (p : Port) (bytes : List Byte) : (s.answer p bytes).nextAge = s.nextAge := rfl
@[simp] theorem State.answer_binA (p : Port) (bytes : List Byte) : (s.answer p bytes).binA = s.binA := rfl
@[simp] theorem State.answer_binB (p : Port) (bytes : List Byte) : (s.answer p bytes).binB = s.binB := rfl
@[simp] theorem State.answer_outputFull (p : Port) (bytes : List Byte) : (s.answer p bytes).outputFull = s.outputFull := rfl
@[simp] theorem State.answer_rejectFull (p : Port) (bytes : List Byte) : (s.answer p bytes).rejectFull = s.rejectFull := rfl
@[simp] theorem State.answer_sensors (p : Port) (bytes : List Byte) : (s.answer p bytes).sensors = s.sensors := rfl
@[simp] theorem State.answer_scans (p : Port) (bytes : List Byte) : (s.answer p bytes).scans = s.scans := rfl
@[simp] theorem State.answer_key (p : Port) (bytes : List Byte) : (s.answer p bytes).key = s.key := rfl
@[simp] theorem State.answer_printer (p : Port) (bytes : List Byte) : (s.answer p bytes).printer = s.printer := rfl
@[simp] theorem State.answer_due (p : Port) (bytes : List Byte) : (s.answer p bytes).due = s.due := rfl

/-! ## startTimer -/

@[simp] theorem State.startTimer_pending (n : LaneId) (limit : Nat) : (s.startTimer n limit).pending = s.pending := rfl
@[simp] theorem State.startTimer_now (n : LaneId) (limit : Nat) : (s.startTimer n limit).now = s.now := rfl
@[simp] theorem State.startTimer_out (n : LaneId) (limit : Nat) : (s.startTimer n limit).out = s.out := rfl
@[simp] theorem State.startTimer_ports (n : LaneId) (limit : Nat) : (s.startTimer n limit).ports = s.ports := rfl
@[simp] theorem State.startTimer_mem (n : LaneId) (limit : Nat) : (s.startTimer n limit).mem = s.mem := rfl
@[simp] theorem State.startTimer_pool (n : LaneId) (limit : Nat) : (s.startTimer n limit).pool = s.pool := rfl
@[simp] theorem State.startTimer_images (n : LaneId) (limit : Nat) : (s.startTimer n limit).images = s.images := rfl
@[simp] theorem State.startTimer_artworks (n : LaneId) (limit : Nat) : (s.startTimer n limit).artworks = s.artworks := rfl
@[simp] theorem State.startTimer_jobs (n : LaneId) (limit : Nat) : (s.startTimer n limit).jobs = s.jobs := rfl
@[simp] theorem State.startTimer_rotation (n : LaneId) (limit : Nat) : (s.startTimer n limit).rotation = s.rotation := rfl
@[simp] theorem State.startTimer_discs (n : LaneId) (limit : Nat) : (s.startTimer n limit).discs = s.discs := rfl
@[simp] theorem State.startTimer_serial (n : LaneId) (limit : Nat) : (s.startTimer n limit).serial = s.serial := rfl
@[simp] theorem State.startTimer_budget (n : LaneId) (limit : Nat) : (s.startTimer n limit).budget = s.budget := rfl
@[simp] theorem State.startTimer_startQueue (n : LaneId) (limit : Nat) : (s.startTimer n limit).startQueue = s.startQueue := rfl
@[simp] theorem State.startTimer_channel (n : LaneId) (limit : Nat) : (s.startTimer n limit).channel = s.channel := rfl
@[simp] theorem State.startTimer_verifyQueue (n : LaneId) (limit : Nat) : (s.startTimer n limit).verifyQueue = s.verifyQueue := rfl
@[simp] theorem State.startTimer_crc (n : LaneId) (limit : Nat) : (s.startTimer n limit).crc = s.crc := rfl
@[simp] theorem State.startTimer_arm (n : LaneId) (limit : Nat) : (s.startTimer n limit).arm = s.arm := rfl
@[simp] theorem State.startTimer_requests (n : LaneId) (limit : Nat) : (s.startTimer n limit).requests = s.requests := rfl
@[simp] theorem State.startTimer_nextAge (n : LaneId) (limit : Nat) : (s.startTimer n limit).nextAge = s.nextAge := rfl
@[simp] theorem State.startTimer_binA (n : LaneId) (limit : Nat) : (s.startTimer n limit).binA = s.binA := rfl
@[simp] theorem State.startTimer_binB (n : LaneId) (limit : Nat) : (s.startTimer n limit).binB = s.binB := rfl
@[simp] theorem State.startTimer_outputFull (n : LaneId) (limit : Nat) : (s.startTimer n limit).outputFull = s.outputFull := rfl
@[simp] theorem State.startTimer_rejectFull (n : LaneId) (limit : Nat) : (s.startTimer n limit).rejectFull = s.rejectFull := rfl
@[simp] theorem State.startTimer_sensors (n : LaneId) (limit : Nat) : (s.startTimer n limit).sensors = s.sensors := rfl
@[simp] theorem State.startTimer_scans (n : LaneId) (limit : Nat) : (s.startTimer n limit).scans = s.scans := rfl
@[simp] theorem State.startTimer_key (n : LaneId) (limit : Nat) : (s.startTimer n limit).key = s.key := rfl
@[simp] theorem State.startTimer_printer (n : LaneId) (limit : Nat) : (s.startTimer n limit).printer = s.printer := rfl
@[simp] theorem State.startTimer_due (n : LaneId) (limit : Nat) : (s.startTimer n limit).due = s.due := rfl

/-! ## stopTimer -/

@[simp] theorem State.stopTimer_pending (n : LaneId) : (s.stopTimer n).pending = s.pending := rfl
@[simp] theorem State.stopTimer_now (n : LaneId) : (s.stopTimer n).now = s.now := rfl
@[simp] theorem State.stopTimer_out (n : LaneId) : (s.stopTimer n).out = s.out := rfl
@[simp] theorem State.stopTimer_ports (n : LaneId) : (s.stopTimer n).ports = s.ports := rfl
@[simp] theorem State.stopTimer_mem (n : LaneId) : (s.stopTimer n).mem = s.mem := rfl
@[simp] theorem State.stopTimer_pool (n : LaneId) : (s.stopTimer n).pool = s.pool := rfl
@[simp] theorem State.stopTimer_images (n : LaneId) : (s.stopTimer n).images = s.images := rfl
@[simp] theorem State.stopTimer_artworks (n : LaneId) : (s.stopTimer n).artworks = s.artworks := rfl
@[simp] theorem State.stopTimer_jobs (n : LaneId) : (s.stopTimer n).jobs = s.jobs := rfl
@[simp] theorem State.stopTimer_rotation (n : LaneId) : (s.stopTimer n).rotation = s.rotation := rfl
@[simp] theorem State.stopTimer_discs (n : LaneId) : (s.stopTimer n).discs = s.discs := rfl
@[simp] theorem State.stopTimer_serial (n : LaneId) : (s.stopTimer n).serial = s.serial := rfl
@[simp] theorem State.stopTimer_budget (n : LaneId) : (s.stopTimer n).budget = s.budget := rfl
@[simp] theorem State.stopTimer_startQueue (n : LaneId) : (s.stopTimer n).startQueue = s.startQueue := rfl
@[simp] theorem State.stopTimer_channel (n : LaneId) : (s.stopTimer n).channel = s.channel := rfl
@[simp] theorem State.stopTimer_verifyQueue (n : LaneId) : (s.stopTimer n).verifyQueue = s.verifyQueue := rfl
@[simp] theorem State.stopTimer_crc (n : LaneId) : (s.stopTimer n).crc = s.crc := rfl
@[simp] theorem State.stopTimer_arm (n : LaneId) : (s.stopTimer n).arm = s.arm := rfl
@[simp] theorem State.stopTimer_requests (n : LaneId) : (s.stopTimer n).requests = s.requests := rfl
@[simp] theorem State.stopTimer_nextAge (n : LaneId) : (s.stopTimer n).nextAge = s.nextAge := rfl
@[simp] theorem State.stopTimer_binA (n : LaneId) : (s.stopTimer n).binA = s.binA := rfl
@[simp] theorem State.stopTimer_binB (n : LaneId) : (s.stopTimer n).binB = s.binB := rfl
@[simp] theorem State.stopTimer_outputFull (n : LaneId) : (s.stopTimer n).outputFull = s.outputFull := rfl
@[simp] theorem State.stopTimer_rejectFull (n : LaneId) : (s.stopTimer n).rejectFull = s.rejectFull := rfl
@[simp] theorem State.stopTimer_sensors (n : LaneId) : (s.stopTimer n).sensors = s.sensors := rfl
@[simp] theorem State.stopTimer_scans (n : LaneId) : (s.stopTimer n).scans = s.scans := rfl
@[simp] theorem State.stopTimer_key (n : LaneId) : (s.stopTimer n).key = s.key := rfl
@[simp] theorem State.stopTimer_printer (n : LaneId) : (s.stopTimer n).printer = s.printer := rfl
@[simp] theorem State.stopTimer_due (n : LaneId) : (s.stopTimer n).due = s.due := rfl

/-! ## restartTimer -/

@[simp] theorem State.restartTimer_pending (n : LaneId) : (s.restartTimer n).pending = s.pending := rfl
@[simp] theorem State.restartTimer_now (n : LaneId) : (s.restartTimer n).now = s.now := rfl
@[simp] theorem State.restartTimer_out (n : LaneId) : (s.restartTimer n).out = s.out := rfl
@[simp] theorem State.restartTimer_ports (n : LaneId) : (s.restartTimer n).ports = s.ports := rfl
@[simp] theorem State.restartTimer_mem (n : LaneId) : (s.restartTimer n).mem = s.mem := rfl
@[simp] theorem State.restartTimer_pool (n : LaneId) : (s.restartTimer n).pool = s.pool := rfl
@[simp] theorem State.restartTimer_images (n : LaneId) : (s.restartTimer n).images = s.images := rfl
@[simp] theorem State.restartTimer_artworks (n : LaneId) : (s.restartTimer n).artworks = s.artworks := rfl
@[simp] theorem State.restartTimer_jobs (n : LaneId) : (s.restartTimer n).jobs = s.jobs := rfl
@[simp] theorem State.restartTimer_rotation (n : LaneId) : (s.restartTimer n).rotation = s.rotation := rfl
@[simp] theorem State.restartTimer_discs (n : LaneId) : (s.restartTimer n).discs = s.discs := rfl
@[simp] theorem State.restartTimer_serial (n : LaneId) : (s.restartTimer n).serial = s.serial := rfl
@[simp] theorem State.restartTimer_budget (n : LaneId) : (s.restartTimer n).budget = s.budget := rfl
@[simp] theorem State.restartTimer_startQueue (n : LaneId) : (s.restartTimer n).startQueue = s.startQueue := rfl
@[simp] theorem State.restartTimer_channel (n : LaneId) : (s.restartTimer n).channel = s.channel := rfl
@[simp] theorem State.restartTimer_verifyQueue (n : LaneId) : (s.restartTimer n).verifyQueue = s.verifyQueue := rfl
@[simp] theorem State.restartTimer_crc (n : LaneId) : (s.restartTimer n).crc = s.crc := rfl
@[simp] theorem State.restartTimer_arm (n : LaneId) : (s.restartTimer n).arm = s.arm := rfl
@[simp] theorem State.restartTimer_requests (n : LaneId) : (s.restartTimer n).requests = s.requests := rfl
@[simp] theorem State.restartTimer_nextAge (n : LaneId) : (s.restartTimer n).nextAge = s.nextAge := rfl
@[simp] theorem State.restartTimer_binA (n : LaneId) : (s.restartTimer n).binA = s.binA := rfl
@[simp] theorem State.restartTimer_binB (n : LaneId) : (s.restartTimer n).binB = s.binB := rfl
@[simp] theorem State.restartTimer_outputFull (n : LaneId) : (s.restartTimer n).outputFull = s.outputFull := rfl
@[simp] theorem State.restartTimer_rejectFull (n : LaneId) : (s.restartTimer n).rejectFull = s.rejectFull := rfl
@[simp] theorem State.restartTimer_sensors (n : LaneId) : (s.restartTimer n).sensors = s.sensors := rfl
@[simp] theorem State.restartTimer_scans (n : LaneId) : (s.restartTimer n).scans = s.scans := rfl
@[simp] theorem State.restartTimer_key (n : LaneId) : (s.restartTimer n).key = s.key := rfl
@[simp] theorem State.restartTimer_printer (n : LaneId) : (s.restartTimer n).printer = s.printer := rfl
@[simp] theorem State.restartTimer_due (n : LaneId) : (s.restartTimer n).due = s.due := rfl

/-! ## dropRequest -/

@[simp] theorem State.dropRequest_pending (age : Nat) : (s.dropRequest age).pending = s.pending := rfl
@[simp] theorem State.dropRequest_now (age : Nat) : (s.dropRequest age).now = s.now := rfl
@[simp] theorem State.dropRequest_out (age : Nat) : (s.dropRequest age).out = s.out := rfl
@[simp] theorem State.dropRequest_ports (age : Nat) : (s.dropRequest age).ports = s.ports := rfl
@[simp] theorem State.dropRequest_mem (age : Nat) : (s.dropRequest age).mem = s.mem := rfl
@[simp] theorem State.dropRequest_pool (age : Nat) : (s.dropRequest age).pool = s.pool := rfl
@[simp] theorem State.dropRequest_images (age : Nat) : (s.dropRequest age).images = s.images := rfl
@[simp] theorem State.dropRequest_artworks (age : Nat) : (s.dropRequest age).artworks = s.artworks := rfl
@[simp] theorem State.dropRequest_jobs (age : Nat) : (s.dropRequest age).jobs = s.jobs := rfl
@[simp] theorem State.dropRequest_rotation (age : Nat) : (s.dropRequest age).rotation = s.rotation := rfl
@[simp] theorem State.dropRequest_discs (age : Nat) : (s.dropRequest age).discs = s.discs := rfl
@[simp] theorem State.dropRequest_serial (age : Nat) : (s.dropRequest age).serial = s.serial := rfl
@[simp] theorem State.dropRequest_lanes (age : Nat) : (s.dropRequest age).lanes = s.lanes := rfl
@[simp] theorem State.dropRequest_budget (age : Nat) : (s.dropRequest age).budget = s.budget := rfl
@[simp] theorem State.dropRequest_startQueue (age : Nat) : (s.dropRequest age).startQueue = s.startQueue := rfl
@[simp] theorem State.dropRequest_channel (age : Nat) : (s.dropRequest age).channel = s.channel := rfl
@[simp] theorem State.dropRequest_verifyQueue (age : Nat) : (s.dropRequest age).verifyQueue = s.verifyQueue := rfl
@[simp] theorem State.dropRequest_crc (age : Nat) : (s.dropRequest age).crc = s.crc := rfl
@[simp] theorem State.dropRequest_arm (age : Nat) : (s.dropRequest age).arm = s.arm := rfl
@[simp] theorem State.dropRequest_nextAge (age : Nat) : (s.dropRequest age).nextAge = s.nextAge := rfl
@[simp] theorem State.dropRequest_binA (age : Nat) : (s.dropRequest age).binA = s.binA := rfl
@[simp] theorem State.dropRequest_binB (age : Nat) : (s.dropRequest age).binB = s.binB := rfl
@[simp] theorem State.dropRequest_outputFull (age : Nat) : (s.dropRequest age).outputFull = s.outputFull := rfl
@[simp] theorem State.dropRequest_rejectFull (age : Nat) : (s.dropRequest age).rejectFull = s.rejectFull := rfl
@[simp] theorem State.dropRequest_sensors (age : Nat) : (s.dropRequest age).sensors = s.sensors := rfl
@[simp] theorem State.dropRequest_scans (age : Nat) : (s.dropRequest age).scans = s.scans := rfl
@[simp] theorem State.dropRequest_key (age : Nat) : (s.dropRequest age).key = s.key := rfl
@[simp] theorem State.dropRequest_printer (age : Nat) : (s.dropRequest age).printer = s.printer := rfl
@[simp] theorem State.dropRequest_due (age : Nat) : (s.dropRequest age).due = s.due := rfl

/-! ## modRequest -/

@[simp] theorem State.modRequest_pending (age : Nat) (f : Request → Request) : (s.modRequest age f).pending = s.pending := rfl
@[simp] theorem State.modRequest_now (age : Nat) (f : Request → Request) : (s.modRequest age f).now = s.now := rfl
@[simp] theorem State.modRequest_out (age : Nat) (f : Request → Request) : (s.modRequest age f).out = s.out := rfl
@[simp] theorem State.modRequest_ports (age : Nat) (f : Request → Request) : (s.modRequest age f).ports = s.ports := rfl
@[simp] theorem State.modRequest_mem (age : Nat) (f : Request → Request) : (s.modRequest age f).mem = s.mem := rfl
@[simp] theorem State.modRequest_pool (age : Nat) (f : Request → Request) : (s.modRequest age f).pool = s.pool := rfl
@[simp] theorem State.modRequest_images (age : Nat) (f : Request → Request) : (s.modRequest age f).images = s.images := rfl
@[simp] theorem State.modRequest_artworks (age : Nat) (f : Request → Request) : (s.modRequest age f).artworks = s.artworks := rfl
@[simp] theorem State.modRequest_jobs (age : Nat) (f : Request → Request) : (s.modRequest age f).jobs = s.jobs := rfl
@[simp] theorem State.modRequest_rotation (age : Nat) (f : Request → Request) : (s.modRequest age f).rotation = s.rotation := rfl
@[simp] theorem State.modRequest_discs (age : Nat) (f : Request → Request) : (s.modRequest age f).discs = s.discs := rfl
@[simp] theorem State.modRequest_serial (age : Nat) (f : Request → Request) : (s.modRequest age f).serial = s.serial := rfl
@[simp] theorem State.modRequest_lanes (age : Nat) (f : Request → Request) : (s.modRequest age f).lanes = s.lanes := rfl
@[simp] theorem State.modRequest_budget (age : Nat) (f : Request → Request) : (s.modRequest age f).budget = s.budget := rfl
@[simp] theorem State.modRequest_startQueue (age : Nat) (f : Request → Request) : (s.modRequest age f).startQueue = s.startQueue := rfl
@[simp] theorem State.modRequest_channel (age : Nat) (f : Request → Request) : (s.modRequest age f).channel = s.channel := rfl
@[simp] theorem State.modRequest_verifyQueue (age : Nat) (f : Request → Request) : (s.modRequest age f).verifyQueue = s.verifyQueue := rfl
@[simp] theorem State.modRequest_crc (age : Nat) (f : Request → Request) : (s.modRequest age f).crc = s.crc := rfl
@[simp] theorem State.modRequest_arm (age : Nat) (f : Request → Request) : (s.modRequest age f).arm = s.arm := rfl
@[simp] theorem State.modRequest_nextAge (age : Nat) (f : Request → Request) : (s.modRequest age f).nextAge = s.nextAge := rfl
@[simp] theorem State.modRequest_binA (age : Nat) (f : Request → Request) : (s.modRequest age f).binA = s.binA := rfl
@[simp] theorem State.modRequest_binB (age : Nat) (f : Request → Request) : (s.modRequest age f).binB = s.binB := rfl
@[simp] theorem State.modRequest_outputFull (age : Nat) (f : Request → Request) : (s.modRequest age f).outputFull = s.outputFull := rfl
@[simp] theorem State.modRequest_rejectFull (age : Nat) (f : Request → Request) : (s.modRequest age f).rejectFull = s.rejectFull := rfl
@[simp] theorem State.modRequest_sensors (age : Nat) (f : Request → Request) : (s.modRequest age f).sensors = s.sensors := rfl
@[simp] theorem State.modRequest_scans (age : Nat) (f : Request → Request) : (s.modRequest age f).scans = s.scans := rfl
@[simp] theorem State.modRequest_key (age : Nat) (f : Request → Request) : (s.modRequest age f).key = s.key := rfl
@[simp] theorem State.modRequest_printer (age : Nat) (f : Request → Request) : (s.modRequest age f).printer = s.printer := rfl
@[simp] theorem State.modRequest_due (age : Nat) (f : Request → Request) : (s.modRequest age f).due = s.due := rfl

/-! ## disown -/

@[simp] theorem State.disown_pending (q : TransferTo → Bool) : (s.disown q).pending = s.pending := rfl
@[simp] theorem State.disown_now (q : TransferTo → Bool) : (s.disown q).now = s.now := rfl
@[simp] theorem State.disown_out (q : TransferTo → Bool) : (s.disown q).out = s.out := rfl
@[simp] theorem State.disown_ports (q : TransferTo → Bool) : (s.disown q).ports = s.ports := rfl
@[simp] theorem State.disown_mem (q : TransferTo → Bool) : (s.disown q).mem = s.mem := rfl
@[simp] theorem State.disown_pool (q : TransferTo → Bool) : (s.disown q).pool = s.pool := rfl
@[simp] theorem State.disown_images (q : TransferTo → Bool) : (s.disown q).images = s.images := rfl
@[simp] theorem State.disown_artworks (q : TransferTo → Bool) : (s.disown q).artworks = s.artworks := rfl
@[simp] theorem State.disown_jobs (q : TransferTo → Bool) : (s.disown q).jobs = s.jobs := rfl
@[simp] theorem State.disown_rotation (q : TransferTo → Bool) : (s.disown q).rotation = s.rotation := rfl
@[simp] theorem State.disown_discs (q : TransferTo → Bool) : (s.disown q).discs = s.discs := rfl
@[simp] theorem State.disown_serial (q : TransferTo → Bool) : (s.disown q).serial = s.serial := rfl
@[simp] theorem State.disown_lanes (q : TransferTo → Bool) : (s.disown q).lanes = s.lanes := rfl
@[simp] theorem State.disown_budget (q : TransferTo → Bool) : (s.disown q).budget = s.budget := rfl
@[simp] theorem State.disown_startQueue (q : TransferTo → Bool) : (s.disown q).startQueue = s.startQueue := rfl
@[simp] theorem State.disown_verifyQueue (q : TransferTo → Bool) : (s.disown q).verifyQueue = s.verifyQueue := rfl
@[simp] theorem State.disown_crc (q : TransferTo → Bool) : (s.disown q).crc = s.crc := rfl
@[simp] theorem State.disown_arm (q : TransferTo → Bool) : (s.disown q).arm = s.arm := rfl
@[simp] theorem State.disown_requests (q : TransferTo → Bool) : (s.disown q).requests = s.requests := rfl
@[simp] theorem State.disown_nextAge (q : TransferTo → Bool) : (s.disown q).nextAge = s.nextAge := rfl
@[simp] theorem State.disown_binA (q : TransferTo → Bool) : (s.disown q).binA = s.binA := rfl
@[simp] theorem State.disown_binB (q : TransferTo → Bool) : (s.disown q).binB = s.binB := rfl
@[simp] theorem State.disown_outputFull (q : TransferTo → Bool) : (s.disown q).outputFull = s.outputFull := rfl
@[simp] theorem State.disown_rejectFull (q : TransferTo → Bool) : (s.disown q).rejectFull = s.rejectFull := rfl
@[simp] theorem State.disown_sensors (q : TransferTo → Bool) : (s.disown q).sensors = s.sensors := rfl
@[simp] theorem State.disown_scans (q : TransferTo → Bool) : (s.disown q).scans = s.scans := rfl
@[simp] theorem State.disown_key (q : TransferTo → Bool) : (s.disown q).key = s.key := rfl
@[simp] theorem State.disown_printer (q : TransferTo → Bool) : (s.disown q).printer = s.printer := rfl
@[simp] theorem State.disown_due (q : TransferTo → Bool) : (s.disown q).due = s.due := rfl

/-! ## returnPages -/

@[simp] theorem State.returnPages_pending (pages : List Extent) : (s.returnPages pages).pending = s.pending := rfl
@[simp] theorem State.returnPages_now (pages : List Extent) : (s.returnPages pages).now = s.now := rfl
@[simp] theorem State.returnPages_out (pages : List Extent) : (s.returnPages pages).out = s.out := rfl
@[simp] theorem State.returnPages_ports (pages : List Extent) : (s.returnPages pages).ports = s.ports := rfl
@[simp] theorem State.returnPages_mem (pages : List Extent) : (s.returnPages pages).mem = s.mem := rfl
@[simp] theorem State.returnPages_images (pages : List Extent) : (s.returnPages pages).images = s.images := rfl
@[simp] theorem State.returnPages_artworks (pages : List Extent) : (s.returnPages pages).artworks = s.artworks := rfl
@[simp] theorem State.returnPages_jobs (pages : List Extent) : (s.returnPages pages).jobs = s.jobs := rfl
@[simp] theorem State.returnPages_rotation (pages : List Extent) : (s.returnPages pages).rotation = s.rotation := rfl
@[simp] theorem State.returnPages_discs (pages : List Extent) : (s.returnPages pages).discs = s.discs := rfl
@[simp] theorem State.returnPages_serial (pages : List Extent) : (s.returnPages pages).serial = s.serial := rfl
@[simp] theorem State.returnPages_lanes (pages : List Extent) : (s.returnPages pages).lanes = s.lanes := rfl
@[simp] theorem State.returnPages_budget (pages : List Extent) : (s.returnPages pages).budget = s.budget := rfl
@[simp] theorem State.returnPages_startQueue (pages : List Extent) : (s.returnPages pages).startQueue = s.startQueue := rfl
@[simp] theorem State.returnPages_channel (pages : List Extent) : (s.returnPages pages).channel = s.channel := rfl
@[simp] theorem State.returnPages_verifyQueue (pages : List Extent) : (s.returnPages pages).verifyQueue = s.verifyQueue := rfl
@[simp] theorem State.returnPages_crc (pages : List Extent) : (s.returnPages pages).crc = s.crc := rfl
@[simp] theorem State.returnPages_arm (pages : List Extent) : (s.returnPages pages).arm = s.arm := rfl
@[simp] theorem State.returnPages_requests (pages : List Extent) : (s.returnPages pages).requests = s.requests := rfl
@[simp] theorem State.returnPages_nextAge (pages : List Extent) : (s.returnPages pages).nextAge = s.nextAge := rfl
@[simp] theorem State.returnPages_binA (pages : List Extent) : (s.returnPages pages).binA = s.binA := rfl
@[simp] theorem State.returnPages_binB (pages : List Extent) : (s.returnPages pages).binB = s.binB := rfl
@[simp] theorem State.returnPages_outputFull (pages : List Extent) : (s.returnPages pages).outputFull = s.outputFull := rfl
@[simp] theorem State.returnPages_rejectFull (pages : List Extent) : (s.returnPages pages).rejectFull = s.rejectFull := rfl
@[simp] theorem State.returnPages_sensors (pages : List Extent) : (s.returnPages pages).sensors = s.sensors := rfl
@[simp] theorem State.returnPages_scans (pages : List Extent) : (s.returnPages pages).scans = s.scans := rfl
@[simp] theorem State.returnPages_key (pages : List Extent) : (s.returnPages pages).key = s.key := rfl
@[simp] theorem State.returnPages_printer (pages : List Extent) : (s.returnPages pages).printer = s.printer := rfl
@[simp] theorem State.returnPages_due (pages : List Extent) : (s.returnPages pages).due = s.due := rfl

/-! ## closeStream -/

@[simp] theorem State.closeStream_pending (p : Port) : (s.closeStream p).pending = s.pending := rfl
@[simp] theorem State.closeStream_now (p : Port) : (s.closeStream p).now = s.now := rfl
@[simp] theorem State.closeStream_out (p : Port) : (s.closeStream p).out = s.out := rfl
@[simp] theorem State.closeStream_mem (p : Port) : (s.closeStream p).mem = s.mem := rfl
@[simp] theorem State.closeStream_pool (p : Port) : (s.closeStream p).pool = s.pool := rfl
@[simp] theorem State.closeStream_images (p : Port) : (s.closeStream p).images = s.images := rfl
@[simp] theorem State.closeStream_artworks (p : Port) : (s.closeStream p).artworks = s.artworks := rfl
@[simp] theorem State.closeStream_jobs (p : Port) : (s.closeStream p).jobs = s.jobs := rfl
@[simp] theorem State.closeStream_rotation (p : Port) : (s.closeStream p).rotation = s.rotation := rfl
@[simp] theorem State.closeStream_discs (p : Port) : (s.closeStream p).discs = s.discs := rfl
@[simp] theorem State.closeStream_serial (p : Port) : (s.closeStream p).serial = s.serial := rfl
@[simp] theorem State.closeStream_lanes (p : Port) : (s.closeStream p).lanes = s.lanes := rfl
@[simp] theorem State.closeStream_budget (p : Port) : (s.closeStream p).budget = s.budget := rfl
@[simp] theorem State.closeStream_startQueue (p : Port) : (s.closeStream p).startQueue = s.startQueue := rfl
@[simp] theorem State.closeStream_channel (p : Port) : (s.closeStream p).channel = s.channel := rfl
@[simp] theorem State.closeStream_verifyQueue (p : Port) : (s.closeStream p).verifyQueue = s.verifyQueue := rfl
@[simp] theorem State.closeStream_crc (p : Port) : (s.closeStream p).crc = s.crc := rfl
@[simp] theorem State.closeStream_arm (p : Port) : (s.closeStream p).arm = s.arm := rfl
@[simp] theorem State.closeStream_requests (p : Port) : (s.closeStream p).requests = s.requests := rfl
@[simp] theorem State.closeStream_nextAge (p : Port) : (s.closeStream p).nextAge = s.nextAge := rfl
@[simp] theorem State.closeStream_binA (p : Port) : (s.closeStream p).binA = s.binA := rfl
@[simp] theorem State.closeStream_binB (p : Port) : (s.closeStream p).binB = s.binB := rfl
@[simp] theorem State.closeStream_outputFull (p : Port) : (s.closeStream p).outputFull = s.outputFull := rfl
@[simp] theorem State.closeStream_rejectFull (p : Port) : (s.closeStream p).rejectFull = s.rejectFull := rfl
@[simp] theorem State.closeStream_sensors (p : Port) : (s.closeStream p).sensors = s.sensors := rfl
@[simp] theorem State.closeStream_scans (p : Port) : (s.closeStream p).scans = s.scans := rfl
@[simp] theorem State.closeStream_key (p : Port) : (s.closeStream p).key = s.key := rfl
@[simp] theorem State.closeStream_printer (p : Port) : (s.closeStream p).printer = s.printer := rfl
@[simp] theorem State.closeStream_due (p : Port) : (s.closeStream p).due = s.due := rfl

/-! ## passNext -/

@[simp] theorem State.passNext_pending (p : Port) : (s.passNext p).pending = s.pending := rfl
@[simp] theorem State.passNext_now (p : Port) : (s.passNext p).now = s.now := rfl
@[simp] theorem State.passNext_out (p : Port) : (s.passNext p).out = s.out := rfl
@[simp] theorem State.passNext_mem (p : Port) : (s.passNext p).mem = s.mem := rfl
@[simp] theorem State.passNext_pool (p : Port) : (s.passNext p).pool = s.pool := rfl
@[simp] theorem State.passNext_images (p : Port) : (s.passNext p).images = s.images := rfl
@[simp] theorem State.passNext_artworks (p : Port) : (s.passNext p).artworks = s.artworks := rfl
@[simp] theorem State.passNext_jobs (p : Port) : (s.passNext p).jobs = s.jobs := rfl
@[simp] theorem State.passNext_rotation (p : Port) : (s.passNext p).rotation = s.rotation := rfl
@[simp] theorem State.passNext_discs (p : Port) : (s.passNext p).discs = s.discs := rfl
@[simp] theorem State.passNext_serial (p : Port) : (s.passNext p).serial = s.serial := rfl
@[simp] theorem State.passNext_lanes (p : Port) : (s.passNext p).lanes = s.lanes := rfl
@[simp] theorem State.passNext_budget (p : Port) : (s.passNext p).budget = s.budget := rfl
@[simp] theorem State.passNext_startQueue (p : Port) : (s.passNext p).startQueue = s.startQueue := rfl
@[simp] theorem State.passNext_channel (p : Port) : (s.passNext p).channel = s.channel := rfl
@[simp] theorem State.passNext_verifyQueue (p : Port) : (s.passNext p).verifyQueue = s.verifyQueue := rfl
@[simp] theorem State.passNext_crc (p : Port) : (s.passNext p).crc = s.crc := rfl
@[simp] theorem State.passNext_arm (p : Port) : (s.passNext p).arm = s.arm := rfl
@[simp] theorem State.passNext_requests (p : Port) : (s.passNext p).requests = s.requests := rfl
@[simp] theorem State.passNext_nextAge (p : Port) : (s.passNext p).nextAge = s.nextAge := rfl
@[simp] theorem State.passNext_binA (p : Port) : (s.passNext p).binA = s.binA := rfl
@[simp] theorem State.passNext_binB (p : Port) : (s.passNext p).binB = s.binB := rfl
@[simp] theorem State.passNext_outputFull (p : Port) : (s.passNext p).outputFull = s.outputFull := rfl
@[simp] theorem State.passNext_rejectFull (p : Port) : (s.passNext p).rejectFull = s.rejectFull := rfl
@[simp] theorem State.passNext_sensors (p : Port) : (s.passNext p).sensors = s.sensors := rfl
@[simp] theorem State.passNext_scans (p : Port) : (s.passNext p).scans = s.scans := rfl
@[simp] theorem State.passNext_key (p : Port) : (s.passNext p).key = s.key := rfl
@[simp] theorem State.passNext_printer (p : Port) : (s.passNext p).printer = s.printer := rfl
@[simp] theorem State.passNext_due (p : Port) : (s.passNext p).due = s.due := rfl

/-! ## releaseImage -/

@[simp] theorem State.releaseImage_pending (i : ImageId) : (s.releaseImage i).pending = s.pending := rfl
@[simp] theorem State.releaseImage_now (i : ImageId) : (s.releaseImage i).now = s.now := rfl
@[simp] theorem State.releaseImage_out (i : ImageId) : (s.releaseImage i).out = s.out := rfl
@[simp] theorem State.releaseImage_ports (i : ImageId) : (s.releaseImage i).ports = s.ports := rfl
@[simp] theorem State.releaseImage_mem (i : ImageId) : (s.releaseImage i).mem = s.mem := rfl
@[simp] theorem State.releaseImage_pool (i : ImageId) : (s.releaseImage i).pool = s.pool := rfl
@[simp] theorem State.releaseImage_artworks (i : ImageId) : (s.releaseImage i).artworks = s.artworks := rfl
@[simp] theorem State.releaseImage_jobs (i : ImageId) : (s.releaseImage i).jobs = s.jobs := rfl
@[simp] theorem State.releaseImage_rotation (i : ImageId) : (s.releaseImage i).rotation = s.rotation := rfl
@[simp] theorem State.releaseImage_discs (i : ImageId) : (s.releaseImage i).discs = s.discs := rfl
@[simp] theorem State.releaseImage_serial (i : ImageId) : (s.releaseImage i).serial = s.serial := rfl
@[simp] theorem State.releaseImage_lanes (i : ImageId) : (s.releaseImage i).lanes = s.lanes := rfl
@[simp] theorem State.releaseImage_budget (i : ImageId) : (s.releaseImage i).budget = s.budget := rfl
@[simp] theorem State.releaseImage_startQueue (i : ImageId) : (s.releaseImage i).startQueue = s.startQueue := rfl
@[simp] theorem State.releaseImage_channel (i : ImageId) : (s.releaseImage i).channel = s.channel := rfl
@[simp] theorem State.releaseImage_verifyQueue (i : ImageId) : (s.releaseImage i).verifyQueue = s.verifyQueue := rfl
@[simp] theorem State.releaseImage_crc (i : ImageId) : (s.releaseImage i).crc = s.crc := rfl
@[simp] theorem State.releaseImage_arm (i : ImageId) : (s.releaseImage i).arm = s.arm := rfl
@[simp] theorem State.releaseImage_requests (i : ImageId) : (s.releaseImage i).requests = s.requests := rfl
@[simp] theorem State.releaseImage_nextAge (i : ImageId) : (s.releaseImage i).nextAge = s.nextAge := rfl
@[simp] theorem State.releaseImage_binA (i : ImageId) : (s.releaseImage i).binA = s.binA := rfl
@[simp] theorem State.releaseImage_binB (i : ImageId) : (s.releaseImage i).binB = s.binB := rfl
@[simp] theorem State.releaseImage_outputFull (i : ImageId) : (s.releaseImage i).outputFull = s.outputFull := rfl
@[simp] theorem State.releaseImage_rejectFull (i : ImageId) : (s.releaseImage i).rejectFull = s.rejectFull := rfl
@[simp] theorem State.releaseImage_sensors (i : ImageId) : (s.releaseImage i).sensors = s.sensors := rfl
@[simp] theorem State.releaseImage_scans (i : ImageId) : (s.releaseImage i).scans = s.scans := rfl
@[simp] theorem State.releaseImage_key (i : ImageId) : (s.releaseImage i).key = s.key := rfl
@[simp] theorem State.releaseImage_printer (i : ImageId) : (s.releaseImage i).printer = s.printer := rfl
@[simp] theorem State.releaseImage_due (i : ImageId) : (s.releaseImage i).due = s.due := rfl

/-! ## releaseArtwork -/

@[simp] theorem State.releaseArtwork_pending (i : ArtworkId) : (s.releaseArtwork i).pending = s.pending := rfl
@[simp] theorem State.releaseArtwork_now (i : ArtworkId) : (s.releaseArtwork i).now = s.now := rfl
@[simp] theorem State.releaseArtwork_out (i : ArtworkId) : (s.releaseArtwork i).out = s.out := rfl
@[simp] theorem State.releaseArtwork_ports (i : ArtworkId) : (s.releaseArtwork i).ports = s.ports := rfl
@[simp] theorem State.releaseArtwork_mem (i : ArtworkId) : (s.releaseArtwork i).mem = s.mem := rfl
@[simp] theorem State.releaseArtwork_pool (i : ArtworkId) : (s.releaseArtwork i).pool = s.pool := rfl
@[simp] theorem State.releaseArtwork_images (i : ArtworkId) : (s.releaseArtwork i).images = s.images := rfl
@[simp] theorem State.releaseArtwork_jobs (i : ArtworkId) : (s.releaseArtwork i).jobs = s.jobs := rfl
@[simp] theorem State.releaseArtwork_rotation (i : ArtworkId) : (s.releaseArtwork i).rotation = s.rotation := rfl
@[simp] theorem State.releaseArtwork_discs (i : ArtworkId) : (s.releaseArtwork i).discs = s.discs := rfl
@[simp] theorem State.releaseArtwork_serial (i : ArtworkId) : (s.releaseArtwork i).serial = s.serial := rfl
@[simp] theorem State.releaseArtwork_lanes (i : ArtworkId) : (s.releaseArtwork i).lanes = s.lanes := rfl
@[simp] theorem State.releaseArtwork_budget (i : ArtworkId) : (s.releaseArtwork i).budget = s.budget := rfl
@[simp] theorem State.releaseArtwork_startQueue (i : ArtworkId) : (s.releaseArtwork i).startQueue = s.startQueue := rfl
@[simp] theorem State.releaseArtwork_channel (i : ArtworkId) : (s.releaseArtwork i).channel = s.channel := rfl
@[simp] theorem State.releaseArtwork_verifyQueue (i : ArtworkId) : (s.releaseArtwork i).verifyQueue = s.verifyQueue := rfl
@[simp] theorem State.releaseArtwork_crc (i : ArtworkId) : (s.releaseArtwork i).crc = s.crc := rfl
@[simp] theorem State.releaseArtwork_arm (i : ArtworkId) : (s.releaseArtwork i).arm = s.arm := rfl
@[simp] theorem State.releaseArtwork_requests (i : ArtworkId) : (s.releaseArtwork i).requests = s.requests := rfl
@[simp] theorem State.releaseArtwork_nextAge (i : ArtworkId) : (s.releaseArtwork i).nextAge = s.nextAge := rfl
@[simp] theorem State.releaseArtwork_binA (i : ArtworkId) : (s.releaseArtwork i).binA = s.binA := rfl
@[simp] theorem State.releaseArtwork_binB (i : ArtworkId) : (s.releaseArtwork i).binB = s.binB := rfl
@[simp] theorem State.releaseArtwork_outputFull (i : ArtworkId) : (s.releaseArtwork i).outputFull = s.outputFull := rfl
@[simp] theorem State.releaseArtwork_rejectFull (i : ArtworkId) : (s.releaseArtwork i).rejectFull = s.rejectFull := rfl
@[simp] theorem State.releaseArtwork_sensors (i : ArtworkId) : (s.releaseArtwork i).sensors = s.sensors := rfl
@[simp] theorem State.releaseArtwork_scans (i : ArtworkId) : (s.releaseArtwork i).scans = s.scans := rfl
@[simp] theorem State.releaseArtwork_key (i : ArtworkId) : (s.releaseArtwork i).key = s.key := rfl
@[simp] theorem State.releaseArtwork_printer (i : ArtworkId) : (s.releaseArtwork i).printer = s.printer := rfl
@[simp] theorem State.releaseArtwork_due (i : ArtworkId) : (s.releaseArtwork i).due = s.due := rfl

/-! ## chargeLane -/

@[simp] theorem State.chargeLane_pending (n : LaneId) : (s.chargeLane n).pending = s.pending := rfl
@[simp] theorem State.chargeLane_now (n : LaneId) : (s.chargeLane n).now = s.now := rfl
@[simp] theorem State.chargeLane_out (n : LaneId) : (s.chargeLane n).out = s.out := rfl
@[simp] theorem State.chargeLane_ports (n : LaneId) : (s.chargeLane n).ports = s.ports := rfl
@[simp] theorem State.chargeLane_mem (n : LaneId) : (s.chargeLane n).mem = s.mem := rfl
@[simp] theorem State.chargeLane_pool (n : LaneId) : (s.chargeLane n).pool = s.pool := rfl
@[simp] theorem State.chargeLane_images (n : LaneId) : (s.chargeLane n).images = s.images := rfl
@[simp] theorem State.chargeLane_artworks (n : LaneId) : (s.chargeLane n).artworks = s.artworks := rfl
@[simp] theorem State.chargeLane_jobs (n : LaneId) : (s.chargeLane n).jobs = s.jobs := rfl
@[simp] theorem State.chargeLane_rotation (n : LaneId) : (s.chargeLane n).rotation = s.rotation := rfl
@[simp] theorem State.chargeLane_discs (n : LaneId) : (s.chargeLane n).discs = s.discs := rfl
@[simp] theorem State.chargeLane_serial (n : LaneId) : (s.chargeLane n).serial = s.serial := rfl
@[simp] theorem State.chargeLane_budget (n : LaneId) : (s.chargeLane n).budget = s.budget := rfl
@[simp] theorem State.chargeLane_startQueue (n : LaneId) : (s.chargeLane n).startQueue = s.startQueue := rfl
@[simp] theorem State.chargeLane_channel (n : LaneId) : (s.chargeLane n).channel = s.channel := rfl
@[simp] theorem State.chargeLane_verifyQueue (n : LaneId) : (s.chargeLane n).verifyQueue = s.verifyQueue := rfl
@[simp] theorem State.chargeLane_crc (n : LaneId) : (s.chargeLane n).crc = s.crc := rfl
@[simp] theorem State.chargeLane_arm (n : LaneId) : (s.chargeLane n).arm = s.arm := rfl
@[simp] theorem State.chargeLane_requests (n : LaneId) : (s.chargeLane n).requests = s.requests := rfl
@[simp] theorem State.chargeLane_nextAge (n : LaneId) : (s.chargeLane n).nextAge = s.nextAge := rfl
@[simp] theorem State.chargeLane_binA (n : LaneId) : (s.chargeLane n).binA = s.binA := rfl
@[simp] theorem State.chargeLane_binB (n : LaneId) : (s.chargeLane n).binB = s.binB := rfl
@[simp] theorem State.chargeLane_outputFull (n : LaneId) : (s.chargeLane n).outputFull = s.outputFull := rfl
@[simp] theorem State.chargeLane_rejectFull (n : LaneId) : (s.chargeLane n).rejectFull = s.rejectFull := rfl
@[simp] theorem State.chargeLane_sensors (n : LaneId) : (s.chargeLane n).sensors = s.sensors := rfl
@[simp] theorem State.chargeLane_scans (n : LaneId) : (s.chargeLane n).scans = s.scans := rfl
@[simp] theorem State.chargeLane_key (n : LaneId) : (s.chargeLane n).key = s.key := rfl
@[simp] theorem State.chargeLane_printer (n : LaneId) : (s.chargeLane n).printer = s.printer := rfl
@[simp] theorem State.chargeLane_due (n : LaneId) : (s.chargeLane n).due = s.due := rfl

/-! ## modSensor -/

@[simp] theorem State.modSensor_pending (v : Sensor) (f : SensorRecord → SensorRecord) : (s.modSensor v f).pending = s.pending := rfl
@[simp] theorem State.modSensor_now (v : Sensor) (f : SensorRecord → SensorRecord) : (s.modSensor v f).now = s.now := rfl
@[simp] theorem State.modSensor_out (v : Sensor) (f : SensorRecord → SensorRecord) : (s.modSensor v f).out = s.out := rfl
@[simp] theorem State.modSensor_ports (v : Sensor) (f : SensorRecord → SensorRecord) : (s.modSensor v f).ports = s.ports := rfl
@[simp] theorem State.modSensor_mem (v : Sensor) (f : SensorRecord → SensorRecord) : (s.modSensor v f).mem = s.mem := rfl
@[simp] theorem State.modSensor_pool (v : Sensor) (f : SensorRecord → SensorRecord) : (s.modSensor v f).pool = s.pool := rfl
@[simp] theorem State.modSensor_images (v : Sensor) (f : SensorRecord → SensorRecord) : (s.modSensor v f).images = s.images := rfl
@[simp] theorem State.modSensor_artworks (v : Sensor) (f : SensorRecord → SensorRecord) : (s.modSensor v f).artworks = s.artworks := rfl
@[simp] theorem State.modSensor_jobs (v : Sensor) (f : SensorRecord → SensorRecord) : (s.modSensor v f).jobs = s.jobs := rfl
@[simp] theorem State.modSensor_rotation (v : Sensor) (f : SensorRecord → SensorRecord) : (s.modSensor v f).rotation = s.rotation := rfl
@[simp] theorem State.modSensor_discs (v : Sensor) (f : SensorRecord → SensorRecord) : (s.modSensor v f).discs = s.discs := rfl
@[simp] theorem State.modSensor_serial (v : Sensor) (f : SensorRecord → SensorRecord) : (s.modSensor v f).serial = s.serial := rfl
@[simp] theorem State.modSensor_lanes (v : Sensor) (f : SensorRecord → SensorRecord) : (s.modSensor v f).lanes = s.lanes := rfl
@[simp] theorem State.modSensor_budget (v : Sensor) (f : SensorRecord → SensorRecord) : (s.modSensor v f).budget = s.budget := rfl
@[simp] theorem State.modSensor_startQueue (v : Sensor) (f : SensorRecord → SensorRecord) : (s.modSensor v f).startQueue = s.startQueue := rfl
@[simp] theorem State.modSensor_channel (v : Sensor) (f : SensorRecord → SensorRecord) : (s.modSensor v f).channel = s.channel := rfl
@[simp] theorem State.modSensor_verifyQueue (v : Sensor) (f : SensorRecord → SensorRecord) : (s.modSensor v f).verifyQueue = s.verifyQueue := rfl
@[simp] theorem State.modSensor_crc (v : Sensor) (f : SensorRecord → SensorRecord) : (s.modSensor v f).crc = s.crc := rfl
@[simp] theorem State.modSensor_arm (v : Sensor) (f : SensorRecord → SensorRecord) : (s.modSensor v f).arm = s.arm := rfl
@[simp] theorem State.modSensor_requests (v : Sensor) (f : SensorRecord → SensorRecord) : (s.modSensor v f).requests = s.requests := rfl
@[simp] theorem State.modSensor_nextAge (v : Sensor) (f : SensorRecord → SensorRecord) : (s.modSensor v f).nextAge = s.nextAge := rfl
@[simp] theorem State.modSensor_binA (v : Sensor) (f : SensorRecord → SensorRecord) : (s.modSensor v f).binA = s.binA := rfl
@[simp] theorem State.modSensor_binB (v : Sensor) (f : SensorRecord → SensorRecord) : (s.modSensor v f).binB = s.binB := rfl
@[simp] theorem State.modSensor_outputFull (v : Sensor) (f : SensorRecord → SensorRecord) : (s.modSensor v f).outputFull = s.outputFull := rfl
@[simp] theorem State.modSensor_rejectFull (v : Sensor) (f : SensorRecord → SensorRecord) : (s.modSensor v f).rejectFull = s.rejectFull := rfl
@[simp] theorem State.modSensor_scans (v : Sensor) (f : SensorRecord → SensorRecord) : (s.modSensor v f).scans = s.scans := rfl
@[simp] theorem State.modSensor_key (v : Sensor) (f : SensorRecord → SensorRecord) : (s.modSensor v f).key = s.key := rfl
@[simp] theorem State.modSensor_printer (v : Sensor) (f : SensorRecord → SensorRecord) : (s.modSensor v f).printer = s.printer := rfl
@[simp] theorem State.modSensor_due (v : Sensor) (f : SensorRecord → SensorRecord) : (s.modSensor v f).due = s.due := rfl

/-! ## setMem -/

@[simp] theorem State.setMem_pending (v : List Host.Cell) : (s.setMem v).pending = s.pending := rfl
@[simp] theorem State.setMem_now (v : List Host.Cell) : (s.setMem v).now = s.now := rfl
@[simp] theorem State.setMem_out (v : List Host.Cell) : (s.setMem v).out = s.out := rfl
@[simp] theorem State.setMem_ports (v : List Host.Cell) : (s.setMem v).ports = s.ports := rfl
@[simp] theorem State.setMem_pool (v : List Host.Cell) : (s.setMem v).pool = s.pool := rfl
@[simp] theorem State.setMem_images (v : List Host.Cell) : (s.setMem v).images = s.images := rfl
@[simp] theorem State.setMem_artworks (v : List Host.Cell) : (s.setMem v).artworks = s.artworks := rfl
@[simp] theorem State.setMem_jobs (v : List Host.Cell) : (s.setMem v).jobs = s.jobs := rfl
@[simp] theorem State.setMem_rotation (v : List Host.Cell) : (s.setMem v).rotation = s.rotation := rfl
@[simp] theorem State.setMem_discs (v : List Host.Cell) : (s.setMem v).discs = s.discs := rfl
@[simp] theorem State.setMem_serial (v : List Host.Cell) : (s.setMem v).serial = s.serial := rfl
@[simp] theorem State.setMem_lanes (v : List Host.Cell) : (s.setMem v).lanes = s.lanes := rfl
@[simp] theorem State.setMem_budget (v : List Host.Cell) : (s.setMem v).budget = s.budget := rfl
@[simp] theorem State.setMem_startQueue (v : List Host.Cell) : (s.setMem v).startQueue = s.startQueue := rfl
@[simp] theorem State.setMem_channel (v : List Host.Cell) : (s.setMem v).channel = s.channel := rfl
@[simp] theorem State.setMem_verifyQueue (v : List Host.Cell) : (s.setMem v).verifyQueue = s.verifyQueue := rfl
@[simp] theorem State.setMem_crc (v : List Host.Cell) : (s.setMem v).crc = s.crc := rfl
@[simp] theorem State.setMem_arm (v : List Host.Cell) : (s.setMem v).arm = s.arm := rfl
@[simp] theorem State.setMem_requests (v : List Host.Cell) : (s.setMem v).requests = s.requests := rfl
@[simp] theorem State.setMem_nextAge (v : List Host.Cell) : (s.setMem v).nextAge = s.nextAge := rfl
@[simp] theorem State.setMem_binA (v : List Host.Cell) : (s.setMem v).binA = s.binA := rfl
@[simp] theorem State.setMem_binB (v : List Host.Cell) : (s.setMem v).binB = s.binB := rfl
@[simp] theorem State.setMem_outputFull (v : List Host.Cell) : (s.setMem v).outputFull = s.outputFull := rfl
@[simp] theorem State.setMem_rejectFull (v : List Host.Cell) : (s.setMem v).rejectFull = s.rejectFull := rfl
@[simp] theorem State.setMem_sensors (v : List Host.Cell) : (s.setMem v).sensors = s.sensors := rfl
@[simp] theorem State.setMem_scans (v : List Host.Cell) : (s.setMem v).scans = s.scans := rfl
@[simp] theorem State.setMem_key (v : List Host.Cell) : (s.setMem v).key = s.key := rfl
@[simp] theorem State.setMem_printer (v : List Host.Cell) : (s.setMem v).printer = s.printer := rfl
@[simp] theorem State.setMem_due (v : List Host.Cell) : (s.setMem v).due = s.due := rfl

/-! ## setPool -/

@[simp] theorem State.setPool_pending (v : List Extent) : (s.setPool v).pending = s.pending := rfl
@[simp] theorem State.setPool_now (v : List Extent) : (s.setPool v).now = s.now := rfl
@[simp] theorem State.setPool_out (v : List Extent) : (s.setPool v).out = s.out := rfl
@[simp] theorem State.setPool_ports (v : List Extent) : (s.setPool v).ports = s.ports := rfl
@[simp] theorem State.setPool_mem (v : List Extent) : (s.setPool v).mem = s.mem := rfl
@[simp] theorem State.setPool_images (v : List Extent) : (s.setPool v).images = s.images := rfl
@[simp] theorem State.setPool_artworks (v : List Extent) : (s.setPool v).artworks = s.artworks := rfl
@[simp] theorem State.setPool_jobs (v : List Extent) : (s.setPool v).jobs = s.jobs := rfl
@[simp] theorem State.setPool_rotation (v : List Extent) : (s.setPool v).rotation = s.rotation := rfl
@[simp] theorem State.setPool_discs (v : List Extent) : (s.setPool v).discs = s.discs := rfl
@[simp] theorem State.setPool_serial (v : List Extent) : (s.setPool v).serial = s.serial := rfl
@[simp] theorem State.setPool_lanes (v : List Extent) : (s.setPool v).lanes = s.lanes := rfl
@[simp] theorem State.setPool_budget (v : List Extent) : (s.setPool v).budget = s.budget := rfl
@[simp] theorem State.setPool_startQueue (v : List Extent) : (s.setPool v).startQueue = s.startQueue := rfl
@[simp] theorem State.setPool_channel (v : List Extent) : (s.setPool v).channel = s.channel := rfl
@[simp] theorem State.setPool_verifyQueue (v : List Extent) : (s.setPool v).verifyQueue = s.verifyQueue := rfl
@[simp] theorem State.setPool_crc (v : List Extent) : (s.setPool v).crc = s.crc := rfl
@[simp] theorem State.setPool_arm (v : List Extent) : (s.setPool v).arm = s.arm := rfl
@[simp] theorem State.setPool_requests (v : List Extent) : (s.setPool v).requests = s.requests := rfl
@[simp] theorem State.setPool_nextAge (v : List Extent) : (s.setPool v).nextAge = s.nextAge := rfl
@[simp] theorem State.setPool_binA (v : List Extent) : (s.setPool v).binA = s.binA := rfl
@[simp] theorem State.setPool_binB (v : List Extent) : (s.setPool v).binB = s.binB := rfl
@[simp] theorem State.setPool_outputFull (v : List Extent) : (s.setPool v).outputFull = s.outputFull := rfl
@[simp] theorem State.setPool_rejectFull (v : List Extent) : (s.setPool v).rejectFull = s.rejectFull := rfl
@[simp] theorem State.setPool_sensors (v : List Extent) : (s.setPool v).sensors = s.sensors := rfl
@[simp] theorem State.setPool_scans (v : List Extent) : (s.setPool v).scans = s.scans := rfl
@[simp] theorem State.setPool_key (v : List Extent) : (s.setPool v).key = s.key := rfl
@[simp] theorem State.setPool_printer (v : List Extent) : (s.setPool v).printer = s.printer := rfl
@[simp] theorem State.setPool_due (v : List Extent) : (s.setPool v).due = s.due := rfl

/-! ## setRotation -/

@[simp] theorem State.setRotation_pending (v : Port) : (s.setRotation v).pending = s.pending := rfl
@[simp] theorem State.setRotation_now (v : Port) : (s.setRotation v).now = s.now := rfl
@[simp] theorem State.setRotation_out (v : Port) : (s.setRotation v).out = s.out := rfl
@[simp] theorem State.setRotation_ports (v : Port) : (s.setRotation v).ports = s.ports := rfl
@[simp] theorem State.setRotation_mem (v : Port) : (s.setRotation v).mem = s.mem := rfl
@[simp] theorem State.setRotation_pool (v : Port) : (s.setRotation v).pool = s.pool := rfl
@[simp] theorem State.setRotation_images (v : Port) : (s.setRotation v).images = s.images := rfl
@[simp] theorem State.setRotation_artworks (v : Port) : (s.setRotation v).artworks = s.artworks := rfl
@[simp] theorem State.setRotation_jobs (v : Port) : (s.setRotation v).jobs = s.jobs := rfl
@[simp] theorem State.setRotation_discs (v : Port) : (s.setRotation v).discs = s.discs := rfl
@[simp] theorem State.setRotation_serial (v : Port) : (s.setRotation v).serial = s.serial := rfl
@[simp] theorem State.setRotation_lanes (v : Port) : (s.setRotation v).lanes = s.lanes := rfl
@[simp] theorem State.setRotation_budget (v : Port) : (s.setRotation v).budget = s.budget := rfl
@[simp] theorem State.setRotation_startQueue (v : Port) : (s.setRotation v).startQueue = s.startQueue := rfl
@[simp] theorem State.setRotation_channel (v : Port) : (s.setRotation v).channel = s.channel := rfl
@[simp] theorem State.setRotation_verifyQueue (v : Port) : (s.setRotation v).verifyQueue = s.verifyQueue := rfl
@[simp] theorem State.setRotation_crc (v : Port) : (s.setRotation v).crc = s.crc := rfl
@[simp] theorem State.setRotation_arm (v : Port) : (s.setRotation v).arm = s.arm := rfl
@[simp] theorem State.setRotation_requests (v : Port) : (s.setRotation v).requests = s.requests := rfl
@[simp] theorem State.setRotation_nextAge (v : Port) : (s.setRotation v).nextAge = s.nextAge := rfl
@[simp] theorem State.setRotation_binA (v : Port) : (s.setRotation v).binA = s.binA := rfl
@[simp] theorem State.setRotation_binB (v : Port) : (s.setRotation v).binB = s.binB := rfl
@[simp] theorem State.setRotation_outputFull (v : Port) : (s.setRotation v).outputFull = s.outputFull := rfl
@[simp] theorem State.setRotation_rejectFull (v : Port) : (s.setRotation v).rejectFull = s.rejectFull := rfl
@[simp] theorem State.setRotation_sensors (v : Port) : (s.setRotation v).sensors = s.sensors := rfl
@[simp] theorem State.setRotation_scans (v : Port) : (s.setRotation v).scans = s.scans := rfl
@[simp] theorem State.setRotation_key (v : Port) : (s.setRotation v).key = s.key := rfl
@[simp] theorem State.setRotation_printer (v : Port) : (s.setRotation v).printer = s.printer := rfl
@[simp] theorem State.setRotation_due (v : Port) : (s.setRotation v).due = s.due := rfl

/-! ## setSerial -/

@[simp] theorem State.setSerial_pending (v : Word32) : (s.setSerial v).pending = s.pending := rfl
@[simp] theorem State.setSerial_now (v : Word32) : (s.setSerial v).now = s.now := rfl
@[simp] theorem State.setSerial_out (v : Word32) : (s.setSerial v).out = s.out := rfl
@[simp] theorem State.setSerial_ports (v : Word32) : (s.setSerial v).ports = s.ports := rfl
@[simp] theorem State.setSerial_mem (v : Word32) : (s.setSerial v).mem = s.mem := rfl
@[simp] theorem State.setSerial_pool (v : Word32) : (s.setSerial v).pool = s.pool := rfl
@[simp] theorem State.setSerial_images (v : Word32) : (s.setSerial v).images = s.images := rfl
@[simp] theorem State.setSerial_artworks (v : Word32) : (s.setSerial v).artworks = s.artworks := rfl
@[simp] theorem State.setSerial_jobs (v : Word32) : (s.setSerial v).jobs = s.jobs := rfl
@[simp] theorem State.setSerial_rotation (v : Word32) : (s.setSerial v).rotation = s.rotation := rfl
@[simp] theorem State.setSerial_discs (v : Word32) : (s.setSerial v).discs = s.discs := rfl
@[simp] theorem State.setSerial_lanes (v : Word32) : (s.setSerial v).lanes = s.lanes := rfl
@[simp] theorem State.setSerial_budget (v : Word32) : (s.setSerial v).budget = s.budget := rfl
@[simp] theorem State.setSerial_startQueue (v : Word32) : (s.setSerial v).startQueue = s.startQueue := rfl
@[simp] theorem State.setSerial_channel (v : Word32) : (s.setSerial v).channel = s.channel := rfl
@[simp] theorem State.setSerial_verifyQueue (v : Word32) : (s.setSerial v).verifyQueue = s.verifyQueue := rfl
@[simp] theorem State.setSerial_crc (v : Word32) : (s.setSerial v).crc = s.crc := rfl
@[simp] theorem State.setSerial_arm (v : Word32) : (s.setSerial v).arm = s.arm := rfl
@[simp] theorem State.setSerial_requests (v : Word32) : (s.setSerial v).requests = s.requests := rfl
@[simp] theorem State.setSerial_nextAge (v : Word32) : (s.setSerial v).nextAge = s.nextAge := rfl
@[simp] theorem State.setSerial_binA (v : Word32) : (s.setSerial v).binA = s.binA := rfl
@[simp] theorem State.setSerial_binB (v : Word32) : (s.setSerial v).binB = s.binB := rfl
@[simp] theorem State.setSerial_outputFull (v : Word32) : (s.setSerial v).outputFull = s.outputFull := rfl
@[simp] theorem State.setSerial_rejectFull (v : Word32) : (s.setSerial v).rejectFull = s.rejectFull := rfl
@[simp] theorem State.setSerial_sensors (v : Word32) : (s.setSerial v).sensors = s.sensors := rfl
@[simp] theorem State.setSerial_scans (v : Word32) : (s.setSerial v).scans = s.scans := rfl
@[simp] theorem State.setSerial_key (v : Word32) : (s.setSerial v).key = s.key := rfl
@[simp] theorem State.setSerial_printer (v : Word32) : (s.setSerial v).printer = s.printer := rfl
@[simp] theorem State.setSerial_due (v : Word32) : (s.setSerial v).due = s.due := rfl

/-! ## setBudget -/

@[simp] theorem State.setBudget_pending (v : Nat) : (s.setBudget v).pending = s.pending := rfl
@[simp] theorem State.setBudget_now (v : Nat) : (s.setBudget v).now = s.now := rfl
@[simp] theorem State.setBudget_out (v : Nat) : (s.setBudget v).out = s.out := rfl
@[simp] theorem State.setBudget_ports (v : Nat) : (s.setBudget v).ports = s.ports := rfl
@[simp] theorem State.setBudget_mem (v : Nat) : (s.setBudget v).mem = s.mem := rfl
@[simp] theorem State.setBudget_pool (v : Nat) : (s.setBudget v).pool = s.pool := rfl
@[simp] theorem State.setBudget_images (v : Nat) : (s.setBudget v).images = s.images := rfl
@[simp] theorem State.setBudget_artworks (v : Nat) : (s.setBudget v).artworks = s.artworks := rfl
@[simp] theorem State.setBudget_jobs (v : Nat) : (s.setBudget v).jobs = s.jobs := rfl
@[simp] theorem State.setBudget_rotation (v : Nat) : (s.setBudget v).rotation = s.rotation := rfl
@[simp] theorem State.setBudget_discs (v : Nat) : (s.setBudget v).discs = s.discs := rfl
@[simp] theorem State.setBudget_serial (v : Nat) : (s.setBudget v).serial = s.serial := rfl
@[simp] theorem State.setBudget_lanes (v : Nat) : (s.setBudget v).lanes = s.lanes := rfl
@[simp] theorem State.setBudget_startQueue (v : Nat) : (s.setBudget v).startQueue = s.startQueue := rfl
@[simp] theorem State.setBudget_channel (v : Nat) : (s.setBudget v).channel = s.channel := rfl
@[simp] theorem State.setBudget_verifyQueue (v : Nat) : (s.setBudget v).verifyQueue = s.verifyQueue := rfl
@[simp] theorem State.setBudget_crc (v : Nat) : (s.setBudget v).crc = s.crc := rfl
@[simp] theorem State.setBudget_arm (v : Nat) : (s.setBudget v).arm = s.arm := rfl
@[simp] theorem State.setBudget_requests (v : Nat) : (s.setBudget v).requests = s.requests := rfl
@[simp] theorem State.setBudget_nextAge (v : Nat) : (s.setBudget v).nextAge = s.nextAge := rfl
@[simp] theorem State.setBudget_binA (v : Nat) : (s.setBudget v).binA = s.binA := rfl
@[simp] theorem State.setBudget_binB (v : Nat) : (s.setBudget v).binB = s.binB := rfl
@[simp] theorem State.setBudget_outputFull (v : Nat) : (s.setBudget v).outputFull = s.outputFull := rfl
@[simp] theorem State.setBudget_rejectFull (v : Nat) : (s.setBudget v).rejectFull = s.rejectFull := rfl
@[simp] theorem State.setBudget_sensors (v : Nat) : (s.setBudget v).sensors = s.sensors := rfl
@[simp] theorem State.setBudget_scans (v : Nat) : (s.setBudget v).scans = s.scans := rfl
@[simp] theorem State.setBudget_key (v : Nat) : (s.setBudget v).key = s.key := rfl
@[simp] theorem State.setBudget_printer (v : Nat) : (s.setBudget v).printer = s.printer := rfl
@[simp] theorem State.setBudget_due (v : Nat) : (s.setBudget v).due = s.due := rfl

/-! ## setStartQueue -/

@[simp] theorem State.setStartQueue_pending (v : List LaneId) : (s.setStartQueue v).pending = s.pending := rfl
@[simp] theorem State.setStartQueue_now (v : List LaneId) : (s.setStartQueue v).now = s.now := rfl
@[simp] theorem State.setStartQueue_out (v : List LaneId) : (s.setStartQueue v).out = s.out := rfl
@[simp] theorem State.setStartQueue_ports (v : List LaneId) : (s.setStartQueue v).ports = s.ports := rfl
@[simp] theorem State.setStartQueue_mem (v : List LaneId) : (s.setStartQueue v).mem = s.mem := rfl
@[simp] theorem State.setStartQueue_pool (v : List LaneId) : (s.setStartQueue v).pool = s.pool := rfl
@[simp] theorem State.setStartQueue_images (v : List LaneId) : (s.setStartQueue v).images = s.images := rfl
@[simp] theorem State.setStartQueue_artworks (v : List LaneId) : (s.setStartQueue v).artworks = s.artworks := rfl
@[simp] theorem State.setStartQueue_jobs (v : List LaneId) : (s.setStartQueue v).jobs = s.jobs := rfl
@[simp] theorem State.setStartQueue_rotation (v : List LaneId) : (s.setStartQueue v).rotation = s.rotation := rfl
@[simp] theorem State.setStartQueue_discs (v : List LaneId) : (s.setStartQueue v).discs = s.discs := rfl
@[simp] theorem State.setStartQueue_serial (v : List LaneId) : (s.setStartQueue v).serial = s.serial := rfl
@[simp] theorem State.setStartQueue_lanes (v : List LaneId) : (s.setStartQueue v).lanes = s.lanes := rfl
@[simp] theorem State.setStartQueue_budget (v : List LaneId) : (s.setStartQueue v).budget = s.budget := rfl
@[simp] theorem State.setStartQueue_channel (v : List LaneId) : (s.setStartQueue v).channel = s.channel := rfl
@[simp] theorem State.setStartQueue_verifyQueue (v : List LaneId) : (s.setStartQueue v).verifyQueue = s.verifyQueue := rfl
@[simp] theorem State.setStartQueue_crc (v : List LaneId) : (s.setStartQueue v).crc = s.crc := rfl
@[simp] theorem State.setStartQueue_arm (v : List LaneId) : (s.setStartQueue v).arm = s.arm := rfl
@[simp] theorem State.setStartQueue_requests (v : List LaneId) : (s.setStartQueue v).requests = s.requests := rfl
@[simp] theorem State.setStartQueue_nextAge (v : List LaneId) : (s.setStartQueue v).nextAge = s.nextAge := rfl
@[simp] theorem State.setStartQueue_binA (v : List LaneId) : (s.setStartQueue v).binA = s.binA := rfl
@[simp] theorem State.setStartQueue_binB (v : List LaneId) : (s.setStartQueue v).binB = s.binB := rfl
@[simp] theorem State.setStartQueue_outputFull (v : List LaneId) : (s.setStartQueue v).outputFull = s.outputFull := rfl
@[simp] theorem State.setStartQueue_rejectFull (v : List LaneId) : (s.setStartQueue v).rejectFull = s.rejectFull := rfl
@[simp] theorem State.setStartQueue_sensors (v : List LaneId) : (s.setStartQueue v).sensors = s.sensors := rfl
@[simp] theorem State.setStartQueue_scans (v : List LaneId) : (s.setStartQueue v).scans = s.scans := rfl
@[simp] theorem State.setStartQueue_key (v : List LaneId) : (s.setStartQueue v).key = s.key := rfl
@[simp] theorem State.setStartQueue_printer (v : List LaneId) : (s.setStartQueue v).printer = s.printer := rfl
@[simp] theorem State.setStartQueue_due (v : List LaneId) : (s.setStartQueue v).due = s.due := rfl

/-! ## setChannel -/

@[simp] theorem State.setChannel_pending (v : Option Transfer) : (s.setChannel v).pending = s.pending := rfl
@[simp] theorem State.setChannel_now (v : Option Transfer) : (s.setChannel v).now = s.now := rfl
@[simp] theorem State.setChannel_out (v : Option Transfer) : (s.setChannel v).out = s.out := rfl
@[simp] theorem State.setChannel_ports (v : Option Transfer) : (s.setChannel v).ports = s.ports := rfl
@[simp] theorem State.setChannel_mem (v : Option Transfer) : (s.setChannel v).mem = s.mem := rfl
@[simp] theorem State.setChannel_pool (v : Option Transfer) : (s.setChannel v).pool = s.pool := rfl
@[simp] theorem State.setChannel_images (v : Option Transfer) : (s.setChannel v).images = s.images := rfl
@[simp] theorem State.setChannel_artworks (v : Option Transfer) : (s.setChannel v).artworks = s.artworks := rfl
@[simp] theorem State.setChannel_jobs (v : Option Transfer) : (s.setChannel v).jobs = s.jobs := rfl
@[simp] theorem State.setChannel_rotation (v : Option Transfer) : (s.setChannel v).rotation = s.rotation := rfl
@[simp] theorem State.setChannel_discs (v : Option Transfer) : (s.setChannel v).discs = s.discs := rfl
@[simp] theorem State.setChannel_serial (v : Option Transfer) : (s.setChannel v).serial = s.serial := rfl
@[simp] theorem State.setChannel_lanes (v : Option Transfer) : (s.setChannel v).lanes = s.lanes := rfl
@[simp] theorem State.setChannel_budget (v : Option Transfer) : (s.setChannel v).budget = s.budget := rfl
@[simp] theorem State.setChannel_startQueue (v : Option Transfer) : (s.setChannel v).startQueue = s.startQueue := rfl
@[simp] theorem State.setChannel_verifyQueue (v : Option Transfer) : (s.setChannel v).verifyQueue = s.verifyQueue := rfl
@[simp] theorem State.setChannel_crc (v : Option Transfer) : (s.setChannel v).crc = s.crc := rfl
@[simp] theorem State.setChannel_arm (v : Option Transfer) : (s.setChannel v).arm = s.arm := rfl
@[simp] theorem State.setChannel_requests (v : Option Transfer) : (s.setChannel v).requests = s.requests := rfl
@[simp] theorem State.setChannel_nextAge (v : Option Transfer) : (s.setChannel v).nextAge = s.nextAge := rfl
@[simp] theorem State.setChannel_binA (v : Option Transfer) : (s.setChannel v).binA = s.binA := rfl
@[simp] theorem State.setChannel_binB (v : Option Transfer) : (s.setChannel v).binB = s.binB := rfl
@[simp] theorem State.setChannel_outputFull (v : Option Transfer) : (s.setChannel v).outputFull = s.outputFull := rfl
@[simp] theorem State.setChannel_rejectFull (v : Option Transfer) : (s.setChannel v).rejectFull = s.rejectFull := rfl
@[simp] theorem State.setChannel_sensors (v : Option Transfer) : (s.setChannel v).sensors = s.sensors := rfl
@[simp] theorem State.setChannel_scans (v : Option Transfer) : (s.setChannel v).scans = s.scans := rfl
@[simp] theorem State.setChannel_key (v : Option Transfer) : (s.setChannel v).key = s.key := rfl
@[simp] theorem State.setChannel_printer (v : Option Transfer) : (s.setChannel v).printer = s.printer := rfl
@[simp] theorem State.setChannel_due (v : Option Transfer) : (s.setChannel v).due = s.due := rfl

/-! ## setVerifyQueue -/

@[simp] theorem State.setVerifyQueue_pending (v : List VerifyEntry) : (s.setVerifyQueue v).pending = s.pending := rfl
@[simp] theorem State.setVerifyQueue_now (v : List VerifyEntry) : (s.setVerifyQueue v).now = s.now := rfl
@[simp] theorem State.setVerifyQueue_out (v : List VerifyEntry) : (s.setVerifyQueue v).out = s.out := rfl
@[simp] theorem State.setVerifyQueue_ports (v : List VerifyEntry) : (s.setVerifyQueue v).ports = s.ports := rfl
@[simp] theorem State.setVerifyQueue_mem (v : List VerifyEntry) : (s.setVerifyQueue v).mem = s.mem := rfl
@[simp] theorem State.setVerifyQueue_pool (v : List VerifyEntry) : (s.setVerifyQueue v).pool = s.pool := rfl
@[simp] theorem State.setVerifyQueue_images (v : List VerifyEntry) : (s.setVerifyQueue v).images = s.images := rfl
@[simp] theorem State.setVerifyQueue_artworks (v : List VerifyEntry) : (s.setVerifyQueue v).artworks = s.artworks := rfl
@[simp] theorem State.setVerifyQueue_jobs (v : List VerifyEntry) : (s.setVerifyQueue v).jobs = s.jobs := rfl
@[simp] theorem State.setVerifyQueue_rotation (v : List VerifyEntry) : (s.setVerifyQueue v).rotation = s.rotation := rfl
@[simp] theorem State.setVerifyQueue_discs (v : List VerifyEntry) : (s.setVerifyQueue v).discs = s.discs := rfl
@[simp] theorem State.setVerifyQueue_serial (v : List VerifyEntry) : (s.setVerifyQueue v).serial = s.serial := rfl
@[simp] theorem State.setVerifyQueue_lanes (v : List VerifyEntry) : (s.setVerifyQueue v).lanes = s.lanes := rfl
@[simp] theorem State.setVerifyQueue_budget (v : List VerifyEntry) : (s.setVerifyQueue v).budget = s.budget := rfl
@[simp] theorem State.setVerifyQueue_startQueue (v : List VerifyEntry) : (s.setVerifyQueue v).startQueue = s.startQueue := rfl
@[simp] theorem State.setVerifyQueue_channel (v : List VerifyEntry) : (s.setVerifyQueue v).channel = s.channel := rfl
@[simp] theorem State.setVerifyQueue_crc (v : List VerifyEntry) : (s.setVerifyQueue v).crc = s.crc := rfl
@[simp] theorem State.setVerifyQueue_arm (v : List VerifyEntry) : (s.setVerifyQueue v).arm = s.arm := rfl
@[simp] theorem State.setVerifyQueue_requests (v : List VerifyEntry) : (s.setVerifyQueue v).requests = s.requests := rfl
@[simp] theorem State.setVerifyQueue_nextAge (v : List VerifyEntry) : (s.setVerifyQueue v).nextAge = s.nextAge := rfl
@[simp] theorem State.setVerifyQueue_binA (v : List VerifyEntry) : (s.setVerifyQueue v).binA = s.binA := rfl
@[simp] theorem State.setVerifyQueue_binB (v : List VerifyEntry) : (s.setVerifyQueue v).binB = s.binB := rfl
@[simp] theorem State.setVerifyQueue_outputFull (v : List VerifyEntry) : (s.setVerifyQueue v).outputFull = s.outputFull := rfl
@[simp] theorem State.setVerifyQueue_rejectFull (v : List VerifyEntry) : (s.setVerifyQueue v).rejectFull = s.rejectFull := rfl
@[simp] theorem State.setVerifyQueue_sensors (v : List VerifyEntry) : (s.setVerifyQueue v).sensors = s.sensors := rfl
@[simp] theorem State.setVerifyQueue_scans (v : List VerifyEntry) : (s.setVerifyQueue v).scans = s.scans := rfl
@[simp] theorem State.setVerifyQueue_key (v : List VerifyEntry) : (s.setVerifyQueue v).key = s.key := rfl
@[simp] theorem State.setVerifyQueue_printer (v : List VerifyEntry) : (s.setVerifyQueue v).printer = s.printer := rfl
@[simp] theorem State.setVerifyQueue_due (v : List VerifyEntry) : (s.setVerifyQueue v).due = s.due := rfl

/-! ## setJobs -/

@[simp] theorem State.setJobs_pending (v : Vector JobEntry 16) : (s.setJobs v).pending = s.pending := rfl
@[simp] theorem State.setJobs_now (v : Vector JobEntry 16) : (s.setJobs v).now = s.now := rfl
@[simp] theorem State.setJobs_out (v : Vector JobEntry 16) : (s.setJobs v).out = s.out := rfl
@[simp] theorem State.setJobs_ports (v : Vector JobEntry 16) : (s.setJobs v).ports = s.ports := rfl
@[simp] theorem State.setJobs_mem (v : Vector JobEntry 16) : (s.setJobs v).mem = s.mem := rfl
@[simp] theorem State.setJobs_pool (v : Vector JobEntry 16) : (s.setJobs v).pool = s.pool := rfl
@[simp] theorem State.setJobs_images (v : Vector JobEntry 16) : (s.setJobs v).images = s.images := rfl
@[simp] theorem State.setJobs_artworks (v : Vector JobEntry 16) : (s.setJobs v).artworks = s.artworks := rfl
@[simp] theorem State.setJobs_rotation (v : Vector JobEntry 16) : (s.setJobs v).rotation = s.rotation := rfl
@[simp] theorem State.setJobs_discs (v : Vector JobEntry 16) : (s.setJobs v).discs = s.discs := rfl
@[simp] theorem State.setJobs_serial (v : Vector JobEntry 16) : (s.setJobs v).serial = s.serial := rfl
@[simp] theorem State.setJobs_lanes (v : Vector JobEntry 16) : (s.setJobs v).lanes = s.lanes := rfl
@[simp] theorem State.setJobs_budget (v : Vector JobEntry 16) : (s.setJobs v).budget = s.budget := rfl
@[simp] theorem State.setJobs_startQueue (v : Vector JobEntry 16) : (s.setJobs v).startQueue = s.startQueue := rfl
@[simp] theorem State.setJobs_channel (v : Vector JobEntry 16) : (s.setJobs v).channel = s.channel := rfl
@[simp] theorem State.setJobs_verifyQueue (v : Vector JobEntry 16) : (s.setJobs v).verifyQueue = s.verifyQueue := rfl
@[simp] theorem State.setJobs_crc (v : Vector JobEntry 16) : (s.setJobs v).crc = s.crc := rfl
@[simp] theorem State.setJobs_arm (v : Vector JobEntry 16) : (s.setJobs v).arm = s.arm := rfl
@[simp] theorem State.setJobs_requests (v : Vector JobEntry 16) : (s.setJobs v).requests = s.requests := rfl
@[simp] theorem State.setJobs_nextAge (v : Vector JobEntry 16) : (s.setJobs v).nextAge = s.nextAge := rfl
@[simp] theorem State.setJobs_binA (v : Vector JobEntry 16) : (s.setJobs v).binA = s.binA := rfl
@[simp] theorem State.setJobs_binB (v : Vector JobEntry 16) : (s.setJobs v).binB = s.binB := rfl
@[simp] theorem State.setJobs_outputFull (v : Vector JobEntry 16) : (s.setJobs v).outputFull = s.outputFull := rfl
@[simp] theorem State.setJobs_rejectFull (v : Vector JobEntry 16) : (s.setJobs v).rejectFull = s.rejectFull := rfl
@[simp] theorem State.setJobs_sensors (v : Vector JobEntry 16) : (s.setJobs v).sensors = s.sensors := rfl
@[simp] theorem State.setJobs_scans (v : Vector JobEntry 16) : (s.setJobs v).scans = s.scans := rfl
@[simp] theorem State.setJobs_key (v : Vector JobEntry 16) : (s.setJobs v).key = s.key := rfl
@[simp] theorem State.setJobs_printer (v : Vector JobEntry 16) : (s.setJobs v).printer = s.printer := rfl
@[simp] theorem State.setJobs_due (v : Vector JobEntry 16) : (s.setJobs v).due = s.due := rfl

/-! ## setRequests -/

@[simp] theorem State.setRequests_pending (v : List Request) : (s.setRequests v).pending = s.pending := rfl
@[simp] theorem State.setRequests_now (v : List Request) : (s.setRequests v).now = s.now := rfl
@[simp] theorem State.setRequests_out (v : List Request) : (s.setRequests v).out = s.out := rfl
@[simp] theorem State.setRequests_ports (v : List Request) : (s.setRequests v).ports = s.ports := rfl
@[simp] theorem State.setRequests_mem (v : List Request) : (s.setRequests v).mem = s.mem := rfl
@[simp] theorem State.setRequests_pool (v : List Request) : (s.setRequests v).pool = s.pool := rfl
@[simp] theorem State.setRequests_images (v : List Request) : (s.setRequests v).images = s.images := rfl
@[simp] theorem State.setRequests_artworks (v : List Request) : (s.setRequests v).artworks = s.artworks := rfl
@[simp] theorem State.setRequests_jobs (v : List Request) : (s.setRequests v).jobs = s.jobs := rfl
@[simp] theorem State.setRequests_rotation (v : List Request) : (s.setRequests v).rotation = s.rotation := rfl
@[simp] theorem State.setRequests_discs (v : List Request) : (s.setRequests v).discs = s.discs := rfl
@[simp] theorem State.setRequests_serial (v : List Request) : (s.setRequests v).serial = s.serial := rfl
@[simp] theorem State.setRequests_lanes (v : List Request) : (s.setRequests v).lanes = s.lanes := rfl
@[simp] theorem State.setRequests_budget (v : List Request) : (s.setRequests v).budget = s.budget := rfl
@[simp] theorem State.setRequests_startQueue (v : List Request) : (s.setRequests v).startQueue = s.startQueue := rfl
@[simp] theorem State.setRequests_channel (v : List Request) : (s.setRequests v).channel = s.channel := rfl
@[simp] theorem State.setRequests_verifyQueue (v : List Request) : (s.setRequests v).verifyQueue = s.verifyQueue := rfl
@[simp] theorem State.setRequests_crc (v : List Request) : (s.setRequests v).crc = s.crc := rfl
@[simp] theorem State.setRequests_arm (v : List Request) : (s.setRequests v).arm = s.arm := rfl
@[simp] theorem State.setRequests_nextAge (v : List Request) : (s.setRequests v).nextAge = s.nextAge := rfl
@[simp] theorem State.setRequests_binA (v : List Request) : (s.setRequests v).binA = s.binA := rfl
@[simp] theorem State.setRequests_binB (v : List Request) : (s.setRequests v).binB = s.binB := rfl
@[simp] theorem State.setRequests_outputFull (v : List Request) : (s.setRequests v).outputFull = s.outputFull := rfl
@[simp] theorem State.setRequests_rejectFull (v : List Request) : (s.setRequests v).rejectFull = s.rejectFull := rfl
@[simp] theorem State.setRequests_sensors (v : List Request) : (s.setRequests v).sensors = s.sensors := rfl
@[simp] theorem State.setRequests_scans (v : List Request) : (s.setRequests v).scans = s.scans := rfl
@[simp] theorem State.setRequests_key (v : List Request) : (s.setRequests v).key = s.key := rfl
@[simp] theorem State.setRequests_printer (v : List Request) : (s.setRequests v).printer = s.printer := rfl
@[simp] theorem State.setRequests_due (v : List Request) : (s.setRequests v).due = s.due := rfl

/-! ## setOutputFull -/

@[simp] theorem State.setOutputFull_pending (v : Bool) : (s.setOutputFull v).pending = s.pending := rfl
@[simp] theorem State.setOutputFull_now (v : Bool) : (s.setOutputFull v).now = s.now := rfl
@[simp] theorem State.setOutputFull_out (v : Bool) : (s.setOutputFull v).out = s.out := rfl
@[simp] theorem State.setOutputFull_ports (v : Bool) : (s.setOutputFull v).ports = s.ports := rfl
@[simp] theorem State.setOutputFull_mem (v : Bool) : (s.setOutputFull v).mem = s.mem := rfl
@[simp] theorem State.setOutputFull_pool (v : Bool) : (s.setOutputFull v).pool = s.pool := rfl
@[simp] theorem State.setOutputFull_images (v : Bool) : (s.setOutputFull v).images = s.images := rfl
@[simp] theorem State.setOutputFull_artworks (v : Bool) : (s.setOutputFull v).artworks = s.artworks := rfl
@[simp] theorem State.setOutputFull_jobs (v : Bool) : (s.setOutputFull v).jobs = s.jobs := rfl
@[simp] theorem State.setOutputFull_rotation (v : Bool) : (s.setOutputFull v).rotation = s.rotation := rfl
@[simp] theorem State.setOutputFull_discs (v : Bool) : (s.setOutputFull v).discs = s.discs := rfl
@[simp] theorem State.setOutputFull_serial (v : Bool) : (s.setOutputFull v).serial = s.serial := rfl
@[simp] theorem State.setOutputFull_lanes (v : Bool) : (s.setOutputFull v).lanes = s.lanes := rfl
@[simp] theorem State.setOutputFull_budget (v : Bool) : (s.setOutputFull v).budget = s.budget := rfl
@[simp] theorem State.setOutputFull_startQueue (v : Bool) : (s.setOutputFull v).startQueue = s.startQueue := rfl
@[simp] theorem State.setOutputFull_channel (v : Bool) : (s.setOutputFull v).channel = s.channel := rfl
@[simp] theorem State.setOutputFull_verifyQueue (v : Bool) : (s.setOutputFull v).verifyQueue = s.verifyQueue := rfl
@[simp] theorem State.setOutputFull_crc (v : Bool) : (s.setOutputFull v).crc = s.crc := rfl
@[simp] theorem State.setOutputFull_arm (v : Bool) : (s.setOutputFull v).arm = s.arm := rfl
@[simp] theorem State.setOutputFull_requests (v : Bool) : (s.setOutputFull v).requests = s.requests := rfl
@[simp] theorem State.setOutputFull_nextAge (v : Bool) : (s.setOutputFull v).nextAge = s.nextAge := rfl
@[simp] theorem State.setOutputFull_binA (v : Bool) : (s.setOutputFull v).binA = s.binA := rfl
@[simp] theorem State.setOutputFull_binB (v : Bool) : (s.setOutputFull v).binB = s.binB := rfl
@[simp] theorem State.setOutputFull_rejectFull (v : Bool) : (s.setOutputFull v).rejectFull = s.rejectFull := rfl
@[simp] theorem State.setOutputFull_sensors (v : Bool) : (s.setOutputFull v).sensors = s.sensors := rfl
@[simp] theorem State.setOutputFull_scans (v : Bool) : (s.setOutputFull v).scans = s.scans := rfl
@[simp] theorem State.setOutputFull_key (v : Bool) : (s.setOutputFull v).key = s.key := rfl
@[simp] theorem State.setOutputFull_printer (v : Bool) : (s.setOutputFull v).printer = s.printer := rfl
@[simp] theorem State.setOutputFull_due (v : Bool) : (s.setOutputFull v).due = s.due := rfl

/-! ## setRejectFull -/

@[simp] theorem State.setRejectFull_pending (v : Bool) : (s.setRejectFull v).pending = s.pending := rfl
@[simp] theorem State.setRejectFull_now (v : Bool) : (s.setRejectFull v).now = s.now := rfl
@[simp] theorem State.setRejectFull_out (v : Bool) : (s.setRejectFull v).out = s.out := rfl
@[simp] theorem State.setRejectFull_ports (v : Bool) : (s.setRejectFull v).ports = s.ports := rfl
@[simp] theorem State.setRejectFull_mem (v : Bool) : (s.setRejectFull v).mem = s.mem := rfl
@[simp] theorem State.setRejectFull_pool (v : Bool) : (s.setRejectFull v).pool = s.pool := rfl
@[simp] theorem State.setRejectFull_images (v : Bool) : (s.setRejectFull v).images = s.images := rfl
@[simp] theorem State.setRejectFull_artworks (v : Bool) : (s.setRejectFull v).artworks = s.artworks := rfl
@[simp] theorem State.setRejectFull_jobs (v : Bool) : (s.setRejectFull v).jobs = s.jobs := rfl
@[simp] theorem State.setRejectFull_rotation (v : Bool) : (s.setRejectFull v).rotation = s.rotation := rfl
@[simp] theorem State.setRejectFull_discs (v : Bool) : (s.setRejectFull v).discs = s.discs := rfl
@[simp] theorem State.setRejectFull_serial (v : Bool) : (s.setRejectFull v).serial = s.serial := rfl
@[simp] theorem State.setRejectFull_lanes (v : Bool) : (s.setRejectFull v).lanes = s.lanes := rfl
@[simp] theorem State.setRejectFull_budget (v : Bool) : (s.setRejectFull v).budget = s.budget := rfl
@[simp] theorem State.setRejectFull_startQueue (v : Bool) : (s.setRejectFull v).startQueue = s.startQueue := rfl
@[simp] theorem State.setRejectFull_channel (v : Bool) : (s.setRejectFull v).channel = s.channel := rfl
@[simp] theorem State.setRejectFull_verifyQueue (v : Bool) : (s.setRejectFull v).verifyQueue = s.verifyQueue := rfl
@[simp] theorem State.setRejectFull_crc (v : Bool) : (s.setRejectFull v).crc = s.crc := rfl
@[simp] theorem State.setRejectFull_arm (v : Bool) : (s.setRejectFull v).arm = s.arm := rfl
@[simp] theorem State.setRejectFull_requests (v : Bool) : (s.setRejectFull v).requests = s.requests := rfl
@[simp] theorem State.setRejectFull_nextAge (v : Bool) : (s.setRejectFull v).nextAge = s.nextAge := rfl
@[simp] theorem State.setRejectFull_binA (v : Bool) : (s.setRejectFull v).binA = s.binA := rfl
@[simp] theorem State.setRejectFull_binB (v : Bool) : (s.setRejectFull v).binB = s.binB := rfl
@[simp] theorem State.setRejectFull_outputFull (v : Bool) : (s.setRejectFull v).outputFull = s.outputFull := rfl
@[simp] theorem State.setRejectFull_sensors (v : Bool) : (s.setRejectFull v).sensors = s.sensors := rfl
@[simp] theorem State.setRejectFull_scans (v : Bool) : (s.setRejectFull v).scans = s.scans := rfl
@[simp] theorem State.setRejectFull_key (v : Bool) : (s.setRejectFull v).key = s.key := rfl
@[simp] theorem State.setRejectFull_printer (v : Bool) : (s.setRejectFull v).printer = s.printer := rfl
@[simp] theorem State.setRejectFull_due (v : Bool) : (s.setRejectFull v).due = s.due := rfl

/-! ## setScans -/

@[simp] theorem State.setScans_pending (v : Nat) : (s.setScans v).pending = s.pending := rfl
@[simp] theorem State.setScans_now (v : Nat) : (s.setScans v).now = s.now := rfl
@[simp] theorem State.setScans_out (v : Nat) : (s.setScans v).out = s.out := rfl
@[simp] theorem State.setScans_ports (v : Nat) : (s.setScans v).ports = s.ports := rfl
@[simp] theorem State.setScans_mem (v : Nat) : (s.setScans v).mem = s.mem := rfl
@[simp] theorem State.setScans_pool (v : Nat) : (s.setScans v).pool = s.pool := rfl
@[simp] theorem State.setScans_images (v : Nat) : (s.setScans v).images = s.images := rfl
@[simp] theorem State.setScans_artworks (v : Nat) : (s.setScans v).artworks = s.artworks := rfl
@[simp] theorem State.setScans_jobs (v : Nat) : (s.setScans v).jobs = s.jobs := rfl
@[simp] theorem State.setScans_rotation (v : Nat) : (s.setScans v).rotation = s.rotation := rfl
@[simp] theorem State.setScans_discs (v : Nat) : (s.setScans v).discs = s.discs := rfl
@[simp] theorem State.setScans_serial (v : Nat) : (s.setScans v).serial = s.serial := rfl
@[simp] theorem State.setScans_lanes (v : Nat) : (s.setScans v).lanes = s.lanes := rfl
@[simp] theorem State.setScans_budget (v : Nat) : (s.setScans v).budget = s.budget := rfl
@[simp] theorem State.setScans_startQueue (v : Nat) : (s.setScans v).startQueue = s.startQueue := rfl
@[simp] theorem State.setScans_channel (v : Nat) : (s.setScans v).channel = s.channel := rfl
@[simp] theorem State.setScans_verifyQueue (v : Nat) : (s.setScans v).verifyQueue = s.verifyQueue := rfl
@[simp] theorem State.setScans_crc (v : Nat) : (s.setScans v).crc = s.crc := rfl
@[simp] theorem State.setScans_arm (v : Nat) : (s.setScans v).arm = s.arm := rfl
@[simp] theorem State.setScans_requests (v : Nat) : (s.setScans v).requests = s.requests := rfl
@[simp] theorem State.setScans_nextAge (v : Nat) : (s.setScans v).nextAge = s.nextAge := rfl
@[simp] theorem State.setScans_binA (v : Nat) : (s.setScans v).binA = s.binA := rfl
@[simp] theorem State.setScans_binB (v : Nat) : (s.setScans v).binB = s.binB := rfl
@[simp] theorem State.setScans_outputFull (v : Nat) : (s.setScans v).outputFull = s.outputFull := rfl
@[simp] theorem State.setScans_rejectFull (v : Nat) : (s.setScans v).rejectFull = s.rejectFull := rfl
@[simp] theorem State.setScans_sensors (v : Nat) : (s.setScans v).sensors = s.sensors := rfl
@[simp] theorem State.setScans_key (v : Nat) : (s.setScans v).key = s.key := rfl
@[simp] theorem State.setScans_printer (v : Nat) : (s.setScans v).printer = s.printer := rfl
@[simp] theorem State.setScans_due (v : Nat) : (s.setScans v).due = s.due := rfl

/-! ## setKey -/

@[simp] theorem State.setKey_pending (v : KeyPosition) : (s.setKey v).pending = s.pending := rfl
@[simp] theorem State.setKey_now (v : KeyPosition) : (s.setKey v).now = s.now := rfl
@[simp] theorem State.setKey_out (v : KeyPosition) : (s.setKey v).out = s.out := rfl
@[simp] theorem State.setKey_ports (v : KeyPosition) : (s.setKey v).ports = s.ports := rfl
@[simp] theorem State.setKey_mem (v : KeyPosition) : (s.setKey v).mem = s.mem := rfl
@[simp] theorem State.setKey_pool (v : KeyPosition) : (s.setKey v).pool = s.pool := rfl
@[simp] theorem State.setKey_images (v : KeyPosition) : (s.setKey v).images = s.images := rfl
@[simp] theorem State.setKey_artworks (v : KeyPosition) : (s.setKey v).artworks = s.artworks := rfl
@[simp] theorem State.setKey_jobs (v : KeyPosition) : (s.setKey v).jobs = s.jobs := rfl
@[simp] theorem State.setKey_rotation (v : KeyPosition) : (s.setKey v).rotation = s.rotation := rfl
@[simp] theorem State.setKey_discs (v : KeyPosition) : (s.setKey v).discs = s.discs := rfl
@[simp] theorem State.setKey_serial (v : KeyPosition) : (s.setKey v).serial = s.serial := rfl
@[simp] theorem State.setKey_lanes (v : KeyPosition) : (s.setKey v).lanes = s.lanes := rfl
@[simp] theorem State.setKey_budget (v : KeyPosition) : (s.setKey v).budget = s.budget := rfl
@[simp] theorem State.setKey_startQueue (v : KeyPosition) : (s.setKey v).startQueue = s.startQueue := rfl
@[simp] theorem State.setKey_channel (v : KeyPosition) : (s.setKey v).channel = s.channel := rfl
@[simp] theorem State.setKey_verifyQueue (v : KeyPosition) : (s.setKey v).verifyQueue = s.verifyQueue := rfl
@[simp] theorem State.setKey_crc (v : KeyPosition) : (s.setKey v).crc = s.crc := rfl
@[simp] theorem State.setKey_arm (v : KeyPosition) : (s.setKey v).arm = s.arm := rfl
@[simp] theorem State.setKey_requests (v : KeyPosition) : (s.setKey v).requests = s.requests := rfl
@[simp] theorem State.setKey_nextAge (v : KeyPosition) : (s.setKey v).nextAge = s.nextAge := rfl
@[simp] theorem State.setKey_binA (v : KeyPosition) : (s.setKey v).binA = s.binA := rfl
@[simp] theorem State.setKey_binB (v : KeyPosition) : (s.setKey v).binB = s.binB := rfl
@[simp] theorem State.setKey_outputFull (v : KeyPosition) : (s.setKey v).outputFull = s.outputFull := rfl
@[simp] theorem State.setKey_rejectFull (v : KeyPosition) : (s.setKey v).rejectFull = s.rejectFull := rfl
@[simp] theorem State.setKey_sensors (v : KeyPosition) : (s.setKey v).sensors = s.sensors := rfl
@[simp] theorem State.setKey_scans (v : KeyPosition) : (s.setKey v).scans = s.scans := rfl
@[simp] theorem State.setKey_printer (v : KeyPosition) : (s.setKey v).printer = s.printer := rfl
@[simp] theorem State.setKey_due (v : KeyPosition) : (s.setKey v).due = s.due := rfl

/-! ## setDue -/

@[simp] theorem State.setDue_pending (v : Due) : (s.setDue v).pending = s.pending := rfl
@[simp] theorem State.setDue_now (v : Due) : (s.setDue v).now = s.now := rfl
@[simp] theorem State.setDue_out (v : Due) : (s.setDue v).out = s.out := rfl
@[simp] theorem State.setDue_ports (v : Due) : (s.setDue v).ports = s.ports := rfl
@[simp] theorem State.setDue_mem (v : Due) : (s.setDue v).mem = s.mem := rfl
@[simp] theorem State.setDue_pool (v : Due) : (s.setDue v).pool = s.pool := rfl
@[simp] theorem State.setDue_images (v : Due) : (s.setDue v).images = s.images := rfl
@[simp] theorem State.setDue_artworks (v : Due) : (s.setDue v).artworks = s.artworks := rfl
@[simp] theorem State.setDue_jobs (v : Due) : (s.setDue v).jobs = s.jobs := rfl
@[simp] theorem State.setDue_rotation (v : Due) : (s.setDue v).rotation = s.rotation := rfl
@[simp] theorem State.setDue_discs (v : Due) : (s.setDue v).discs = s.discs := rfl
@[simp] theorem State.setDue_serial (v : Due) : (s.setDue v).serial = s.serial := rfl
@[simp] theorem State.setDue_lanes (v : Due) : (s.setDue v).lanes = s.lanes := rfl
@[simp] theorem State.setDue_budget (v : Due) : (s.setDue v).budget = s.budget := rfl
@[simp] theorem State.setDue_startQueue (v : Due) : (s.setDue v).startQueue = s.startQueue := rfl
@[simp] theorem State.setDue_channel (v : Due) : (s.setDue v).channel = s.channel := rfl
@[simp] theorem State.setDue_verifyQueue (v : Due) : (s.setDue v).verifyQueue = s.verifyQueue := rfl
@[simp] theorem State.setDue_crc (v : Due) : (s.setDue v).crc = s.crc := rfl
@[simp] theorem State.setDue_arm (v : Due) : (s.setDue v).arm = s.arm := rfl
@[simp] theorem State.setDue_requests (v : Due) : (s.setDue v).requests = s.requests := rfl
@[simp] theorem State.setDue_nextAge (v : Due) : (s.setDue v).nextAge = s.nextAge := rfl
@[simp] theorem State.setDue_binA (v : Due) : (s.setDue v).binA = s.binA := rfl
@[simp] theorem State.setDue_binB (v : Due) : (s.setDue v).binB = s.binB := rfl
@[simp] theorem State.setDue_outputFull (v : Due) : (s.setDue v).outputFull = s.outputFull := rfl
@[simp] theorem State.setDue_rejectFull (v : Due) : (s.setDue v).rejectFull = s.rejectFull := rfl
@[simp] theorem State.setDue_sensors (v : Due) : (s.setDue v).sensors = s.sensors := rfl
@[simp] theorem State.setDue_scans (v : Due) : (s.setDue v).scans = s.scans := rfl
@[simp] theorem State.setDue_key (v : Due) : (s.setDue v).key = s.key := rfl
@[simp] theorem State.setDue_printer (v : Due) : (s.setDue v).printer = s.printer := rfl

/-! ## passAge -/

@[simp] theorem State.passAge_pending : (s.passAge).pending = s.pending := rfl
@[simp] theorem State.passAge_now : (s.passAge).now = s.now := rfl
@[simp] theorem State.passAge_out : (s.passAge).out = s.out := rfl
@[simp] theorem State.passAge_ports : (s.passAge).ports = s.ports := rfl
@[simp] theorem State.passAge_mem : (s.passAge).mem = s.mem := rfl
@[simp] theorem State.passAge_pool : (s.passAge).pool = s.pool := rfl
@[simp] theorem State.passAge_images : (s.passAge).images = s.images := rfl
@[simp] theorem State.passAge_artworks : (s.passAge).artworks = s.artworks := rfl
@[simp] theorem State.passAge_jobs : (s.passAge).jobs = s.jobs := rfl
@[simp] theorem State.passAge_rotation : (s.passAge).rotation = s.rotation := rfl
@[simp] theorem State.passAge_discs : (s.passAge).discs = s.discs := rfl
@[simp] theorem State.passAge_serial : (s.passAge).serial = s.serial := rfl
@[simp] theorem State.passAge_lanes : (s.passAge).lanes = s.lanes := rfl
@[simp] theorem State.passAge_budget : (s.passAge).budget = s.budget := rfl
@[simp] theorem State.passAge_startQueue : (s.passAge).startQueue = s.startQueue := rfl
@[simp] theorem State.passAge_channel : (s.passAge).channel = s.channel := rfl
@[simp] theorem State.passAge_verifyQueue : (s.passAge).verifyQueue = s.verifyQueue := rfl
@[simp] theorem State.passAge_crc : (s.passAge).crc = s.crc := rfl
@[simp] theorem State.passAge_arm : (s.passAge).arm = s.arm := rfl
@[simp] theorem State.passAge_requests : (s.passAge).requests = s.requests := rfl
@[simp] theorem State.passAge_binA : (s.passAge).binA = s.binA := rfl
@[simp] theorem State.passAge_binB : (s.passAge).binB = s.binB := rfl
@[simp] theorem State.passAge_outputFull : (s.passAge).outputFull = s.outputFull := rfl
@[simp] theorem State.passAge_rejectFull : (s.passAge).rejectFull = s.rejectFull := rfl
@[simp] theorem State.passAge_sensors : (s.passAge).sensors = s.sensors := rfl
@[simp] theorem State.passAge_scans : (s.passAge).scans = s.scans := rfl
@[simp] theorem State.passAge_key : (s.passAge).key = s.key := rfl
@[simp] theorem State.passAge_printer : (s.passAge).printer = s.printer := rfl
@[simp] theorem State.passAge_due : (s.passAge).due = s.due := rfl

/-! ## tick -/

@[simp] theorem State.tick_pending : (s.tick).pending = s.pending := rfl
@[simp] theorem State.tick_out : (s.tick).out = s.out := rfl
@[simp] theorem State.tick_ports : (s.tick).ports = s.ports := rfl
@[simp] theorem State.tick_mem : (s.tick).mem = s.mem := rfl
@[simp] theorem State.tick_pool : (s.tick).pool = s.pool := rfl
@[simp] theorem State.tick_images : (s.tick).images = s.images := rfl
@[simp] theorem State.tick_artworks : (s.tick).artworks = s.artworks := rfl
@[simp] theorem State.tick_jobs : (s.tick).jobs = s.jobs := rfl
@[simp] theorem State.tick_rotation : (s.tick).rotation = s.rotation := rfl
@[simp] theorem State.tick_discs : (s.tick).discs = s.discs := rfl
@[simp] theorem State.tick_serial : (s.tick).serial = s.serial := rfl
@[simp] theorem State.tick_budget : (s.tick).budget = s.budget := rfl
@[simp] theorem State.tick_startQueue : (s.tick).startQueue = s.startQueue := rfl
@[simp] theorem State.tick_channel : (s.tick).channel = s.channel := rfl
@[simp] theorem State.tick_verifyQueue : (s.tick).verifyQueue = s.verifyQueue := rfl
@[simp] theorem State.tick_crc : (s.tick).crc = s.crc := rfl
@[simp] theorem State.tick_requests : (s.tick).requests = s.requests := rfl
@[simp] theorem State.tick_nextAge : (s.tick).nextAge = s.nextAge := rfl
@[simp] theorem State.tick_binA : (s.tick).binA = s.binA := rfl
@[simp] theorem State.tick_binB : (s.tick).binB = s.binB := rfl
@[simp] theorem State.tick_outputFull : (s.tick).outputFull = s.outputFull := rfl
@[simp] theorem State.tick_rejectFull : (s.tick).rejectFull = s.rejectFull := rfl
@[simp] theorem State.tick_sensors : (s.tick).sensors = s.sensors := rfl
@[simp] theorem State.tick_scans : (s.tick).scans = s.scans := rfl
@[simp] theorem State.tick_key : (s.tick).key = s.key := rfl
@[simp] theorem State.tick_due : (s.tick).due = s.due := rfl

/-! ## modBin -/

@[simp] theorem State.modBin_pending (w : Bin) (f : BinRecord → BinRecord) : (s.modBin w f).pending = s.pending := by cases w <;> rfl
@[simp] theorem State.modBin_now (w : Bin) (f : BinRecord → BinRecord) : (s.modBin w f).now = s.now := by cases w <;> rfl
@[simp] theorem State.modBin_out (w : Bin) (f : BinRecord → BinRecord) : (s.modBin w f).out = s.out := by cases w <;> rfl
@[simp] theorem State.modBin_ports (w : Bin) (f : BinRecord → BinRecord) : (s.modBin w f).ports = s.ports := by cases w <;> rfl
@[simp] theorem State.modBin_mem (w : Bin) (f : BinRecord → BinRecord) : (s.modBin w f).mem = s.mem := by cases w <;> rfl
@[simp] theorem State.modBin_pool (w : Bin) (f : BinRecord → BinRecord) : (s.modBin w f).pool = s.pool := by cases w <;> rfl
@[simp] theorem State.modBin_images (w : Bin) (f : BinRecord → BinRecord) : (s.modBin w f).images = s.images := by cases w <;> rfl
@[simp] theorem State.modBin_artworks (w : Bin) (f : BinRecord → BinRecord) : (s.modBin w f).artworks = s.artworks := by cases w <;> rfl
@[simp] theorem State.modBin_jobs (w : Bin) (f : BinRecord → BinRecord) : (s.modBin w f).jobs = s.jobs := by cases w <;> rfl
@[simp] theorem State.modBin_rotation (w : Bin) (f : BinRecord → BinRecord) : (s.modBin w f).rotation = s.rotation := by cases w <;> rfl
@[simp] theorem State.modBin_discs (w : Bin) (f : BinRecord → BinRecord) : (s.modBin w f).discs = s.discs := by cases w <;> rfl
@[simp] theorem State.modBin_serial (w : Bin) (f : BinRecord → BinRecord) : (s.modBin w f).serial = s.serial := by cases w <;> rfl
@[simp] theorem State.modBin_lanes (w : Bin) (f : BinRecord → BinRecord) : (s.modBin w f).lanes = s.lanes := by cases w <;> rfl
@[simp] theorem State.modBin_budget (w : Bin) (f : BinRecord → BinRecord) : (s.modBin w f).budget = s.budget := by cases w <;> rfl
@[simp] theorem State.modBin_startQueue (w : Bin) (f : BinRecord → BinRecord) : (s.modBin w f).startQueue = s.startQueue := by cases w <;> rfl
@[simp] theorem State.modBin_channel (w : Bin) (f : BinRecord → BinRecord) : (s.modBin w f).channel = s.channel := by cases w <;> rfl
@[simp] theorem State.modBin_verifyQueue (w : Bin) (f : BinRecord → BinRecord) : (s.modBin w f).verifyQueue = s.verifyQueue := by cases w <;> rfl
@[simp] theorem State.modBin_crc (w : Bin) (f : BinRecord → BinRecord) : (s.modBin w f).crc = s.crc := by cases w <;> rfl
@[simp] theorem State.modBin_arm (w : Bin) (f : BinRecord → BinRecord) : (s.modBin w f).arm = s.arm := by cases w <;> rfl
@[simp] theorem State.modBin_requests (w : Bin) (f : BinRecord → BinRecord) : (s.modBin w f).requests = s.requests := by cases w <;> rfl
@[simp] theorem State.modBin_nextAge (w : Bin) (f : BinRecord → BinRecord) : (s.modBin w f).nextAge = s.nextAge := by cases w <;> rfl
@[simp] theorem State.modBin_outputFull (w : Bin) (f : BinRecord → BinRecord) : (s.modBin w f).outputFull = s.outputFull := by cases w <;> rfl
@[simp] theorem State.modBin_rejectFull (w : Bin) (f : BinRecord → BinRecord) : (s.modBin w f).rejectFull = s.rejectFull := by cases w <;> rfl
@[simp] theorem State.modBin_sensors (w : Bin) (f : BinRecord → BinRecord) : (s.modBin w f).sensors = s.sensors := by cases w <;> rfl
@[simp] theorem State.modBin_scans (w : Bin) (f : BinRecord → BinRecord) : (s.modBin w f).scans = s.scans := by cases w <;> rfl
@[simp] theorem State.modBin_key (w : Bin) (f : BinRecord → BinRecord) : (s.modBin w f).key = s.key := by cases w <;> rfl
@[simp] theorem State.modBin_printer (w : Bin) (f : BinRecord → BinRecord) : (s.modBin w f).printer = s.printer := by cases w <;> rfl
@[simp] theorem State.modBin_due (w : Bin) (f : BinRecord → BinRecord) : (s.modBin w f).due = s.due := by cases w <;> rfl

/-! ## A table after a write to it -/

@[simp] theorem State.modPort_same (p : Port) (f : PortRecord → PortRecord) : (s.modPort p f).ports[p] = f s.ports[p] := by
  simp [State.modPort]

theorem State.modPort_other (p k : Port) (f : PortRecord → PortRecord) (h : k ≠ p) : (s.modPort p f).ports[k] = s.ports[k] := by
  have : p.val ≠ k.val := fun e => h (Fin.ext e.symm)
  simp [State.modPort, this]

@[simp] theorem State.modImage_same (i : ImageId) (f : ImageSlot → ImageSlot) : (s.modImage i f).images[i] = f s.images[i] := by
  simp [State.modImage]

theorem State.modImage_other (i k : ImageId) (f : ImageSlot → ImageSlot) (h : k ≠ i) : (s.modImage i f).images[k] = s.images[k] := by
  have : i.val ≠ k.val := fun e => h (Fin.ext e.symm)
  simp [State.modImage, this]

@[simp] theorem State.modArtwork_same (i : ArtworkId) (f : ArtworkSlot → ArtworkSlot) : (s.modArtwork i f).artworks[i] = f s.artworks[i] := by
  simp [State.modArtwork]

theorem State.modArtwork_other (i k : ArtworkId) (f : ArtworkSlot → ArtworkSlot) (h : k ≠ i) : (s.modArtwork i f).artworks[k] = s.artworks[k] := by
  have : i.val ≠ k.val := fun e => h (Fin.ext e.symm)
  simp [State.modArtwork, this]

@[simp] theorem State.modLane_same (n : LaneId) (f : Lane → Lane) : (s.modLane n f).lanes[n] = f s.lanes[n] := by
  simp [State.modLane]

theorem State.modLane_other (n k : LaneId) (f : Lane → Lane) (h : k ≠ n) : (s.modLane n f).lanes[k] = s.lanes[k] := by
  have : n.val ≠ k.val := fun e => h (Fin.ext e.symm)
  simp [State.modLane, this]

@[simp] theorem State.setJobEntry_same (i : TableId) (e : JobEntry) : (s.setJobEntry i e).jobs[i] = e := by
  simp [State.setJobEntry]

theorem State.setJobEntry_other (i k : TableId) (e : JobEntry) (h : k ≠ i) : (s.setJobEntry i e).jobs[k] = s.jobs[k] := by
  have : i.val ≠ k.val := fun e => h (Fin.ext e.symm)
  simp [State.setJobEntry, this]

@[simp] theorem State.setDisc_same (i : TableId) (d : Option Disc) : (s.setDisc i d).discs[i] = d := by
  simp [State.setDisc]

theorem State.setDisc_other (i k : TableId) (d : Option Disc) (h : k ≠ i) : (s.setDisc i d).discs[k] = s.discs[k] := by
  have : i.val ≠ k.val := fun e => h (Fin.ext e.symm)
  simp [State.setDisc, this]

@[simp] theorem State.setCrc_same (i : Fin 2) (v : CrcChannel) : (s.setCrc i v).crc[i] = v := by
  simp [State.setCrc]

theorem State.setCrc_other (i k : Fin 2) (v : CrcChannel) (h : k ≠ i) : (s.setCrc i v).crc[k] = s.crc[k] := by
  have : i.val ≠ k.val := fun e => h (Fin.ext e.symm)
  simp [State.setCrc, this]

@[simp] theorem State.modArm_arm (f : Arm → Arm) : (s.modArm f).arm = f s.arm := rfl
@[simp] theorem State.modPrinter_printer (f : Printer → Printer) : (s.modPrinter f).printer = f s.printer := rfl
@[simp] theorem State.setMem_mem (v : List Host.Cell) : (s.setMem v).mem = v := rfl
@[simp] theorem State.setPool_pool (v : List Extent) : (s.setPool v).pool = v := rfl
@[simp] theorem State.setRotation_rotation (v : Port) : (s.setRotation v).rotation = v := rfl
@[simp] theorem State.setSerial_serial (v : Word32) : (s.setSerial v).serial = v := rfl
@[simp] theorem State.setBudget_budget (v : Nat) : (s.setBudget v).budget = v := rfl
@[simp] theorem State.setStartQueue_startQueue (v : List LaneId) : (s.setStartQueue v).startQueue = v := rfl
@[simp] theorem State.setChannel_channel (v : Option Transfer) : (s.setChannel v).channel = v := rfl
@[simp] theorem State.setVerifyQueue_verifyQueue (v : List VerifyEntry) : (s.setVerifyQueue v).verifyQueue = v := rfl
@[simp] theorem State.setJobs_jobs (v : Vector JobEntry 16) : (s.setJobs v).jobs = v := rfl
@[simp] theorem State.setRequests_requests (v : List Request) : (s.setRequests v).requests = v := rfl
@[simp] theorem State.setOutputFull_outputFull (v : Bool) : (s.setOutputFull v).outputFull = v := rfl
@[simp] theorem State.setRejectFull_rejectFull (v : Bool) : (s.setRejectFull v).rejectFull = v := rfl
@[simp] theorem State.setScans_scans (v : Nat) : (s.setScans v).scans = v := rfl
@[simp] theorem State.setKey_key (v : KeyPosition) : (s.setKey v).key = v := rfl
@[simp] theorem State.setDue_due (v : Due) : (s.setDue v).due = v := rfl
@[simp] theorem State.emit_out (o : Output) : (s.emit o).out = s.out ++ [o] := rfl

end Sys2Proof.Machine
end

