-- ==== Sys2Proof/Laws/Claims.lean ====
section
/-! SUPPORT. What the choice of a job and a claim attempt can do (Jobs and Dispatch, R43 to R46): the job chosen, and that no job is
eligible after an attempt. -/

namespace Sys2Proof.Machine

theorem mem_tableIds (i : TableId) : i ∈ tableIds := by revert i; decide

theorem mem_laneIds (n : LaneId) : n ∈ laneIds := by revert n; decide

/-- A handle and a job are live together when the table's entry holds them. -/
theorem State.mem_liveJobs (s : State) (e : Handle × Job) :
    e ∈ s.liveJobs ↔ s.jobs[e.1.index] = ⟨e.1.generation, some e.2⟩ := by
  obtain ⟨⟨i, g⟩, j⟩ := e
  simp only [State.liveJobs, List.mem_filterMap, Option.map_eq_some_iff]
  constructor
  · rintro ⟨k, -, x, hx, h⟩
    cases h
    rw [← hx]
  · intro h
    exact ⟨i, mem_tableIds i, j, by rw [h], by rw [h]⟩

/-- The place of a client in the order that starts after the rotation pointer (R44). -/
def turnOf (rotation p : Port) : Nat := (p - (rotation + 1)).val

theorem mem_clientOrder (rotation p : Port) : p ∈ clientOrder rotation := by revert rotation p; decide

theorem lowestRank_none {l : List (Handle × Job)} : lowestRank l = none ↔ l = [] := by
  cases l with
  | nil => simp [lowestRank]
  | cons e rest => unfold lowestRank; cases lowestRank rest <;> simp

theorem lowestRank_some {l : List (Handle × Job)} {e : Handle × Job} (h : lowestRank l = some e) :
    e ∈ l ∧ ∀ x ∈ l, e.2.rank ≤ x.2.rank := by
  induction l generalizing e with
  | nil => cases h
  | cons a rest ih =>
    unfold lowestRank at h
    cases hr : lowestRank rest with
    | none =>
      rw [hr] at h; cases h
      rw [lowestRank_none.mp hr]; simp
    | some b =>
      rw [hr] at h
      obtain ⟨hb, hmin⟩ := ih hr
      dsimp only at h
      split at h <;> rename_i hab <;> cases h
      · refine ⟨by simp, fun x hx => ?_⟩
        rcases List.mem_cons.mp hx with rfl | hx
        · exact Nat.le_refl _
        · exact Nat.le_trans hab (hmin x hx)
      · refine ⟨by simp [hb], fun x hx => ?_⟩
        rcases List.mem_cons.mp hx with rfl | hx
        · omega
        · exact hmin x hx

/-- No job is chosen exactly when none of the live jobs will do. -/
theorem State.chooseJob_none (s : State) (ok : Handle × Job → Bool) :
    s.chooseJob ok = none ↔ ∀ e ∈ s.liveJobs, ok e = false := by
  simp only [State.chooseJob, List.findSome?_eq_none_iff, lowestRank_none, List.filter_eq_nil_iff]
  constructor
  · intro h e he; simpa using h e.2.owner (mem_clientOrder _ _) e he
  · intro h p _ e he; simp [h e he]

/-- The job chosen will do; a job that will do has an owner later in turn, or the same owner and no lower rank (R44). -/
theorem State.chooseJob_some {s : State} {ok : Handle × Job → Bool} {e : Handle × Job} (h : s.chooseJob ok = some e) :
    e ∈ s.liveJobs ∧ ok e = true ∧ ∀ x ∈ s.liveJobs, ok x = true →
      turnOf s.rotation e.2.owner < turnOf s.rotation x.2.owner ∨ (e.2.owner = x.2.owner ∧ e.2.rank ≤ x.2.rank) := by
  have key : ∀ (order : List Port), (order.Pairwise fun a b => turnOf s.rotation a < turnOf s.rotation b) →
      (order.findSome? fun p => lowestRank (s.liveJobs.filter fun e => decide (e.2.owner = p) && ok e)) = some e →
      e ∈ s.liveJobs ∧ ok e = true ∧ ∀ x ∈ s.liveJobs, ok x = true → x.2.owner ∈ order →
        turnOf s.rotation e.2.owner < turnOf s.rotation x.2.owner ∨ (e.2.owner = x.2.owner ∧ e.2.rank ≤ x.2.rank) := by
    intro order
    induction order with
    | nil => intro _ h; cases h
    | cons p rest ih =>
      intro hp h
      rw [List.pairwise_cons] at hp
      rw [List.findSome?_cons] at h
      cases hl : lowestRank (s.liveJobs.filter fun e => decide (e.2.owner = p) && ok e) with
      | none =>
        rw [hl] at h
        obtain ⟨h1, h2, h3⟩ := ih hp.2 h
        refine ⟨h1, h2, fun x hx hok ho => ?_⟩
        rcases List.mem_cons.mp ho with ho | ho
        · have := List.filter_eq_nil_iff.mp (lowestRank_none.mp hl) x hx
          simp [ho, hok] at this
        · exact h3 x hx hok ho
      | some b =>
        rw [hl] at h; cases h
        obtain ⟨hm, hmin⟩ := lowestRank_some hl
        simp only [List.mem_filter, Bool.and_eq_true, decide_eq_true_eq] at hm
        obtain ⟨h1, rfl, h2⟩ := hm
        refine ⟨h1, h2, fun x hx hok ho => ?_⟩
        rcases List.mem_cons.mp ho with ho | ho
        · exact .inr ⟨ho.symm, hmin x (by simp [hx, ho, hok])⟩
        · exact .inl (hp.1 _ ho)
  obtain ⟨h1, h2, h3⟩ := key (clientOrder s.rotation) (by generalize s.rotation = r; revert r; decide) h
  exact ⟨h1, h2, fun x hx hok => h3 x hx hok (mem_clientOrder _ _)⟩

/-! ## A claim attempt takes every lane it can -/

/-- The lanes that hold no job. -/
def State.lanesWithoutJob (s : State) : Nat := (laneIds.filter fun n => s.lanes[n].job.isNone).length

theorem State.laneFor_free {s : State} {j : Job} {n : LaneId} (h : s.laneFor j = some n) : s.lanes[n].job = none := by
  unfold State.laneFor at h
  split at h
  · rename_i hm; cases h; have := List.find?_some hm; simp [State.spareFree] at this; exact this.1.1.2
  · have := List.find?_some h; simp [State.idleFree] at this; exact this.1.1.2

theorem State.modLane_lane (t : State) (n m : LaneId) (f : Lane → Lane) :
    (t.modLane n f).lanes[m] = if m = n then f t.lanes[n] else t.lanes[m] := by
  split
  · rename_i h; subst h; exact t.modLane_same m f
  · rename_i h; exact t.modLane_other n m f h

theorem State.modDiscAt_lanes (t : State) (loc : Location) (f : Disc → Disc) : (t.modDiscAt loc f).lanes = t.lanes := by
  unfold State.modDiscAt; split <;> rfl

theorem State.modJob_lanes (t : State) (h : Handle) (f : Job → Job) : (t.modJob h f).lanes = t.lanes := by
  unfold State.modJob; split <;> rfl

theorem State.enterFeedWait_job (t : State) (n m : LaneId) : (t.enterFeedWait n).lanes[m].job = t.lanes[m].job := by
  simp only [State.enterFeedWait, State.joinStartQueue, State.oweStart_lanes, State.setStartQueue_lanes, State.modLane_lane]
  split
  · rename_i h; subst h; rfl
  · rfl

/-- A claim gives its lane the job and leaves the jobs of the other lanes. -/
theorem State.claim_job (s : State) (h : Handle) (j : Job) (n m : LaneId) :
    (s.claim h j n).lanes[m].job = if m = n then some h else s.lanes[m].job := by
  unfold State.claim
  dsimp only
  split
  · rw [State.enterFeedWait_job, State.modDiscAt_lanes, State.modLane_lane, State.modJob_lanes]; split <;> rfl
  · simp only [State.queueRequest, State.oweSelect_lanes, State.passAge_lanes, State.setRequests_lanes, State.modLane_lane,
      State.modJob_lanes]
    split <;> simp

theorem State.claimOne_lanes {s t : State} (h : s.claimOne = some t) : t.lanesWithoutJob < s.lanesWithoutJob := by
  unfold State.claimOne at h
  split at h
  · cases h
  · rename_i e j hc
    obtain ⟨n, hn, rfl⟩ := Option.map_eq_some_iff.mp h
    have hfree := State.laneFor_free hn
    have hset : (s.setRotation j.owner).lanes = s.lanes := rfl
    unfold State.lanesWithoutJob
    have : (laneIds.filter fun m => ((s.setRotation j.owner).claim e j n).lanes[m].job.isNone) =
        (laneIds.filter fun m => s.lanes[m].job.isNone).filter fun m => decide (m ≠ n) := by
      rw [List.filter_filter]
      congr 1
      funext m
      rw [State.claim_job, hset]
      by_cases hm : m = n <;> simp [hm]
    rw [this]
    refine List.length_filter_lt_length_iff_exists.mpr ⟨n, ?_, by simp⟩
    simp [-Fin.getElem_fin, hfree, mem_laneIds]

theorem State.claimRounds_done (k : Nat) (s : State) (h : s.lanesWithoutJob ≤ k) : (State.claimRounds k s).claimOne = none := by
  induction k generalizing s with
  | zero =>
    cases hc : s.claimOne with
    | none => exact hc
    | some t => have := State.claimOne_lanes hc; omega
  | succ k ih =>
    unfold State.claimRounds
    cases hc : s.claimOne with
    | none => exact hc
    | some t => exact ih t (by have := State.claimOne_lanes hc; omega)

/-- After a claim attempt no job is eligible (R44). -/
theorem State.claimAttempt_done (s : State) : s.claimAttempt.claimOne = none :=
  State.claimRounds_done 8 s (List.length_filter_le _ laneIds)

end Sys2Proof.Machine
end

