-- ==== Sys2Proof/Laws/Frames.lean ====
section
/-! SUPPORT. Frames: the parts of the state that the shared operations leave alone (`quiet`), one lemma for each operation. -/

namespace Sys2Proof.Machine

/-- The waiting commands, the clock, image memory, the feed budget, the serial counter, the bin records and flags, the sensors and the
key: what only a few meanings change, and no shared operation but those named for it. -/
def State.quiet (s : State) :=
  (s.pending, s.now, s.mem, s.budget, s.serial, s.binA, s.binB, s.outputFull, s.rejectFull, s.sensors, s.scans, s.key)

@[simp] theorem State.modPort_quiet (s : State) (p : Port) (f : PortRecord → PortRecord) : (State.modPort s p f).quiet = s.quiet := rfl

@[simp] theorem State.modImage_quiet (s : State) (i : ImageId) (f : ImageSlot → ImageSlot) : (State.modImage s i f).quiet = s.quiet := rfl

@[simp] theorem State.modArtwork_quiet (s : State) (i : ArtworkId) (f : ArtworkSlot → ArtworkSlot) : (State.modArtwork s i f).quiet = s.quiet := rfl

@[simp] theorem State.modLane_quiet (s : State) (n : LaneId) (f : Lane → Lane) : (State.modLane s n f).quiet = s.quiet := rfl

@[simp] theorem State.setJobEntry_quiet (s : State) (i : TableId) (e : JobEntry) : (State.setJobEntry s i e).quiet = s.quiet := rfl

@[simp] theorem State.setDisc_quiet (s : State) (i : TableId) (d : Option Disc) : (State.setDisc s i d).quiet = s.quiet := rfl

@[simp] theorem State.modArm_quiet (s : State) (f : Arm → Arm) : (State.modArm s f).quiet = s.quiet := rfl

@[simp] theorem State.modPrinter_quiet (s : State) (f : Printer → Printer) : (State.modPrinter s f).quiet = s.quiet := rfl

@[simp] theorem State.setCrc_quiet (s : State) (c : Fin 2) (v : CrcChannel) : (State.setCrc s c v).quiet = s.quiet := rfl

@[simp] theorem State.setPool_quiet (s : State) (v : List Extent) : (State.setPool s v).quiet = s.quiet := rfl

@[simp] theorem State.setRotation_quiet (s : State) (v : Port) : (State.setRotation s v).quiet = s.quiet := rfl

@[simp] theorem State.setStartQueue_quiet (s : State) (v : List LaneId) : (State.setStartQueue s v).quiet = s.quiet := rfl

@[simp] theorem State.setChannel_quiet (s : State) (v : Option Transfer) : (State.setChannel s v).quiet = s.quiet := rfl

@[simp] theorem State.setVerifyQueue_quiet (s : State) (v : List VerifyEntry) : (State.setVerifyQueue s v).quiet = s.quiet := rfl

@[simp] theorem State.setJobs_quiet (s : State) (v : Vector JobEntry 16) : (State.setJobs s v).quiet = s.quiet := rfl

@[simp] theorem State.setRequests_quiet (s : State) (v : List Request) : (State.setRequests s v).quiet = s.quiet := rfl

@[simp] theorem State.setDue_quiet (s : State) (v : Due) : (State.setDue s v).quiet = s.quiet := rfl

@[simp] theorem State.oweCrc_quiet (s : State) : (State.oweCrc s).quiet = s.quiet := rfl

@[simp] theorem State.oweClaim_quiet (s : State) : (State.oweClaim s).quiet = s.quiet := rfl

@[simp] theorem State.oweStart_quiet (s : State) : (State.oweStart s).quiet = s.quiet := rfl

@[simp] theorem State.oweArm_quiet (s : State) : (State.oweArm s).quiet = s.quiet := rfl

@[simp] theorem State.oweSelect_quiet (s : State) : (State.oweSelect s).quiet = s.quiet := rfl

@[simp] theorem State.oweGrant_quiet (s : State) : (State.oweGrant s).quiet = s.quiet := rfl

@[simp] theorem State.emit_quiet (s : State) (o : Output) : (State.emit s o).quiet = s.quiet := rfl

@[simp] theorem State.answer_quiet (s : State) (p : Port) (bytes : List Byte) : (State.answer s p bytes).quiet = s.quiet := rfl

@[simp] theorem State.sendDrive_quiet (s : State) (n : LaneId) (v : DriveMessage) : (State.sendDrive s n v).quiet = s.quiet := rfl

@[simp] theorem State.sendPrinter_quiet (s : State) (v : PrinterMessage) : (State.sendPrinter s v).quiet = s.quiet := rfl

@[simp] theorem State.notify_quiet (s : State) (p : Port) (v : Notice) : (State.notify s p v).quiet = s.quiet := rfl

@[simp] theorem State.notifyOpt_quiet (s : State) (p : Option Port) (v : Notice) : (State.notifyOpt s p v).quiet = s.quiet := by
  unfold State.notifyOpt; split <;> simp

@[simp] theorem State.raiseTo_quiet (g : Group) (v : Notice) (l : List Port) (s : State) : (State.raiseTo g v l s).quiet = s.quiet := by
  induction l generalizing s with
  | nil => rfl
  | cons x rest ih => unfold State.raiseTo; split <;> simp [ih]

@[simp] theorem State.raise_quiet (s : State) (g : Group) (v : Notice) : (State.raise s g v).quiet = s.quiet := by simp [State.raise]

@[simp] theorem State.startTimer_quiet (s : State) (n : LaneId) (limit : Nat) : (State.startTimer s n limit).quiet = s.quiet := rfl

@[simp] theorem State.stopTimer_quiet (s : State) (n : LaneId) : (State.stopTimer s n).quiet = s.quiet := rfl

@[simp] theorem State.restartTimer_quiet (s : State) (n : LaneId) : (State.restartTimer s n).quiet = s.quiet := rfl

@[simp] theorem State.modJob_quiet (s : State) (h : Handle) (f : Job → Job) : (State.modJob s h f).quiet = s.quiet := by
  unfold State.modJob; split <;> simp

@[simp] theorem State.modDiscAt_quiet (s : State) (loc : Location) (f : Disc → Disc) : (State.modDiscAt s loc f).quiet = s.quiet := by
  unfold State.modDiscAt; split <;> simp

@[simp] theorem State.passAge_quiet (s : State) : (State.passAge s).quiet = s.quiet := rfl

@[simp] theorem State.queueRequest_quiet (s : State) (kind : RequestKind) (n : Option LaneId) (cls : Option MediaClass) : (State.queueRequest s kind n cls).quiet = s.quiet := rfl

@[simp] theorem State.dropRequest_quiet (s : State) (age : Nat) : (State.dropRequest s age).quiet = s.quiet := rfl

@[simp] theorem State.modRequest_quiet (s : State) (age : Nat) (f : Request → Request) : (State.modRequest s age f).quiet = s.quiet := rfl

@[simp] theorem State.queueUnload_quiet (s : State) (n : LaneId) : (State.queueUnload s n).quiet = s.quiet := by
  unfold State.queueUnload; split <;> simp

@[simp] theorem State.joinStartQueue_quiet (s : State) (n : LaneId) : (State.joinStartQueue s n).quiet = s.quiet := rfl

@[simp] theorem State.leaveStartQueue_quiet (s : State) (n : LaneId) : (State.leaveStartQueue s n).quiet = s.quiet := by
  unfold State.leaveStartQueue; split <;> simp

@[simp] theorem State.disown_quiet (s : State) (p : TransferTo → Bool) : (State.disown s p).quiet = s.quiet := rfl

@[simp] theorem State.dropLaneChunk_quiet (s : State) (n : LaneId) : (State.dropLaneChunk s n).quiet = s.quiet := rfl

@[simp] theorem State.joinVerifyQueue_quiet (s : State) (w : VerifyWork) : (State.joinVerifyQueue s w).quiet = s.quiet := rfl

@[simp] theorem State.releaseChannel_quiet (s : State) (e : VerifyEntry) : (State.releaseChannel s e).quiet = s.quiet := by
  unfold State.releaseChannel; split <;> simp

@[simp] theorem State.releaseAll_quiet  (l : List VerifyEntry) (s : State) : (State.releaseAll l s).quiet = s.quiet := by
  induction l generalizing s with
  | nil => rfl
  | cons x rest ih => simp [State.releaseAll, ih]

@[simp] theorem State.leaveVerifyQueue_quiet (s : State) (p : VerifyEntry → Bool) : (State.leaveVerifyQueue s p).quiet = s.quiet := by simp [State.leaveVerifyQueue]

@[simp] theorem State.laneLeavesJob_quiet (s : State) (n : LaneId) : (State.laneLeavesJob s n).quiet = s.quiet := by
  unfold State.laneLeavesJob; split <;> simp

@[simp] theorem State.sendTray_quiet (s : State) (n : LaneId) (v : TrayCommand) : (State.sendTray s n v).quiet = s.quiet := by
  unfold State.sendTray; split <;> simp

@[simp] theorem State.releaseTray_quiet (s : State) (n : LaneId) : (State.releaseTray s n).quiet = s.quiet := by
  unfold State.releaseTray; split <;> simp

@[simp] theorem State.sendAbort_quiet (s : State) (n : LaneId) : (State.sendAbort s n).quiet = s.quiet := rfl

@[simp] theorem State.enterOpening_quiet (s : State) (n : LaneId) (v : TrayPurpose) : (State.enterOpening s n v).quiet = s.quiet := by simp [State.enterOpening]

@[simp] theorem State.enterClosing_quiet (s : State) (n : LaneId) (v : Option TrayPurpose) : (State.enterClosing s n v).quiet = s.quiet := by simp [State.enterClosing]

@[simp] theorem State.enterProbing_quiet (s : State) (n : LaneId) : (State.enterProbing s n).quiet = s.quiet := rfl

@[simp] theorem State.enterDone_quiet (s : State) (n : LaneId) : (State.enterDone s n).quiet = s.quiet := by simp [State.enterDone]

@[simp] theorem State.enterFeedWait_quiet (s : State) (n : LaneId) : (State.enterFeedWait s n).quiet = s.quiet := rfl

@[simp] theorem State.enterIdle_quiet (s : State) (n : LaneId) : (State.enterIdle s n).quiet = s.quiet := rfl

@[simp] theorem State.chargeLane_quiet (s : State) (n : LaneId) : (State.chargeLane s n).quiet = s.quiet := rfl

@[simp] theorem State.quarantineLane_quiet (s : State) (n : LaneId) : (State.quarantineLane s n).quiet = s.quiet := by simp [State.quarantineLane]

@[simp] theorem State.returnPages_quiet (s : State) (pages : List Extent) : (State.returnPages s pages).quiet = s.quiet := rfl

@[simp] theorem State.freeImage_quiet (s : State) (i : ImageId) : (State.freeImage s i).quiet = s.quiet := rfl

@[simp] theorem State.freeArtwork_quiet (s : State) (i : ArtworkId) : (State.freeArtwork s i).quiet = s.quiet := rfl

@[simp] theorem State.releaseImage_quiet (s : State) (i : ImageId) : (State.releaseImage s i).quiet = s.quiet := rfl

@[simp] theorem State.releaseArtwork_quiet (s : State) (i : ArtworkId) : (State.releaseArtwork s i).quiet = s.quiet := rfl

@[simp] theorem State.closeStream_quiet (s : State) (p : Port) : (State.closeStream s p).quiet = s.quiet := rfl

@[simp] theorem State.enterTrayOut_quiet (s : State) : (State.enterTrayOut s).quiet = s.quiet := rfl

@[simp] theorem State.unprintedReturn_quiet (s : State) : (State.unprintedReturn s).quiet = s.quiet := by simp [State.unprintedReturn]

@[simp] theorem State.lowerRanks_quiet (s : State) (rank : Nat) : (State.lowerRanks s rank).quiet = s.quiet := rfl

@[simp] theorem State.endJob_quiet (s : State) (h : Handle) (result : JobResult) : (State.endJob s h result).quiet = s.quiet := by
  unfold State.endJob; (repeat' split) <;> simp

@[simp] theorem State.drainCheck_quiet (s : State) (h : Handle) : (State.drainCheck s h).quiet = s.quiet := by
  unfold State.drainCheck; (repeat' split) <;> simp

@[simp] theorem State.claim_quiet (s : State) (h : Handle) (j : Job) (n : LaneId) : (State.claim s h j n).quiet = s.quiet := by
  unfold State.claim; split <;> simp

theorem State.claimOne_quiet {s s' : State} (h : s.claimOne = some s') : s'.quiet = s.quiet := by
  unfold State.claimOne at h; split at h
  · cases h
  · obtain ⟨n, -, rfl⟩ := Option.map_eq_some_iff.mp h; simp

@[simp] theorem State.claimRounds_quiet  (l : Nat) (s : State) : (State.claimRounds l s).quiet = s.quiet := by
  induction l generalizing s with
  | zero => rfl
  | succ k ih =>
    unfold State.claimRounds; split
    · rfl
    · rename_i h; rw [ih, State.claimOne_quiet h]

@[simp] theorem State.claimAttempt_quiet (s : State) : (State.claimAttempt s).quiet = s.quiet := by simp [State.claimAttempt]

@[simp] theorem State.offerBlank_quiet (s : State) (n : LaneId) (h : Handle) : (State.offerBlank s n h).quiet = s.quiet := by
  unfold State.offerBlank; split <;> simp

@[simp] theorem State.withdrawClaim_quiet (s : State) (h : Handle) (n : LaneId) : (State.withdrawClaim s h n).quiet = s.quiet := by
  unfold State.withdrawClaim; (repeat' split) <;> simp

@[simp] theorem State.drainLane_quiet (s : State) (h : Handle) (n : LaneId) : (State.drainLane s h n).quiet = s.quiet := by
  unfold State.drainLane; (repeat' split) <;> simp

@[simp] theorem State.killDisc_quiet (s : State) (n : LaneId) : (State.killDisc s n).quiet = s.quiet := by simp [State.killDisc]

@[simp] theorem State.killLane_quiet (s : State) (h : Handle) (n : LaneId) : (State.killLane s h n).quiet = s.quiet := by
  unfold State.killLane; (repeat' split) <;> simp

@[simp] theorem State.killAtPrinter_quiet (s : State) (h : Handle) : (State.killAtPrinter s h).quiet = s.quiet := by
  unfold State.killAtPrinter; split <;> simp

theorem State.forLanes_quiet (f : State → LaneId → State) (h : ∀ t n, (f t n).quiet = t.quiet) (l : List LaneId) (s : State) :
    (State.forLanes f l s).quiet = s.quiet := by
  induction l generalizing s with
  | nil => rfl
  | cons n rest ih => unfold State.forLanes; rw [ih, h]

@[simp] theorem State.drainLanes_quiet (s : State) (h : Handle) (reason : EndReason) : (State.drainLanes s h reason).quiet = s.quiet := by
  unfold State.drainLanes; cases reason <;> simp [State.forLanes_quiet]

@[simp] theorem State.drainJob_quiet (s : State) (h : Handle) (reason : EndReason) : (State.drainJob s h reason).quiet = s.quiet := by
  unfold State.drainJob; dsimp only; (repeat' split) <;> simp

@[simp] theorem State.closingChecks_quiet (s : State) (h : Handle) : (State.closingChecks s h).quiet = s.quiet := by
  unfold State.closingChecks; (repeat' split) <;> simp

@[simp] theorem State.reportClosing_quiet (s : State) (h : Handle) (fate : Option Fate) (reason : Option FailReason) : (State.reportClosing s h fate reason).quiet = s.quiet := by simp [State.reportClosing]

@[simp] theorem State.closeDisc_quiet (s : State) (i : TableId) (fate : Option Fate) (why : Option FailReason) : (State.closeDisc s i fate why).quiet = s.quiet := by
  unfold State.closeDisc; dsimp only; (repeat' split) <;> simp

@[simp] theorem State.closeDiscAt_quiet (s : State) (loc : Location) (fate : Option Fate) (why : Option FailReason) : (State.closeDiscAt s loc fate why).quiet = s.quiet := by
  unfold State.closeDiscAt; split <;> simp

@[simp] theorem State.acceptImageLoad_quiet (s : State) (i : ImageId) (p : Port) (source : LoadSource) (cls : MediaClass) (size : Nat) (noExport : Bool) : (State.acceptImageLoad s i p source cls size noExport).quiet = s.quiet := by
  unfold State.acceptImageLoad; dsimp only; split <;> simp

@[simp] theorem State.activateRanks_quiet (i : ImageId) (l : List Nat) (s : State) : (State.activateRanks i l s).quiet = s.quiet := by
  induction l generalizing s with
  | nil => rfl
  | cons x rest ih => unfold State.activateRanks; split <;> simp [ih]

@[simp] theorem State.imageReady_quiet (s : State) (i : ImageId) : (State.imageReady s i).quiet = s.quiet := by simp [State.imageReady]

@[simp] theorem State.sourceLaneEnds_quiet (s : State) (n : LaneId) (early : Bool) : (State.sourceLaneEnds s n early).quiet = s.quiet := by
  unfold State.sourceLaneEnds; (repeat' split) <;> simp

@[simp] theorem State.loadSourceEnds_quiet (s : State) (v : ImageSlot) (early : Bool) : (State.loadSourceEnds s v early).quiet = s.quiet := by
  unfold State.loadSourceEnds; (repeat' split) <;> simp

@[simp] theorem State.finishImageLoad_quiet (s : State) (i : ImageId) : (State.finishImageLoad s i).quiet = s.quiet := by simp [State.finishImageLoad]

@[simp] theorem State.failJobsOf_quiet (i : ImageId) (l : List TableId) (s : State) : (State.failJobsOf i l s).quiet = s.quiet := by
  induction l generalizing s with
  | nil => rfl
  | cons x rest ih => unfold State.failJobsOf; (repeat' split) <;> simp [ih]

@[simp] theorem State.failImageLoad_quiet (s : State) (i : ImageId) : (State.failImageLoad s i).quiet = s.quiet := by
  unfold State.failImageLoad; dsimp only; split <;> simp

@[simp] theorem State.failArtworkLoad_quiet (s : State) (i : ArtworkId) : (State.failArtworkLoad s i).quiet = s.quiet := by
  unfold State.failArtworkLoad; dsimp only; (repeat' split) <;> simp

@[simp] theorem State.endOutbound_quiet (s : State) (p : Port) : (State.endOutbound s p).quiet = s.quiet := by
  unfold State.endOutbound; (repeat' split) <;> simp

@[simp] theorem State.failImageLoads_quiet  (l : List ImageId) (s : State) : (State.failImageLoads l s).quiet = s.quiet := by
  induction l generalizing s with
  | nil => rfl
  | cons x rest ih => simp [State.failImageLoads, ih]

@[simp] theorem State.failArtworkLoads_quiet  (l : List ArtworkId) (s : State) : (State.failArtworkLoads l s).quiet = s.quiet := by
  induction l generalizing s with
  | nil => rfl
  | cons x rest ih => simp [State.failArtworkLoads, ih]

@[simp] theorem State.endOutbounds_quiet  (l : List Port) (s : State) : (State.endOutbounds l s).quiet = s.quiet := by
  induction l generalizing s with
  | nil => rfl
  | cons x rest ih => simp [State.endOutbounds, ih]

@[simp] theorem State.claimEnds_quiet (s : State) (n : LaneId) : (State.claimEnds s n).quiet = s.quiet := by
  unfold State.claimEnds; (repeat' split) <;> simp

@[simp] theorem State.divertFeed_quiet (s : State) (n : LaneId) (r : Request) : (State.divertFeed s n r).quiet = s.quiet := by simp [State.divertFeed]

@[simp] theorem State.faultUnload_quiet (s : State) (n : LaneId) : (State.faultUnload s n).quiet = s.quiet := by
  unfold State.faultUnload; split <;> simp

@[simp] theorem State.faultClaim_quiet (s : State) (n : LaneId) (stood : LaneState) (purpose : Option TrayPurpose) : (State.faultClaim s n stood purpose).quiet = s.quiet := by
  unfold State.faultClaim; (repeat' split) <;> simp

@[simp] theorem State.failTrayDisc_quiet (s : State) (n : LaneId) : (State.failTrayDisc s n).quiet = s.quiet := by
  unfold State.failTrayDisc; (repeat' split) <;> simp

@[simp] theorem State.faultQueues_quiet (s : State) (n : LaneId) (stood : LaneState) : (State.faultQueues s n stood).quiet = s.quiet := by
  unfold State.faultQueues; dsimp only; (repeat' split) <;> simp

@[simp] theorem State.laneFault_quiet (s : State) (n : LaneId) (cause : LaneCause) : (State.laneFault s n cause).quiet = s.quiet := by simp [State.laneFault]

@[simp] theorem State.stuck_quiet (s : State) (n : LaneId) : (State.stuck s n).quiet = s.quiet := by
  unfold State.stuck; dsimp only; (repeat' split) <;> simp

@[simp] theorem State.laneError_quiet (s : State) (n : LaneId) (code : Byte) : (State.laneError s n code).quiet = s.quiet := by
  unfold State.laneError; (repeat' split) <;> simp

@[simp] theorem State.placedAfterFault_quiet (s : State) (n : LaneId) : (State.placedAfterFault s n).quiet = s.quiet := by
  unfold State.placedAfterFault; dsimp only; split <;> simp

@[simp] theorem State.lanePlaced_quiet (s : State) (n : LaneId) : (State.lanePlaced s n).quiet = s.quiet := by
  unfold State.lanePlaced; split <;> simp

@[simp] theorem State.lanePicked_quiet (s : State) (n : LaneId) : (State.lanePicked s n).quiet = s.quiet := by
  unfold State.lanePicked; split <;> simp

@[simp] theorem State.feedDiscGone_quiet (s : State) (n : LaneId) : (State.feedDiscGone s n).quiet = s.quiet := by
  unfold State.feedDiscGone; split <;> simp

@[simp] theorem State.loseArmDisc_quiet (s : State) : (State.loseArmDisc s).quiet = s.quiet := by
  unfold State.loseArmDisc; (repeat' split) <;> simp

@[simp] theorem State.sendReads_quiet (n : LaneId) (l : List Nat) (s : State) : (State.sendReads n l s).quiet = s.quiet := by
  induction l generalizing s with
  | nil => rfl
  | cons x rest ih => simp [State.sendReads, ih]

@[simp] theorem State.loadBegins_quiet (s : State) (i : ImageId) : (State.loadBegins s i).quiet = s.quiet := rfl

@[simp] theorem State.startWork_quiet (s : State) (c : Fin 2) (w : VerifyWork) : (State.startWork s c w).quiet = s.quiet := by
  unfold State.startWork; split <;> simp

@[simp] theorem State.crcRounds_quiet  (l : Nat) (s : State) : (State.crcRounds l s).quiet = s.quiet := by
  induction l generalizing s with
  | zero => rfl
  | succ k ih => unfold State.crcRounds; (repeat' split) <;> simp [ih]

@[simp] theorem State.crcGrants_quiet (s : State) : (State.crcGrants s).quiet = s.quiet := by simp [State.crcGrants]

@[simp] theorem State.verifyFails_quiet (s : State) (n : LaneId) (result : VerifyResult) (reason : FailReason) : (State.verifyFails s n result reason).quiet = s.quiet := by simp [State.verifyFails]

@[simp] theorem State.verifyPasses_quiet (s : State) (n : LaneId) : (State.verifyPasses s n).quiet = s.quiet := by simp [State.verifyPasses]

@[simp] theorem State.startLane_quiet (s : State) (n : LaneId) (speed : Nat) : (State.startLane s n speed).quiet = s.quiet := by simp [State.startLane]

@[simp] theorem State.startScan_quiet  (l : List LaneId) (s : State) : (State.startScan l s).quiet = s.quiet := by
  induction l generalizing s with
  | nil => rfl
  | cons x rest ih => unfold State.startScan; split <;> simp [ih]

@[simp] theorem State.startComputation_quiet (s : State) : (State.startComputation s).quiet = s.quiet := by simp [State.startComputation]

@[simp] theorem State.grantTo_quiet (s : State) (r : Requester) : (State.grantTo s r).quiet = s.quiet := by
  unfold State.grantTo; (repeat' split) <;> simp

@[simp] theorem State.chooseGrant_quiet (s : State) : (State.chooseGrant s).quiet = s.quiet := by
  unfold State.chooseGrant; (repeat' split) <;> simp

@[simp] theorem State.raiseFetch_quiet (s : State) : (State.raiseFetch s).quiet = s.quiet := by
  unfold State.raiseFetch; dsimp only; (repeat' split) <;> simp

@[simp] theorem State.printerFaults_quiet (s : State) (cause : PrinterCause) : (State.printerFaults s cause).quiet = s.quiet := by simp [State.printerFaults]

@[simp] theorem State.startBand_quiet (s : State) (which : BufferId) : (State.startBand s which).quiet = s.quiet := rfl

@[simp] theorem State.tryStartBand_quiet (s : State) : (State.tryStartBand s).quiet = s.quiet := by
  unfold State.tryStartBand; dsimp only; (repeat' split) <;> simp

@[simp] theorem State.enterTrayIn_quiet (s : State) : (State.enterTrayIn s).quiet = s.quiet := by simp [State.enterTrayIn]

@[simp] theorem State.inkCheck_quiet (s : State) : (State.inkCheck s).quiet = s.quiet := by
  unfold State.inkCheck; (repeat' split) <;> simp

@[simp] theorem State.lowInkBlack_quiet (s : State) : (State.lowInkBlack s).quiet = s.quiet := by
  unfold State.lowInkBlack; split <;> simp

@[simp] theorem State.lowInkColour_quiet (s : State) : (State.lowInkColour s).quiet = s.quiet := by
  unfold State.lowInkColour; split <;> simp

@[simp] theorem State.completeLabel_quiet (s : State) : (State.completeLabel s).quiet = s.quiet := by simp [State.completeLabel]

@[simp] theorem State.endTrayOut_quiet (s : State) (disc : Bool) : (State.endTrayOut s disc).quiet = s.quiet := by
  unfold State.endTrayOut; (repeat' split) <;> simp

@[simp] theorem State.printerCleared_quiet (s : State) : (State.printerCleared s).quiet = s.quiet := rfl

@[simp] theorem State.issueStep_quiet (s : State) (v : ArmStep) : (State.issueStep s v).quiet = s.quiet := by
  unfold State.issueStep; split <;> simp

@[simp] theorem State.issueBinPick_quiet (s : State) : (State.issueBinPick s).quiet = s.quiet := by
  unfold State.issueBinPick; split <;> simp

theorem State.goTo_quiet (s : State) (p : Position) (next : State → State) (h : ∀ t, (next t).quiet = t.quiet) :
    (s.goTo p next).quiet = s.quiet := by
  unfold State.goTo; split <;> simp [h]

@[simp] theorem State.armToIdle_quiet (s : State) : (State.armToIdle s).quiet = s.quiet := rfl

@[simp] theorem State.setAside_quiet (s : State) : (State.setAside s).quiet = s.quiet := by
  simp [State.setAside]

@[simp] theorem State.deliver_quiet (s : State) (d : Destination) : (State.deliver s d).quiet = s.quiet := by
  unfold State.deliver; cases d <;> refine State.goTo_quiet _ _ _ fun t => ?_ <;> split <;> simp

@[simp] theorem State.pickFromBin_quiet (s : State) (which : Bin) : (State.pickFromBin s which).quiet = s.quiet := by
  unfold State.pickFromBin; refine State.goTo_quiet _ _ _ fun t => ?_; dsimp only; (repeat' split) <;> simp

@[simp] theorem State.deliverFeed_quiet (s : State) (r : Request) : (State.deliverFeed s r).quiet = s.quiet := by
  unfold State.deliverFeed; (repeat' split) <;> first | (simp; done) | (refine State.goTo_quiet _ _ _ fun t => ?_; split <;> simp)

@[simp] theorem State.armNext_quiet (s : State) : (State.armNext s).quiet = s.quiet := by
  unfold State.armNext; (repeat' split) <;> first | (simp; done) | (refine State.goTo_quiet _ _ _ fun t => ?_; first | (simp; done) | (split <;> simp))

@[simp] theorem State.armContinue_quiet (s : State) : (State.armContinue s).quiet = s.quiet := by
  unfold State.armContinue; split <;> simp

@[simp] theorem State.tellSelected_quiet (s : State) (r : Request) : (State.tellSelected s r).quiet = s.quiet := by
  unfold State.tellSelected; (repeat' split) <;> simp

@[simp] theorem State.takeUp_quiet (s : State) (r : Request) : (State.takeUp s r).quiet = s.quiet := by
  unfold State.takeUp; dsimp only; split <;> simp

@[simp] theorem State.select_quiet (s : State) : (State.select s).quiet = s.quiet := by
  unfold State.select; (repeat' split) <;> simp

@[simp] theorem State.armFaults_quiet (s : State) (cause : ArmCause) (step : Option ArmStep) : (State.armFaults s cause step).quiet = s.quiet := by
  unfold State.armFaults; dsimp only; split <;> simp

@[simp] theorem State.homed_quiet (s : State) : (State.homed s).quiet = s.quiet := by
  unfold State.homed; dsimp only; (repeat' split) <;> simp

@[simp] theorem State.pickedUp_quiet (s : State) (loc : Location) (age : Option Nat) : (State.pickedUp s loc age).quiet = s.quiet := by
  unfold State.pickedUp; (repeat' split) <;> simp

@[simp] theorem State.followPick_quiet (s : State) : (State.followPick s).quiet = s.quiet := by
  unfold State.followPick; (repeat' split) <;> simp

theorem State.when_quiet (s : State) (owed : Bool) (f : State → State) (h : ∀ t, (f t).quiet = t.quiet) :
    (s.when owed f).quiet = s.quiet := by
  unfold State.when; split <;> simp [h]

@[simp] theorem State.settleClaims_quiet (s : State) : (State.settleClaims s).quiet = s.quiet := by
  simp [State.settleClaims, State.when_quiet]

@[simp] theorem State.settleChannel_quiet (s : State) : (State.settleChannel s).quiet = s.quiet := by
  simp [State.settleChannel, State.when_quiet]

@[simp] theorem State.settle_quiet (s : State) : (State.settle s).quiet = s.quiet := by
  simp [State.settle, State.when_quiet]

@[simp] theorem State.settlePart_quiet (s : State) : (State.settlePart s).quiet = s.quiet := by simp [State.settlePart]

@[simp] theorem State.passNext_quiet (s : State) (p : Port) : (State.passNext s p).quiet = s.quiet := rfl

@[simp] theorem State.resetStream_quiet (s : State) (p : Port) : (State.resetStream s p).quiet = s.quiet := by
  unfold State.resetStream; split <;> simp

@[simp] theorem State.killJobs_quiet  (l : List TableId) (s : State) : (State.killJobs l s).quiet = s.quiet := by
  induction l generalizing s with
  | nil => rfl
  | cons x rest ih => unfold State.killJobs; (repeat' split) <;> simp [ih]

@[simp] theorem State.failEveryLoad_quiet (s : State) : (State.failEveryLoad s).quiet = s.quiet := by simp [State.failEveryLoad]

@[simp] theorem State.streamReceives_quiet (s : State) (v : Stream) (k : Nat) : (State.streamReceives s v k).quiet = s.quiet := by
  unfold State.streamReceives; split <;> simp

@[simp] theorem State.readOutbound_quiet (s : State) (p : Port) (slot : ImageId) (position : Nat) (buffer : List Byte) (k : Nat) : (State.readOutbound s p slot position buffer k).quiet = s.quiet := by
  unfold State.readOutbound; (repeat' split) <;> simp

@[simp] theorem State.clearOutstanding_quiet (s : State) (p : Port) : (State.clearOutstanding s p).quiet = s.quiet := rfl

@[simp] theorem State.openImageLoad_quiet (s : State) (p : Port) (i : ImageId) (cls : MediaClass) (size : Nat) (noExport : Bool) : (State.openImageLoad s p i cls size noExport).quiet = s.quiet := by simp [State.openImageLoad]

@[simp] theorem State.openDiscLoad_quiet (s : State) (p : Port) (i : ImageId) (n : LaneId) (cls : MediaClass) (size : Nat) (noExport : Bool) : (State.openDiscLoad s p i n cls size noExport).quiet = s.quiet := by simp [State.openDiscLoad]

@[simp] theorem State.removeImage_quiet (s : State) (i : ImageId) : (State.removeImage s i).quiet = s.quiet := by
  unfold State.removeImage; split <;> simp

@[simp] theorem State.openOutbound_quiet (s : State) (p : Port) (i : ImageId) : (State.openOutbound s p i).quiet = s.quiet := rfl

@[simp] theorem State.openArtworkLoad_quiet (s : State) (p : Port) (i : ArtworkId) (bands : Nat) : (State.openArtworkLoad s p i bands).quiet = s.quiet := by
  unfold State.openArtworkLoad; dsimp only; split <;> simp

@[simp] theorem State.removeArtwork_quiet (s : State) (i : ArtworkId) : (State.removeArtwork s i).quiet = s.quiet := by
  unfold State.removeArtwork; split <;> simp

@[simp] theorem State.finishArtworkLoad_quiet (s : State) (p : Port) (i : ArtworkId) : (State.finishArtworkLoad s p i).quiet = s.quiet := by simp [State.finishArtworkLoad]

@[simp] theorem State.admitJob_quiet (s : State) (k : TableId) (j : Job) : (State.admitJob s k j).quiet = s.quiet := by
  unfold State.admitJob; (repeat' split) <;> simp

@[simp] theorem State.resume_quiet (s : State) (h : Handle) (j : Job) : (State.resume s h j).quiet = s.quiet := by
  unfold State.resume; dsimp only; split <;> simp

@[simp] theorem State.openInFault_quiet (s : State) (n : LaneId) : (State.openInFault s n).quiet = s.quiet := by
  unfold State.openInFault; split <;> simp

@[simp] theorem State.closeInFault_quiet (s : State) (n : LaneId) : (State.closeInFault s n).quiet = s.quiet := by simp [State.closeInFault]

@[simp] theorem State.bringOnline_quiet (s : State) (n : LaneId) : (State.bringOnline s n).quiet = s.quiet := by
  unfold State.bringOnline; dsimp only; (repeat' split) <;> simp

@[simp] theorem State.takeOffline_quiet (s : State) (n : LaneId) : (State.takeOffline s n).quiet = s.quiet := rfl

@[simp] theorem State.faultTray_quiet (s : State) (n : LaneId) (pos : TrayPosition) : (State.faultTray s n pos).quiet = s.quiet := by
  unfold State.faultTray; (repeat' split) <;> simp

@[simp] theorem State.closedByOperator_quiet (s : State) (n : LaneId) : (State.closedByOperator s n).quiet = s.quiet := by
  simp [State.closedByOperator]

@[simp] theorem State.closedAfterPick_quiet (s : State) (n : LaneId) : (State.closedAfterPick s n).quiet = s.quiet := by
  unfold State.closedAfterPick; (repeat' split) <;> simp

@[simp] theorem State.openingTray_quiet (s : State) (n : LaneId) (pos : TrayPosition) : (State.openingTray s n pos).quiet = s.quiet := by
  unfold State.openingTray; split <;> simp

@[simp] theorem State.openTrayReports_quiet (s : State) (n : LaneId) (pos : TrayPosition) : (State.openTrayReports s n pos).quiet = s.quiet := by
  unfold State.openTrayReports; split <;> simp

@[simp] theorem State.closingTray_quiet (s : State) (n : LaneId) (pos : TrayPosition) : (State.closingTray s n pos).quiet = s.quiet := by
  unfold State.closingTray; (repeat' split) <;> simp

@[simp] theorem State.restingTray_quiet (s : State) (n : LaneId) (pos : TrayPosition) : (State.restingTray s n pos).quiet = s.quiet := by
  unfold State.restingTray; split <;> simp

@[simp] theorem State.trayMoves_quiet (s : State) (n : LaneId) (pos : TrayPosition) : (State.trayMoves s n pos).quiet = s.quiet := by
  unfold State.trayMoves; (repeat' split) <;> simp

@[simp] theorem State.probeBlank_quiet (s : State) (n : LaneId) (h : Handle) (j : Job) (cls : MediaClass) (capacity : Nat) : (State.probeBlank s n h j cls capacity).quiet = s.quiet := by
  unfold State.probeBlank; dsimp only; (repeat' split) <;> simp

@[simp] theorem State.probeFed_quiet (s : State) (n : LaneId) (report : MediaReport) : (State.probeFed s n report).quiet = s.quiet := by
  unfold State.probeFed; (repeat' split) <;> simp

@[simp] theorem State.probeUnrecorded_quiet (s : State) (n : LaneId) (report : MediaReport) : (State.probeUnrecorded s n report).quiet = s.quiet := by
  unfold State.probeUnrecorded; dsimp only; (repeat' split) <;> simp

@[simp] theorem State.finalize_quiet (s : State) (n : LaneId) : (State.finalize s n).quiet = s.quiet := by simp [State.finalize]

@[simp] theorem State.takeCredit_quiet (s : State) (n : LaneId) (freed committed : Nat) : (State.takeCredit s n freed committed).quiet = s.quiet := by
  unfold State.takeCredit; dsimp only; (repeat' split) <;> simp

@[simp] theorem State.finalized_quiet (s : State) (n : LaneId) (d : Disc) : (State.finalized s n d).quiet = s.quiet := by
  unfold State.finalized; dsimp only; (repeat' split) <;> simp

@[simp] theorem State.verifyMatches_quiet (s : State) (n : LaneId) (k : Fin 2) (set : VerifySet) (next : Nat) (outstanding : List Nat) (matched index : Nat) : (State.verifyMatches s n k set next outstanding matched index).quiet = s.quiet := by
  unfold State.verifyMatches; dsimp only; (repeat' split) <;> simp

@[simp] theorem State.faultTimeout_quiet (s : State) (n : LaneId) : (State.faultTimeout s n).quiet = s.quiet := by
  unfold State.faultTimeout; split <;> simp

@[simp] theorem State.segmentDone_quiet (s : State) (n : LaneId) (slot : ImageId) (k : Nat) : (State.segmentDone s n slot k).quiet = s.quiet := rfl

@[simp] theorem State.quarterDone_quiet (s : State) (slot : ArtworkId) (band q : Nat) (which : BufferId) : (State.quarterDone s slot band q which).quiet = s.quiet := by
  unfold State.quarterDone; (repeat' split) <;> simp

@[simp] theorem State.chunkDone_quiet (s : State) (p : Port) (slot : ImageId) (k : Nat) : (State.chunkDone s p slot k).quiet = s.quiet := by
  unfold State.chunkDone; split <;> simp

@[simp] theorem State.deliverTransfer_quiet (s : State) (t : Transfer) : (State.deliverTransfer s t).quiet = s.quiet := by
  unfold State.deliverTransfer; (repeat' split) <;> simp

@[simp] theorem State.pickedAt_quiet (s : State) (loc : Location) : (State.pickedAt s loc).quiet = s.quiet := by
  unfold State.pickedAt; split <;> simp

@[simp] theorem State.dropServed_quiet (s : State) : (State.dropServed s).quiet = s.quiet := by
  unfold State.dropServed; split <;> simp

@[simp] theorem State.placedInTray_quiet (s : State) (n : LaneId) : (State.placedInTray s n).quiet = s.quiet := by simp [State.placedInTray]

@[simp] theorem State.placedOnPrinter_quiet (s : State) : (State.placedOnPrinter s).quiet = s.quiet := by simp [State.placedOnPrinter]

@[simp] theorem State.placedInBin_quiet (s : State) (fate : Fate) : (State.placedInBin s fate).quiet = s.quiet := by simp [State.placedInBin]

@[simp] theorem State.endStep_quiet (s : State) : (State.endStep s).quiet = s.quiet := rfl

@[simp] theorem State.doorReleases_quiet (s : State) : (State.doorReleases s).quiet = s.quiet := by
  unfold State.doorReleases; dsimp only; (repeat' split) <;> simp

@[simp] theorem State.gripEmptied_quiet (s : State) : (State.gripEmptied s).quiet = s.quiet := by
  unfold State.gripEmptied; (repeat' split) <;> simp

@[simp] theorem State.gripFilled_quiet (s : State) : (State.gripFilled s).quiet = s.quiet := by
  unfold State.gripFilled; split <;> simp

@[simp] theorem State.gripChange_quiet (s : State) (before : Nat) : (State.gripChange s before).quiet = s.quiet := by
  unfold State.gripChange; (repeat' split) <;> simp

@[simp] theorem State.homeReads_quiet (s : State) : (State.homeReads s).quiet = s.quiet := by
  unfold State.homeReads; split <;> simp

@[simp] theorem State.lidOpens_quiet (s : State) : (State.lidOpens s).quiet = s.quiet := by
  unfold State.lidOpens; split <;> simp

@[simp] theorem State.printerHomeReads_quiet (s : State) : (State.printerHomeReads s).quiet = s.quiet := by
  unfold State.printerHomeReads; split <;> simp

@[simp] theorem State.recheckInk_quiet (s : State) : (State.recheckInk s).quiet = s.quiet := by
  unfold State.recheckInk; split <;> simp

@[simp] theorem State.blackChange_quiet (s : State) (on : Bool) : (State.blackChange s on).quiet = s.quiet := by
  unfold State.blackChange; split <;> simp

@[simp] theorem State.colourChange_quiet (s : State) (on : Bool) : (State.colourChange s on).quiet = s.quiet := by
  unfold State.colourChange; split <;> simp

@[simp] theorem State.bandEnds_quiet (s : State) (which : BufferId) : (State.bandEnds s which).quiet = s.quiet := by
  unfold State.bandEnds; split <;> simp

@[simp] theorem State.printerErrorTaken_quiet (s : State) (code : Byte) : (State.printerErrorTaken s code).quiet = s.quiet := by
  unfold State.printerErrorTaken; split <;> simp

/-! ## A position report recorded in a lane -/

@[simp] theorem Lane.reported_state (l : Lane) (pos : TrayPosition) : (l.reported pos).state = l.state := rfl
@[simp] theorem Lane.reported_held (l : Lane) (pos : TrayPosition) : (l.reported pos).held = l.held := rfl
@[simp] theorem Lane.reported_identity (l : Lane) (pos : TrayPosition) : (l.reported pos).identity = l.identity := rfl
@[simp] theorem Lane.reported_purpose (l : Lane) (pos : TrayPosition) : (l.reported pos).purpose = l.purpose := rfl
@[simp] theorem Lane.reported_startUp (l : Lane) (pos : TrayPosition) : (l.reported pos).startUp = l.startUp := rfl
@[simp] theorem Lane.reported_job (l : Lane) (pos : TrayPosition) : (l.reported pos).job = l.job := rfl
@[simp] theorem Lane.reported_blankSpeeds (l : Lane) (pos : TrayPosition) : (l.reported pos).blankSpeeds = l.blankSpeeds := rfl
@[simp] theorem Lane.reported_master (l : Lane) (pos : TrayPosition) : (l.reported pos).master = l.master := rfl
@[simp] theorem Lane.reported_granted (l : Lane) (pos : TrayPosition) : (l.reported pos).granted = l.granted := rfl
@[simp] theorem Lane.reported_sent (l : Lane) (pos : TrayPosition) : (l.reported pos).sent = l.sent := rfl
@[simp] theorem Lane.reported_committed (l : Lane) (pos : TrayPosition) : (l.reported pos).committed = l.committed := rfl
@[simp] theorem Lane.reported_credits (l : Lane) (pos : TrayPosition) : (l.reported pos).credits = l.credits := rfl
@[simp] theorem Lane.reported_failCount (l : Lane) (pos : TrayPosition) : (l.reported pos).failCount = l.failCount := rfl
@[simp] theorem Lane.reported_quarantine (l : Lane) (pos : TrayPosition) : (l.reported pos).quarantine = l.quarantine := rfl
@[simp] theorem Lane.reported_timer (l : Lane) (pos : TrayPosition) : (l.reported pos).timer = l.timer := rfl
@[simp] theorem Lane.reported_faultMove (l : Lane) (pos : TrayPosition) : (l.reported pos).faultMove = l.faultMove := rfl
@[simp] theorem Lane.reported_report (l : Lane) (pos : TrayPosition) : (l.reported pos).report = some pos := rfl

/-- Only the position that answers a tray command ends the wait for its answer (R68). -/
theorem Lane.reported_unanswered (l : Lane) (pos : TrayPosition) (v : TrayCommand) :
    (l.reported pos).unanswered = some v ↔ l.unanswered = some v ∧ v.answer ≠ pos := by
  simp [Lane.reported, Option.filter_eq_some_iff]

/-- A tray command held back stays so unless the report is the position that it asks for (log 9). -/
theorem Lane.reported_heldBack (l : Lane) (pos : TrayPosition) (v : TrayCommand) :
    (l.reported pos).heldBack = some v ↔ l.heldBack = some v ∧ v.answer ≠ pos := by
  simp [Lane.reported, Option.filter_eq_some_iff]

/-- Nothing is sent while a tray command is unanswered, or when none is held back (R68). -/
theorem State.releaseTray_eq_self (s : State) (n : LaneId)
    (h : s.lanes[n].unanswered ≠ none ∨ s.lanes[n].heldBack = none) : s.releaseTray n = s := by
  unfold State.releaseTray; split
  · simp_all
  · rfl

end Sys2Proof.Machine
end

