-- ==== Sys2Proof/Laws/Memory.lean ====
section
/-! SUPPORT. Image memory: every write keeps the canonical form, a read after a write, and the page accounts of an allocation. -/

namespace Sys2Proof.Machine

/-! ## The canonical form -/

/-- A memory that rises from `lo` rises from anything below it. -/
theorem memRisesFrom_weaken {m : Memory} {lo : Nat} (h : memRisesFrom (some lo) m = true) : memRisesFrom none m = true := by
  cases m with
  | nil => rfl
  | cons e rest =>
    obtain ⟨a, v⟩ := e
    simp only [memRisesFrom, Bool.and_eq_true, decide_eq_true_eq] at h ⊢
    exact ⟨⟨trivial, h.1.2⟩, h.2⟩

theorem memRisesFrom_mono {m : Memory} {lo lo' : Nat} (hl : lo' ≤ lo) (h : memRisesFrom (some lo) m = true) :
    memRisesFrom (some lo') m = true := by
  cases m with
  | nil => rfl
  | cons e rest =>
    obtain ⟨a, v⟩ := e
    simp only [memRisesFrom, Bool.and_eq_true, decide_eq_true_eq] at h ⊢
    exact ⟨⟨by omega, h.1.2⟩, h.2⟩

/-- The bound of `memRisesFrom`, as a number or none, lies below an address. -/
def boundBelow : Option Nat → Nat → Prop
  | none, _ => True
  | some l, x => l < x

theorem memRisesFrom_write {m : Memory} {lo : Option Nat} (x : Nat) (w : Byte) (hx : boundBelow lo x)
    (h : memRisesFrom lo m = true) : memRisesFrom lo (memWrite m x w) = true := by
  induction m generalizing lo with
  | nil =>
    by_cases hw : w = Config.unwritten
    · simp [memWrite, hw, memRisesFrom]
    · cases lo <;> simp_all [memWrite, memRisesFrom, boundBelow]
  | cons e rest ih =>
    obtain ⟨a, v⟩ := e
    simp only [memRisesFrom, Bool.and_eq_true, decide_eq_true_eq] at h
    obtain ⟨⟨hlo, hv⟩, hr⟩ := h
    unfold memWrite
    by_cases h1 : x < a
    · by_cases hw : w = Config.unwritten
      · cases lo <;> simp_all [memRisesFrom]
      · cases lo <;> simp_all [memRisesFrom, boundBelow]
    · by_cases h2 : x = a
      · subst h2
        by_cases hw : w = Config.unwritten
        · simp only [lt_self_iff_false, if_false, if_true, hw]
          cases lo with
          | none => exact memRisesFrom_weaken hr
          | some l => exact memRisesFrom_mono (by simp_all; omega) hr
        · cases lo <;> simp_all [memRisesFrom]
      · have hb : boundBelow (some a) x := by simp only [boundBelow]; omega
        have hrest := ih hb hr
        rw [if_neg h1, if_neg h2]
        simp only [memRisesFrom, Bool.and_eq_true, decide_eq_true_eq]
        exact ⟨⟨hlo, hv⟩, hrest⟩

/-- A write keeps the canonical form. -/
theorem memWrite_wf {m : Memory} (x : Nat) (w : Byte) (h : Memory.wf m = true) : Memory.wf (memWrite m x w) = true :=
  memRisesFrom_write x w trivial h

/-- Storing bytes in a slot keeps the canonical form. -/
theorem writeSlot_wf {m : Memory} (pages : List Extent) (off : Nat) (bytes : List Byte) (h : Memory.wf m = true) :
    Memory.wf (writeSlot m pages off bytes) = true := by
  induction bytes generalizing m off with
  | nil => exact h
  | cons b rest ih => exact ih _ (memWrite_wf _ _ h)

/-- Storing a digest keeps the canonical form. -/
theorem storeDigest_wf (s : State) (v : ImageSlot) (i : Nat) (crc : Word32) (h : Memory.wf s.mem = true) :
    Memory.wf (s.storeDigest v i crc).mem = true := writeSlot_wf _ _ _ h

/-! ## A read after a write -/

/-- Below every listed address a memory reads as unwritten. -/
theorem memRead_below {m : Memory} {lo x : Nat} (hx : x ≤ lo) (h : memRisesFrom (some lo) m = true) :
    memRead m x = Config.unwritten := by
  induction m generalizing lo with
  | nil => rfl
  | cons e rest ih =>
    obtain ⟨a, v⟩ := e
    simp only [memRisesFrom, Bool.and_eq_true, decide_eq_true_eq] at h
    obtain ⟨⟨hlo, hv⟩, hr⟩ := h
    unfold memRead
    rw [if_neg (by omega)]
    exact ih (by omega) hr

theorem memRead_write_from {m : Memory} {lo : Option Nat} (x y : Nat) (w : Byte) (h : memRisesFrom lo m = true) :
    memRead (memWrite m x w) y = if y = x then w else memRead m y := by
  induction m generalizing lo with
  | nil =>
    by_cases hw : w = Config.unwritten
    · simp [memWrite, memRead, hw]
    · by_cases hy : y = x <;> simp [memWrite, memRead, hw, hy]
  | cons e rest ih =>
    obtain ⟨a, v⟩ := e
    simp only [memRisesFrom, Bool.and_eq_true, decide_eq_true_eq] at h
    obtain ⟨⟨hlo, hv⟩, hr⟩ := h
    unfold memWrite
    by_cases h1 : x < a
    · by_cases hw : w = Config.unwritten
      · rw [if_pos h1, if_pos hw]
        by_cases hy : y = x
        · subst hy
          rw [if_pos rfl, hw]
          unfold memRead
          rw [if_neg (by omega)]
          exact memRead_below (by omega) hr
        · rw [if_neg hy]
      · rw [if_pos h1, if_neg hw]
        by_cases hy : y = x
        · simp [memRead, hy]
        · simp [memRead, hy]
    · by_cases h2 : x = a
      · subst h2
        by_cases hw : w = Config.unwritten
        · simp only [lt_self_iff_false, if_false, if_true, hw]
          by_cases hy : y = x
          · subst hy
            rw [if_pos rfl]
            exact memRead_below (le_refl _) hr
          · simp [memRead, hy]
        · by_cases hy : y = x <;> simp [memRead, hy, hw]
      · simp only [h1, h2, if_false]
        unfold memRead
        by_cases hya : y = a
        · subst hya
          simp [Ne.symm h2]
        · simp only [hya, if_false]
          exact ih hr

/-- A read after a write gives the byte written, at its address, and what stood there before, at every other one. -/
theorem memRead_memWrite {m : Memory} (x y : Nat) (w : Byte) (h : Memory.wf m = true) :
    memRead (memWrite m x w) y = if y = x then w else memRead m y := memRead_write_from x y w h

/-! ## Pages -/

@[simp] theorem pagesIn_append (a b : List Extent) : pagesIn (a ++ b) = pagesIn a + pagesIn b := by
  induction a with
  | nil => simp [pagesIn]
  | cons e rest ih => simp [pagesIn, ih]; omega

/-- The pages taken and the pages left are the pages there were. -/
theorem takePages_total (pool : List Extent) (n : Nat) :
    pagesIn (takePages pool n).1 + pagesIn (takePages pool n).2 = pagesIn pool := by
  induction pool generalizing n with
  | nil => cases n <;> rfl
  | cons e rest ih =>
    cases n with
    | zero => simp [takePages, pagesIn]
    | succ n =>
      by_cases h : e.len ≤ n + 1
      · have := ih (n + 1 - e.len)
        simp only [takePages, h, if_true, pagesIn]
        omega
      · simp only [takePages, h, if_false, pagesIn]
        omega

/-- As many pages are taken as are asked for, when the pool has them. -/
theorem takePages_count (pool : List Extent) (n : Nat) (h : n ≤ pagesIn pool) : pagesIn (takePages pool n).1 = n := by
  induction pool generalizing n with
  | nil =>
    have : n = 0 := by simpa [pagesIn] using h
    subst this
    rfl
  | cons e rest ih =>
    cases n with
    | zero => rfl
    | succ n =>
      simp only [pagesIn] at h
      by_cases he : e.len ≤ n + 1
      · have := ih (n + 1 - e.len) (by omega)
        simp only [takePages, he, if_true, pagesIn]
        omega
      · simp only [takePages, he, if_false, pagesIn]

end Sys2Proof.Machine
end

