-- ==== Sys2Proof/Laws/Operations.lean ====
section
/-! SUPPORT. What some shared operations can do: the release of CRC channels and the READs of a grant (Verification, R115, R120),
the arm's next step at a bin (Media Handling, R133, R134), notices to several ports (Client Links, R185), the jobs that a READY image
makes ACTIVE (R29), and the highest and the lowest of a list of speeds (R99). -/

namespace Sys2Proof.Machine

/-- The entries released leave lanes and messages alone; a channel that one of them holds is FREE, the others are as before
(R115). -/
theorem State.releaseAll_spec (l : List VerifyEntry) (s : State) :
    (State.releaseAll l s).lanes = s.lanes ∧ (State.releaseAll l s).out = s.out ∧ ∀ c : Fin 2,
      ((∃ e ∈ l, e.channel = some c) → (State.releaseAll l s).crc[c] = .free) ∧
        ((∀ e ∈ l, e.channel ≠ some c) → (State.releaseAll l s).crc[c] = s.crc[c]) := by
  induction l generalizing s with
  | nil => simp [State.releaseAll]
  | cons e rest ih =>
    obtain ⟨hl, ho, hc⟩ := ih (s.releaseChannel e)
    have hkeep : (s.releaseChannel e).lanes = s.lanes ∧ (s.releaseChannel e).out = s.out := by
      unfold State.releaseChannel; split <;> simp
    unfold State.releaseAll
    refine ⟨hl.trans hkeep.1, ho.trans hkeep.2, fun c => ⟨fun ⟨x, hx, hxc⟩ => ?_, fun h => ?_⟩⟩
    · by_cases hr : ∃ y ∈ rest, y.channel = some c
      · exact (hc c).1 hr
      · obtain rfl : x = e := (List.mem_cons.mp hx).resolve_right fun h => hr ⟨x, h, hxc⟩
        rw [(hc c).2 fun y hy hyc => hr ⟨y, hy, hyc⟩]
        simp [State.releaseChannel, hxc, State.setCrc]
    · rw [(hc c).2 fun y hy => h y (List.mem_cons_of_mem _ hy)]
      have he := h e List.mem_cons_self
      unfold State.releaseChannel
      split
      · rfl
      · rename_i d hd
        have hdc : d.val ≠ c.val := fun h => he (by rw [hd, Fin.ext h])
        show (s.crc.set d.val .free d.isLt)[c.val] = s.crc[c.val]
        rw [Vector.getElem_set_ne]
        exact hdc

/-- The next step of an arm that serves a FEED at its source bin, no disc picked: the discs of a double pick go back while the bin is
present, else PICK while it can be picked from, else the FEED is set aside (R133, R134). -/
theorem State.armContinue_atBin (s : State) (which : Bin) (r : Request) (hstate : s.arm.state = .serving)
    (hstep : s.arm.step = none) (hposition : s.arm.position = .known (.bin which)) (hserved : s.served = some r)
    (hkind : r.kind = .feed) (hdisc : r.disc = none) (hsource : s.arm.sourceBin = some which) :
    s.armContinue =
      if s.arm.returning then (if (s.binRecord which).present then s.issueStep .place else s)
      else if (s.binRecord which).present && !(s.binRecord which).fault then s.issueBinPick
      else s.setAside := by
  simp [State.armContinue, hstate, hstep, State.armNext, hserved, hkind, hdisc, hsource, State.pickFromBin, State.goTo, hposition]

/-- A LANE or TOWER notice changes port records alone (R185). -/
theorem State.raise_ports_only (s : State) (g : Group) (v : Notice) : s.raise g v = { s with ports := (s.raise g v).ports } := by
  have h : ∀ (l : List Port) (u : State), State.raiseTo g v l u = { u with ports := (State.raiseTo g v l u).ports } := by
    intro l
    induction l with
    | nil => intro u; rfl
    | cons p rest ih => intro u; rw [State.raiseTo, ih]; split <;> rfl
  exact h _ _

/-- The READs of a list go to the drive in the list's order, and nothing else changes (R120). -/
theorem State.sendReads_foldl (n : LaneId) (l : List Nat) (s : State) :
    State.sendReads n l s = l.foldl (fun u i => u.sendDrive n (.read i)) s := by
  induction l generalizing s with
  | nil => rfl
  | cons i rest ih => rw [State.sendReads, ih]; rfl

/-- The QUEUED jobs of an image, given in rank order, become ACTIVE in that order, each with JOB ACTIVE to its owner and a claim
attempt owed (R29). -/
theorem State.activateRanks_foldl (i : ImageId) (ranks : List Nat) (waiting : List (Handle × Job)) (s : State)
    (hmem : ∀ e, e ∈ waiting ↔ s.jobs[e.1.index] = ⟨e.1.generation, some e.2⟩ ∧ e.2.image = i ∧ e.2.state = .queued)
    (hsorted : waiting.Pairwise fun a b => a.2.rank < b.2.rank) (hranks : ∀ e ∈ waiting, e.2.rank ∈ ranks)
    (hrising : ranks.Pairwise (· < ·)) :
    State.activateRanks i ranks s = waiting.foldl (fun u e => ((u.setJobEntry e.1.index
      ⟨e.1.generation, some { e.2 with state := .active }⟩).notify e.2.owner (.jobActive e.1)).oweClaim) s := by
  induction ranks generalizing waiting s with
  | nil =>
    obtain rfl : waiting = [] := List.eq_nil_iff_forall_not_mem.mpr fun e he => by simpa using hranks e he
    rfl
  | cons r rest ih =>
    rw [List.pairwise_cons] at hrising
    rw [State.activateRanks]
    split
    · rename_i hnone
      refine ih waiting s hmem hsorted (fun e he => ?_) hrising.2
      rcases List.mem_cons.mp (hranks e he) with hr | hr
      · rw [List.find?_eq_none] at hnone
        have := hnone e ((State.mem_liveJobs s e).2 ((hmem e).1 he).1)
        simp [hr, (hmem e).1 he] at this
      · exact hr
    · rename_i h j hsome
      have hp := List.find?_some hsome
      have hj := (State.mem_liveJobs s (h, j)).1 (List.mem_of_find?_eq_some hsome)
      simp only [Bool.and_eq_true, decide_eq_true_eq] at hp
      have hw : (h, j) ∈ waiting := (hmem (h, j)).2 ⟨hj, hp.1.2, hp.2⟩
      cases waiting with
      | nil => simp at hw
      | cons e w =>
        rw [List.pairwise_cons] at hsorted
        obtain rfl : (h, j) = e := by
          refine (List.mem_cons.mp hw).resolve_right fun hh => ?_
          have hlt := hsorted.1 _ hh
          rcases List.mem_cons.mp (hranks e List.mem_cons_self) with hr | hr
          · simp only at hlt; omega
          · have := hrising.1 _ hr; simp only at hlt; omega
        have hof : s.jobOf h = some j := by simp only at hj; simp [State.jobOf, hj]
        have hmod : s.modJob h (fun j => { j with state := .active }) =
            s.setJobEntry h.index ⟨h.generation, some { j with state := .active }⟩ := by simp [State.modJob, hof]
        rw [List.foldl_cons, hmod]
        refine ih w _ (fun e => ?_) hsorted.2 (fun e he => ?_) hrising.2
        · show _ ↔ (s.jobs.set h.index.1 ⟨h.generation, some { j with state := .active }⟩ h.index.isLt)[e.1.index] = _ ∧ _ ∧ _
          by_cases hi : e.1.index = h.index
          · have hnot : e ∉ w := fun he => by
              have hlt := hsorted.1 _ he
              have hentry := ((hmem e).1 (List.mem_cons_of_mem _ he)).1
              simp only [hi, show s.jobs[h.index] = _ from hj, JobEntry.mk.injEq, Option.some.injEq] at hentry
              simp [← hentry.2] at hlt
            refine ⟨fun he => absurd he hnot, fun ⟨hentry, _, hqueued⟩ => ?_⟩
            have hset : (s.jobs.set h.index.1 ⟨h.generation, some { j with state := .active }⟩ h.index.isLt)[h.index] =
              (⟨h.generation, some { j with state := .active }⟩ : JobEntry) := by
                show (s.jobs.set h.index.1 _ h.index.isLt)[h.index.1] = _
                simp
            simp only [hi, hset, JobEntry.mk.injEq, Option.some.injEq] at hentry
            simp [← hentry.2] at hqueued
          · have hkeep : (s.jobs.set h.index.1 ⟨h.generation, some { j with state := .active }⟩ h.index.isLt)[e.1.index] =
              s.jobs[e.1.index] := by
                show (s.jobs.set h.index.1 _ h.index.isLt)[e.1.index.1] = s.jobs[e.1.index.1]
                rw [Vector.getElem_set_ne]
                exact fun hh => hi (Fin.ext hh.symm)
            rw [hkeep, ← hmem e]
            exact ⟨List.mem_cons_of_mem _, fun he => (List.mem_cons.mp he).resolve_left fun hh => hi (by rw [hh])⟩
        · refine (List.mem_cons.mp (hranks e (List.mem_cons_of_mem _ he))).resolve_left fun hr => ?_
          have := hsorted.1 _ he
          simp only at this; omega

/-- The highest value of a list is in it, and none is higher (R99). -/
theorem maxOf_spec (l : List Nat) : (∀ v, maxOf l = some v ↔ v ∈ l ∧ ∀ w ∈ l, w ≤ v) ∧ (maxOf l = none ↔ l = []) := by
  induction l with
  | nil => simp [maxOf]
  | cons a rest ih =>
    unfold maxOf
    cases h : maxOf rest with
    | none =>
      obtain rfl := ih.2.mp h
      simp only [Option.some.injEq, List.mem_singleton, forall_eq, reduceCtorEq, List.cons_ne_nil, iff_self, and_true]
      exact fun v => ⟨fun hv => ⟨hv.symm, hv.le⟩, fun hv => hv.1.symm⟩
    | some w =>
      have hw := (ih.1 w).mp h
      refine ⟨fun v => ?_, by simp⟩
      simp only [Option.some.injEq, List.mem_cons, forall_eq_or_imp]
      by_cases hlt : w < a
      · rw [if_pos hlt]
        refine ⟨fun hv => hv ▸ ⟨.inl rfl, le_refl _, fun x hx => by have := hw.2 x hx; omega⟩, fun ⟨hv, hav, hle⟩ => ?_⟩
        rcases hv with hv | hv
        · exact hv.symm
        · have := hw.2 v hv; omega
      · rw [if_neg hlt]
        refine ⟨fun hv => hv ▸ ⟨.inr hw.1, by omega, hw.2⟩, fun ⟨hv, hav, hle⟩ => ?_⟩
        have := hle w hw.1
        rcases hv with hv | hv
        · omega
        · have := hw.2 v hv; omega

/-- The lowest value of a list is in it, and none is lower (R99). -/
theorem minOf_spec (l : List Nat) : (∀ v, minOf l = some v ↔ v ∈ l ∧ ∀ w ∈ l, v ≤ w) ∧ (minOf l = none ↔ l = []) := by
  induction l with
  | nil => simp [minOf]
  | cons a rest ih =>
    unfold minOf
    cases h : minOf rest with
    | none =>
      obtain rfl := ih.2.mp h
      simp only [Option.some.injEq, List.mem_singleton, forall_eq, reduceCtorEq, List.cons_ne_nil, iff_self, and_true]
      exact fun v => ⟨fun hv => ⟨hv.symm, hv.symm.le⟩, fun hv => hv.1.symm⟩
    | some w =>
      have hw := (ih.1 w).mp h
      refine ⟨fun v => ?_, by simp⟩
      simp only [Option.some.injEq, List.mem_cons, forall_eq_or_imp]
      by_cases hlt : a < w
      · rw [if_pos hlt]
        refine ⟨fun hv => hv ▸ ⟨.inl rfl, le_refl _, fun x hx => by have := hw.2 x hx; omega⟩, fun ⟨hv, hav, hle⟩ => ?_⟩
        rcases hv with hv | hv
        · exact hv.symm
        · have := hw.2 v hv; omega
      · rw [if_neg hlt]
        refine ⟨fun hv => hv ▸ ⟨.inr hw.1, by omega, hw.2⟩, fun ⟨hv, hav, hle⟩ => ?_⟩
        have := hle w hw.1
        rcases hv with hv | hv
        · omega
        · have := hw.2 v hv; omega

end Sys2Proof.Machine
end

