-- ==== Sys2Proof/WellFormed.lean ====
section
/-! DEFINITION. Which commands the ports can bring: the limits that the layouts of Formats and R194 put on the operands of a
row, as far as they do not depend on the state. A message that breaks one of R194's limits is taken as malformed by the row's
meaning (Machine/DriveLanes.lean); the checks themselves stand in Machine/Operands.lean. -/

namespace Sys2Proof

open Machine

/-- The command is one that a port can bring. -/
def Instr.wellFormed : Instr → Bool
  | .putCommands _ records => putCommandsOk records
  | .bulkWrite _ bytes => bulkWriteOk bytes
  | .ident _ buffer burnsL burnsM => identOk buffer burnsL burnsM
  | .media _ report => mediaOk report
  | .readData _ _ data => readDataOk data
  | .sensorScan _ order => scanOrderOk order
  | .powerOnReset | .linkReset _ | .linkResetRelease _ | .takeNotices _ _ | .bulkRead _ _ | .linkStatus _
  | .unknownTransaction _ | .replyReturn _ | .badCommand _ | .loadImage _ | .loadFromDisc _ | .deleteImage _
  | .protectImage _ | .unprotectImage _ | .markNoExport _ | .exportImage _ | .loadArtwork _ | .deleteArtwork _
  | .submitJob _ | .pauseJob _ | .resumeJob _ | .cancelJob _ | .killJob _ | .openTray _ | .closeTray _ | .laneOnline _
  | .laneOffline _ | .clearLane _ | .setFeedBudget _ | .setBinClass _ | .clearBinFault _ | .clearArmFault _
  | .clearPrinterFault _ | .setPrintParams _ | .setInkCapacity _ | .setNoticeMask _ | .setAttention _ | .towerReset _ _
  | .attentionHoldExpiry _ | .imageStagingWrite _ _ | .artworkStagingWrite _ _ | .trayState _ _ | .credit _ _ _
  | .bufferEmpty _ | .writeRecovered _ | .writeError _ | .finalizeDone _ | .readFail _ _ | .error _ _
  | .driveMalformedMessage _ | .laneTimerExpiry _ | .transferCompletion | .armStepDone | .armDriverFault | .armStepTimeout
  | .trayDone _ | .bandDone _ | .temp _ | .printerError _ | .printerMalformedReport | .printerTimeout
  | .bandWaitExpiry => true

end Sys2Proof
end

