-- ==== Sys2Proof/Tests/Slice0.lean ====
section
/-! SUPPORT. Tests: the smoke test of WellFormed, worked examples of the manual, one step of chosen commands, and for every statement
with hypotheses a state and operands that meet them together. -/

open Sys2Proof Sys2Proof.Machine

namespace Sys2Proof.Tests

set_option Elab.async false

/-! ## WellFormed refuses an ill-formed command for each check -/

theorem test_ill_formed_put_commands :
    Instr.wellFormed (.putCommands 0 (List.replicate 256 (Vector.replicate 16 0))) = false := by decide +kernel

theorem test_ill_formed_ident_buffer : Instr.wellFormed (.ident 0 15 true false) = false := by decide

theorem test_ill_formed_ident_buffer_high : Instr.wellFormed (.ident 0 257 true false) = false := by decide

theorem test_ill_formed_ident_classes : Instr.wellFormed (.ident 0 64 false false) = false := by decide

theorem test_ill_formed_media_order : Instr.wellFormed (.media 0 (.blank .l 1 [8, 4])) = false := by decide

theorem test_ill_formed_media_list : Instr.wellFormed (.media 0 (.blank .m 1 [10])) = false := by decide

theorem test_ill_formed_media_empty : Instr.wellFormed (.media 0 (.blank .l 1 [])) = false := by decide

theorem test_ill_formed_read_data : Instr.wellFormed (.readData 0 0 []) = false := by decide

theorem test_ill_formed_scan_order : Instr.wellFormed (.sensorScan 0 [.keyLock, .keyLock]) = false := by decide

/-- BULK_WRITE's count has four bytes: 4,294,967,296 bytes are refused. -/
theorem test_ill_formed_bulk_write : Instr.wellFormed (.bulkWrite 0 (List.replicate 4294967296 0)) = false := by
  simp only [Instr.wellFormed, bulkWriteOk, List.length_replicate]; decide

theorem test_well_formed : ([.ident 0 256 true false, .media 0 (.blank .l 1 [4, 8, 48]), .readData 0 0 [1],
    .putCommands 0 [Vector.replicate 16 0], .sensorScan 0 [.keyLock, .keyService]] : List Instr).all Instr.wellFormed = true := by
  decide

/-! ## Worked examples of the manual -/

/-- R116: the check value of "123456789". -/
theorem test_crc_check_value : crc32 [0x31, 0x32, 0x33, 0x34, 0x35, 0x36, 0x37, 0x38, 0x39] = 0xCBF43926 := by decide +kernel

/-- R168: the worked strobe widths. -/
theorem test_strobe_widths : [strobeWidth 180 3 80 70 .normal, strobeWidth 180 3 80 78 .normal, strobeWidth 180 3 80 104 .normal,
    strobeWidth 180 3 80 116 .normal, strobeWidth 180 3 80 10 .normal, strobeWidth 180 8 80 0 .fine, strobeWidth 180 8 80 0 .draft,
    strobeWidth 120 15 40 119 .normal] = [183, 180, 171, 166, 206, 260, 240, 120] := by decide

/-- R119: 10,682 segments with interval 64 give 168 indices, the last one 10,681. -/
theorem test_verify_set : (VerifySet.mk 10682 (some 64)).size = 168 ∧ (VerifySet.mk 10682 (some 64)).index 166 = 10624 ∧
    (VerifySet.mk 10682 (some 64)).index 167 = 10681 ∧ (VerifySet.mk 1 (some 64)).size = 1 := by decide

/-- R2: segments and pages of the largest images, and of the largest artwork. -/
theorem test_image_pages : imagePages 1073741824 = 1025 ∧ imagePages 9126805504 = 8705 ∧ segmentCount 9126805504 = 139264 ∧
    artworkPages 64 = 16 := by decide

/-- R116: the last segment of an image of 700,000,000 bytes has 9,984 bytes. -/
theorem test_last_segment : segmentCount 700000000 = 10682 ∧ segmentLength 700000000 10682 10681 = 9984 := by decide

/-- R97: demands of the classes' highest speeds. -/
theorem test_demands : demandOf .l 48 = 7200 ∧ demandOf .m 24 = 32400 := by decide

/-- R2: a READY slot of 8,705 pages with 7,010 free counts 15,715; the replacement leaves 7,010. -/
theorem test_replacement_pages : pagesIn (takePages ([⟨0, 7010⟩] ++ [⟨7010, 8705⟩]) 8705).2 = 7010 := by decide

/-- R153: the key positions of the two contacts. -/
theorem test_key_positions : keyOf false false = .run ∧ keyOf true false = .lock ∧ keyOf false true = .service ∧
    keyOf true true = .lock := by decide

/-- Formats: messages read as the rows they bring; a message of a kind or a length that Formats does not have is malformed. -/
theorem test_drive_messages : decodeDriveMessage 3 [16, 0, 1, 3] = .ident 3 256 true true ∧
    decodeDriveMessage 3 [19, 2, 0, 5, 0, 0] = .credit 3 2 5 ∧ decodeDriveMessage 3 [26, 9] = .error 3 9 ∧
    decodeDriveMessage 3 [17, 3] = .driveMalformedMessage 3 ∧ decodeDriveMessage 3 [20, 0] = .driveMalformedMessage 3 := by
  decide

theorem test_printer_reports : decodePrinterReport [16, 1] = .trayDone true ∧ decodePrinterReport [17, 5] = .bandDone 5 ∧
    decodePrinterReport [16, 2] = .printerMalformedReport := by decide

/-! ## A state to speak of -/

/-- A command record: the code, tag 7 and the parameter bytes from byte 2 on. -/
def record (code : Nat) (params : List Nat) : CommandRecord :=
  let b := fun i => byteOf (params.getD i 0)
  #v[byteOf code, 7, b 0, b 1, b 2, b 3, b 4, b 5, b 6, b 7, b 8, b 9, b 10, b 11, b 12, b 13]

/-- The command stands outstanding at the port. -/
def withCommand (s : State) (p : Port) (code : Nat) (params : List Nat) : State :=
  s.modPort p fun r => { r with outstanding := some ⟨record code params, none⟩ }

/-- A READY image of 70,000 bytes, class L, two segments. -/
def image (first : Nat) (st : ImageState) (source : Option LoadSource) : ImageSlot :=
  ⟨st, some 0, source, some .l, 70000, 2, [⟨first, 2⟩], 0, 0, false, false⟩

/-- The job of the sample state and its handle. -/
def job : Job :=
  ⟨0, 0, some 0, 5, 0, 0, 0, 1, 1, .full, 4, 48, 2, 0, 4, .normal, .active, none, 0⟩
def handle : Handle := ⟨0, 3⟩

/-- A disc of the job in a place. -/
def disc (serial : Word32) (loc : Location) (phase : Phase) : Disc :=
  ⟨serial, some handle, 1, some .l, 20000, loc, phase, some 8, 0, false, none, none, false, false, none, none⟩

/-- A lane with an identity and a running timer, working for the job. -/
def laneIn (st : LaneState) : Lane :=
  { Lane.atPowerOn with
    state := st, identity := some ⟨64, true, true⟩, job := some handle, timer := some ⟨10000, 5⟩, granted := 2, sent := 2
    committed := 1, credits := 10 }

/-- The tower at work: images READY, LOAD_WAIT and LOADING, artwork, one job, lanes in several states, the arm IDLE, the printer
EMPTY. -/
def tower : State :=
  { State.reset with
    scans := 3
    key := .run
    sensors := (((State.reset.sensors.set 4 ⟨true, 0⟩).set 9 ⟨true, 0⟩).set 10 ⟨true, 0⟩).set 11 ⟨true, 0⟩
    pool := [⟨10, 16374⟩]
    images := (((State.reset.images.set 0 { image 0 .ready none with refcount := 1 }).set 1 (image 2 .loading (some .stream))).set 2
      (image 4 .loading (some (.lane 6)))).set 3 (image 6 .ready none)
    artworks := (State.reset.artworks.set 0 ⟨.ready, some 0, 1, [⟨8, 1⟩], 262144, ⟨0, 0, 0, 0⟩, ⟨1, 1, 1, 1⟩, 1⟩).set 1
      ⟨.loading, some 0, 1, [⟨9, 1⟩], 3, ⟨0, 0, 0, 0⟩, ⟨0, 0, 0, 0⟩, 0⟩
    jobs := State.reset.jobs.set 0 ⟨3, some job⟩
    discs := State.reset.discs.set 0 (some (disc 1 (.tray 1) .burning))
    lanes := ((((State.reset.lanes.set 0 { laneIn .idle with job := none, timer := none }).set 1 (laneIn .burning)).set 4
      { laneIn .master with job := none, timer := none, master := some (.l, 70000) }).set 5
        { laneIn .spare with job := none, timer := none }).set 6 { laneIn .sourceRead with job := none }
    verifyQueue := [⟨.source 6 2, some 1⟩]
    crc := State.reset.crc.set 1 (.source 1 [0] 0)
    arm := { Arm.atPowerOn with state := .idle, position := .home }
    printer := { Printer.atPowerOn with state := .empty, timer := none, levels := ⟨4000, 4000, 4000, 4000⟩ } }

/-- A step that goes on, and what its next state shows. -/
def after (c : Instr) (s : State) (p : State → Bool) : Bool :=
  match exec c s with
  | .next t => p t
  | .fault _ => false
  | .refused _ => false

/-! ## Witnesses: a state and operands that meet the hypotheses of each statement -/

/-! ### The step, the resets and the ports -/

theorem witness_IdleStepIsOneMillisecond : tower.pending = [] := by decide

theorem witness_LinkResetClearsThePort :
    tower.settled ∧ tower.ports[(0 : Port)].resetHeld = false ∧ tower.ports[(0 : Port)].stream = .none := by decide +kernel

theorem witness_TowerReset_service :
    let s := withCommand { tower with key := .service } 2 50 []
    s.commandWaits 2 (record 50 []) 50 ∧ s.key = .service := by decide +kernel

theorem witness_TowerReset_refused :
    let s := withCommand tower 2 50 []
    s.commandWaits 2 (record 50 []) 50 ∧ s.key ≠ .service ∧ s.settled := by decide +kernel

theorem witness_CommandsIn_held : (tower.modPort 1 fun r => { r with resetHeld := true }).ports[(1 : Port)].resetHeld = true := by
  decide +kernel

/-- An outbound stream of image 0 on port 1, at a position with 100 bytes in its buffer. -/
def exporting (position : Nat) : State :=
  tower.modPort 1 fun r => { r with stream := .outbound 0 position (List.replicate 100 1) }

/-- An inbound stream on port 0. -/
def feeding (v : Stream) : State := tower.modPort 0 fun r => { r with stream := v, staging := [1, 2, 3] }

theorem witness_BulkWrite_image : (feeding (.image 1)).ports[(0 : Port)].resetHeld = false ∧
    (feeding (.image 1)).ports[(0 : Port)].stream = .image 1 ∧ (feeding (.image 1)).images[(1 : ImageId)].state = .loading := by
  decide +kernel

theorem witness_BulkWrite_artwork : (feeding (.artwork 1)).ports[(0 : Port)].resetHeld = false ∧
    (feeding (.artwork 1)).ports[(0 : Port)].stream = .artwork 1 ∧
    (feeding (.artwork 1)).artworks[(1 : ArtworkId)].state = .loading := by decide +kernel

theorem witness_BulkWrite_wait :
    let s := (feeding (.image 1)).modImage 1 fun v => { v with state := .loadWait }
    s.ports[(0 : Port)].resetHeld = false ∧ s.ports[(0 : Port)].stream = .image 1 ∧ s.images[(1 : ImageId)].state = .loadWait := by
  decide +kernel

theorem witness_BulkWrite_none : tower.ports[(2 : Port)].resetHeld = false ∧ tower.ports[(2 : Port)].stream = .none := by
  decide +kernel

theorem witness_BulkRead_part : (exporting 500).settled ∧ (exporting 500).ports[(1 : Port)].resetHeld = false ∧
    (exporting 500).ports[(1 : Port)].stream = .outbound 0 500 (List.replicate 100 1) ∧ 0 < (99 : Word32).toNat ∧
    (99 : Word32).toNat < (List.replicate 100 (1 : Byte)).length ∧ 500 + (99 : Word32).toNat < (exporting 500).images[(0 : ImageId)].size := by
  decide +kernel

theorem witness_BulkRead_chunk : (exporting 500).settled ∧ (exporting 500).ports[(1 : Port)].resetHeld = false ∧
    (exporting 500).ports[(1 : Port)].stream = .outbound 0 500 (List.replicate 100 1) ∧
    0 < (List.replicate 100 (1 : Byte)).length ∧ (List.replicate 100 (1 : Byte)).length ≤ (100 : Word32).toNat ∧
    500 + (List.replicate 100 (1 : Byte)).length < (exporting 500).images[(0 : ImageId)].size := by decide +kernel

theorem witness_BulkRead_end : (exporting 69900).settled ∧ (exporting 69900).ports[(1 : Port)].resetHeld = false ∧
    (exporting 69900).ports[(1 : Port)].stream = .outbound 0 69900 (List.replicate 100 1) ∧
    0 < (List.replicate 100 (1 : Byte)).length ∧ (List.replicate 100 (1 : Byte)).length ≤ (100 : Word32).toNat ∧
    (exporting 69900).images[(0 : ImageId)].size ≤ 69900 + (List.replicate 100 (1 : Byte)).length := by decide +kernel

theorem witness_BulkRead_none : tower.settled ∧ tower.ports[(2 : Port)].resetHeld = false ∧ tower.ports[(2 : Port)].stream = .none := by
  decide +kernel

/-- A command taken, with its result on its way. -/
def answered (code : Nat) : State := (withCommand tower 0 code []).replied 0 ⟨.ok, []⟩

theorem witness_ReplyReturn : (answered 49).ports[(0 : Port)].outstanding = some ⟨record 49 [], some ⟨.ok, []⟩⟩ := by
  decide +kernel

theorem witness_BadCommand : (withCommand tower 0 10 []).ports[(0 : Port)].outstanding = some ⟨record 10 [], none⟩ ∧
    commandCodes.contains (recordCode (record 10 [])) = false := by decide +kernel

theorem witness_NoticeMask : (withCommand tower 0 48 [3, 1]).settled ∧
    (withCommand tower 0 48 [3, 1]).commandWaits 0 (record 48 [3, 1]) 48 := by decide +kernel

theorem witness_SetAttention : (withCommand tower 0 49 [0, 255, 255]).settled ∧
    (withCommand tower 0 49 [0, 255, 255]).commandWaits 0 (record 49 [0, 255, 255]) 49 := by decide +kernel

/-- A port with a hold time and a notice queued. -/
def holding : State := (tower.notify 0 .armCleared).modPort 0 fun r => { r with hold := 1, line := false }

/-- R187: a notice queued at 0 is too young at 0 and old enough at 1; the third port's queue is empty, its hold time 0. -/
theorem witness_AttentionHold : holding.ports[(0 : Port)].notices = [(.armCleared, 0)] ∧ 0 < holding.ports[(0 : Port)].hold ∧
    holding.now - 0 < holding.ports[(0 : Port)].hold ∧
    ({ holding with now := 1 } : State).ports[(0 : Port)].hold ≤ ({ holding with now := 1 } : State).now - 0 ∧
    tower.ports[(2 : Port)].notices = [] ∧ tower.ports[(2 : Port)].hold = 0 ∧
    after (.attentionHoldExpiry 0) holding (fun t => !t.ports[(0 : Port)].line) = true ∧
    after (.attentionHoldExpiry 0) { holding with now := 1 } (fun t => t.ports[(0 : Port)].line) = true := by decide +kernel

/-! ### Images and artwork -/

/-- LOAD_IMAGE of class L at the class's limit, into FREE slot 4. -/
def loading : State := withCommand tower 0 1 [4, 0, 0, 0, 0, 64]

theorem witness_LoadImage_free : loading.commandWaits 0 (record 1 [4, 0, 0, 0, 0, 64]) 1 ∧
    imageParam (record 1 [4, 0, 0, 0, 0, 64]) = some 4 ∧ classOfCode (recordByte (record 1 [4, 0, 0, 0, 0, 64]) 3) = some .l ∧
    1073741824 = recordField (record 1 [4, 0, 0, 0, 0, 64]) 4 8 ∧ 1073741824 ≤ classLimit .l ∧
    loading.ports[(0 : Port)].stream = .none ∧ loading.images[(4 : ImageId)].state = .free ∧
    imagePages 1073741824 ≤ pagesIn loading.pool := by decide +kernel

theorem witness_LoadFromDisc : let r := record 2 [4, 4, 1]
    let s := withCommand tower 0 2 [4, 4, 1]
    s.commandWaits 0 r 2 ∧ imageParam r = some 4 ∧ indexBelow 8 (recordByte r 3) = some 4 ∧ s.lanes[(4 : LaneId)].state = .master ∧
    s.lanes[(4 : LaneId)].master = some (.l, 70000) ∧ 70000 ≤ classLimit .l ∧ s.images[(4 : ImageId)].state = .free ∧
    imagePages 70000 ≤ pagesIn s.pool := by decide +kernel

/-- LOAD_IMAGE of 5 bytes onto a slot. -/
def loadingOnto (slot : Nat) (p : Port) (s : State) : State := withCommand s p 1 [slot, 0, 5]

/-- The READY slots that a load replaces: image 3 and artwork 0, not in use. -/
theorem witness_replaced :
    let s := loadingOnto 3 0 tower
    let t := withCommand (tower.modArtwork 0 fun v => { v with refcount := 0 }) 0 8 [0, 64]
    s.commandWaits 0 (record 1 [3, 0, 5]) 1 ∧
    s.imageSlotTaken 0 3 ((s.setPool (s.pool ++ s.images[(3 : ImageId)].pages)).notify 0 (.image 3 .deleted)) ∧
    imagePages 5 ≤ pagesIn (s.pool ++ s.images[(3 : ImageId)].pages) ∧ t.commandWaits 0 (record 8 [0, 64]) 8 ∧
    t.artworkSlotTaken 0 0 ((t.setPool (t.pool ++ t.artworks[(0 : ArtworkId)].pages)).notify 0 (.artwork 0 .deleted)) := by
  refine ⟨by decide +kernel, Or.inr ⟨0, by decide +kernel, by decide +kernel, Or.inl rfl, by decide +kernel, by decide +kernel, rfl⟩,
    by decide +kernel, by decide +kernel, Or.inr ⟨0, by decide +kernel, by decide +kernel, Or.inl rfl, by decide +kernel, rfl⟩⟩

/-- The four kinds of bad parameter: slot 8, class 2, size 0, one byte above the limit. -/
theorem witness_LoadImage_badParam : tower.settled ∧
    (withCommand tower 0 1 [8]).commandWaits 0 (record 1 [8]) 1 ∧ imageParam (record 1 [8]) = none ∧
    (withCommand tower 0 1 [4, 2]).commandWaits 0 (record 1 [4, 2]) 1 ∧ classOfCode (recordByte (record 1 [4, 2]) 3) = none ∧
    (withCommand tower 0 1 [4]).commandWaits 0 (record 1 [4]) 1 ∧ recordField (record 1 [4]) 4 8 = 0 ∧
    classOfCode (recordByte (record 1 [4, 0, 1, 0, 0, 64]) 3) = some .l ∧
    classLimit .l < recordField (record 1 [4, 0, 1, 0, 0, 64]) 4 8 := by decide +kernel

/-- The refusals BUSY, WRONG_STATE, NOT_OWNER, PROTECTED, IN_USE and NO_SPACE, each at a state of its own. -/
theorem witness_LoadImage_refusals : imageParam (record 1 [0, 0, 5]) = some 0 ∧ imageParam (record 1 [1, 0, 5]) = some 1 ∧
    imageParam (record 1 [3, 0, 5]) = some 3 ∧ recordField (record 1 [3, 0, 5]) 4 8 = 5 ∧
    (loadingOnto 0 0 (feeding (.image 1))).commandWaits 0 (record 1 [0, 0, 5]) 1 ∧ (feeding (.image 1)).settled ∧
    (feeding (.image 1)).ports[(0 : Port)].stream ≠ .none ∧
    (loadingOnto 1 0 tower).images[(1 : ImageId)].state = .loading ∧
    (loadingOnto 3 1 tower).images[(3 : ImageId)].owner ≠ some 1 ∧ (loadingOnto 3 1 tower).key ≠ .service ∧
    (tower.modImage 3 fun v => { v with isProtected := true }).images[(3 : ImageId)].isProtected = true ∧
    0 < (loadingOnto 0 0 tower).images[(0 : ImageId)].refcount ∧
    pagesIn (tower.setPool []).pool < imagePages 5 := by decide +kernel

/-- DELETE_IMAGE of a slot. -/
def deleting (slot : Nat) (p : Port) (s : State) : State := withCommand s p 3 [slot]

theorem witness_DeleteImage_ready : (deleting 3 0 tower).settled ∧ (deleting 3 0 tower).commandWaits 0 (record 3 [3]) 3 ∧
    imageParam (record 3 [3]) = some 3 ∧ (deleting 3 0 tower).images[(3 : ImageId)].owner = some 0 ∧
    (deleting 3 0 tower).images[(3 : ImageId)].isProtected = false ∧ (deleting 3 0 tower).images[(3 : ImageId)].refcount = 0 ∧
    (deleting 3 0 tower).images[(3 : ImageId)].state = .ready := by decide +kernel

theorem witness_DeleteImage_loading : (deleting 1 0 tower).settled ∧ (deleting 1 0 tower).commandWaits 0 (record 3 [1]) 3 ∧
    imageParam (record 3 [1]) = some 1 ∧ (deleting 1 0 tower).images[(1 : ImageId)].owner = some 0 ∧
    (deleting 1 0 tower).images[(1 : ImageId)].isProtected = false ∧ (deleting 1 0 tower).images[(1 : ImageId)].refcount = 0 ∧
    (deleting 1 0 tower).images[(1 : ImageId)].state = .loading := by decide +kernel

theorem witness_DeleteImage_refusals : imageParam (record 3 [4]) = some 4 ∧ (deleting 4 0 tower).images[(4 : ImageId)].state = .free ∧
    (deleting 4 0 tower).commandWaits 0 (record 3 [4]) 3 ∧ (deleting 3 1 tower).commandWaits 1 (record 3 [3]) 3 ∧
    (deleting 3 1 tower).images[(3 : ImageId)].owner ≠ some 1 ∧ (deleting 3 1 tower).key ≠ .service ∧
    (deleting 0 0 tower).commandWaits 0 (record 3 [0]) 3 ∧ 0 < (deleting 0 0 tower).images[(0 : ImageId)].refcount := by
  decide +kernel

theorem witness_FailedImageLoad : tower.images[(1 : ImageId)].state = .loading ∧ tower.images[(2 : ImageId)].state = .loading ∧
    tower.images[(1 : ImageId)].source = some .stream ∧ tower.images[(1 : ImageId)].owner = some 0 := by decide +kernel

/-- The source load of image 2 holds channel 1 and lane 6 reads; a lane that only waits. -/
theorem witness_FailedSourceLoad :
    let waits := tower.modLane 6 fun l => { l with state := .sourceWait }
    tower.images[(2 : ImageId)].source = some (.lane 6) ∧ tower.lanes[(6 : LaneId)].state = .sourceRead ∧
    tower.verifyQueue = [⟨.source 6 2, some 1⟩] ∧ VerifyEntry.ofSlot 2 ⟨.source 6 2, some 1⟩ = true ∧
    waits.lanes[(6 : LaneId)].state = .sourceWait ∧ tower.lanes[(1 : LaneId)].state = .burning ∧
    (tower.failImageLoad 2).crc[(1 : Fin 2)] = .free ∧ (tower.failImageLoad 2).lanes[(6 : LaneId)].state = .master := by
  decide +kernel

theorem witness_Protect : let s := withCommand tower 0 4 [3]
    s.settled ∧ imageParam (record 4 [3]) = some 3 ∧ s.commandWaits 0 (record 4 [3]) 4 ∧ s.images[(3 : ImageId)].state = .ready ∧
    s.images[(3 : ImageId)].owner = some 0 := by decide +kernel

theorem witness_MarkNoExport : let s := withCommand tower 0 6 [1]
    s.settled ∧ imageParam (record 6 [1]) = some 1 ∧ s.commandWaits 0 (record 6 [1]) 6 ∧ s.images[(1 : ImageId)].state ≠ .free ∧
    s.images[(1 : ImageId)].owner = some 0 := by decide +kernel

theorem witness_ExportImage : let s := withCommand tower 2 7 [3]
    s.settled ∧ s.commandWaits 2 (record 7 [3]) 7 ∧ imageParam (record 7 [3]) = some 3 := by decide +kernel

theorem witness_Unprotect : let s := withCommand tower 0 5 [7]
    s.settled ∧ s.commandWaits 0 (record 5 [7]) 5 ∧ (7 : ImageId).val = recordByte (record 5 [7]) 2 ∧
    (withCommand tower 0 5 [8]).commandWaits 0 (record 5 [8]) 5 ∧ 7 < recordByte (record 5 [8]) 2 := by decide +kernel

theorem witness_LoadArtwork : let s := withCommand tower 0 8 [2, 64]
    s.settled ∧ s.commandWaits 0 (record 8 [2, 64]) 8 ∧ artworkParam (record 8 [2, 64]) = some 2 ∧
    recordByte (record 8 [2, 64]) 3 = 64 ∧ s.ports[(0 : Port)].stream = .none ∧ s.artworks[(2 : ArtworkId)].state = .free ∧
    artworkPages 64 ≤ pagesIn s.pool := by decide +kernel

theorem witness_DeleteArtwork_loading : let s := withCommand tower 0 9 [1]
    s.settled ∧ s.commandWaits 0 (record 9 [1]) 9 ∧ artworkParam (record 9 [1]) = some 1 ∧ s.artworks[(1 : ArtworkId)].owner = some 0 ∧
    s.artworks[(1 : ArtworkId)].refcount = 0 ∧ s.artworks[(1 : ArtworkId)].state = .loading := by decide +kernel

theorem witness_DeleteArtwork_ready :
    let s := withCommand (tower.modArtwork 0 fun v => { v with refcount := 0 }) 0 9 [0]
    s.settled ∧ s.commandWaits 0 (record 9 [0]) 9 ∧ artworkParam (record 9 [0]) = some 0 ∧ s.artworks[(0 : ArtworkId)].owner = some 0 ∧
    s.artworks[(0 : ArtworkId)].refcount = 0 ∧ s.artworks[(0 : ArtworkId)].state = .ready := by decide +kernel

theorem witness_DeleteArtwork_refused : let s := withCommand tower 0 9 [0]
    s.commandWaits 0 (record 9 [0]) 9 ∧ artworkParam (record 9 [0]) = some 0 ∧ 0 < s.artworks[(0 : ArtworkId)].refcount := by
  decide +kernel

/-- The bulk load of image 1 runs on CRC channel 0, three bytes staged. -/
def digesting : State :=
  ((feeding (.image 1)).setVerifyQueue [⟨.bulk 0 1, some 0⟩]).setCrc 0 (.bulk 1 4461 5)

theorem witness_ImageStagingWrite : digesting.ports[(0 : Port)].stream = .image 1 ∧ digesting.slotChannel 1 = some 0 ∧
    digesting.crc[(0 : Fin 2)] = .bulk 1 4461 5 ∧
    pagesMapped digesting.images[(1 : ImageId)].pages (imagePages digesting.images[(1 : ImageId)].size) = true := by decide +kernel

/-- The second segment of 70,000 bytes has 4,464 bytes: byte 4,463 is its last. -/
theorem witness_bulkByte : 4462 + 1 ≠ segmentLength 70000 2 1 ∧ 4463 + 1 = segmentLength 70000 2 1 := by decide

theorem witness_StagedSegment : ([1, 2, 3] : List Byte) ≠ [] ∧ ([1, 2, 3] : List Byte).length = segmentLength 3 1 0 := by decide

theorem witness_StoredBytes : Memory.wf [(5, 1), (1048577, 2)] = true ∧ (pagesOf [⟨7, 1⟩, ⟨3, 1⟩]).Nodup ∧
    1048575 + ([1, 2] : List Byte).length ≤ pagesIn [⟨7, 1⟩, ⟨3, 1⟩] * 1048576 := by decide +kernel

theorem witness_ArtworkStagingWrite : (feeding (.artwork 1)).ports[(0 : Port)].stream = .artwork 1 ∧
    (feeding (.artwork 1)).artworks[(1 : ArtworkId)].state = .loading ∧
    pagesMapped (feeding (.artwork 1)).artworks[(1 : ArtworkId)].pages 1 = true ∧
    (feeding (.artwork 1)).artworks[(1 : ArtworkId)].received - 3 + 3 ≠ 1 * 262144 := by decide +kernel

theorem witness_ArtworkStagingWrite_last :
    let s := (feeding (.artwork 1)).modArtwork 1 fun v => { v with received := 262144 }
    s.ports[(0 : Port)].stream = .artwork 1 ∧ s.artworks[(1 : ArtworkId)].state = .loading ∧
    pagesMapped s.artworks[(1 : ArtworkId)].pages (artworkPages s.artworks[(1 : ArtworkId)].bands) = true ∧
    s.artworks[(1 : ArtworkId)].received - s.ports[(0 : Port)].staging.length + (s.ports[(0 : Port)].staging.take 3).length =
      s.artworks[(1 : ArtworkId)].bands * 262144 ∧ s.artworks[(1 : ArtworkId)].owner = some 0 := by decide +kernel

/-! ### Jobs -/

/-- SUBMIT_JOB of one copy of image 0 without artwork, SAMPLE 2, speeds 4 to 48. -/
def submitted : List Nat := [0, 255, 1, 0, 1, 2, 4, 48, 255, 0, 1, 9]

theorem witness_SubmitJob : let r := record 16 submitted
    let s := withCommand tower 0 16 submitted
    s.settled ∧ s.commandWaits 0 r 16 ∧ imageParam r = some 0 ∧ recordField r 4 2 = 1 ∧ submitVerify r = some (.sample 2) ∧
    s.images[(0 : ImageId)].state ≠ .free ∧ s.images[(0 : ImageId)].cls = some .l ∧ (classSpeeds .l).contains (recordByte r 8) = true ∧
    (classSpeeds .l).contains (recordByte r 9) = true ∧ recordByte r 8 ≤ recordByte r 9 ∧ s.freeJobEntry = some 1 ∧
    recordByte r 3 = 255 := by decide +kernel

theorem witness_SubmitJob_artwork : let r := record 16 [0, 0, 15, 39, 2, 0, 4, 4, 15, 0, 8, 2]
    let s := withCommand tower 0 16 [0, 0, 15, 39, 2, 0, 4, 4, 15, 0, 8, 2]
    s.settled ∧ s.commandWaits 0 r 16 ∧ imageParam r = some 0 ∧ recordField r 4 2 = 9999 ∧ submitVerify r = some .full ∧
    recordByte r 8 ≤ recordByte r 9 ∧ s.freeJobEntry = some 1 ∧ (0 : ArtworkId).val = recordByte r 3 ∧
    qualityOf (recordByte r 13) = some .fine ∧ s.artworks[(0 : ArtworkId)].state = .ready := by decide +kernel

/-- Index 16, the FREE entry 15, and an old generation of entry 0. -/
theorem witness_HandleCheck : tower.settled ∧ 15 < recordByte (record 17 [16, 3]) 2 ∧
    (∀ i : TableId, i.val = recordByte (record 18 [15, 0]) 2 → tower.jobs[i].job = none) ∧
    (∀ i : TableId, i.val = recordByte (record 19 [0, 2]) 2 → tower.jobs[i].generation ≠ (record 19 [0, 2])[3]) ∧
    (withCommand tower 0 17 [16, 3]).commandWaits 0 (record 17 [16, 3]) 17 ∧
    (withCommand tower 0 18 [15, 0]).commandWaits 0 (record 18 [15, 0]) 18 ∧
    (withCommand tower 0 19 [0, 2]).commandWaits 0 (record 19 [0, 2]) 19 ∧
    (withCommand tower 0 20 [0, 2]).commandWaits 0 (record 20 [0, 2]) 20 := by decide +kernel

theorem witness_JobCommands : (0 : TableId).val = recordByte (record 17 [0, 3]) 2 ∧
    (withCommand tower 0 17 [0, 3]).settled ∧
    (withCommand tower 0 17 [0, 3]).jobs[(0 : TableId)] = ⟨(record 17 [0, 3])[3], some job⟩ ∧
    (withCommand tower 0 17 [0, 3]).commandWaits 0 (record 17 [0, 3]) 17 ∧
    (withCommand tower 0 18 [0, 3]).commandWaits 0 (record 18 [0, 3]) 18 ∧
    (withCommand tower 0 19 [0, 3]).commandWaits 0 (record 19 [0, 3]) 19 ∧
    (withCommand tower 0 20 [0, 3]).commandWaits 0 (record 20 [0, 3]) 20 := by decide +kernel

theorem witness_Drain : (tower.jobOf handle).isSome ∧ tower.lanes[(1 : LaneId)].job = some handle := by decide +kernel

/-! ### The operator's commands and the settings -/

theorem witness_OpenTray : let s := withCommand tower 0 24 [0]
    s.settled ∧ laneParam (record 24 [0]) = some 0 ∧ s.lanes[(0 : LaneId)].unanswered = none ∧ s.commandWaits 0 (record 24 [0]) 24 ∧
    s.lanes[(0 : LaneId)].state = .idle := by decide +kernel

/-- Lane 7 in a state of its own. -/
def withLane (n : LaneId) (l : Lane) : State := tower.modLane n fun _ => l

theorem witness_CloseTray :
    let s := withCommand (withLane 7 { laneIn .opened with purpose := some .operator }) 0 25 [7]
    s.settled ∧ laneParam (record 25 [7]) = some 7 ∧ s.lanes[(7 : LaneId)].unanswered = none ∧ s.commandWaits 0 (record 25 [7]) 25 ∧
    s.lanes[(7 : LaneId)].state = .opened ∧ s.lanes[(7 : LaneId)].purpose = some .operator := by decide +kernel

theorem witness_LaneOnline : let s := withCommand (withLane 7 { laneIn .offline with held := true }) 0 26 [7]
    s.settled ∧ laneParam (record 26 [7]) = some 7 ∧ s.commandWaits 0 (record 26 [7]) 26 ∧ s.lanes[(7 : LaneId)].state = .offline ∧
    s.lanes[(7 : LaneId)].identity.isSome ∧ s.lanes[(7 : LaneId)].unanswered = none := by decide +kernel

theorem witness_LaneOffline : let s := withCommand tower 0 27 [0]
    s.settled ∧ laneParam (record 27 [0]) = some 0 ∧ s.commandWaits 0 (record 27 [0]) 27 ∧ s.lanes[(0 : LaneId)].state = .idle := by
  decide +kernel

theorem witness_ClearLane : let s := withCommand tower 0 28 [5]
    s.settled ∧ laneParam (record 28 [5]) = some 5 ∧ s.commandWaits 0 (record 28 [5]) 28 ∧ s.lanes[(5 : LaneId)].state = .spare ∧
    s.hasRequest 5 = false := by decide +kernel

theorem witness_ClearLane_refused : let s := withCommand tower 0 28 [0]
    s.commandWaits 0 (record 28 [0]) 28 ∧ s.lanes[(0 : LaneId)].state ≠ .spare := by decide +kernel

theorem witness_Settings : tower.settled ∧
    (withCommand tower 0 32 [255, 127]).commandWaits 0 (record 32 [255, 127]) 32 ∧
    (withCommand tower 0 41 [119, 0, 16, 161]).commandWaits 0 (record 41 [119, 0, 16, 161]) 41 ∧
    (withCommand tower 0 42 [99]).commandWaits 0 (record 42 [99]) 42 := by decide +kernel

theorem witness_SetBinClass : let s := withCommand tower 0 33 [1, 1]
    s.settled ∧ binOfCode (recordByte (record 33 [1, 1]) 2) = some .b ∧ s.commandWaits 0 (record 33 [1, 1]) 33 ∧
    classOfCode (recordByte (record 33 [1, 1]) 3) = some .m := by decide +kernel

theorem witness_ClearBinFault : let s := withCommand { tower with binA := ⟨.m, true, true⟩ } 0 34 [0]
    s.settled ∧ binOfCode (recordByte (record 34 [0]) 2) = some .a ∧ s.commandWaits 0 (record 34 [0]) 34 ∧
    (s.binRecord .a).fault = true := by decide +kernel

theorem witness_ClearFaults : (withCommand tower 0 35 []).settled ∧ (withCommand tower 0 35 []).commandWaits 0 (record 35 []) 35 ∧
    (withCommand tower 0 40 []).commandWaits 0 (record 40 []) 40 := by decide +kernel

/-! ### The drives -/

theorem witness_Ident : identOk 16 true false = true ∧ identOk 256 false true = true ∧ identOk 257 true true = false ∧
    tower.lanes[(7 : LaneId)].state = .offline ∧ tower.lanes[(7 : LaneId)].held = false ∧
    (withLane 7 { laneIn .offline with held := true }).lanes[(7 : LaneId)].held = true ∧
    (withLane 7 (laneIn .fault)).lanes[(7 : LaneId)].state = .fault ∧ tower.lanes[(1 : LaneId)].state = .burning := by decide +kernel

/-- Lane 7 at a tray move. -/
def trayLane (st : LaneState) (v : Option TrayPurpose) : State := withLane 7 { laneIn st with purpose := v }

theorem witness_TrayOpening : (trayLane .opening (some .place)).lanes[(7 : LaneId)].state = .opening ∧
    (trayLane .opening (some .place)).lanes[(7 : LaneId)].purpose = some .place := by decide +kernel

theorem witness_TrayClosing : (trayLane .closing none).settled ∧
    (trayLane .closing none).lanes[(7 : LaneId)].state = .closing ∧
    (trayLane .closing none).lanes[(7 : LaneId)].purpose ≠ some .pick := by decide +kernel

theorem witness_TrayClosing_pick : (trayLane .closing (some .pick)).lanes[(7 : LaneId)].state = .closing ∧
    (trayLane .closing (some .pick)).lanes[(7 : LaneId)].purpose = some .pick ∧
    (trayLane .closing (some .pick)).lanes[(7 : LaneId)].quarantine = false := by decide +kernel

theorem witness_TrayResting : tower.settled ∧ tower.lanes[(0 : LaneId)].state = .idle := by
  decide +kernel

/-- Lane 7 PROBING, at its start-up or not, with a disc of the job or without. -/
def probing (started : Bool) (occupied : Bool) : State :=
  (withLane 7 { laneIn .probing with startUp := started }).setDisc 2 (if occupied then some (disc 9 (.tray 7) .fed) else none)

theorem witness_Probe_unrecorded : (probing true false).lanes[(7 : LaneId)].state = .probing ∧
    (probing true false).discAt (.tray 7) = none ∧ (probing true false).lanes[(7 : LaneId)].startUp = true ∧
    (probing true false).lanes[(7 : LaneId)].identity = some ⟨64, true, true⟩ ∧
    (probing false false).lanes[(7 : LaneId)].startUp = false ∧ (probing true false).settled := by decide +kernel

theorem witness_Probe_fed : (probing false true).lanes[(7 : LaneId)].state = .probing ∧
    ((probing false true).discAt (.tray 7)).isSome ∧ (probing false true).lanes[(7 : LaneId)].job = some handle ∧
    (probing false true).jobOf handle = some job ∧ mediaOk (.blank .l 2 [4]) = true ∧ mediaOk (.blank .m 2 [2]) = true ∧
    (probing false true).images[job.image].cls = some .l ∧
    (probing false true).images[job.image].segments = (2 : BitVec 24).toNat ∧
    (1 : BitVec 24).toNat < (probing false true).images[job.image].segments ∧
    (probing false true).images[job.image].cls ≠ some .m ∧ job.state ≠ .draining := by decide +kernel

theorem witness_Credit : tower.lanes[(1 : LaneId)].state = .burning ∧ tower.lanes[(1 : LaneId)].identity = some ⟨64, true, true⟩ ∧
    tower.lanes[(1 : LaneId)].timer = some ⟨10000, 5⟩ ∧ tower.settled ∧ (1 : BitVec 24).toNat ≤ tower.lanes[(1 : LaneId)].sent ∧
    max tower.lanes[(1 : LaneId)].committed (1 : BitVec 24).toNat < tower.laneSegments 1 ∧ 0 < tower.lanes[(1 : LaneId)].credits ∧
    tower.laneSegments 1 ≤ max tower.lanes[(1 : LaneId)].committed (2 : BitVec 24).toNat ∧
    (2 : BitVec 24).toNat ≤ tower.lanes[(1 : LaneId)].sent ∧ tower.lanes[(1 : LaneId)].sent < (3 : BitVec 24).toNat := by
  decide +kernel

theorem witness_Credit_fromZero :
    let s := tower.modLane 1 fun l => { l with credits := 0 }
    s.lanes[(1 : LaneId)].state = .burning ∧ s.lanes[(1 : LaneId)].credits = 0 ∧ 0 < min 64 (1 : BitVec 16).toNat ∧
    max s.lanes[(1 : LaneId)].committed (1 : BitVec 24).toNat < s.laneSegments 1 ∧
    (1 : BitVec 24).toNat ≤ s.lanes[(1 : LaneId)].sent := by decide +kernel

theorem witness_BurnEvents : tower.lanes[(1 : LaneId)].state = .burning ∧ tower.lanes[(1 : LaneId)].timer = some ⟨10000, 5⟩ ∧
    tower.jobOfOpt tower.lanes[(1 : LaneId)].job = some job ∧ tower.hasRequest 1 = false ∧
    tower.lanes[(0 : LaneId)].state ≠ .burning := by decide +kernel

/-- Lane 7 FINALIZING with a disc of the job. -/
def finalizing : State := (withLane 7 (laneIn .finalizing)).setDisc 2 (some (disc 9 (.tray 7) .finalizing))

theorem witness_FinalizeDone : finalizing.lanes[(7 : LaneId)].state = .finalizing ∧
    finalizing.discAt (.tray 7) = some (disc 9 (.tray 7) .finalizing) ∧
    finalizing.jobOfOpt finalizing.lanes[(7 : LaneId)].job = some job := by decide +kernel

/-- Lane 7 VERIFYING on channel 0 with index 1 outstanding, and the digest entry 1 of image 0 as given. -/
def verifying (set : VerifySet) (next : Nat) : State :=
  ((((withLane 7 (laneIn .verifying)).setDisc 2 (some (disc 9 (.tray 7) .verifying))).setVerifyQueue
    [⟨.verify 7 9, some 0⟩]).setCrc 0 (.verify set next [1] 0)).setMem []

theorem witness_Verify : let s := verifying ⟨2, none⟩ 2
    s.lanes[(7 : LaneId)].state = .verifying ∧ s.laneChannel 7 = some (⟨.verify 7 9, some 0⟩, 0) ∧
    s.crc[(0 : Fin 2)] = .verify ⟨2, none⟩ 2 [1] 0 ∧ ([1] : List Nat).contains (1 : BitVec 24).toNat = true ∧
    s.lanes[(7 : LaneId)].timer = some ⟨10000, 5⟩ ∧ s.verifyImage 7 = some (image 0 .ready none |> fun v => { v with refcount := 1 }) ∧
    4464 = segmentLength 70000 2 (1 : BitVec 24).toNat ∧ pagesMapped [⟨0, 2⟩] (imagePages 70000) = true ∧
    (VerifySet.mk 2 none).size ≤ 2 ∧ (verifying ⟨3, none⟩ 2).settled ∧ 2 < (VerifySet.mk 3 none).size := by decide +kernel

/-- An image of four bytes whose digest entry is the CRC of four zero bytes, verified on lane 7: a segment that matches. -/
def matching : State :=
  let v : ImageSlot := ⟨.ready, some 0, none, some .l, 4, 1, [⟨0, 2⟩], 4, 1, false, false⟩
  ((((((withLane 7 (laneIn .verifying)).modImage 0 fun _ => v).setDisc 2 (some (disc 9 (.tray 7) .verifying))).setVerifyQueue
    [⟨.verify 7 9, some 0⟩]).setCrc 0 (.verify ⟨1, none⟩ 1 [0] 0)).storeDigest v 0 (crc32 [0, 0, 0, 0]))

theorem witness_Verify_match : (matching.verifyImage 7).map (fun v => matching.digest v 0) = some (crc32 [0, 0, 0, 0]) ∧
    ([0, 0, 0, 0] : List Byte).length = segmentLength 4 1 0 ∧ crc32 [0, 0, 0, 0] ≠ crc32 [0, 0, 0, 1] ∧
    (VerifySet.mk 1 none).size ≤ 1 := by decide +kernel

theorem witness_SourceRead :
    let s := (tower.modImage 2 fun v => { v with segments := 5, size := 300000, pages := [⟨4, 2⟩] }).setCrc 1
      (.source 3 [0, 1, 2] 0)
    s.lanes[(6 : LaneId)].state = .sourceRead ∧ s.laneChannel 6 = some (⟨.source 6 2, some 1⟩, 1) ∧
    s.crc[(1 : Fin 2)] = .source 3 [0, 1, 2] 0 ∧ s.sourceSlotOf 6 = some 2 ∧
    ([0, 1, 2] : List Nat).contains (2 : BitVec 24).toNat = true ∧ s.lanes[(6 : LaneId)].timer = some ⟨10000, 5⟩ ∧
    65536 = segmentLength 300000 5 (2 : BitVec 24).toNat ∧ pagesMapped [⟨4, 2⟩] (imagePages 300000) = true ∧
    3 < s.images[(2 : ImageId)].segments ∧ 0 + 1 < s.images[(2 : ImageId)].segments ∧ s.settled := by decide +kernel

theorem witness_Errors : tower.lanes[(1 : LaneId)].state ≠ .offline ∧ tower.lanes[(1 : LaneId)].state ≠ .fault ∧
    tower.lanes[(1 : LaneId)].timer.isSome := by decide +kernel

theorem witness_LaneFault : tower.discAt (.tray 1) = some (disc 1 (.tray 1) .burning) ∧
    (disc 1 (.tray 1) .burning).phase ≠ .failed := by decide +kernel

/-! ### The read channel and verification -/

theorem witness_TransferCompletion_lane :
    let s := tower.setChannel (some ⟨.lane 1 0 1, true⟩)
    s.channel = some ⟨.lane 1 0 1, true⟩ ∧ pagesMapped s.images[(0 : ImageId)].pages (imagePages s.images[(0 : ImageId)].size) = true := by
  decide +kernel

theorem witness_TransferCompletion_band :
    let s := tower.setChannel (some ⟨.band 0 0 2 .a, true⟩)
    s.channel = some ⟨.band 0 0 2 .a, true⟩ ∧
    pagesMapped s.artworks[(0 : ArtworkId)].pages (artworkPages s.artworks[(0 : ArtworkId)].bands) = true := by decide +kernel

theorem witness_TransferCompletion_client :
    let s := (tower.setChannel (some ⟨.client 1 0 0, true⟩)).modPort 1 fun r => { r with stream := .outbound 0 0 [] }
    s.channel = some ⟨.client 1 0 0, true⟩ ∧ s.ports[(1 : Port)].stream = .outbound 0 0 [] ∧
    pagesMapped s.images[(0 : ImageId)].pages (imagePages s.images[(0 : ImageId)].size) = true := by decide +kernel

theorem witness_TransferCompletion_idle : tower.channel = none ∧
    (tower.setChannel (some ⟨.lane 1 0 1, false⟩)).channel = some ⟨.lane 1 0 1, false⟩ := by decide +kernel

theorem witness_StartsFitTheBudget : 4096 + tower.burningSum ≤ tower.budget := by decide +kernel

theorem witness_VerifySet : tower.discOf 1 = some (disc 1 (.tray 1) .burning) ∧
    tower.jobOfOpt (disc 1 (.tray 1) .burning).job = some job ∧ 0 < tower.images[job.image].segments ∧ job.verify = .full := by
  decide +kernel

theorem witness_VerifySet_sample :
    let s := tower.setJobEntry 0 ⟨3, some { job with verify := .sample 2 }⟩
    s.jobOfOpt (disc 1 (.tray 1) .burning).job = some { job with verify := .sample 2 } ∧
    (disc 1 (.tray 1) .burning).forced = false ∧ 0 < s.images[job.image].segments := by decide +kernel

theorem witness_Crc : (0 : Byte) ≠ 128 := by decide

/-! ### The arm, the sensors and the printer -/

/-- The arm SERVING with a step running. -/
def stepping (v : ArmStep) (position : ArmPlace) : State :=
  tower.modArm fun a => { a with state := .serving, step := some v, timer := some ⟨3000, 7⟩, position := position }

theorem witness_ArmStepDone_travel : (stepping (.travel .output) .home).arm.step = some (.travel .output) := by decide +kernel

theorem witness_ArmStepDone_home :
    let s := stepping .home .unknown
    s.arm.step = some .home ∧ s.sensor .armHome = true ∧ s.gripCount = 0 ∧ s.arm.byClear = false ∧ tower.arm.step = none := by
  decide +kernel

theorem witness_ArmStepDone_homeAwaited :
    let s : State := { stepping .home .unknown with sensors := State.reset.sensors }
    s.settled ∧ s.arm.step = some .home ∧ s.sensor .armHome = false := by decide +kernel

theorem witness_ArmStepDone_homeGrip :
    let s := (stepping .home .unknown).modSensor .gripOne fun r => { r with active := true }
    s.arm.step = some .home ∧ s.sensor .armHome = true ∧ s.gripCount ≠ 0 := by decide +kernel

theorem witness_Place : (stepping .place (.known .output)).arm.step = some .place ∧
    (stepping .place (.known .output)).arm.request = none ∧
    (stepping .place (.known .output)).arm.position = .known .output ∧
    (stepping .place (.known .reject)).arm.position = .known .reject := by decide +kernel

/-- The arm picks at BIN_B for the FEED of lane 7, one disc in the grip. -/
def picking : State :=
  ((((stepping .pick (.known (.bin .b))).modArm fun a => { a with request := some 4, sourceBin := some .b }).setRequests
    [⟨.feed, some 7, some 7, some .l, 4, true, none⟩]).modLane 7 fun _ => laneIn .opened).modSensor .gripOne
      fun r => { r with active := true }

theorem witness_PickAtABin : picking.arm.step = some .pick ∧ picking.arm.position = .known (.bin .b) ∧ picking.gripCount = 1 ∧
    picking.served = some ⟨.feed, some 7, some 7, some .l, 4, true, none⟩ ∧ picking.lanes[(7 : LaneId)].job = some handle ∧
    (tableIds.find? fun i => picking.discs[i].isNone) = some 1 := by decide +kernel

theorem witness_ScanCompletesNothing : tower.scans = 3 ∧
    ∀ v ∈ allSensors, (0 : BitVec 32).getLsbD (sensorBit v) = tower.sensors[sensorPlace v].active ∨
      tower.sensors[sensorPlace v].count < 2 := by decide +kernel

/-- The printer in a state. -/
def printerIn (st : PrinterState) : State :=
  (tower.modPrinter fun v => { v with state := st, timer := some ⟨5000, 1⟩, bufferA := ⟨.inUse 0, []⟩ })

theorem witness_TrayDone : (printerIn .trayIn).printer.state = .trayIn ∧ (printerIn .trayOut).printer.state = .trayOut ∧
    (printerIn .trayOut).sensor .printerTrayHome = true ∧ (printerIn .trayOut).discAt .printer = none ∧
    tower.printer.state ≠ .trayIn ∧ tower.printer.state ≠ .trayOut := by decide +kernel

theorem witness_TrayDone_record :
    ((printerIn .trayOut).setDisc 3 (some (disc 4 .printer .printed))).discAt .printer = some (disc 4 .printer .printed) ∧
    ((printerIn .trayOut).setDisc 3 (some (disc 4 .printer .printed))).sensor .printerTrayHome = true := by decide +kernel

theorem witness_TrayDone_awaited :
    let s : State := { printerIn .trayOut with sensors := State.reset.sensors }
    s.settled ∧ s.printer.state = .trayOut ∧ s.sensor .printerTrayHome = false := by decide +kernel

theorem witness_BandDone : (printerIn .printing).printer.state = .printing ∧
    (printerIn .printing).printer.nextBand = (0 : Byte).toNat ∧
    (printerIn .printing).printer.bufferA.state = .inUse (0 : Byte).toNat ∧ (printerIn .printing).printer.nextBand ≠ (1 : Byte).toNat := by
  decide +kernel

theorem witness_BandStart :
    let s := ((printerIn .trayIn).setDisc 3 (some (disc 4 .printer .printing))).modPrinter fun v =>
      { v with bufferA := ⟨.full 0, []⟩, head := 119 }
    s.printerJob = some job ∧ s.printer.bufferA.state = .full s.printer.nextBand ∧ s.sensor .lidClosed = true ∧
    s.printer.head < 120 := by decide +kernel

theorem witness_Temp : (printerIn .thermalPause).printer.state = .thermalPause ∧ 104 < (105 : Byte).toNat ∧ (104 : Byte).toNat ≤ 104 ∧
    tower.printer.state ≠ .thermalPause := by decide +kernel

theorem witness_BandWait : (printerIn .bandWait).printer.state = .bandWait ∧ (printerIn .bandWait).printer.timer.isSome ∧
    tower.printer.state ≠ .bandWait ∧ tower.printer.timer = none := by decide +kernel

theorem witness_PrinterErrors :
    (printerIn .printing).printer.state ∈ [PrinterState.trayIn, .fetchWait, .printing, .bandWait, .thermalPause, .trayOut] ∧
    (printerIn .fault).printer.state ∈ [PrinterState.empty, .inkHold, .finished, .fault] ∧
    (printerIn .trayOut).printer.state ∈ [PrinterState.trayIn, .printing, .thermalPause, .trayOut] ∧
    (printerIn .trayOut).printer.timer.isSome := by decide +kernel

theorem witness_PrinterFault :
    let s := (printerIn .printing).setDisc 3 (some (disc 4 .printer .printing))
    s.discAt .printer = some (disc 4 .printer .printing) ∧ (disc 4 .printer .printing).phase = .printing := by decide +kernel

/-! ### Further clauses of the statements -/

/-- LINK_RESET with each kind of stream; the export with its chunk in flight and without. -/
theorem witness_LinkReset_streams : (feeding (.image 1)).settled ∧ (feeding (.artwork 1)).settled ∧ (exporting 500).settled ∧
    (feeding (.image 1)).ports[(0 : Port)].resetHeld = false ∧ (feeding (.image 1)).ports[(0 : Port)].stream = .image 1 ∧
    (feeding (.image 1)).images[(1 : ImageId)].state = .loading ∧ (feeding (.artwork 1)).ports[(0 : Port)].stream = .artwork 1 ∧
    (feeding (.artwork 1)).artworks[(1 : ArtworkId)].state = .loading ∧
    (feeding (.artwork 1)).artworks[(1 : ArtworkId)].owner = some 0 ∧
    (exporting 500).ports[(1 : Port)].stream = .outbound 0 500 (List.replicate 100 1) ∧ (exporting 500).channel = none ∧
    ((exporting 500).setChannel (some ⟨.client 1 0 0, true⟩)).channel = some ⟨.client 1 0 0, true⟩ := by decide +kernel

/-- LOAD_FROM_DISC refused: slot 8, lane 8, a lane without a master, sizes 0 and 9,126,805,505, a LOADING slot. -/
theorem witness_LoadFromDisc_refusals :
    let big := 9126805505
    let sized := fun n => tower.modLane 4 fun l => { l with master := some (.m, n) }
    7 < recordByte (record 2 [8, 4]) 2 ∧ 7 < recordByte (record 2 [4, 8]) 3 ∧ tower.settled ∧
    (withCommand tower 0 2 [8, 4]).commandWaits 0 (record 2 [8, 4]) 2 ∧ (0 : LaneId).val = recordByte (record 2 [4, 0]) 3 ∧
    tower.lanes[(0 : LaneId)].state ≠ .master ∧ (sized 0).lanes[(4 : LaneId)].master = some (.m, 0) ∧
    (sized big).lanes[(4 : LaneId)].master = some (.m, big) ∧ classLimit .m < big ∧ (sized big).lanes[(4 : LaneId)].state = .master ∧
    (1 : ImageId).val = recordByte (record 2 [1, 4]) 2 ∧ tower.images[(1 : ImageId)].state = .loading ∧
    (withCommand tower 0 2 [1, 4]).commandWaits 0 (record 2 [1, 4]) 2 := by decide +kernel

/-- A slot above 7 or 3; LOAD_ARTWORK and DELETE_ARTWORK refused for each of their reasons. -/
theorem witness_SlotRefusals :
    7 < recordByte (record 3 [8]) 2 ∧ (deleting 8 0 tower).commandWaits 0 (record 3 [8]) 3 ∧
    3 < recordByte (record 8 [4, 1]) 2 ∧ recordByte (record 8 [0, 0]) 3 = 0 ∧ 64 < recordByte (record 8 [0, 65]) 3 ∧
    (withCommand tower 1 8 [0, 64]).settled ∧ (withCommand tower 1 8 [0, 64]).commandWaits 1 (record 8 [0, 64]) 8 ∧
    (feeding (.image 1)).ports[(0 : Port)].stream ≠ .none ∧ tower.artworks[(1 : ArtworkId)].state = .loading ∧
    tower.artworks[(0 : ArtworkId)].state = .ready ∧ tower.artworks[(0 : ArtworkId)].owner ≠ some 1 ∧ tower.key ≠ .service ∧
    0 < tower.artworks[(0 : ArtworkId)].refcount ∧ pagesIn (tower.setPool []).pool < artworkPages 64 ∧
    3 < recordByte (record 9 [4]) 2 ∧ tower.artworks[(2 : ArtworkId)].state = .free ∧
    artworkParam (record 9 [2]) = some 2 ∧ (withCommand tower 1 9 [2]).commandWaits 1 (record 9 [2]) 9 := by decide +kernel

/-- SUBMIT_JOB refused: the parameters, a FREE slot, speeds out of order, artwork not READY, a full table. -/
theorem witness_SubmitJob_refusals :
    let full := { tower with jobs := State.reset.jobs.map fun _ => ⟨3, some job⟩ }
    7 < recordByte (record 16 [8]) 2 ∧ recordField (record 16 [0, 255, 0, 0]) 4 2 = 0 ∧ 9999 < recordField (record 16 [0, 255, 16, 39]) 4 2 ∧
    2 < recordByte (record 16 [0, 255, 1, 0, 3]) 6 ∧ 2 < recordByte (record 16 [0, 0, 1, 0, 0, 0, 4, 4, 0, 0, 0, 3]) 13 ∧
    (withCommand tower 0 16 [8]).commandWaits 0 (record 16 [8]) 16 ∧ tower.images[(4 : ImageId)].state = .free ∧
    (withCommand tower 0 16 submitted).commandWaits 0 (record 16 submitted) 16 ∧
    recordByte (record 16 [0, 255, 1, 0, 0, 0, 8, 4]) 9 < recordByte (record 16 [0, 255, 1, 0, 0, 0, 8, 4]) 8 ∧
    (1 : ArtworkId).val = recordByte (record 16 [0, 1, 1, 0, 0, 0, 4, 4]) 3 ∧ tower.artworks[(1 : ArtworkId)].state ≠ .ready ∧
    (∀ k : TableId, full.jobs[k].job ≠ none) ∧ (withCommand full 0 16 submitted).settled := by decide +kernel

/-- TRAY_STATE: the faults, MOVING, and the operator's closing. -/
theorem witness_TrayReports :
    (trayLane .opened (some .pick)).lanes[(7 : LaneId)].state = .opened ∧
    (trayLane .opened (some .pick)).lanes[(7 : LaneId)].purpose = some .pick ∧
    tower.lanes[(1 : LaneId)].state ∈ [LaneState.awaitDisc, .probing, .feedWait, .burning, .finalizing, .verifyWait, .verifying, .done,
      .spare, .sourceWait, .sourceRead] ∧
    (trayLane .closing none).lanes[(7 : LaneId)].state ∈ [LaneState.opening, .closing, .idle, .master, .foreign] ∧
    (trayLane .opening (some .operator)).settled ∧ (trayLane .opening (some .operator)).lanes[(7 : LaneId)].state = .opening ∧
    (trayLane .opened (some .operator)).lanes[(7 : LaneId)].state = .opened ∧
    (trayLane .opened (some .operator)).lanes[(7 : LaneId)].purpose = some .operator := by decide +kernel

/-- Lane 7 in FAULT with a tray move, a tray command unanswered and another one held back. -/
def waiting (move : FaultMove) (sent held : TrayCommand) : State :=
  withLane 7 { laneIn .fault with faultMove := some move, unanswered := some sent, heldBack := some held }

/-- TRAY_STATE in FAULT: each move, and each awaited and other position. -/
theorem witness_TrayReports_fault :
    (waiting .unloadOpening .closeTray .openTray).settled ∧
    (waiting .unloadOpening .closeTray .openTray).lanes[(7 : LaneId)].state = .fault ∧
    (waiting .unloadOpening .closeTray .openTray).lanes[(7 : LaneId)].faultMove = some .unloadOpening ∧
    (waiting .unloadClosing .openTray .closeTray).lanes[(7 : LaneId)].faultMove = some .unloadClosing ∧
    (waiting .unloadClosing .openTray .closeTray).lanes[(7 : LaneId)].quarantine = false ∧
    (waiting .operatorOpening .closeTray .openTray).lanes[(7 : LaneId)].faultMove = some .operatorOpening ∧
    (waiting .operatorClosing .openTray .closeTray).lanes[(7 : LaneId)].faultMove = some .operatorClosing := by decide +kernel

/-- MEDIA: a blank in a tray without a record, a blank of a draining job, the discards, the malformed list. -/
theorem witness_Media :
    let draining := (probing false true).setJobEntry 0 ⟨3, some { job with state := .draining }⟩
    mediaOk (.blank .l 2 [4]) = true ∧ mediaOk (.blank .l 1 [8, 4]) = false ∧ (probing false false).discAt (.tray 7) = none ∧
    draining.lanes[(7 : LaneId)].job = some handle ∧ draining.jobOf handle = some { job with state := .draining } ∧
    draining.images[job.image].cls = some .l ∧ draining.images[job.image].segments ≤ (2 : BitVec 24).toNat ∧
    tower.lanes[(0 : LaneId)].state ≠ .probing := by decide +kernel

/-- The job wants a lane; lane 5 is a free SPARE lane with a blank that fits, or lane 0 a free IDLE lane with a usable bin. -/
def claiming (spare : Bool) : State :=
  if spare then tower.setDisc 5 (some { disc 6 (.tray 5) .spare with job := none }) else { tower with binB := ⟨.l, true, false⟩ }

theorem witness_Claims : (claiming true).liveJobs = [(handle, job)] ∧ job.state = .active ∧ job.good + job.inFlight < job.copies ∧
    job.lanesHeld < job.laneLimit ∧ (claiming true).lanes[(5 : LaneId)].state = .spare ∧ (claiming true).lanes[(5 : LaneId)].job = none ∧
    (claiming true).lanes[(5 : LaneId)].quarantine = false ∧
    (claiming true).discAt (.tray 5) = some { disc 6 (.tray 5) .spare with job := none } ∧
    (claiming true).images[(0 : ImageId)].cls = some .l ∧ (claiming true).images[(0 : ImageId)].segments ≤ 20000 ∧
    (claiming true).laneFor job = some 5 ∧ (claiming false).lanes[(0 : LaneId)].state = .idle ∧
    (claiming false).lanes[(0 : LaneId)].identity = some ⟨64, true, true⟩ ∧ (claiming false).binRecord .b = ⟨.l, true, false⟩ ∧
    (∀ n : LaneId, (claiming false).spareFree (image 0 .ready none) n = false) ∧ (claiming false).laneFor job = some 0 ∧
    tower.claimOne = none := by decide +kernel

/-- The blank in tray 7, given up by the old job: the other job, the only one that wants it, takes it; or none does. -/
theorem witness_Offer :
    let other : Handle := ⟨1, 0⟩
    let s := (probing false true).setJobEntry 1 ⟨0, some { job with rank := 1 }⟩
    s.jobOf handle = some job ∧ (s.discAt (.tray 7)).isSome ∧ s.liveJobs = [(handle, job), (other, { job with rank := 1 })] ∧
    s.lanes[(7 : LaneId)].quarantine = false ∧ s.offerTaker 7 handle = some (other, { job with rank := 1 }) ∧
    (probing false true).jobOf handle = some job ∧ (probing false true).liveJobs = [(handle, job)] := by decide +kernel

/-- The fourth quarter of band 0 in buffer B, awaited or not; transfers that no one wants any more. -/
theorem witness_TransferCompletion_more :
    let wait := (tower.modPrinter fun v => { v with state := .fetchWait }).setChannel (some ⟨.band 0 0 3 .b, true⟩)
    wait.channel = some ⟨.band 0 0 3 .b, true⟩ ∧ wait.printer.state = .fetchWait ∧ wait.printer.nextBand = 0 ∧
    tower.printer.state ≠ .fetchWait ∧ tower.printer.state ≠ .bandWait ∧
    pagesMapped wait.artworks[(0 : ArtworkId)].pages (artworkPages wait.artworks[(0 : ArtworkId)].bands) = true ∧
    (tower.setChannel (some ⟨.band 0 0 3 .b, false⟩)).channel = some ⟨.band 0 0 3 .b, false⟩ ∧
    (tower.setChannel (some ⟨.client 1 0 0, false⟩)).channel = some ⟨.client 1 0 0, false⟩ := by decide +kernel

/-- Lane 1 burns and may be granted a segment, with as many credits as given. -/
def feedingLane (credits : Nat) : State := tower.modLane 1 fun l => { l with granted := 1, credits := credits }

/-- The order of service: lane 1 critical (213 ms) or calm (2,880 ms), a fetch urgent or ahead, port 1 waiting for a chunk. -/
theorem witness_Grants :
    let fetch : State → State := fun s => s.modPrinter fun v => { v with request := some ⟨0, 0, 2, .a⟩ }
    (feedingLane 60).channel = none ∧ (feedingLane 60).laneEligible 1 = true ∧ (feedingLane 60).laneSlack 1 = 213 ∧
    (feedingLane 10).laneSlack 1 = 2880 ∧ (feedingLane 10).criticalLanes = [] ∧ (feedingLane 10).calmLanes = [1] ∧
    (feedingLane 60).laneImageId 1 = some 0 ∧ (fetch tower).printer.request = some ⟨0, 0, 2, .a⟩ ∧
    ((fetch (feedingLane 10)).modPrinter fun v => { v with state := .bandWait }).printer.state = .bandWait ∧
    (∀ n : LaneId, tower.laneEligible n = false) ∧ tower.printer.request = none ∧
    (tower.modPort 1 fun r => { r with stream := .outbound 0 500 [] }).ports[(1 : Port)].stream = .outbound 0 500 [] ∧
    500 < tower.images[(0 : ImageId)].size ∧ tower.clientRequester 0 = none ∧ tower.chooseRequester = none := by decide +kernel

/-- Lane 1 burns a disc of class M from a buffer of 256 segments, at a speed and with as many credits as given. -/
def slackLane (speed credits : Nat) : State :=
  (tower.modLane 1 fun l => { l with granted := 1, credits := credits, identity := some ⟨256, true, true⟩ }).setDisc 0
    (some { disc 1 (.tray 1) .burning with cls := some .m, speed := some speed })

/-- R106: at a slack of 499 ms the lane is critical, at 500 ms it is not. -/
theorem witness_Grants_boundary : (slackLane 24 3).laneSlack 1 = 499 ∧ (slackLane 24 3).criticalLanes = [1] ∧
    (slackLane 16 87).laneSlack 1 = 500 ∧ (slackLane 16 87).criticalLanes = [] ∧ (slackLane 16 87).calmLanes = [1] ∧
    (slackLane 16 87).channel = none ∧ (slackLane 16 87).laneImageId 1 = some 0 := by decide +kernel

/-- A waiting bulk load behind a running entry, channel 0 FREE; a queue without a waiting entry. -/
theorem witness_CrcGrants :
    let s := (tower.setVerifyQueue [⟨.source 6 2, some 1⟩, ⟨.bulk 0 1, none⟩]).modImage 1 fun v => { v with state := .loadWait }
    s.crc[(0 : Fin 2)] = .free ∧ s.verifyQueue = [⟨.source 6 2, some 1⟩] ++ ⟨.bulk 0 1, none⟩ :: [] ∧
    s.images[(1 : ImageId)].state = .loadWait ∧ (∀ e ∈ tower.verifyQueue, e.channel ≠ none) := by decide +kernel

/-- The FEED of lane 7, its disc on the arm, served at a position; the lane in a state. -/
def placing (position : ArmPlace) (st : LaneState) : State :=
  (((stepping .place position).modArm fun a => { a with request := some 4 }).setRequests
    [⟨.feed, some 7, some 7, some .l, 4, true, some 9⟩]).modLane 7 fun _ => { laneIn st with purpose := some .place }

theorem witness_Place_feed :
    let r : Request := ⟨.feed, some 7, some 7, some .l, 4, true, some 9⟩
    (placing (.known .reject) .opened).served = some r ∧ (placing (.known .reject) .opened).arm.position = .known .reject ∧
    (placing (.known (.tray 7)) .opened).served = some r ∧ (placing (.known (.tray 7)) .opened).lanes[(7 : LaneId)].state = .opened ∧
    (placing (.known (.tray 7)) .opened).lanes[(7 : LaneId)].purpose = some .place ∧
    (placing (.known (.tray 7)) .offline).lanes[(7 : LaneId)].state = .offline ∧
    (placing (.known (.tray 7)) .fault).lanes[(7 : LaneId)].state = .fault ∧
    (stepping .place (.known .printer)).arm.position = .known .printer := by decide +kernel

/-- Selection: an UNLOAD before an older FEED; the PRINT_CLEAR before both; a TAKEN request; none eligible. -/
theorem witness_Selection :
    let feed : Request := ⟨.feed, some 0, some 0, some .l, 1, false, none⟩
    let unload : Request := ⟨.unload, some 1, some 1, none, 2, false, none⟩
    let clear : Request := ⟨.printClear, none, none, none, 3, false, none⟩
    let s := (claiming false).setDisc 0 (some { disc 1 (.tray 1) .burned with phase := .passed })
    let t := s.setDisc 3 (some { disc 4 .printer .printed with destination := some .output })
    tower.arm.state = .idle ∧ s.requestEligible feed = true ∧ s.requestEligible unload = true ∧ t.requestEligible clear = true ∧
    (s.setRequests [feed, unload]).chooseRequest = some unload ∧ (t.setRequests [feed, unload, clear]).chooseRequest = some clear ∧
    (s.setRequests [{ feed with taken := true }]).chooseRequest = some { feed with taken := true } ∧
    (s.discAt (.tray 1)).isSome ∧ tower.requestEligible feed = false := by decide +kernel

/-- The arm at BIN_B for a FEED whose disc is not picked: the step, the attempts made, discs to put back, the bin present. -/
def attempting (step : ArmStep) (attempts : Nat) (returning present : Bool) : State :=
  { ((stepping step (.known (.bin .b))).modArm fun a =>
      { a with request := some 4, sourceBin := some .b, attempts := attempts, returning := returning }).setRequests
    [⟨.feed, some 7, some 7, some .l, 4, true, none⟩] with binB := ⟨.l, present, false⟩ }

/-- R134: a missed and a double pick, the put-back, the third attempt, an absent bin, the door closed and open. -/
theorem witness_FailedPicks :
    let s := attempting .pick 1 false true
    let opened := s.modSensor .doorClosed fun r => { r with active := false }
    s.settled ∧ s.arm.state = .serving ∧ s.arm.step = some .pick ∧ s.arm.position = .known (.bin .b) ∧
    s.served = some ⟨.feed, some 7, some 7, some .l, 4, true, none⟩ ∧ s.arm.sourceBin = some .b ∧ s.arm.returning = false ∧
    s.gripCount = 0 ∧ s.binRecord .b = ⟨.l, true, false⟩ ∧ s.sensor .doorClosed = true ∧ opened.sensor .doorClosed = false ∧
    (s.modSensor .gripTwo fun r => { r with active := true }).gripCount = 2 ∧
    (attempting .pick 2 false false).binRecord .b = ⟨.l, false, false⟩ ∧ 3 ≤ (attempting .pick 3 false true).arm.attempts ∧
    (attempting .place 2 true true).arm.step = some .place ∧ (attempting .place 2 true true).arm.returning = true ∧
    after .armStepDone s (fun t => t.arm.attempts = 2 ∧ t.out = s.out ++ [.arm .pick]) = true ∧
    after .armStepDone (attempting .pick 3 false true) (fun t => (t.binRecord .b).fault) = true := by decide +kernel

/-- The arm picks at a place, serving a request of a kind; lane 7 in a state. -/
def pickingAt (position : ArmPlace) (r : Request) (st : LaneState) : State :=
  (((stepping .pick position).modArm fun a => { a with request := some r.age }).setRequests [r]).modLane 7
    fun _ => { laneIn st with purpose := some .pick }

theorem witness_PickAtATray :
    let unload : Request := ⟨.unload, some 7, some 7, none, 4, true, none⟩
    let clear : Request := ⟨.printClear, none, none, none, 5, true, none⟩
    let s := pickingAt (.known (.tray 7)) unload .opened
    s.arm.step = some .pick ∧ s.served = some unload ∧ s.arm.position = .known (.tray 7) ∧ s.lanes[(7 : LaneId)].state = .opened ∧
    (pickingAt (.known (.tray 7)) unload .fault).lanes[(7 : LaneId)].state = .fault ∧ s.gripCount = 0 ∧
    (s.modSensor .gripOne fun r => { r with active := true }).gripCount = 1 ∧
    (s.modSensor .gripTwo fun r => { r with active := true }).gripCount = 2 ∧
    (pickingAt (.known .printer) clear .idle).served = some clear ∧
    (pickingAt (.known .printer) clear .idle).arm.position = .known .printer := by decide +kernel

theorem witness_ArmFaults : tower.arm.step = none ∧ (stepping .pick (.known .printer)).arm.step = some .pick ∧
    ((stepping .pick (.known .printer)).modSensor .gripOne fun r => { r with active := true }).gripCount ≠ 0 := by decide +kernel

/-- One sensor at its second differing reading, and the readings of a scan that differ at this sensor only. -/
def edge (v : Sensor) (s : State) : State := s.modSensor v fun r => { r with count := 2 }
def edgeReadings (v : Sensor) (s : State) : BitVec 32 :=
  allSensors.foldl (fun x w => if s.sensor w != (w == v) then x ||| (1 <<< sensorBit w) else x) 0

theorem witness_SensorEdges : ∀ v ∈ allSensors, (edge v tower).settled ∧ (edge v tower).scans = 3 ∧
    (edgeReadings v tower).getLsbD (sensorBit v) ≠ (edge v tower).sensors[sensorPlace v].active ∧
    2 ≤ (edge v tower).sensors[sensorPlace v].count ∧
    ∀ w ∈ allSensors, w ≠ v → (edgeReadings v tower).getLsbD (sensorBit w) = (edge v tower).sensors[sensorPlace w].active := by
  decide +kernel

/-- The other state each consumer looks at: a HELD arm, one that waits to home, a grip that loses or shows its disc, the second scan. -/
theorem witness_Consumers :
    let held := tower.modArm fun a => { a with state := .held, resume := some .serving }
    let holds := (tower.modSensor .gripOne fun r => { r with active := true }).setDisc 3 (some (disc 4 .arm .printed))
    let faulted := tower.modArm fun a => { a with state := .fault, fault := some ⟨.pick, some .pick⟩ }
    held.arm.state = .held ∧ held.arm.resume = some .serving ∧ State.reset.arm.state = .homing ∧ State.reset.arm.step = none ∧
    holds.gripCount ≠ 0 ∧ (holds.modSensor .gripOne fun r => { r with active := false }).gripCount = 0 ∧
    (holds.discAt .arm).isSome ∧ holds.arm.step ≠ some .place ∧ faulted.arm.state = .fault ∧ faulted.gripCount = 0 ∧
    faulted.arm.fault = some ⟨.pick, some .pick⟩ ∧ ({ tower with scans := 2 } : State).scans = 2 := by decide +kernel

/-- Buffer B printing; the ink check with and without enough ink, for a live and for a killed job. -/
theorem witness_Ink :
    let onPrinter := tower.setDisc 3 (some (disc 4 .printer .printing))
    let killed := onPrinter.setJobEntry 0 ⟨3, some { job with endReason := some .killed }⟩
    let empty := onPrinter.modPrinter fun v => { v with levels := ⟨0, 0, 0, 0⟩ }
    let inB := (printerIn .printing).modPrinter fun v => { v with bufferA := ⟨.free, []⟩, bufferB := ⟨.inUse 0, []⟩ }
    onPrinter.printerJob = some job ∧ job.artwork = some 0 ∧ onPrinter.artworks[(0 : ArtworkId)].costs = ⟨1, 1, 1, 1⟩ ∧
    onPrinter.printer.levels = ⟨4000, 4000, 4000, 4000⟩ ∧ empty.printer.levels.k < 1 ∧ empty.printerJob = some job ∧
    killed.printerJob = some { job with endReason := some .killed } ∧ (inB.printer.buffer .b).state = .inUse 0 ∧
    inB.printer.bufferA.state ≠ .inUse 0 ∧ inB.printer.nextBand = 0 := by decide +kernel

/-! ### Loads that end, records that close, verifies that end -/

/-- Two QUEUED jobs of image 1, ranks 1 and 2, the lower rank in the higher entry. -/
def queuedJobs : State :=
  let waits (rank : Nat) (owner : Port) : JobEntry := ⟨3, some { job with image := 1, state := .queued, rank := rank, owner := owner }⟩
  (digesting.setJobEntry 2 (waits 1 1)).setJobEntry 1 (waits 2 0)

theorem witness_LoadEnds :
    let waiting := ((queuedJobs.liveJobs.filter fun e => decide (e.2.image = 1) && decide (e.2.state = .queued))).reverse
    queuedJobs.images[(1 : ImageId)].owner = some 0 ∧ queuedJobs.images[(1 : ImageId)].source = some .stream ∧
    (∀ e, e ∈ waiting ↔ queuedJobs.jobs[e.1.index] = ⟨e.1.generation, some e.2⟩ ∧ e.2.image = 1 ∧ e.2.state = .queued) ∧
    waiting.Pairwise (fun a b => a.2.rank < b.2.rank) ∧ (∀ e ∈ waiting, e.2.rank < 16) ∧ waiting.length = 2 ∧
    (queuedJobs.finishImageLoad 1).ports[(0 : Port)].notices.map (·.1) = [.image 1 .ready, .jobActive ⟨1, 3⟩] ∧
    (queuedJobs.finishImageLoad 1).ports[(1 : Port)].notices.map (·.1) = [.jobActive ⟨2, 3⟩] ∧
    (queuedJobs.finishImageLoad 1).verifyQueue = [] ∧ (queuedJobs.finishImageLoad 1).due.claim = true := by
  refine ⟨by decide +kernel, by decide +kernel, fun e => ?_, by decide +kernel, by decide +kernel, by decide +kernel,
    by decide +kernel, by decide +kernel, by decide +kernel, by decide +kernel⟩
  rw [List.mem_reverse, List.mem_filter, State.mem_liveJobs]
  simp

/-- The job with its fields changed, and what is left of its entry when the record in tray 1 closes. -/
def closes (f : Job → Job) (fate : Option Fate) (why : Option FailReason) : JobEntry :=
  ((tower.setJobEntry 0 ⟨3, some (f job)⟩).closeDiscAt (.tray 1) fate why).jobs[(0 : TableId)]

/-- R40 to R42, R63: a record closes good, spoiled, failed; the copies reached, the fail limit reached, the job draining. -/
theorem witness_Closing : tower.jobOf handle = some job ∧ job.endReason = none ∧ job.state ≠ .draining ∧
    tower.discs[(0 : TableId)] = some (disc 1 (.tray 1) .burning) ∧ (∀ k : TableId, ¬k < 0) ∧
    (tower.setDisc 0 (some { disc 1 (.tray 1) .spare with job := none })).discs[(0 : TableId)] =
      some { disc 1 (.tray 1) .spare with job := none } ∧
    (tower.drainLanes handle .killed).jobOf handle ≠ none ∧
    closes id (some .output) none = ⟨3, some { job with good := 1, inFlight := 0 }⟩ ∧
    closes id (some .reject) (some .tooSmall) = ⟨3, some { job with spoiled := 1, inFlight := 0 }⟩ ∧
    closes id none (some .lost) = ⟨3, some { job with failed := 1, inFlight := 0 }⟩ ∧
    closes (fun j => { j with copies := 1 }) (some .output) none = ⟨4, none⟩ ∧
    closes (fun j => { j with failLimit := 1 }) none (some .lost) = ⟨4, none⟩ ∧
    closes (fun j => { j with state := .draining, endReason := some .killed }) none (some .stuck) = ⟨4, none⟩ ∧
    closes (fun j => { j with state := .draining, endReason := some .cancelled, inFlight := 2 }) none (some .stuck) =
      ⟨3, some { job with state := .draining, endReason := some .cancelled, failed := 1 }⟩ := by decide +kernel

/-- R122: the last outstanding index of a verify; one of two, the set all asked for. -/
theorem witness_Verify_ends :
    let two := matching.setCrc 0 (.verify ⟨2, none⟩ 2 [0, 1] 0)
    matching.settled ∧ matching.hasRequest 7 = false ∧ matching.crc[(0 : Fin 2)] = .verify ⟨1, none⟩ 1 [(0 : BitVec 24).toNat] 0 ∧
    matching.laneChannel 7 = some (⟨.verify 7 9, some 0⟩, 0) ∧ two.crc[(0 : Fin 2)] = .verify ⟨2, none⟩ 2 [0, 1] 0 ∧ two.settled ∧
    (VerifySet.mk 2 none).size ≤ 2 ∧ [0, 1].erase (0 : BitVec 24).toNat ≠ [] := by decide +kernel

/-- R84: the last index of a source load, and one of two outstanding when every index has been asked for. -/
theorem witness_SourceRead_ends :
    let five := tower.modImage 2 fun v => { v with segments := 5, size := 300000, pages := [⟨4, 2⟩] }
    let last := five.setCrc 1 (.source 5 [4] 4)
    let two := five.setCrc 1 (.source 5 [3, 4] 3)
    last.crc[(1 : Fin 2)] = .source 5 [4] 4 ∧ two.crc[(1 : Fin 2)] = .source 5 [3, 4] 3 ∧ two.settled ∧
    last.images[(2 : ImageId)].segments ≤ 5 ∧ 4 + 1 = last.images[(2 : ImageId)].segments ∧
    3 + 1 < two.images[(2 : ImageId)].segments ∧ 37856 = segmentLength 300000 5 (4 : BitVec 24).toNat ∧
    pagesMapped [⟨4, 2⟩] (imagePages 300000) = true ∧ last.sourceSlotOf 6 = some 2 ∧
    last.laneChannel 6 = some (⟨.source 6 2, some 1⟩, 1) ∧ last.lanes[(6 : LaneId)].timer = some ⟨10000, 5⟩ := by decide +kernel

/-! ### Lanes that fault, and lanes in FAULT -/

/-- Lane 7 in FAULT at a move, its UNLOAD queued, the arm serving it or not. -/
def unloading (move : FaultMove) (served : Bool) : State :=
  (((withLane 7 { laneIn .fault with faultMove := some move, purpose := some .pick }).setDisc 2
    (some (disc 9 (.tray 7) .failed))).setRequests [⟨.unload, some 7, some 7, none, 4, true, none⟩]).modArm fun a =>
      { a with state := if served then .serving else .idle, request := if served then some 4 else none }

theorem witness_InFault : tower.lanes[(7 : LaneId)].state = .offline ∧ tower.settled ∧ tower.lanes[(7 : LaneId)].timer = none ∧
    (unloading .operatorOpening false).settled ∧ (unloading .operatorOpening false).lanes[(7 : LaneId)].state = .fault ∧
    (unloading .operatorOpening false).lanes[(7 : LaneId)].faultMove ≠ some .unloadOpening ∧
    (unloading .unloadOpen false).lanes[(7 : LaneId)].faultMove = some .unloadOpen ∧
    (unloading .operatorOpening false).lanes[(7 : LaneId)].timer.isSome ∧
    (unloading .unloadOpening true).lanes[(7 : LaneId)].faultMove = some .unloadOpening ∧
    (unloading .unloadOpening true).laneRequest .unload 7 = some ⟨.unload, some 7, some 7, none, 4, true, none⟩ ∧
    (unloading .unloadOpening true).arm.request = some 4 ∧ (unloading .unloadOpening false).arm.request ≠ some 4 ∧
    (unloading .unloadOpening true).lanes[(7 : LaneId)].timer.isSome ∧
    after (.error 7 9) (unloading .unloadOpening true) (fun t => t.requests = [] ∧ t.arm.request = none ∧
      t.discAt (.tray 7) = none ∧ t.lanes[(7 : LaneId)].job = none ∧ t.lanes[(7 : LaneId)].state = .fault) = true := by decide +kernel

/-- Where a lane without a claim may stand: at work, the source of a load, at its PICK with the tray open, opening, or reported open. -/
theorem witness_LaneFault_exact :
    let opening := withLane 7 { laneIn .opening with purpose := some .pick, report := some .moving }
    let opened := withLane 7 { laneIn .opened with purpose := some .pick, report := some .opened }
    tower.lanes[(1 : LaneId)].state = .burning ∧ tower.sourceSlotOf 1 = none ∧ tower.hasRequest 1 = false ∧
    tower.lanes[(6 : LaneId)].state ≠ .awaitDisc ∧ tower.lanes[(6 : LaneId)].purpose ≠ some .place ∧
    tower.sourceSlotOf 6 = some 2 ∧ tower.images[(2 : ImageId)].state = .loading ∧
    opening.lanes[(7 : LaneId)].state = .opening ∧ opening.lanes[(7 : LaneId)].purpose = some .pick ∧
    opening.lanes[(7 : LaneId)].report ≠ some .opened ∧ opened.lanes[(7 : LaneId)].state = .opened ∧
    opened.lanes[(7 : LaneId)].purpose = some .pick ∧
    (opening.laneFault 7 .tray).lanes[(7 : LaneId)].unanswered = some .openTray ∧
    (tower.laneFault 6 .tray).images[(2 : ImageId)].state = .free := by decide +kernel

/-- Lane 7 with a claim, its FEED selected or not, in AWAIT_DISC. -/
def awaiting (taken : Bool) : State :=
  ((withLane 7 (laneIn .awaitDisc)).setRequests [⟨.feed, some 7, some 7, some .l, 4, taken, none⟩]).modArm fun a =>
    { a with request := if taken then some 4 else none }

/-- Lane 7 works for the job, with no disc in its tray and no place in a queue or in the read channel. -/
def bare (s : State) : Bool :=
  !s.startQueue.contains 7 && !s.verifyQueue.any (VerifyEntry.ofLane 7) && s.channel.isNone && (s.sourceSlotOf 7).isNone &&
    (s.discAt (.tray 7)).isNone && decide (s.lanes[(7 : LaneId)].job = some handle) && decide (s.jobOf handle = some job)

/-- R87: the claim ends with the FEED withdrawn or kept; the disc picked, its PLACE running, and not issued. -/
theorem witness_LaneFault_claim :
    let running := placing (.known (.tray 7)) .opened
    let coming := (placing .home .opening).modArm fun a => { a with step := some (.travel (.tray 7)) }
    bare (awaiting true) ∧ bare (awaiting false) ∧ bare running ∧ bare coming ∧
    (awaiting true).laneRequest .feed 7 = some ⟨.feed, some 7, some 7, some .l, 4, true, none⟩ ∧
    (awaiting false).lanes[(7 : LaneId)].state = .awaitDisc ∧ (awaiting true).arm.request = some 4 ∧
    running.laneRequest .feed 7 = some ⟨.feed, some 7, some 7, some .l, 4, true, some 9⟩ ∧
    running.lanes[(7 : LaneId)].purpose = some .place ∧ running.arm.step = some .place ∧ running.arm.position = .known (.tray 7) ∧
    coming.lanes[(7 : LaneId)].state = .opening ∧ coming.arm.step ≠ some .place ∧
    ((awaiting false).laneFault 7 .tray).requests = [] ∧
    (((coming.setDisc 2 (some (disc 9 .arm .fed))).laneFault 7 .tray).discAt .arm).map (·.destination) = some (some .reject) := by
  decide +kernel

/-! ### Grants, starts and routing -/

/-- A waiting VERIFY and a waiting SOURCE entry, channel 0 FREE. -/
theorem witness_CrcGrants_work :
    let verify := tower.setVerifyQueue [⟨.verify 1 1, none⟩]
    let source := (tower.modImage 2 fun v => { v with state := .loadWait }).setVerifyQueue [⟨.source 6 2, none⟩]
    verify.crc[(0 : Fin 2)] = .free ∧ verify.verifyQueue = [] ++ ⟨.verify 1 1, none⟩ :: [] ∧
    source.verifyQueue = [] ++ ⟨.source 6 2, none⟩ :: [] ∧ source.images[(2 : ImageId)].state = .loadWait ∧
    verify.crcGrants.lanes[(1 : LaneId)].state = .verifying ∧
    verify.crcGrants.out = verify.out ++ [.drive 1 [7, 0, 0, 0], .drive 1 [7, 1, 0, 0]] ∧
    source.crcGrants.lanes[(6 : LaneId)].state = .sourceRead ∧ source.crcGrants.images[(2 : ImageId)].state = .loading := by
  decide +kernel

/-- Lane 1 heads the start queue with a blank of speeds 4, 8 and 48, under a budget. -/
def starting (budget : Nat) : State :=
  ((tower.modLane 1 fun l => { l with state := .feedWait, blankSpeeds := [4, 8, 48] }).setStartQueue [1]).setBudget budget

/-- R99, R100: in the range, the highest below it, the lowest above it; a start at 8, none that fits, the empty queue. -/
theorem witness_Starts : candidateSpeeds [4, 8, 48] 8 48 = [8, 48] ∧ candidateSpeeds [4, 8, 48] 10 40 = [8] ∧
    candidateSpeeds [10, 12] 4 8 = [10] ∧ tower.startQueue = [] ∧ (starting 5296).startQueue = 1 :: [] ∧
    (starting 5296).discAt (.tray 1) = some (disc 1 (.tray 1) .burning) ∧
    (starting 5296).jobOfOpt (starting 5296).lanes[(1 : LaneId)].job = some job ∧
    (starting 5296).lanes[(1 : LaneId)].identity = some ⟨64, true, true⟩ ∧
    startSpeed .l (candidateSpeeds [4, 8, 48] 4 48) (((5296 : Nat) : Int) - 4096 - (starting 5296).burningSum) = some 8 ∧
    startSpeed .l (candidateSpeeds [4, 8, 48] 4 48) (((4695 : Nat) : Int) - 4096 - (starting 4695).burningSum) = none ∧
    (starting 5296).startComputation.out = (starting 5296).out ++ [.drive 1 [4, 8, 2, 0, 0]] := by decide +kernel

/-- R60: each row of the routing table. -/
theorem witness_Routing :
    let killed := tower.setJobEntry 0 ⟨3, some { job with endReason := some .killed }⟩
    let unverified := tower.setJobEntry 0 ⟨3, some { job with verify := .none, artwork := none }⟩
    [Phase.failed, .spare].map (fun v => tower.routing (disc 1 (.tray 1) v)) = [some .reject, some .reject] ∧
    tower.routing (disc 1 (.tray 1) .passed) = some .printer ∧ killed.routing (disc 1 (.tray 1) .passed) = some .output ∧
    tower.routing (disc 1 .printer .passed) = some .output ∧ unverified.routing (disc 1 (.tray 1) .burned) = some .output ∧
    tower.routing (disc 1 (.tray 1) .burned) = none ∧ tower.routing (disc 1 .printer .printed) = some .output ∧
    tower.routing (disc 1 (.tray 1) .ready) = none := by decide +kernel

/-! ### The arm's faults and the disc in the grip -/

/-- A record on the arm with an empty grip: its FEED's lane OPEN, OPENING, in FAULT, or gone; a record that no FEED was picked for. -/
theorem witness_LoseArmDisc :
    let r : Request := ⟨.feed, some 7, some 7, some .l, 4, true, some 9⟩
    let held (st : LaneState) : State := (placing (.known (.tray 7)) st).setDisc 2 (some (disc 9 .arm .fed))
    let absent := (held .idle).setRequests [{ r with lane := none }]
    let alone := (stepping .place (.known .output)).setDisc 2 (some (disc 9 .arm .printed))
    tower.discAt .arm = none ∧ alone.discAt .arm = some (disc 9 .arm .printed) ∧ alone.requests = [] ∧ alone.gripCount = 0 ∧
    (held .opened).discAt .arm = some (disc 9 .arm .fed) ∧ (held .opened).requests = [] ++ r :: [] ∧ (disc 9 .arm .fed).serial = 9 ∧
    (held .opened).lanes[(7 : LaneId)].state = .opened ∧ (held .opened).lanes[(7 : LaneId)].purpose = some .place ∧
    (held .opening).lanes[(7 : LaneId)].state = .opening ∧ (held .fault).lanes[(7 : LaneId)].state = .fault ∧
    absent.requests = [] ++ { r with lane := none } :: [] ∧
    after .armDriverFault (held .opened) (fun t => t.arm.state = .fault ∧ t.discAt .arm = none ∧ t.requests = [] ∧
      t.lanes[(7 : LaneId)].state = .closing ∧ t.lanes[(7 : LaneId)].purpose = none ∧
      (t.jobOf handle).map (·.failed) = some 1) = true := by decide +kernel

/-- R136, R137: a disc appears in the grip after a PICK fault at a tray and at the printer; the request TAKEN, WAITING, or gone. -/
theorem witness_FollowPick :
    let unload : Request := ⟨.unload, some 7, some 7, none, 4, true, none⟩
    let clear : Request := ⟨.printClear, none, none, none, 5, true, none⟩
    let atTray (r : Request) : State := (pickingAt (.known (.tray 7)) r .opened).setDisc 2 (some (disc 9 (.tray 7) .passed))
    let atPrinter (r : Request) : State := (pickingAt (.known .printer) r .idle).setDisc 2 (some (disc 9 .printer .printed))
    (atTray unload).laneRequest .unload 7 = some unload ∧ ((atTray unload).discAt (.tray 7)).isSome ∧
    (atTray { unload with taken := false }).laneRequest .unload 7 = some { unload with taken := false } ∧
    (atTray unload).lanes[(7 : LaneId)].state = .opened ∧
    (pickingAt (.known (.tray 7)) unload .fault).lanes[(7 : LaneId)].state = .fault ∧
    (atPrinter clear).requests = [] ++ clear :: [] ∧ ((atPrinter clear).discAt .printer).isSome ∧
    (atPrinter { clear with taken := false }).requests = [] ++ { clear with taken := false } :: [] ∧
    (tower.arm.position = .home ∧ tower.requests = []) ∧
    ((atTray unload).followPick.discAt .arm).isSome ∧ (atTray unload).followPick.lanes[(7 : LaneId)].state = .closing ∧
    (atPrinter clear).followPick.printer.state = .empty := by decide +kernel

/-! ### The attempt at a band and the next fetch -/

/-- The printer in FETCH_WAIT for band 0 of artwork 0, its disc there, its buffers as given, the head at 119. -/
def fetching (a b : BufferState) : State :=
  ((tower.setDisc 3 (some (disc 4 .printer .printing))).modPrinter fun v =>
    { v with state := .fetchWait, bufferA := ⟨a, []⟩, bufferB := ⟨b, []⟩, head := 119 })

/-- R164, R166, R167: no buffer FULL for the first or a later band; B alone FULL; the lid open; the head at 119 and at 120. -/
theorem witness_BandAttempts :
    let later := (fetching .free .free).modPrinter fun v => { v with nextBand := 1 }
    let inB := fetching .free (.full 0)
    let opened := inB.modSensor .lidClosed fun r => { r with active := false }
    let hot := inB.modPrinter fun v => { v with head := 120 }
    (fetching .free .free).printer.nextBand = 0 ∧ later.printer.nextBand ≠ 0 ∧ (inB.printer.buffer .b).state = .full inB.printer.nextBand ∧
    (inB.printer.buffer .a).state ≠ .full inB.printer.nextBand ∧ opened.sensor .lidClosed = false ∧ hot.sensor .lidClosed = true ∧
    120 ≤ hot.printer.head ∧ inB.printer.head < 120 ∧ inB.printerJob = some job ∧
    (fetching .free .free).tryStartBand.printer.state = .fetchWait ∧ later.tryStartBand.printer.timer = some ⟨2000, 0⟩ ∧
    opened.tryStartBand.printer.fault = some .lid ∧ hot.tryStartBand.printer.state = .thermalPause ∧
    (inB.tryStartBand.printer.buffer .b).state = .inUse 0 := by decide +kernel

/-- R163: the buffer that is FILLING, a FREE one, none; the artwork's last band fetched; a quarter in flight. -/
theorem witness_RaiseFetch :
    let done := (fetching .free .free).modPrinter fun v => { v with fetchBand := 1 }
    let flying := (fetching .free .free).setChannel (some ⟨.band 0 0 2 .a, true⟩)
    (fetching .free .free).printer.request = none ∧ (fetching .free .free).channel = none ∧
    (fetching .free .free).printerJob = some job ∧ job.artwork = some 0 ∧
    ((fetching .free (.filling 0 2)).printer.buffer .b).state = .filling (fetching .free (.filling 0 2)).printer.fetchBand 2 ∧
    (fetching .free .free).printer.fetchBand < (fetching .free .free).artworks[(0 : ArtworkId)].bands ∧
    done.artworks[(0 : ArtworkId)].bands ≤ done.printer.fetchBand ∧ flying.channel = some ⟨.band 0 0 2 .a, true⟩ ∧
    (fetching .free (.filling 0 2)).raiseFetch.printer.request = some ⟨0, 0, 2, .b⟩ ∧
    (fetching (.inUse 0) .free).raiseFetch.printer.request = some ⟨0, 0, 0, .b⟩ ∧
    (fetching (.inUse 0) (.full 0)).raiseFetch = fetching (.inUse 0) (.full 0) ∧ done.raiseFetch = done ∧
    flying.raiseFetch = flying := by decide +kernel

/-! ### The invariants -/

theorem reset_pagesPlaced : State.reset.pagesPlaced := by
  refine ⟨?_, by decide +kernel, by decide +kernel⟩
  have h : State.reset.allPages = List.range 16384 := by
    simp [State.allPages, State.reset, pagesOf, ImageSlot.freed, ArtworkSlot.freed, List.range_eq_range', Vector.toList_replicate]
  rw [h]
  exact List.Perm.refl _

theorem reset_ranksInOrder : State.reset.ranksInOrder := by
  have h : State.reset.liveJobs = [] := by decide +kernel
  simp [State.ranksInOrder, h]

theorem reset_channelsMatch : State.reset.channelsMatch := by
  refine ⟨by decide +kernel, ?_⟩
  intro k
  simp [State.reset]

theorem reset_memWf : State.reset.memWf := rfl

theorem reset_inRange : (∀ p : Port, State.reset.ports[p].inRange = true) ∧ State.reset.settingsInRange ∧
    (∀ n : LaneId, State.reset.lanes[n].inRange = true) ∧ State.reset.arm.consistent = true ∧ State.reset.settled := by
  refine ⟨by decide +kernel, ?_, by decide +kernel, by decide +kernel, by decide +kernel⟩
  simp [State.settingsInRange, State.reset, Printer.atPowerOn]

/-- The states of a run meet the ranges too: the tower at work does. -/
theorem tower_inRange : (∀ p : Port, tower.ports[p].inRange = true) ∧ (∀ n : LaneId, tower.lanes[n].inRange = true) ∧
    tower.arm.consistent = true ∧ tower.settled := by decide +kernel

/-- Some next state exists for the statements about any step: an idle millisecond, and a LINK_STATUS that changes no memory. -/
theorem witness_stepAnswers : goesOn (step tower) = true ∧ after (.linkStatus 0) tower (fun t => t.mem = tower.mem) = true := by
  decide +kernel

/-- A staging write changes image memory. -/
theorem witness_memoryChanges : after (.imageStagingWrite 0 3) digesting (fun t => t.mem ≠ digesting.mem) = true := by
  decide +kernel

/-- Port 1 brings nothing here, and POWER_ON_RESET is not the command. -/
theorem witness_PortsAreKeptApart : after (.putCommands 0 [record 48 [1]]) tower (fun t =>
    t.ports[(0 : Port)].outstanding.isSome ∧ t.ports[(1 : Port)] = tower.ports[(1 : Port)]) = true ∧
    portOf (.putCommands 0 [record 48 [1]]) ≠ some 1 := by decide +kernel

/-! ## One step of chosen commands, against the words of the rules -/

/-- R179: of 20 records offered to an empty port 16 are accepted; the oldest is passed at once. -/
theorem test_put_commands_accepts_16 : after (.putCommands 0 (List.replicate 20 (record 48 []))) State.reset (fun t =>
    t.ports[(0 : Port)].commands.length = 15 ∧ t.out.getLast? = some (.answer 0 [16])) = true := by decide +kernel

/-- R30 to R32: the first job takes entry 0; its image is READY, so it is ACTIVE and claims lane 0, which awaits a disc. -/
theorem test_submit_claims_a_lane :
    let s := withCommand { tower with jobs := State.reset.jobs, binB := ⟨.l, true, false⟩ } 0 16 submitted
    after (.submitJob 0) s (fun t => t.lanes[(0 : LaneId)].state = .awaitDisc ∨ t.lanes[(0 : LaneId)].state = .opening) = true := by
  decide +kernel

/-- R33: a paused job keeps its lane. -/
theorem test_pause_keeps_the_lane : after (.pauseJob 0) (withCommand tower 0 17 [0, 3]) (fun t =>
    (t.jobOf handle).map (·.state) = some .paused ∧ t.lanes[(1 : LaneId)].state = .burning) = true := by decide +kernel

/-- R77: the last committed segment ends the burn. -/
theorem test_last_credit_finalizes : after (.credit 1 1 2) tower (fun t =>
    t.lanes[(1 : LaneId)].state = .finalizing ∧ t.lanes[(1 : LaneId)].timer = some ⟨180000, 0⟩) = true := by decide +kernel

/-- R194: a committed total above the sent count is an ERROR with code 255. -/
theorem test_credit_above_sent_faults : after (.credit 1 1 3) tower (fun t => t.lanes[(1 : LaneId)].state = .fault) = true := by
  decide +kernel

/-- R86, R88: a fault fails the disc in the tray and is charged to the lane. -/
theorem test_error_fails_the_disc : after (.error 1 9) tower (fun t =>
    (t.discAt (.tray 1)).map (·.reason) = some (some .laneFault) ∧ t.lanes[(1 : LaneId)].failCount = 1) = true := by decide +kernel

/-- R122: a matching last segment passes the disc; the lane is DONE, or already OPENING for its PICK. -/
theorem test_verify_passes : after (.readData 7 0 [0, 0, 0, 0]) matching (fun t =>
    (t.discAt (.tray 7)).map (·.phase) = some .passed) = true := by decide +kernel

/-- R121: a segment that differs fails the disc with that segment. -/
theorem test_verify_fails : after (.readData 7 0 [0, 0, 0, 1]) matching (fun t =>
    (t.discAt (.tray 7)).map (·.verify) = some (some (.mismatch 0))) = true := by decide +kernel

/-- R68: the answer to one tray command sends the one held back; R70 acts on every report: OPEN while the tray is to close is a
fault, which ends the wait. -/
theorem test_trayState_heldBack :
    (let s := waiting .unloadOpening .closeTray .openTray
     after (.trayState 7 .closed) s fun t => t.out = s.out ++ [.drive 7 [1]] ∧ t.lanes[(7 : LaneId)].heldBack = none) = true ∧
    after (.trayState 7 .opened) (withLane 7 { laneIn .closing with unanswered := some .openTray, heldBack := some .closeTray })
      (fun t => t.lanes[(7 : LaneId)].state = .fault ∧ t.lanes[(7 : LaneId)].heldBack = none) = true := by decide +kernel

/-- R87: a fault unload that finds the tray open stops the timer of an operator's opening. -/
theorem test_faultUnload_stops_the_timer :
    let s := (withLane 7 { laneIn .fault with report := some .opened, faultMove := some .operatorOpening }).faultUnload 7
    s.lanes[(7 : LaneId)].timer = none ∧ s.lanes[(7 : LaneId)].faultMove = some .unloadOpen := by decide +kernel

/-- R87, fourth row: the PLACE ends at a lane that has been taken out of FAULT meanwhile; the disc fails and is to be unloaded. -/
theorem test_place_after_laneOffline :
    after .armStepDone ((placing (.known (.tray 7)) .offline).setDisc 2 (some (disc 9 .arm .fed))) (fun t =>
      (t.discAt (.tray 7)).map (·.phase) = some .failed ∧ (t.laneRequest .unload 7).isSome = true) = true := by decide +kernel

/-- R53: the picked disc takes the serial of the counter. -/
theorem test_pick_creates_the_record : after .armStepDone picking (fun t =>
    (t.discAt .arm).map (·.serial) = some 1 ∧ t.serial = 2) = true := by decide +kernel

/-- R149: two differing readings are not enough, the third changes the sensor. -/
theorem test_third_reading_changes :
    after (.sensorScan 0 []) (tower.modSensor .doorClosed fun r => { r with count := 1 }) (fun t => t.sensor .doorClosed) = true ∧
    after (.sensorScan 0 []) (tower.modSensor .doorClosed fun r => { r with count := 2 }) (fun t => !t.sensor .doorClosed) = true := by
  decide +kernel

/-- R158: an ERROR of the mechanism in EMPTY changes nothing. -/
theorem test_printer_error_in_empty : after (.printerError 1) tower (fun t => t = tower) = true := by decide +kernel

/-- R191: TOWER-RESET ends the job at once when it has nothing in flight. -/
theorem test_tower_reset_ends_jobs :
    let jobs := State.reset.jobs.set 0 ⟨3, some { job with inFlight := 0, lanesHeld := 0 }⟩
    let quiet := { tower with key := .service, discs := State.reset.discs, lanes := State.reset.lanes, jobs := jobs }
    let s := withCommand quiet 2 50 []
    after (.towerReset 2 false) s (fun t => t.jobs[(0 : TableId)] = ⟨4, none⟩ ∧ t.images[(1 : ImageId)].state = .free) = true := by
  decide +kernel

end Sys2Proof.Tests
end

