-- ==== Sys2Proof/Proofs/Store.lean ====
section
/-! What image memory holds and who holds its pages (`State.store`): the part of the state that the operations of the other blocks
leave alone. One frame lemma for each of these operations, in the order of their definitions, as Laws/Frames.lean has for `quiet`. -/

namespace Sys2Proof.Machine

/-- What the page account needs of an image slot: whether it is FREE, and its pages. -/
def ImageSlot.holding (v : ImageSlot) : Bool × List Extent := (decide (v.state = .free), v.pages)

/-- What the page account needs of an artwork slot: whether it is FREE, and its pages. -/
def ArtworkSlot.holding (v : ArtworkSlot) : Bool × List Extent := (decide (v.state = .free), v.pages)

/-- Image memory, the page pool, and what the slots hold. -/
def State.store (s : State) :=
  (s.mem, s.pool, s.images.map ImageSlot.holding, s.artworks.map ArtworkSlot.holding)

theorem State.store_eq_iff (s t : State) : t.store = s.store ↔ t.mem = s.mem ∧ t.pool = s.pool ∧
    (∀ i : ImageId, t.images[i].holding = s.images[i].holding) ∧
    ∀ i : ArtworkId, t.artworks[i].holding = s.artworks[i].holding := by
  simp only [State.store, Prod.mk.injEq, Vector.ext_iff, Vector.getElem_map, Fin.forall_iff]
  rfl

theorem State.mem_of_store {s t : State} (h : t.store = s.store) : t.mem = s.mem := congrArg Prod.fst h

/-! ## Slots that change without a change to what they hold -/

theorem State.modImage_store (s : State) (i : ImageId) (f : ImageSlot → ImageSlot)
    (h : ∀ v, (f v).holding = v.holding) : (s.modImage i f).store = s.store := by
  refine (State.store_eq_iff _ _).2 ⟨rfl, rfl, fun k => ?_, fun _ => rfl⟩
  by_cases hk : k = i
  · subst hk; rw [State.modImage_same, h]
  · rw [State.modImage_other _ _ _ _ hk]

theorem State.modArtwork_store (s : State) (i : ArtworkId) (f : ArtworkSlot → ArtworkSlot)
    (h : ∀ v, (f v).holding = v.holding) : (s.modArtwork i f).store = s.store := by
  refine (State.store_eq_iff _ _).2 ⟨rfl, rfl, fun _ => rfl, fun k => ?_⟩
  by_cases hk : k = i
  · subst hk; rw [State.modArtwork_same, h]
  · rw [State.modArtwork_other _ _ _ _ hk]

@[simp] theorem State.referToImage_store (s : State) (i : ImageId) :
    (s.modImage i fun v => { v with refcount := v.refcount + 1 }).store = s.store :=
  s.modImage_store i _ fun _ => rfl

@[simp] theorem State.referToArtwork_store (s : State) (i : ArtworkId) :
    (s.modArtwork i fun v => { v with refcount := v.refcount + 1 }).store = s.store :=
  s.modArtwork_store i _ fun _ => rfl

@[simp] theorem State.releaseImage_store (s : State) (i : ImageId) : (s.releaseImage i).store = s.store :=
  s.modImage_store i _ fun _ => rfl

@[simp] theorem State.releaseArtwork_store (s : State) (i : ArtworkId) : (s.releaseArtwork i).store = s.store :=
  s.modArtwork_store i _ fun _ => rfl

@[simp] theorem State.loadBegins_store (s : State) (i : ImageId) : (s.loadBegins i).store = s.store := by
  refine s.modImage_store i _ fun v => ?_
  split <;> simp_all [ImageSlot.holding]

@[simp] theorem State.streamReceives_store (s : State) (v : Stream) (k : Nat) : (s.streamReceives v k).store = s.store := by
  cases v with
  | image i => exact s.modImage_store i _ fun _ => rfl
  | artwork i => exact s.modArtwork_store i _ fun _ => rfl
  | none => rfl
  | outbound => rfl

/-! ## Operations of the other blocks -/

@[simp] theorem State.setSerial_store (s : State) (v : Word32) : (s.setSerial v).store = s.store := rfl
@[simp] theorem State.setBudget_store (s : State) (v : Nat) : (s.setBudget v).store = s.store := rfl
@[simp] theorem State.setOutputFull_store (s : State) (v : Bool) : (s.setOutputFull v).store = s.store := rfl
@[simp] theorem State.setRejectFull_store (s : State) (v : Bool) : (s.setRejectFull v).store = s.store := rfl
@[simp] theorem State.setScans_store (s : State) (v : Nat) : (s.setScans v).store = s.store := rfl
@[simp] theorem State.setKey_store (s : State) (v : KeyPosition) : (s.setKey v).store = s.store := rfl
@[simp] theorem State.modSensor_store (s : State) (v : Sensor) (f : SensorRecord → SensorRecord) :
    (s.modSensor v f).store = s.store := rfl
@[simp] theorem State.tick_store (s : State) : s.tick.store = s.store := rfl

@[simp] theorem State.modBin_store (s : State) (which : Bin) (f : BinRecord → BinRecord) :
    (s.modBin which f).store = s.store := by
  cases which <;> rfl

@[simp] theorem State.modPort_store (s : State) (p : Port) (f : PortRecord → PortRecord) :
    (s.modPort p f).store = s.store := rfl

@[simp] theorem State.modLane_store (s : State) (n : LaneId) (f : Lane → Lane) : (s.modLane n f).store = s.store := rfl
@[simp] theorem State.setJobEntry_store (s : State) (i : TableId) (e : JobEntry) : (s.setJobEntry i e).store = s.store := rfl
@[simp] theorem State.setDisc_store (s : State) (i : TableId) (d : Option Disc) : (s.setDisc i d).store = s.store := rfl
@[simp] theorem State.modArm_store (s : State) (f : Arm → Arm) : (s.modArm f).store = s.store := rfl
@[simp] theorem State.modPrinter_store (s : State) (f : Printer → Printer) : (s.modPrinter f).store = s.store := rfl
@[simp] theorem State.setCrc_store (s : State) (c : Fin 2) (v : CrcChannel) : (s.setCrc c v).store = s.store := rfl
@[simp] theorem State.setRotation_store (s : State) (v : Port) : (s.setRotation v).store = s.store := rfl
@[simp] theorem State.setStartQueue_store (s : State) (v : List LaneId) : (s.setStartQueue v).store = s.store := rfl
@[simp] theorem State.setChannel_store (s : State) (v : Option Transfer) : (s.setChannel v).store = s.store := rfl
@[simp] theorem State.setVerifyQueue_store (s : State) (v : List VerifyEntry) : (s.setVerifyQueue v).store = s.store := rfl
@[simp] theorem State.setJobs_store (s : State) (v : Vector JobEntry 16) : (s.setJobs v).store = s.store := rfl
@[simp] theorem State.setRequests_store (s : State) (v : List Request) : (s.setRequests v).store = s.store := rfl
@[simp] theorem State.setDue_store (s : State) (v : Due) : (s.setDue v).store = s.store := rfl
@[simp] theorem State.oweCrc_store (s : State) : s.oweCrc.store = s.store := rfl
@[simp] theorem State.oweClaim_store (s : State) : s.oweClaim.store = s.store := rfl
@[simp] theorem State.oweStart_store (s : State) : s.oweStart.store = s.store := rfl
@[simp] theorem State.oweArm_store (s : State) : s.oweArm.store = s.store := rfl
@[simp] theorem State.oweSelect_store (s : State) : s.oweSelect.store = s.store := rfl
@[simp] theorem State.oweGrant_store (s : State) : s.oweGrant.store = s.store := rfl
@[simp] theorem State.emit_store (s : State) (o : Output) : (s.emit o).store = s.store := rfl
@[simp] theorem State.answer_store (s : State) (p : Port) (bytes : List Byte) : (s.answer p bytes).store = s.store := rfl
@[simp] theorem State.sendDrive_store (s : State) (n : LaneId) (v : DriveMessage) : (s.sendDrive n v).store = s.store := rfl
@[simp] theorem State.sendPrinter_store (s : State) (v : PrinterMessage) : (s.sendPrinter v).store = s.store := rfl
@[simp] theorem State.notify_store (s : State) (p : Port) (v : Notice) : (s.notify p v).store = s.store := rfl

@[simp] theorem State.notifyOpt_store (s : State) (p : Option Port) (v : Notice) : (s.notifyOpt p v).store = s.store := by
  unfold State.notifyOpt; split <;> simp

@[simp] theorem State.raiseTo_store (g : Group) (v : Notice) (l : List Port) (s : State) :
    (State.raiseTo g v l s).store = s.store := by
  induction l generalizing s with
  | nil => rfl
  | cons x rest ih => unfold State.raiseTo; split <;> simp [ih]

@[simp] theorem State.raise_store (s : State) (g : Group) (v : Notice) :
    (s.raise g v).store = s.store := by simp [State.raise]

@[simp] theorem State.startTimer_store (s : State) (n : LaneId) (limit : Nat) : (s.startTimer n limit).store = s.store := rfl
@[simp] theorem State.stopTimer_store (s : State) (n : LaneId) : (s.stopTimer n).store = s.store := rfl
@[simp] theorem State.restartTimer_store (s : State) (n : LaneId) : (s.restartTimer n).store = s.store := rfl

@[simp] theorem State.modJob_store (s : State) (h : Handle) (f : Job → Job) : (s.modJob h f).store = s.store := by
  unfold State.modJob; split <;> simp

@[simp] theorem State.modDiscAt_store (s : State) (loc : Location) (f : Disc → Disc) :
    (s.modDiscAt loc f).store = s.store := by
  unfold State.modDiscAt; split <;> simp

@[simp] theorem State.passAge_store (s : State) : s.passAge.store = s.store := rfl

@[simp] theorem State.queueRequest_store (s : State) (kind : RequestKind) (n : Option LaneId) (cls : Option MediaClass) :
    (s.queueRequest kind n cls).store = s.store := rfl

@[simp] theorem State.dropRequest_store (s : State) (age : Nat) : (s.dropRequest age).store = s.store := rfl

@[simp] theorem State.modRequest_store (s : State) (age : Nat) (f : Request → Request) :
    (s.modRequest age f).store = s.store := rfl

@[simp] theorem State.queueUnload_store (s : State) (n : LaneId) : (s.queueUnload n).store = s.store := by
  unfold State.queueUnload; split <;> simp

@[simp] theorem State.joinStartQueue_store (s : State) (n : LaneId) : (s.joinStartQueue n).store = s.store := rfl

@[simp] theorem State.leaveStartQueue_store (s : State) (n : LaneId) : (s.leaveStartQueue n).store = s.store := by
  unfold State.leaveStartQueue; split <;> simp

@[simp] theorem State.disown_store (s : State) (p : TransferTo → Bool) : (s.disown p).store = s.store := rfl
@[simp] theorem State.dropLaneChunk_store (s : State) (n : LaneId) : (s.dropLaneChunk n).store = s.store := rfl
@[simp] theorem State.joinVerifyQueue_store (s : State) (w : VerifyWork) : (s.joinVerifyQueue w).store = s.store := rfl

@[simp] theorem State.releaseChannel_store (s : State) (e : VerifyEntry) : (s.releaseChannel e).store = s.store := by
  unfold State.releaseChannel; split <;> simp

@[simp] theorem State.releaseAll_store (l : List VerifyEntry) (s : State) : (State.releaseAll l s).store = s.store := by
  induction l generalizing s with
  | nil => rfl
  | cons x rest ih => simp [State.releaseAll, ih]

@[simp] theorem State.leaveVerifyQueue_store (s : State) (p : VerifyEntry → Bool) :
    (s.leaveVerifyQueue p).store = s.store := by simp [State.leaveVerifyQueue]

@[simp] theorem State.laneLeavesJob_store (s : State) (n : LaneId) : (s.laneLeavesJob n).store = s.store := by
  unfold State.laneLeavesJob; split <;> simp

@[simp] theorem State.sendTray_store (s : State) (n : LaneId) (v : TrayCommand) : (s.sendTray n v).store = s.store := by
  unfold State.sendTray; split <;> simp

@[simp] theorem State.releaseTray_store (s : State) (n : LaneId) : (s.releaseTray n).store = s.store := by
  unfold State.releaseTray; split <;> simp

@[simp] theorem State.sendAbort_store (s : State) (n : LaneId) : (s.sendAbort n).store = s.store := rfl

@[simp] theorem State.enterOpening_store (s : State) (n : LaneId) (v : TrayPurpose) :
    (s.enterOpening n v).store = s.store := by simp [State.enterOpening]

@[simp] theorem State.enterClosing_store (s : State) (n : LaneId) (v : Option TrayPurpose) :
    (s.enterClosing n v).store = s.store := by simp [State.enterClosing]

@[simp] theorem State.enterProbing_store (s : State) (n : LaneId) : (s.enterProbing n).store = s.store := rfl
@[simp] theorem State.enterDone_store (s : State) (n : LaneId) : (s.enterDone n).store = s.store := by simp [State.enterDone]
@[simp] theorem State.enterFeedWait_store (s : State) (n : LaneId) : (s.enterFeedWait n).store = s.store := rfl
@[simp] theorem State.enterIdle_store (s : State) (n : LaneId) : (s.enterIdle n).store = s.store := rfl
@[simp] theorem State.chargeLane_store (s : State) (n : LaneId) : (s.chargeLane n).store = s.store := rfl

@[simp] theorem State.quarantineLane_store (s : State) (n : LaneId) :
    (s.quarantineLane n).store = s.store := by simp [State.quarantineLane]

@[simp] theorem State.closeStream_store (s : State) (p : Port) : (s.closeStream p).store = s.store := rfl
@[simp] theorem State.enterTrayOut_store (s : State) : s.enterTrayOut.store = s.store := rfl

@[simp] theorem State.unprintedReturn_store (s : State) :
    s.unprintedReturn.store = s.store := by simp [State.unprintedReturn]

@[simp] theorem State.lowerRanks_store (s : State) (rank : Nat) : (s.lowerRanks rank).store = s.store := rfl

@[simp] theorem State.endJob_store (s : State) (h : Handle) (result : JobResult) : (s.endJob h result).store = s.store := by
  unfold State.endJob; (repeat' split) <;> simp

@[simp] theorem State.drainCheck_store (s : State) (h : Handle) : (s.drainCheck h).store = s.store := by
  unfold State.drainCheck; (repeat' split) <;> simp

@[simp] theorem State.claim_store (s : State) (h : Handle) (j : Job) (n : LaneId) : (s.claim h j n).store = s.store := by
  unfold State.claim; split <;> simp

theorem State.claimOne_store {s s' : State} (h : s.claimOne = some s') : s'.store = s.store := by
  unfold State.claimOne at h; split at h
  · cases h
  · obtain ⟨n, -, rfl⟩ := Option.map_eq_some_iff.mp h; simp

@[simp] theorem State.claimRounds_store (l : Nat) (s : State) : (State.claimRounds l s).store = s.store := by
  induction l generalizing s with
  | zero => rfl
  | succ k ih =>
    unfold State.claimRounds; split
    · rfl
    · rename_i h; rw [ih, State.claimOne_store h]

@[simp] theorem State.claimAttempt_store (s : State) : s.claimAttempt.store = s.store := by simp [State.claimAttempt]

@[simp] theorem State.offerBlank_store (s : State) (n : LaneId) (h : Handle) : (s.offerBlank n h).store = s.store := by
  unfold State.offerBlank; split <;> simp

@[simp] theorem State.withdrawClaim_store (s : State) (h : Handle) (n : LaneId) : (s.withdrawClaim h n).store = s.store := by
  unfold State.withdrawClaim; (repeat' split) <;> simp

@[simp] theorem State.drainLane_store (s : State) (h : Handle) (n : LaneId) : (s.drainLane h n).store = s.store := by
  unfold State.drainLane; (repeat' split) <;> simp

@[simp] theorem State.killDisc_store (s : State) (n : LaneId) : (s.killDisc n).store = s.store := by simp [State.killDisc]

@[simp] theorem State.killLane_store (s : State) (h : Handle) (n : LaneId) : (s.killLane h n).store = s.store := by
  unfold State.killLane; (repeat' split) <;> simp

@[simp] theorem State.killAtPrinter_store (s : State) (h : Handle) : (s.killAtPrinter h).store = s.store := by
  unfold State.killAtPrinter; split <;> simp

theorem State.forLanes_store (f : State → LaneId → State) (h : ∀ t n, (f t n).store = t.store) (l : List LaneId) (s :
    State) :
    (State.forLanes f l s).store = s.store := by
  induction l generalizing s with
  | nil => rfl
  | cons n rest ih => unfold State.forLanes; rw [ih, h]

@[simp] theorem State.drainLanes_store (s : State) (h : Handle) (reason : EndReason) :
    (s.drainLanes h reason).store = s.store := by
  unfold State.drainLanes; cases reason <;> simp [State.forLanes_store]

@[simp] theorem State.drainJob_store (s : State) (h : Handle) (reason : EndReason) :
    (s.drainJob h reason).store = s.store := by
  unfold State.drainJob; dsimp only; (repeat' split) <;> simp

@[simp] theorem State.closingChecks_store (s : State) (h : Handle) : (s.closingChecks h).store = s.store := by
  unfold State.closingChecks; (repeat' split) <;> simp

@[simp] theorem State.reportClosing_store (s : State) (h : Handle) (fate : Option Fate) (reason : Option FailReason) :
    (s.reportClosing h fate reason).store = s.store := by simp [State.reportClosing]

@[simp] theorem State.closeDisc_store (s : State) (i : TableId) (fate : Option Fate) (why : Option FailReason) :
    (s.closeDisc i fate why).store = s.store := by
  unfold State.closeDisc; dsimp only; (repeat' split) <;> simp

@[simp] theorem State.closeDiscAt_store (s : State) (loc : Location) (fate : Option Fate) (why : Option FailReason) :
    (s.closeDiscAt loc fate why).store = s.store := by
  unfold State.closeDiscAt; split <;> simp

@[simp] theorem State.activateRanks_store (i : ImageId) (l : List Nat) (s : State) :
    (State.activateRanks i l s).store = s.store := by
  induction l generalizing s with
  | nil => rfl
  | cons x rest ih => unfold State.activateRanks; split <;> simp [ih]

@[simp] theorem State.imageReady_store (s : State) (i : ImageId) :
    (s.imageReady i).store = s.store := by simp [State.imageReady]

@[simp] theorem State.sourceLaneEnds_store (s : State) (n : LaneId) (early : Bool) :
    (s.sourceLaneEnds n early).store = s.store := by
  unfold State.sourceLaneEnds; (repeat' split) <;> simp

@[simp] theorem State.loadSourceEnds_store (s : State) (v : ImageSlot) (early : Bool) :
    (s.loadSourceEnds v early).store = s.store := by
  unfold State.loadSourceEnds; (repeat' split) <;> simp

@[simp] theorem State.failJobsOf_store (i : ImageId) (l : List TableId) (s : State) :
    (State.failJobsOf i l s).store = s.store := by
  induction l generalizing s with
  | nil => rfl
  | cons x rest ih => unfold State.failJobsOf; (repeat' split) <;> simp [ih]

@[simp] theorem State.endOutbound_store (s : State) (p : Port) : (s.endOutbound p).store = s.store := by
  unfold State.endOutbound; (repeat' split) <;> simp

@[simp] theorem State.endOutbounds_store (l : List Port) (s : State) : (State.endOutbounds l s).store = s.store := by
  induction l generalizing s with
  | nil => rfl
  | cons x rest ih => simp [State.endOutbounds, ih]

@[simp] theorem State.claimEnds_store (s : State) (n : LaneId) : (s.claimEnds n).store = s.store := by
  unfold State.claimEnds; (repeat' split) <;> simp

@[simp] theorem State.divertFeed_store (s : State) (n : LaneId) (r : Request) :
    (s.divertFeed n r).store = s.store := by simp [State.divertFeed]

@[simp] theorem State.faultUnload_store (s : State) (n : LaneId) : (s.faultUnload n).store = s.store := by
  unfold State.faultUnload; split <;> simp

@[simp] theorem State.faultClaim_store (s : State) (n : LaneId) (stood : LaneState) (purpose : Option TrayPurpose) :
    (s.faultClaim n stood purpose).store = s.store := by
  unfold State.faultClaim; (repeat' split) <;> simp

@[simp] theorem State.failTrayDisc_store (s : State) (n : LaneId) : (s.failTrayDisc n).store = s.store := by
  unfold State.failTrayDisc; (repeat' split) <;> simp

@[simp] theorem State.stuck_store (s : State) (n : LaneId) : (s.stuck n).store = s.store := by
  unfold State.stuck; dsimp only; (repeat' split) <;> simp

@[simp] theorem State.lanePicked_store (s : State) (n : LaneId) : (s.lanePicked n).store = s.store := by
  unfold State.lanePicked; split <;> simp

@[simp] theorem State.feedDiscGone_store (s : State) (n : LaneId) : (s.feedDiscGone n).store = s.store := by
  unfold State.feedDiscGone; split <;> simp

@[simp] theorem State.loseArmDisc_store (s : State) : s.loseArmDisc.store = s.store := by
  unfold State.loseArmDisc; (repeat' split) <;> simp

@[simp] theorem State.sendReads_store (n : LaneId) (l : List Nat) (s : State) : (State.sendReads n l s).store = s.store := by
  induction l generalizing s with
  | nil => rfl
  | cons x rest ih => simp [State.sendReads, ih]

@[simp] theorem State.startWork_store (s : State) (c : Fin 2) (w : VerifyWork) : (s.startWork c w).store = s.store := by
  unfold State.startWork; split <;> simp

@[simp] theorem State.crcRounds_store (l : Nat) (s : State) : (State.crcRounds l s).store = s.store := by
  induction l generalizing s with
  | zero => rfl
  | succ k ih => unfold State.crcRounds; (repeat' split) <;> simp [ih]

@[simp] theorem State.crcGrants_store (s : State) : s.crcGrants.store = s.store := by simp [State.crcGrants]

@[simp] theorem State.verifyFails_store (s : State) (n : LaneId) (result : VerifyResult) (reason : FailReason) :
    (s.verifyFails n result reason).store = s.store := by simp [State.verifyFails]

@[simp] theorem State.verifyPasses_store (s : State) (n : LaneId) :
    (s.verifyPasses n).store = s.store := by simp [State.verifyPasses]

@[simp] theorem State.startLane_store (s : State) (n : LaneId) (speed : Nat) :
    (s.startLane n speed).store = s.store := by simp [State.startLane]

@[simp] theorem State.startScan_store (l : List LaneId) (s : State) : (State.startScan l s).store = s.store := by
  induction l generalizing s with
  | nil => rfl
  | cons x rest ih => unfold State.startScan; split <;> simp [ih]

@[simp] theorem State.startComputation_store (s : State) :
    s.startComputation.store = s.store := by simp [State.startComputation]

@[simp] theorem State.grantTo_store (s : State) (r : Requester) : (s.grantTo r).store = s.store := by
  unfold State.grantTo; (repeat' split) <;> simp

@[simp] theorem State.chooseGrant_store (s : State) : s.chooseGrant.store = s.store := by
  unfold State.chooseGrant; (repeat' split) <;> simp

@[simp] theorem State.raiseFetch_store (s : State) : s.raiseFetch.store = s.store := by
  unfold State.raiseFetch; dsimp only; (repeat' split) <;> simp

@[simp] theorem State.printerFaults_store (s : State) (cause : PrinterCause) :
    (s.printerFaults cause).store = s.store := by simp [State.printerFaults]

@[simp] theorem State.startBand_store (s : State) (which : BufferId) : (s.startBand which).store = s.store := rfl

@[simp] theorem State.tryStartBand_store (s : State) : s.tryStartBand.store = s.store := by
  unfold State.tryStartBand; dsimp only; (repeat' split) <;> simp

@[simp] theorem State.enterTrayIn_store (s : State) : s.enterTrayIn.store = s.store := by simp [State.enterTrayIn]

@[simp] theorem State.inkCheck_store (s : State) : s.inkCheck.store = s.store := by
  unfold State.inkCheck; (repeat' split) <;> simp

@[simp] theorem State.lowInkBlack_store (s : State) : s.lowInkBlack.store = s.store := by
  unfold State.lowInkBlack; split <;> simp

@[simp] theorem State.lowInkColour_store (s : State) : s.lowInkColour.store = s.store := by
  unfold State.lowInkColour; split <;> simp

@[simp] theorem State.completeLabel_store (s : State) : s.completeLabel.store = s.store := by simp [State.completeLabel]

@[simp] theorem State.endTrayOut_store (s : State) (disc : Bool) : (s.endTrayOut disc).store = s.store := by
  unfold State.endTrayOut; (repeat' split) <;> simp

@[simp] theorem State.printerCleared_store (s : State) : s.printerCleared.store = s.store := rfl

@[simp] theorem State.issueStep_store (s : State) (v : ArmStep) : (s.issueStep v).store = s.store := by
  unfold State.issueStep; split <;> simp

@[simp] theorem State.issueBinPick_store (s : State) : s.issueBinPick.store = s.store := by
  unfold State.issueBinPick; split <;> simp

theorem State.goTo_store (s : State) (p : Position) (next : State → State) (h : ∀ t, (next t).store = t.store) :
    (s.goTo p next).store = s.store := by
  unfold State.goTo; split <;> simp [h]

@[simp] theorem State.armToIdle_store (s : State) : s.armToIdle.store = s.store := rfl

@[simp] theorem State.setAside_store (s : State) : s.setAside.store = s.store := by
  simp [State.setAside]

@[simp] theorem State.deliver_store (s : State) (d : Destination) : (s.deliver d).store = s.store := by
  unfold State.deliver; cases d <;> refine State.goTo_store _ _ _ fun t => ?_ <;> split <;> simp

@[simp] theorem State.pickFromBin_store (s : State) (which : Bin) : (s.pickFromBin which).store = s.store := by
  unfold State.pickFromBin; refine State.goTo_store _ _ _ fun t => ?_; dsimp only; (repeat' split) <;> simp

@[simp] theorem State.deliverFeed_store (s : State) (r : Request) : (s.deliverFeed r).store = s.store := by
  unfold State.deliverFeed; split
  · simp
  · split
    · simp
    · simp
    · exact State.goTo_store _ _ _ fun t => by split <;> simp

@[simp] theorem State.armNext_store (s : State) : s.armNext.store = s.store := by
  unfold State.armNext; split
  · split
    · simp
    · simp
    · simp
    · exact State.goTo_store _ _ _ fun t => by split <;> simp
    · simp
    · exact State.goTo_store _ _ _ fun t => by simp
  · (repeat' split) <;> simp

@[simp] theorem State.armContinue_store (s : State) : s.armContinue.store = s.store := by
  unfold State.armContinue; split <;> simp

@[simp] theorem State.tellSelected_store (s : State) (r : Request) : (s.tellSelected r).store = s.store := by
  unfold State.tellSelected; (repeat' split) <;> simp

@[simp] theorem State.takeUp_store (s : State) (r : Request) : (s.takeUp r).store = s.store := by
  unfold State.takeUp; dsimp only; split <;> simp

@[simp] theorem State.select_store (s : State) : s.select.store = s.store := by
  unfold State.select; (repeat' split) <;> simp

@[simp] theorem State.armFaults_store (s : State) (cause : ArmCause) (step : Option ArmStep) :
    (s.armFaults cause step).store = s.store := by
  unfold State.armFaults; dsimp only; split <;> simp

@[simp] theorem State.homed_store (s : State) : s.homed.store = s.store := by
  unfold State.homed; dsimp only; (repeat' split) <;> simp

@[simp] theorem State.pickedUp_store (s : State) (loc : Location) (age : Option Nat) :
    (s.pickedUp loc age).store = s.store := by
  unfold State.pickedUp; (repeat' split) <;> simp

@[simp] theorem State.followPick_store (s : State) : s.followPick.store = s.store := by
  unfold State.followPick; (repeat' split) <;> simp

theorem State.when_store (s : State) (owed : Bool) (f : State → State) (h : ∀ t, (f t).store = t.store) :
    (s.when owed f).store = s.store := by
  unfold State.when; split <;> simp [h]

@[simp] theorem State.settleClaims_store (s : State) : s.settleClaims.store = s.store := by
  simp [State.settleClaims, State.when_store]

@[simp] theorem State.settleChannel_store (s : State) : s.settleChannel.store = s.store := by
  simp [State.settleChannel, State.when_store]

@[simp] theorem State.settle_store (s : State) : s.settle.store = s.store := by
  simp [State.settle, State.when_store]

@[simp] theorem State.settlePart_store (s : State) : s.settlePart.store = s.store := by simp [State.settlePart]
@[simp] theorem State.passNext_store (s : State) (p : Port) : (s.passNext p).store = s.store := rfl

@[simp] theorem State.killJobs_store (l : List TableId) (s : State) : (State.killJobs l s).store = s.store := by
  induction l generalizing s with
  | nil => rfl
  | cons x rest ih => unfold State.killJobs; (repeat' split) <;> simp [ih]

@[simp] theorem State.readOutbound_store (s : State) (p : Port) (slot : ImageId) (position : Nat) (buffer : List Byte) (k : Nat) :
    (s.readOutbound p slot position buffer k).store = s.store := by
  unfold State.readOutbound; (repeat' split) <;> simp

@[simp] theorem State.clearOutstanding_store (s : State) (p : Port) : (s.clearOutstanding p).store = s.store := rfl

@[simp] theorem State.openOutbound_store (s : State) (p : Port) (i : ImageId) : (s.openOutbound p i).store = s.store := by
  simp [State.openOutbound]

@[simp] theorem State.admitJob_store (s : State) (k : TableId) (j : Job) : (s.admitJob k j).store = s.store := by
  unfold State.admitJob; (repeat' split) <;> simp

@[simp] theorem State.resume_store (s : State) (h : Handle) (j : Job) : (s.resume h j).store = s.store := by
  unfold State.resume; dsimp only; split <;> simp

@[simp] theorem State.openInFault_store (s : State) (n : LaneId) : (s.openInFault n).store = s.store := by
  unfold State.openInFault; split <;> simp

@[simp] theorem State.closeInFault_store (s : State) (n : LaneId) :
    (s.closeInFault n).store = s.store := by simp [State.closeInFault]

@[simp] theorem State.bringOnline_store (s : State) (n : LaneId) : (s.bringOnline n).store = s.store := by
  unfold State.bringOnline; dsimp only; (repeat' split) <;> simp

@[simp] theorem State.takeOffline_store (s : State) (n : LaneId) : (s.takeOffline n).store = s.store := rfl

@[simp] theorem State.faultTray_store (s : State) (n : LaneId) (pos : TrayPosition) :
    (s.faultTray n pos).store = s.store := by
  unfold State.faultTray; (repeat' split) <;> simp

@[simp] theorem State.closedByOperator_store (s : State) (n : LaneId) : (s.closedByOperator n).store = s.store := by
  simp [State.closedByOperator]

@[simp] theorem State.closedAfterPick_store (s : State) (n : LaneId) : (s.closedAfterPick n).store = s.store := by
  unfold State.closedAfterPick; (repeat' split) <;> simp

@[simp] theorem State.restingTray_store (s : State) (n : LaneId) (pos : TrayPosition) :
    (s.restingTray n pos).store = s.store := by
  unfold State.restingTray; split <;> simp

@[simp] theorem State.probeBlank_store (s : State) (n : LaneId) (h : Handle) (j : Job) (cls : MediaClass) (capacity : Nat) :
    (s.probeBlank n h j cls capacity).store = s.store := by
  unfold State.probeBlank; dsimp only; (repeat' split) <;> simp

@[simp] theorem State.probeFed_store (s : State) (n : LaneId) (report : MediaReport) :
    (s.probeFed n report).store = s.store := by
  unfold State.probeFed; (repeat' split) <;> simp

@[simp] theorem State.probeUnrecorded_store (s : State) (n : LaneId) (report : MediaReport) :
    (s.probeUnrecorded n report).store = s.store := by
  unfold State.probeUnrecorded; dsimp only; (repeat' split) <;> simp

@[simp] theorem State.finalize_store (s : State) (n : LaneId) : (s.finalize n).store = s.store := by simp [State.finalize]

@[simp] theorem State.takeCredit_store (s : State) (n : LaneId) (freed committed : Nat) :
    (s.takeCredit n freed committed).store = s.store := by
  unfold State.takeCredit; dsimp only; (repeat' split) <;> simp

@[simp] theorem State.finalized_store (s : State) (n : LaneId) (d : Disc) : (s.finalized n d).store = s.store := by
  unfold State.finalized; dsimp only; (repeat' split) <;> simp

@[simp] theorem State.verifyMatches_store (s : State) (n : LaneId) (k : Fin 2) (set : VerifySet) (next : Nat) (outstanding : List Nat) (matched index : Nat) :
    (s.verifyMatches n k set next outstanding matched index).store = s.store := by
  unfold State.verifyMatches; dsimp only; (repeat' split) <;> simp

@[simp] theorem State.faultTimeout_store (s : State) (n : LaneId) : (s.faultTimeout n).store = s.store := by
  unfold State.faultTimeout; split <;> simp

@[simp] theorem State.segmentDone_store (s : State) (n : LaneId) (slot : ImageId) (k : Nat) :
    (s.segmentDone n slot k).store = s.store := rfl

@[simp] theorem State.quarterDone_store (s : State) (slot : ArtworkId) (band q : Nat) (which : BufferId) :
    (s.quarterDone slot band q which).store = s.store := by
  unfold State.quarterDone; (repeat' split) <;> simp

@[simp] theorem State.chunkDone_store (s : State) (p : Port) (slot : ImageId) (k : Nat) :
    (s.chunkDone p slot k).store = s.store := by
  unfold State.chunkDone; split <;> simp

@[simp] theorem State.deliverTransfer_store (s : State) (t : Transfer) : (s.deliverTransfer t).store = s.store := by
  unfold State.deliverTransfer; (repeat' split) <;> simp

@[simp] theorem State.pickedAt_store (s : State) (loc : Location) : (s.pickedAt loc).store = s.store := by
  unfold State.pickedAt; split <;> simp

@[simp] theorem State.dropServed_store (s : State) : s.dropServed.store = s.store := by
  unfold State.dropServed; split <;> simp

@[simp] theorem State.placedOnPrinter_store (s : State) :
    s.placedOnPrinter.store = s.store := by simp [State.placedOnPrinter]

@[simp] theorem State.placedInBin_store (s : State) (fate : Fate) :
    (s.placedInBin fate).store = s.store := by simp [State.placedInBin]

@[simp] theorem State.endStep_store (s : State) : s.endStep.store = s.store := rfl

@[simp] theorem State.doorReleases_store (s : State) : s.doorReleases.store = s.store := by
  unfold State.doorReleases; dsimp only; (repeat' split) <;> simp

@[simp] theorem State.gripEmptied_store (s : State) : s.gripEmptied.store = s.store := by
  unfold State.gripEmptied; (repeat' split) <;> simp

@[simp] theorem State.gripFilled_store (s : State) : s.gripFilled.store = s.store := by
  unfold State.gripFilled; split <;> simp

@[simp] theorem State.gripChange_store (s : State) (before : Nat) : (s.gripChange before).store = s.store := by
  unfold State.gripChange; (repeat' split) <;> simp

@[simp] theorem State.homeReads_store (s : State) : s.homeReads.store = s.store := by
  unfold State.homeReads; split <;> simp

@[simp] theorem State.lidOpens_store (s : State) : s.lidOpens.store = s.store := by
  unfold State.lidOpens; split <;> simp

@[simp] theorem State.printerHomeReads_store (s : State) : s.printerHomeReads.store = s.store := by
  unfold State.printerHomeReads; split <;> simp

@[simp] theorem State.recheckInk_store (s : State) : s.recheckInk.store = s.store := by
  unfold State.recheckInk; split <;> simp

@[simp] theorem State.blackChange_store (s : State) (on : Bool) : (s.blackChange on).store = s.store := by
  unfold State.blackChange; split <;> simp

@[simp] theorem State.colourChange_store (s : State) (on : Bool) : (s.colourChange on).store = s.store := by
  unfold State.colourChange; split <;> simp

@[simp] theorem State.bandEnds_store (s : State) (which : BufferId) : (s.bandEnds which).store = s.store := by
  unfold State.bandEnds; split <;> simp

@[simp] theorem State.printerErrorTaken_store (s : State) (code : Byte) : (s.printerErrorTaken code).store = s.store := by
  unfold State.printerErrorTaken; split <;> simp

/-! ## The arm's picks and places, and the sensors' consumers -/

@[simp] theorem State.createDisc_store (s : State) (r : Request) : (s.createDisc r).store = s.store := by
  unfold State.createDisc; split <;> simp

@[simp] theorem State.binFaults_store (s : State) (which : Bin) : (s.binFaults which).store = s.store := by
  simp [State.binFaults]

@[simp] theorem State.pickedAtBin_store (s : State) (which : Bin) : (s.pickedAtBin which).store = s.store := by
  unfold State.pickedAtBin; (repeat' split) <;> simp

@[simp] theorem State.pickDone_store (s : State) : s.pickDone.store = s.store := by
  unfold State.pickDone; split <;> simp

@[simp] theorem State.putBack_store (s : State) (which : Bin) : (s.putBack which).store = s.store := by
  unfold State.putBack; dsimp only; split <;> simp

@[simp] theorem State.binPresence_store (s : State) (which : Bin) (on : Bool) : (s.binPresence which on).store = s.store := by
  unfold State.binPresence; dsimp only; split <;> simp

@[simp] theorem State.outputChange_store (s : State) (on : Bool) : (s.outputChange on).store = s.store := by
  unfold State.outputChange; dsimp only; split <;> simp

@[simp] theorem State.rejectChange_store (s : State) (on : Bool) : (s.rejectChange on).store = s.store := by
  unfold State.rejectChange; dsimp only; split <;> simp

@[simp] theorem State.doorChange_store (s : State) (on : Bool) : (s.doorChange on).store = s.store := by
  unfold State.doorChange; dsimp only; split <;> simp

@[simp] theorem State.deriveKey_store (s : State) : s.deriveKey.store = s.store := by
  unfold State.deriveKey; dsimp only; split <;> simp

@[simp] theorem State.consume_store (s : State) (startUp : Bool) (before : Nat) (v : Sensor) (on : Bool) :
    (s.consume startUp before v on).store = s.store := by
  unfold State.consume; cases v <;> dsimp only <;> (try split) <;> simp

@[simp] theorem State.changeEvent_store (s : State) (startUp : Bool) (v : Sensor) (on : Bool) :
    (s.changeEvent startUp v on).store = s.store := by
  simp [State.changeEvent]

@[simp] theorem State.countReadings_store (readings : BitVec 32) (l : List Sensor) (s : State) :
    (State.countReadings readings l s).store = s.store := by
  induction l generalizing s with
  | nil => rfl
  | cons v rest ih => simp [State.countReadings, ih]

@[simp] theorem State.changeEvents_store (startUp : Bool) (readings : BitVec 32) (l : List Sensor) (s : State) :
    (State.changeEvents startUp readings l s).store = s.store := by
  induction l generalizing s with
  | nil => rfl
  | cons v rest ih => simp [State.changeEvents, ih]

end Sys2Proof.Machine
end

