-- ==== Sys2Proof/Proofs/Pages.lean ====
section
/-! The page account (R1, R5, R10): what an allocation and a freeing do to it, and that every operation which frees or fills slots
keeps each page in exactly one place. -/

namespace Sys2Proof.Machine

/-! ## Counting pages -/

@[simp] theorem pagesOf_nil : pagesOf [] = [] := rfl

@[simp] theorem pagesOf_append (a b : List Extent) : pagesOf (a ++ b) = pagesOf a ++ pagesOf b := List.flatMap_append

theorem pagesOf_cons (e : Extent) (rest : List Extent) : pagesOf (e :: rest) = List.range' e.start e.len ++ pagesOf rest :=
  List.flatMap_cons

/-- An allocation splits the pages of the pool: those taken first, then those left. -/
theorem pagesOf_takePages (pool : List Extent) (n : Nat) :
    pagesOf (takePages pool n).1 ++ pagesOf (takePages pool n).2 = pagesOf pool := by
  induction pool generalizing n with
  | nil => cases n <;> rfl
  | cons e rest ih =>
    cases n with
    | zero => rfl
    | succ n =>
      by_cases h : e.len ≤ n + 1
      · simp only [takePages, h, if_true, pagesOf_cons, List.append_assoc, ih]
      · have hsplit : List.range' e.start (n + 1) ++ List.range' (e.start + (n + 1)) (e.len - (n + 1)) =
            List.range' e.start e.len := by
          rw [List.range'_append_1]; congr 1; omega
        simp only [takePages, h, if_false, pagesOf_cons, pagesOf_nil, List.append_nil, ← List.append_assoc, hsplit]

/-- Replacing one record of a table exchanges what the table lists for the old one for what it lists for the new one. -/
theorem count_flatMap_set {α : Type} {n : Nat} (table : Vector α n) (i : Fin n) (x : α) (f : α → List Nat) (a : Nat) :
    ((table.set i x).toList.flatMap f).count a + (f table[i]).count a =
      (table.toList.flatMap f).count a + (f x).count a := by
  have key : ∀ (l : List α) (k : Nat) (hk : k < l.length),
      ((l.set k x).flatMap f).count a + (f l[k]).count a = (l.flatMap f).count a + (f x).count a := by
    intro l
    induction l with
    | nil => intro k hk; simp at hk
    | cons y rest ih =>
      intro k hk
      cases k with
      | zero => simp only [List.set_cons_zero, List.flatMap_cons, List.count_append, List.getElem_cons_zero]; omega
      | succ k =>
        have := ih k (by simpa using hk)
        simp only [List.set_cons_succ, List.flatMap_cons, List.count_append, List.getElem_cons_succ]; omega
  simpa [Vector.toList_set] using key table.toList i (by simp)

/-! ## What keeps the account -/

theorem State.pagesPlaced_of_store {s t : State} (h : t.store = s.store) (hs : s.pagesPlaced) : t.pagesPlaced := by
  obtain ⟨-, hpool, himages, hartworks⟩ := (State.store_eq_iff s t).1 h
  have hi : t.images.toList.flatMap (fun v => pagesOf v.pages) = s.images.toList.flatMap fun v => pagesOf v.pages := by
    have := congrArg (fun v => v.toList.flatMap fun x : Bool × List Extent => pagesOf x.2) (congrArg (·.2.2.1) h)
    simpa [State.store, Vector.toList_map, List.flatMap_map, ImageSlot.holding] using this
  have ha : t.artworks.toList.flatMap (fun v => pagesOf v.pages) = s.artworks.toList.flatMap fun v => pagesOf v.pages := by
    have := congrArg (fun v => v.toList.flatMap fun x : Bool × List Extent => pagesOf x.2) (congrArg (·.2.2.2) h)
    simpa [State.store, Vector.toList_map, List.flatMap_map, ArtworkSlot.holding] using this
  obtain ⟨hall, hfreeI, hfreeA⟩ := hs
  refine ⟨?_, fun i hi => ?_, fun i hi => ?_⟩
  · rwa [State.allPages, hpool, hi, ha]
  · have := himages i
    simp only [ImageSlot.holding, Prod.mk.injEq, decide_eq_decide] at this
    rw [this.2, hfreeI i (this.1.1 hi)]
  · have := hartworks i
    simp only [ArtworkSlot.holding, Prod.mk.injEq, decide_eq_decide] at this
    rw [this.2, hfreeA i (this.1.1 hi)]

/-- From `s` to `t` image memory stays as it is, and each page that stood in exactly one place still does. -/
def State.Keeps (s t : State) : Prop := t.mem = s.mem ∧ (s.pagesPlaced → t.pagesPlaced)

theorem State.Keeps.of_store {s t : State} (h : t.store = s.store) : s.Keeps t :=
  ⟨State.mem_of_store h, State.pagesPlaced_of_store h⟩

theorem State.Keeps.refl (s : State) : s.Keeps s := .of_store rfl

theorem State.Keeps.trans {s t u : State} (h : s.Keeps t) (h' : t.Keeps u) : s.Keeps u :=
  ⟨h'.1.trans h.1, h'.2 ∘ h.2⟩

/-- An operation that keeps the account, between two that do not touch it. -/
theorem State.Keeps.between {s t u v : State} (h : t.Keeps u) (hst : t.store = s.store) (huv : v.store = u.store) :
    s.Keeps v := ((State.Keeps.of_store hst).trans h).trans (.of_store huv)

/-! ## Slots that are freed or filled -/

/-- The pages of an image slot and of the pool, as many as before, are shared out anew between the two; the slot holds none when it
is FREE. `base` is the state in which this happens: `s` up to the pool and what slots do not hold. -/
theorem State.Keeps.image {s base : State} (i : ImageId) (f : ImageSlot → ImageSlot) (left : List Extent)
    (hbase : (base.mem, base.images, base.artworks) = (s.mem, s.images, s.artworks))
    (hfree : (f s.images[i]).state = .free → (f s.images[i]).pages = [])
    (hcount : s.pagesPlaced → ∀ a, (pagesOf left).count a + (pagesOf (f s.images[i]).pages).count a =
      (pagesOf s.pool).count a + (pagesOf s.images[i].pages).count a) :
    s.Keeps ((base.setPool left).modImage i f) := by
  obtain ⟨hmem, himages, hartworks⟩ : base.mem = s.mem ∧ base.images = s.images ∧ base.artworks = s.artworks := by
    simpa using hbase
  refine ⟨hmem, fun hs => ?_⟩
  obtain ⟨hall, hfreeI, hfreeA⟩ := id hs
  refine ⟨.trans (List.perm_iff_count.mpr fun a => ?_) hall, fun k hk => ?_, hartworks ▸ hfreeA⟩
  · have h := count_flatMap_set s.images i (f s.images[i]) (fun v => pagesOf v.pages) a
    have := hcount hs a
    simp only [State.allPages, State.modImage, State.setPool, List.count_append, himages, hartworks] at h ⊢
    omega
  · by_cases hki : k = i
    · subst hki
      rw [State.modImage_same, State.setPool_images, himages] at hk ⊢
      exact hfree hk
    · rw [State.modImage_other _ _ _ _ hki, State.setPool_images, himages] at hk ⊢
      exact hfreeI k hk

/-- Likewise for an artwork slot. -/
theorem State.Keeps.artwork {s base : State} (i : ArtworkId) (f : ArtworkSlot → ArtworkSlot) (left : List Extent)
    (hbase : (base.mem, base.images, base.artworks) = (s.mem, s.images, s.artworks))
    (hfree : (f s.artworks[i]).state = .free → (f s.artworks[i]).pages = [])
    (hcount : s.pagesPlaced → ∀ a, (pagesOf left).count a + (pagesOf (f s.artworks[i]).pages).count a =
      (pagesOf s.pool).count a + (pagesOf s.artworks[i].pages).count a) :
    s.Keeps ((base.setPool left).modArtwork i f) := by
  obtain ⟨hmem, himages, hartworks⟩ : base.mem = s.mem ∧ base.images = s.images ∧ base.artworks = s.artworks := by
    simpa using hbase
  refine ⟨hmem, fun hs => ?_⟩
  obtain ⟨hall, hfreeI, hfreeA⟩ := id hs
  refine ⟨.trans (List.perm_iff_count.mpr fun a => ?_) hall, himages ▸ hfreeI, fun k hk => ?_⟩
  · have h := count_flatMap_set s.artworks i (f s.artworks[i]) (fun v => pagesOf v.pages) a
    have := hcount hs a
    simp only [State.allPages, State.modArtwork, State.setPool, List.count_append, himages, hartworks] at h ⊢
    omega
  · by_cases hki : k = i
    · subst hki
      rw [State.modArtwork_same, State.setPool_artworks, hartworks] at hk ⊢
      exact hfree hk
    · rw [State.modArtwork_other _ _ _ _ hki, State.setPool_artworks, hartworks] at hk ⊢
      exact hfreeA k hk

/-- An allocation for a slot shares out what the pool and the slot held: the pages left, and the pages taken. -/
theorem count_takePages (pool old : List Extent) (n a : Nat) :
    (pagesOf (takePages (pool ++ old) n).2).count a + (pagesOf (takePages (pool ++ old) n).1).count a =
      (pagesOf pool).count a + (pagesOf old).count a := by
  rw [Nat.add_comm, ← List.count_append, pagesOf_takePages, pagesOf_append, List.count_append]

theorem State.freeImage_keeps (s : State) (i : ImageId) : s.Keeps (s.freeImage i) :=
  .image i _ _ rfl (fun _ => rfl) fun _ a => by simp [ImageSlot.freed]

theorem State.freeArtwork_keeps (s : State) (i : ArtworkId) : s.Keeps (s.freeArtwork i) :=
  .artwork i _ _ rfl (fun _ => rfl) fun _ a => by simp [ArtworkSlot.freed]

theorem State.acceptImageLoad_keeps (s : State) (i : ImageId) (p : Port) (source : LoadSource) (cls : MediaClass) (size : Nat)
    (noExport : Bool) (h : s.images[i].state = .free ∨ s.images[i].state = .ready) :
    s.Keeps (s.acceptImageLoad i p source cls size noExport) := by
  unfold State.acceptImageLoad
  dsimp only
  rcases h with hfree | hready
  · rw [if_neg (by rw [hfree]; decide)]
    refine .image i _ _ rfl (fun hf => nomatch hf) fun hs a => ?_
    simpa [hs.2.1 i hfree, -Fin.getElem_fin] using count_takePages s.pool [] (imagePages size) a
  · rw [if_pos hready]
    cases s.images[i].owner <;>
      exact .image i _ _ rfl (fun hf => nomatch hf) fun _ a => count_takePages s.pool _ (imagePages size) a

theorem State.openArtworkLoad_keeps (s : State) (p : Port) (i : ArtworkId) (bands : Nat)
    (h : s.artworks[i].state = .free ∨ s.artworks[i].state = .ready) : s.Keeps (s.openArtworkLoad p i bands) := by
  unfold State.openArtworkLoad
  dsimp only
  refine .between ?_ rfl (State.modPort_store _ _ _)
  rcases h with hfree | hready
  · rw [if_neg (by rw [hfree]; decide)]
    refine .artwork i _ _ rfl (fun hf => nomatch hf) fun hs a => ?_
    simpa [hs.2.2 i hfree, -Fin.getElem_fin] using count_takePages s.pool [] (artworkPages bands) a
  · rw [if_pos hready]
    cases s.artworks[i].owner <;>
      exact .artwork i _ _ rfl (fun hf => nomatch hf) fun _ a => count_takePages s.pool _ (artworkPages bands) a

/-! ## Loads that end or fail -/

theorem State.finishImageLoad_keeps (s : State) (i : ImageId) : s.Keeps (s.finishImageLoad i) := by
  have ready : s.Keeps (s.modImage i fun v => { v with state := .ready, source := none }) :=
    .image (base := s) i _ s.pool rfl (fun hf => nomatch hf) fun _ _ => rfl
  exact ready.trans (.of_store (by simp [State.finishImageLoad]))

theorem State.finishArtworkLoad_keeps (s : State) (p : Port) (i : ArtworkId) : s.Keeps (s.finishArtworkLoad p i) := by
  have ready : s.Keeps (s.modArtwork i fun v => { v with costs := inkCosts v.weights, state := .ready }) :=
    .artwork (base := s) i _ s.pool rfl (fun hf => nomatch hf) fun _ _ => rfl
  exact ready.trans (.of_store (by simp [State.finishArtworkLoad]))

theorem State.failImageLoad_keeps (s : State) (i : ImageId) : s.Keeps (s.failImageLoad i) := by
  unfold State.failImageLoad
  dsimp only
  split
  · exact .trans (.trans (.of_store (by simp)) (State.freeImage_keeps _ i)) (.of_store (State.notifyOpt_store _ _ _))
  · exact .refl s

theorem State.failArtworkLoad_keeps (s : State) (i : ArtworkId) : s.Keeps (s.failArtworkLoad i) := by
  unfold State.failArtworkLoad
  dsimp only
  split
  · refine .trans (.trans (.of_store ?_) (State.freeArtwork_keeps _ i)) (.of_store (State.notifyOpt_store _ _ _))
    split <;> simp
  · exact .refl s

theorem State.failImageLoads_keeps (l : List ImageId) (s : State) : s.Keeps (State.failImageLoads l s) := by
  induction l generalizing s with
  | nil => exact .refl s
  | cons i rest ih => exact (s.failImageLoad_keeps i).trans (ih _)

theorem State.failArtworkLoads_keeps (l : List ArtworkId) (s : State) : s.Keeps (State.failArtworkLoads l s) := by
  induction l generalizing s with
  | nil => exact .refl s
  | cons i rest ih => exact (s.failArtworkLoad_keeps i).trans (ih _)

theorem State.failEveryLoad_keeps (s : State) : s.Keeps s.failEveryLoad :=
  .trans (.trans (State.failImageLoads_keeps _ s) (State.failArtworkLoads_keeps _ _))
    (.of_store (State.endOutbounds_store _ _))

theorem State.removeImage_keeps (s : State) (i : ImageId) : s.Keeps (s.removeImage i) := by
  unfold State.removeImage
  split
  · exact (s.freeImage_keeps i).trans (.of_store (State.notifyOpt_store _ _ _))
  · exact s.failImageLoad_keeps i

theorem State.removeArtwork_keeps (s : State) (i : ArtworkId) : s.Keeps (s.removeArtwork i) := by
  unfold State.removeArtwork
  split
  · exact (s.freeArtwork_keeps i).trans (.of_store (State.notifyOpt_store _ _ _))
  · exact s.failArtworkLoad_keeps i

theorem State.resetStream_keeps (s : State) (p : Port) : s.Keeps (s.resetStream p) := by
  unfold State.resetStream
  split
  · exact .refl s
  · exact s.failImageLoad_keeps _
  · exact s.failArtworkLoad_keeps _
  · exact .of_store (s.endOutbound_store p)

theorem towerResetEffect_keeps (loadsFirst : Bool) (s : State) : s.Keeps (towerResetEffect loadsFirst s) := by
  cases loadsFirst
  · exact .trans (t := ((State.killJobs tableIds s).settlePart).failEveryLoad)
      (.trans (.of_store (by simp)) (State.failEveryLoad_keeps _)) (.of_store (by simp [towerResetEffect]))
  · exact s.failEveryLoad_keeps.trans (.of_store (by simp [towerResetEffect]))

/-! ## Lanes whose source load fails -/

theorem State.faultQueues_keeps (s : State) (n : LaneId) (stood : LaneState) : s.Keeps (s.faultQueues n stood) := by
  unfold State.faultQueues
  dsimp only
  split
  · exact .of_store (by (repeat' split) <;> simp)
  · split <;> split
    · exact .trans (.trans (.of_store (by simp)) (State.failImageLoad_keeps _ _)) (.of_store (State.queueUnload_store _ _))
    · exact .trans (.of_store (by simp)) (State.failImageLoad_keeps _ _)
    · exact .trans (.trans (.of_store (by simp)) (State.failImageLoad_keeps _ _)) (.of_store (State.queueUnload_store _ _))
    · exact .trans (.of_store (by simp)) (State.failImageLoad_keeps _ _)

theorem State.laneFault_keeps (s : State) (n : LaneId) (cause : LaneCause) : s.Keeps (s.laneFault n cause) :=
  .trans (.trans (.trans (.of_store (by simp)) (State.faultQueues_keeps _ n _)) (.of_store (State.raise_store _ _ _)))
    (.of_store (State.faultClaim_store _ _ _ _))

theorem State.laneError_keeps (s : State) (n : LaneId) (code : Byte) : s.Keeps (s.laneError n code) := by
  unfold State.laneError
  split
  · exact .refl s
  · exact .of_store (by split <;> simp)
  · exact s.laneFault_keeps n _

theorem State.lanePlaced_keeps (s : State) (n : LaneId) : s.Keeps (s.lanePlaced n) := by
  unfold State.lanePlaced
  split
  · exact .of_store (by simp)
  · exact .of_store (by simp)
  · unfold State.placedAfterFault
    dsimp only
    split
    · exact .of_store (by simp)
    · rename_i i _
      exact (s.failImageLoad_keeps i).trans (.of_store (by simp))

theorem State.placeDone_keeps (s : State) : s.Keeps s.placeDone := by
  unfold State.placeDone
  split
  · exact .of_store (by simp)
  · unfold State.placedInTray
    exact .trans (.trans (.of_store (by simp)) (State.lanePlaced_keeps _ _)) (.of_store (State.armToIdle_store _))
  all_goals exact .of_store (by simp)

theorem State.trayMoves_keeps (s : State) (n : LaneId) (pos : TrayPosition) : s.Keeps (s.trayMoves n pos) := by
  unfold State.trayMoves State.openingTray State.openTrayReports State.closingTray
  (repeat' split) <;> first
    | exact s.laneFault_keeps n _
    | exact .of_store (by simp)

/-! ## Loads that begin -/

theorem State.openImageLoad_keeps (s : State) (p : Port) (i : ImageId) (cls : MediaClass) (size : Nat) (noExport : Bool)
    (h : s.images[i].state = .free ∨ s.images[i].state = .ready) : s.Keeps (s.openImageLoad p i cls size noExport) :=
  (s.acceptImageLoad_keeps i p .stream cls size noExport h).trans (.of_store (by simp [State.openImageLoad]))

theorem State.openDiscLoad_keeps (s : State) (p : Port) (i : ImageId) (n : LaneId) (cls : MediaClass) (size : Nat)
    (noExport : Bool) (h : s.images[i].state = .free ∨ s.images[i].state = .ready) :
    s.Keeps (s.openDiscLoad p i n cls size noExport) :=
  (s.acceptImageLoad_keeps i p (.lane n) cls size noExport h).trans (.of_store (by simp [State.openDiscLoad]))

/-- A load whose slot passes the checks finds it FREE or READY (R4, R8). -/
theorem State.imageLoadBar_none {s : State} {i : ImageId} {p : Port} {size : Nat} (h : s.imageLoadBar i p size = none) :
    s.images[i].state = .free ∨ s.images[i].state = .ready := by
  unfold State.imageLoadBar at h
  cases hs : s.images[i].state <;> simp_all [-Fin.getElem_fin]

/-- Likewise for artwork (R20). -/
theorem State.artworkLoadBar_none {s : State} {i : ArtworkId} {p : Port} {bands : Nat}
    (h : s.artworkLoadBar i p bands = none) : s.artworks[i].state = .free ∨ s.artworks[i].state = .ready := by
  unfold State.artworkLoadBar at h
  cases hs : s.artworks[i].state <;> simp_all [-Fin.getElem_fin]

end Sys2Proof.Machine
end

