-- ==== Sys2Proof/Proofs/StoreSteps.lean ====
section
/-! Every command keeps the page account, and every command but the four that write image memory leaves it as it is (R1, R7, R9, R21):
the meanings of the commands taken one by one, then the step. -/

namespace Sys2Proof.Machine

/-- The next state, if there is one, has the property. -/
def nextHas (P : State → Prop) : Host.Outcome State Fault Refusal → Prop
  | .next t => P t
  | .fault _ => True
  | .refused _ => True

@[simp] theorem nextHas_next (P : State → Prop) (t : State) : nextHas P (.next t) = P t := rfl

@[simp] theorem nextHas_fault (P : State → Prop) (r : Fault) : nextHas P (.fault r) = True := rfl

theorem nextHas_of_eq {P : State → Prop} {o : Host.Outcome State Fault Refusal} {t : State} (h : nextHas P o) (ho : o = .next t) :
    P t := by
  subst ho; exact h

/-! ## Client commands -/

@[simp] theorem refuse_snd (code : ResultCode) (s : State) : (refuse code s).2 = s := rfl
@[simp] theorem accept_snd (s : State) : (accept s).2 = s := rfl
@[simp] theorem acceptWith_snd (data : List Byte) (s : State) : (acceptWith data s).2 = s := rfl

/-- A meaning that keeps the account keeps it when its command is taken. -/
theorem State.takeCommand_keeps (s : State) (p : Port) (code : Nat) (meaning : CommandRecord → State → Reply × State)
    (h : ∀ r (u : State), u.Keeps (meaning r u).2) : s.Keeps (s.takeCommand p code meaning) := by
  unfold State.takeCommand
  split
  · exact .trans (.trans (.of_store (State.modPort_store _ _ _)) (h _ _)) (.of_store (State.settle_store _))
  · split
    · exact .refl s
    · rename_i command _
      exact (h command s).trans (.of_store (by simp))

theorem onImage_keeps (r : CommandRecord) (s : State) (f : ImageId → Reply × State) (h : ∀ i, s.Keeps (f i).2) :
    s.Keeps (onImage r s f).2 := by
  unfold onImage; split
  · exact .refl s
  · exact h _

theorem onArtwork_keeps (r : CommandRecord) (s : State) (f : ArtworkId → Reply × State) (h : ∀ i, s.Keeps (f i).2) :
    s.Keeps (onArtwork r s f).2 := by
  unfold onArtwork; split
  · exact .refl s
  · exact h _

theorem onLane_keeps (r : CommandRecord) (s : State) (f : LaneId → Reply × State) (h : ∀ n, s.Keeps (f n).2) :
    s.Keeps (onLane r s f).2 := by
  unfold onLane; split
  · exact .refl s
  · exact h _

theorem onJob_keeps (r : CommandRecord) (s : State) (f : Handle → Job → Reply × State) (h : ∀ k j, s.Keeps (f k j).2) :
    s.Keeps (onJob r s f).2 := by
  unfold onJob; dsimp only; (repeat' split)
  · exact .refl s
  · exact .refl s
  · exact h _ _

theorem loadImage_keeps (p : Port) (r : CommandRecord) (s : State) : s.Keeps (loadImage p r s).2 := by
  refine onImage_keeps r s _ fun i => ?_
  dsimp only
  (repeat' split) <;> first
    | exact .refl s
    | exact s.openImageLoad_keeps p i _ _ _ (State.imageLoadBar_none (by assumption))

theorem loadFromDisc_keeps (p : Port) (r : CommandRecord) (s : State) : s.Keeps (loadFromDisc p r s).2 := by
  refine onImage_keeps r s _ fun i => ?_
  (repeat' split) <;> first
    | exact .refl s
    | exact s.openDiscLoad_keeps p i _ _ _ _ (State.imageLoadBar_none (by assumption))

theorem loadArtwork_keeps (p : Port) (r : CommandRecord) (s : State) : s.Keeps (loadArtwork p r s).2 := by
  refine onArtwork_keeps r s _ fun i => ?_
  dsimp only
  (repeat' split) <;> first
    | exact .refl s
    | exact s.openArtworkLoad_keeps p i _ (State.artworkLoadBar_none (by assumption))

theorem deleteImage_keeps (p : Port) (r : CommandRecord) (s : State) : s.Keeps (deleteImage p r s).2 := by
  refine onImage_keeps r s _ fun i => ?_
  dsimp only
  (repeat' split) <;> first
    | exact .refl s
    | exact s.removeImage_keeps i

theorem deleteArtwork_keeps (p : Port) (r : CommandRecord) (s : State) : s.Keeps (deleteArtwork p r s).2 := by
  refine onArtwork_keeps r s _ fun i => ?_
  dsimp only
  (repeat' split) <;> first
    | exact .refl s
    | exact s.removeArtwork_keeps i

theorem protectImage_keeps (p : Port) (r : CommandRecord) (s : State) : s.Keeps (protectImage p r s).2 := by
  refine onImage_keeps r s _ fun i => .of_store ?_
  dsimp only
  (repeat' split) <;> first | rfl | exact s.modImage_store i _ fun _ => rfl

theorem unprotectImage_keeps (p : Port) (r : CommandRecord) (s : State) : s.Keeps (unprotectImage p r s).2 := by
  refine onImage_keeps r s _ fun i => .of_store ?_
  dsimp only
  (repeat' split) <;> first | rfl | exact s.modImage_store i _ fun _ => rfl

theorem markNoExport_keeps (p : Port) (r : CommandRecord) (s : State) : s.Keeps (markNoExport p r s).2 := by
  refine onImage_keeps r s _ fun i => .of_store ?_
  dsimp only
  (repeat' split) <;> first | rfl | exact s.modImage_store i _ fun _ => rfl

theorem exportImage_keeps (p : Port) (r : CommandRecord) (s : State) : s.Keeps (exportImage p r s).2 := by
  refine onImage_keeps r s _ fun i => .of_store ?_
  dsimp only
  (repeat' split) <;> simp

theorem submitJob_keeps (p : Port) (r : CommandRecord) (s : State) : s.Keeps (submitJob p r s).2 := by
  unfold submitJob; dsimp only
  exact .of_store (by (repeat' split) <;> simp)

theorem pauseJob_keeps (p : Port) (r : CommandRecord) (s : State) : s.Keeps (pauseJob p r s).2 :=
  onJob_keeps r s _ fun _ _ => .of_store (by (repeat' split) <;> simp)

theorem resumeJob_keeps (p : Port) (r : CommandRecord) (s : State) : s.Keeps (resumeJob p r s).2 :=
  onJob_keeps r s _ fun _ _ => .of_store (by (repeat' split) <;> simp)

theorem cancelJob_keeps (p : Port) (r : CommandRecord) (s : State) : s.Keeps (cancelJob p r s).2 :=
  onJob_keeps r s _ fun _ _ => .of_store (by (repeat' split) <;> simp)

theorem killJob_keeps (p : Port) (r : CommandRecord) (s : State) : s.Keeps (killJob p r s).2 :=
  onJob_keeps r s _ fun _ _ => .of_store (by (repeat' split) <;> simp)

theorem openTray_keeps (r : CommandRecord) (s : State) : s.Keeps (openTray r s).2 :=
  onLane_keeps r s _ fun _ => .of_store (by (repeat' split) <;> simp)

theorem closeTray_keeps (r : CommandRecord) (s : State) : s.Keeps (closeTray r s).2 :=
  onLane_keeps r s _ fun _ => .of_store (by dsimp only; (repeat' split) <;> simp)

theorem laneOnline_keeps (r : CommandRecord) (s : State) : s.Keeps (laneOnline r s).2 :=
  onLane_keeps r s _ fun _ => .of_store (by (repeat' split) <;> simp)

theorem laneOffline_keeps (r : CommandRecord) (s : State) : s.Keeps (laneOffline r s).2 :=
  onLane_keeps r s _ fun _ => .of_store (by (repeat' split) <;> simp)

theorem clearLane_keeps (r : CommandRecord) (s : State) : s.Keeps (clearLane r s).2 :=
  onLane_keeps r s _ fun _ => .of_store (by (repeat' split) <;> simp)

theorem setFeedBudget_keeps (r : CommandRecord) (s : State) : s.Keeps (setFeedBudget r s).2 :=
  .of_store (by unfold setFeedBudget; dsimp only; split <;> simp)

theorem setBinClass_keeps (r : CommandRecord) (s : State) : s.Keeps (setBinClass r s).2 :=
  .of_store (by unfold setBinClass; (repeat' split) <;> simp)

theorem clearBinFault_keeps (r : CommandRecord) (s : State) : s.Keeps (clearBinFault r s).2 :=
  .of_store (by unfold clearBinFault; (repeat' split) <;> simp)

theorem clearArmFault_keeps (r : CommandRecord) (s : State) : s.Keeps (clearArmFault r s).2 :=
  .of_store (by unfold clearArmFault; (repeat' split) <;> simp)

theorem clearPrinterFault_keeps (r : CommandRecord) (s : State) : s.Keeps (clearPrinterFault r s).2 :=
  .of_store (by unfold clearPrinterFault; split <;> simp)

theorem towerReset_keeps (loadsFirst : Bool) (r : CommandRecord) (s : State) : s.Keeps (towerReset loadsFirst r s).2 := by
  unfold towerReset; split
  · exact towerResetEffect_keeps loadsFirst s
  · exact .refl s

/-! ## The commands -/

/-- The commands that write image memory: the reset and those that store staged bytes or a segment read (R7, R9, R21). -/
def Instr.writesMemory : Instr → Bool
  | .powerOnReset | .imageStagingWrite _ _ | .artworkStagingWrite _ _ | .readData _ _ _ => true
  | _ => false

/-- Every other command keeps the page account and leaves image memory as it is. -/
theorem exec_keeps (c : Instr) (s : State) (h : Instr.writesMemory c = false) : nextHas s.Keeps (exec c s) := by
  cases c with
  | powerOnReset => cases h
  | imageStagingWrite => cases h
  | artworkStagingWrite => cases h
  | readData => cases h
  | linkReset p =>
    dsimp only [exec, execLinkReset]
    simp only [nextHas_next]
    split
    · exact .refl s
    · exact .trans (.trans (.of_store (State.modPort_store _ _ _)) (State.resetStream_keeps _ p)) (.of_store (State.settle_store _))
  | linkResetRelease p => exact .of_store (s.modPort_store p _)
  | putCommands p records =>
    dsimp only [exec, execPutCommands]
    split <;> exact .of_store (by simp)
  | takeNotices p n =>
    dsimp only [exec, execTakeNotices]
    split <;> exact .of_store (by simp)
  | bulkWrite p bytes =>
    dsimp only [exec, execBulkWrite]
    split <;> exact .of_store (by simp)
  | bulkRead p n =>
    dsimp only [exec, execBulkRead]
    (repeat' split) <;> exact .of_store (by simp)
  | linkStatus p => exact .of_store (s.answer_store p _)
  | unknownTransaction p => exact .of_store (s.answer_store p _)
  | replyReturn p =>
    dsimp only [exec, execReplyReturn]
    split
    · exact .of_store (by split <;> simp)
    · exact .refl s
  | badCommand p =>
    dsimp only [exec, execBadCommand]
    (repeat' split) <;> exact .of_store (by simp)
  | loadImage p => exact s.takeCommand_keeps p _ _ (loadImage_keeps p)
  | loadFromDisc p => exact s.takeCommand_keeps p _ _ (loadFromDisc_keeps p)
  | deleteImage p => exact s.takeCommand_keeps p _ _ (deleteImage_keeps p)
  | protectImage p => exact s.takeCommand_keeps p _ _ (protectImage_keeps p)
  | unprotectImage p => exact s.takeCommand_keeps p _ _ (unprotectImage_keeps p)
  | markNoExport p => exact s.takeCommand_keeps p _ _ (markNoExport_keeps p)
  | exportImage p => exact s.takeCommand_keeps p _ _ (exportImage_keeps p)
  | loadArtwork p => exact s.takeCommand_keeps p _ _ (loadArtwork_keeps p)
  | deleteArtwork p => exact s.takeCommand_keeps p _ _ (deleteArtwork_keeps p)
  | submitJob p => exact s.takeCommand_keeps p _ _ (submitJob_keeps p)
  | pauseJob p => exact s.takeCommand_keeps p _ _ (pauseJob_keeps p)
  | resumeJob p => exact s.takeCommand_keeps p _ _ (resumeJob_keeps p)
  | cancelJob p => exact s.takeCommand_keeps p _ _ (cancelJob_keeps p)
  | killJob p => exact s.takeCommand_keeps p _ _ (killJob_keeps p)
  | openTray p => exact s.takeCommand_keeps p _ _ openTray_keeps
  | closeTray p => exact s.takeCommand_keeps p _ _ closeTray_keeps
  | laneOnline p => exact s.takeCommand_keeps p _ _ laneOnline_keeps
  | laneOffline p => exact s.takeCommand_keeps p _ _ laneOffline_keeps
  | clearLane p => exact s.takeCommand_keeps p _ _ clearLane_keeps
  | setFeedBudget p => exact s.takeCommand_keeps p _ _ setFeedBudget_keeps
  | setBinClass p => exact s.takeCommand_keeps p _ _ setBinClass_keeps
  | clearBinFault p => exact s.takeCommand_keeps p _ _ clearBinFault_keeps
  | clearArmFault p => exact s.takeCommand_keeps p _ _ clearArmFault_keeps
  | clearPrinterFault p => exact s.takeCommand_keeps p _ _ clearPrinterFault_keeps
  | setPrintParams p => exact s.takeCommand_keeps p _ _ fun _ _ => .of_store rfl
  | setInkCapacity p => exact s.takeCommand_keeps p _ _ fun _ _ => .of_store rfl
  | setNoticeMask p => exact s.takeCommand_keeps p _ _ fun _ _ => .of_store rfl
  | setAttention p =>
    have taken := s.takeCommand_keeps p 49 (setAttention p) fun _ _ => .of_store rfl
    dsimp only [exec, execSetAttention]
    split
    · exact taken.trans (.of_store (State.modPort_store _ _ _))
    · exact taken
  | towerReset p loadsFirst => exact s.takeCommand_keeps p _ _ (towerReset_keeps loadsFirst)
  | attentionHoldExpiry p => exact .of_store (s.modPort_store p _)
  | ident n buffer burnsL burnsM =>
    dsimp only [exec, execIdent]
    split
    · simp only [nextHas_next]
      split
      · exact .of_store (by split <;> simp)
      · exact .of_store (by simp)
      · exact .trans (.trans (.of_store (State.modLane_store _ _ _)) (State.laneFault_keeps _ n _))
          (.of_store (State.settle_store _))
    · exact (s.laneError_keeps n _).trans (.of_store (State.settle_store _))
  | trayState n pos =>
    exact .trans (.trans (.trans (.of_store (State.modLane_store _ _ _)) (State.trayMoves_keeps _ n pos))
      (.of_store (State.releaseTray_store _ _))) (.of_store (State.settle_store _))
  | media n report =>
    dsimp only [exec, execMedia]
    (repeat' split) <;> first
      | exact (s.laneError_keeps n _).trans (.of_store (State.settle_store _))
      | exact .of_store (by simp)
  | credit n freed committed =>
    dsimp only [exec, execCredit]
    (repeat' split) <;> first
      | exact (s.laneError_keeps n _).trans (.of_store (State.settle_store _))
      | exact .of_store (by simp)
  | bufferEmpty n =>
    dsimp only [exec, execBufferEmpty]
    split <;> exact .of_store (by simp)
  | writeRecovered n =>
    dsimp only [exec, execWriteRecovered]
    split <;> exact .of_store (by simp)
  | writeError n =>
    dsimp only [exec, execWriteError]
    split <;> exact .of_store (by simp)
  | finalizeDone n =>
    dsimp only [exec, execFinalizeDone]
    (repeat' split) <;> exact .of_store (by simp)
  | readFail n index =>
    dsimp only [exec, execReadFail]
    (repeat' split) <;> first
      | exact (s.failImageLoad_keeps _).trans (.of_store (State.settle_store _))
      | exact .of_store (by simp)
  | error n code => exact (s.laneError_keeps n code).trans (.of_store (State.settle_store _))
  | driveMalformedMessage n => exact (s.laneError_keeps n _).trans (.of_store (State.settle_store _))
  | laneTimerExpiry n =>
    dsimp only [exec, execLaneTimerExpiry]
    (repeat' split)
    · exact .refl s
    · exact .of_store (by simp)
    · exact (s.laneFault_keeps n _).trans (.of_store (State.settle_store _))
  | transferCompletion =>
    dsimp only [exec, execTransferCompletion]
    (repeat' split) <;> first
      | trivial
      | exact .of_store (by simp)
  | armStepDone =>
    dsimp only [exec, execArmStepDone]
    split
    · exact .refl s
    · exact .of_store (by split <;> simp)
    · exact .of_store (by simp)
    · exact .of_store (by simp)
    · exact .trans (.trans (.of_store s.endStep_store) (State.placeDone_keeps _)) (.of_store (State.settle_store _))
  | armDriverFault =>
    dsimp only [exec, execArmDriverFault]
    split <;> exact .of_store (by simp)
  | armStepTimeout =>
    dsimp only [exec, execArmStepTimeout]
    split <;> exact .of_store (by simp)
  | sensorScan readings order =>
    dsimp only [exec, execSensorScan]
    split <;> exact .of_store (by simp)
  | trayDone disc =>
    dsimp only [exec, execTrayDone]
    (repeat' split) <;> exact .of_store (by simp)
  | bandDone band =>
    dsimp only [exec, execBandDone]
    (repeat' split) <;> exact .of_store (by simp)
  | temp reading =>
    dsimp only [exec, execTemp]
    (repeat' split) <;> exact .of_store (by simp)
  | printerError code => exact .of_store (by simp)
  | printerMalformedReport => exact .of_store (by simp)
  | printerTimeout =>
    dsimp only [exec, execPrinterTimeout]
    split <;> exact .of_store (by simp)
  | bandWaitExpiry =>
    dsimp only [exec, execBandWaitExpiry]
    split <;> exact .of_store (by simp)

/-! ## The commands that write image memory -/

/-- From `s` to `t` image memory keeps its canonical form, and each page that stood in exactly one place still does. -/
def State.Stores (s t : State) : Prop := (s.memWf → t.memWf) ∧ (s.pagesPlaced → t.pagesPlaced)

theorem State.Keeps.stores {s t : State} (h : s.Keeps t) : s.Stores t :=
  ⟨fun hs => by unfold State.memWf; rw [h.1]; exact hs, h.2⟩

theorem State.Stores.trans {s t u : State} (h : s.Stores t) (h' : t.Stores u) : s.Stores u := ⟨h'.1 ∘ h.1, h'.2 ∘ h.2⟩

theorem State.Stores.store {s t u : State} (h : s.Stores t) (hu : u.store = t.store) : s.Stores u :=
  h.trans (State.Keeps.of_store hu).stores

/-- A write that keeps the canonical form touches no pages. -/
theorem State.setMem_stores (s : State) (m : Memory) (h : Memory.wf s.mem = true → Memory.wf m = true) : s.Stores (s.setMem m) :=
  ⟨h, id⟩

theorem bulkByte_wf (v : ImageSlot) (x : BulkProgress) (b : Byte) (h : Memory.wf x.mem = true) :
    Memory.wf (bulkByte v x b).mem = true := by
  unfold bulkByte; dsimp only
  split
  · exact writeSlot_wf _ _ _ (memWrite_wf _ _ h)
  · exact memWrite_wf _ _ h

theorem foldl_bulkByte_wf (v : ImageSlot) (bytes : List Byte) (x : BulkProgress) (h : Memory.wf x.mem = true) :
    Memory.wf (bytes.foldl (bulkByte v) x).mem = true := by
  induction bytes generalizing x with
  | nil => exact h
  | cons b rest ih => exact ih _ (bulkByte_wf v x b h)

theorem execImageStagingWrite_stores (p : Port) (count : Nat) (s : State) : nextHas s.Stores (execImageStagingWrite p count s) := by
  unfold execImageStagingWrite
  split
  · rename_i i _
    dsimp only
    split
    · exact (State.Keeps.refl s).stores
    · split
      · rename_i k _ _ segment fill remainder _
        split
        · have stored (v : CrcChannel) (f : PortRecord → PortRecord) :=
            ((s.setMem_stores _ (foldl_bulkByte_wf s.images[i] (s.ports[p].staging.take count)
              ⟨s.mem, segment, fill, remainder⟩)).store (State.setCrc_store _ k v)).store (State.modPort_store _ p f)
          simp only [nextHas_next]
          split
          · exact ((stored _ _).trans (State.finishImageLoad_keeps _ i).stores).store (State.settle_store _)
          · exact (stored _ _).store (State.settle_store _)
        · trivial
      · exact (State.Keeps.refl s).stores
  · exact (State.Keeps.refl s).stores

theorem execArtworkStagingWrite_stores (p : Port) (count : Nat) (s : State) :
    nextHas s.Stores (execArtworkStagingWrite p count s) := by
  unfold execArtworkStagingWrite
  split
  · rename_i i _
    dsimp only
    split
    · split
      · have stored := ((s.setMem_stores _ (writeSlot_wf s.artworks[i].pages (s.artworks[i].received - s.ports[p].staging.length)
            (s.ports[p].staging.take count))).store (State.modArtwork_store _ i
              (fun v => { v with weights := (s.ports[p].staging.take count).foldl inkAddPixel v.weights }) fun _ => rfl)).store
                (State.modPort_store _ p fun r => { r with staging := r.staging.drop count })
        simp only [nextHas_next]
        split
        · exact stored.trans (State.finishArtworkLoad_keeps _ p i).stores
        · exact stored
      · trivial
    · exact (State.Keeps.refl s).stores
  · exact (State.Keeps.refl s).stores

theorem State.sourceArrives_stores (s : State) (n : LaneId) (k : Fin 2) (i : ImageId) (next : Nat) (outstanding : List Nat)
    (digested index : Nat) (data : List Byte) : s.Stores (s.sourceArrives n k i next outstanding digested index data) := by
  have stored := ((s.setMem_stores _ fun h => writeSlot_wf s.images[i].pages (digestOffset s.images[i].size index)
    (leBytes 4 (crc32 data).toNat) (writeSlot_wf s.images[i].pages (segmentBytes * index) data h)).store
      (State.modImage_store _ i (fun v => { v with received := v.received + data.length }) fun _ => rfl)).store
        (State.restartTimer_store _ n)
  unfold State.sourceArrives
  dsimp only
  split <;> split
  · exact ((stored.store (State.setCrc_store _ k _)).store (State.sendDrive_store _ n _)).trans
      (State.finishImageLoad_keeps _ i).stores
  · exact (stored.store (State.setCrc_store _ k _)).trans (State.finishImageLoad_keeps _ i).stores
  · exact (stored.store (State.setCrc_store _ k _)).store (State.sendDrive_store _ n _)
  · exact stored.store (State.setCrc_store _ k _)

theorem execReadData_stores (n : LaneId) (index : BitVec 24) (data : List Byte) (s : State) :
    nextHas s.Stores (execReadData n index data s) := by
  unfold execReadData
  (repeat' split) <;> first
    | trivial
    | exact (State.Keeps.refl s).stores
    | exact ((s.laneError_keeps n _).stores).store (State.settle_store _)
    | exact (s.sourceArrives_stores n _ _ _ _ _ _ _).store (State.settle_store _)
    | exact (State.Keeps.of_store (by simp)).stores

/-! ## The reset -/

/-- At reset the pool holds every page, memory lists nothing, and no slot holds a page (R1, R3, R19). -/
theorem State.reset_pagesPlaced : State.reset.pagesPlaced := by
  refine ⟨.of_eq ?_, fun i _ => ?_, fun i _ => ?_⟩
  · simp [State.allPages, State.reset, pagesOf, ImageSlot.freed, ArtworkSlot.freed, pageCount, Vector.toList_replicate,
      List.range_eq_range']
  · simp [State.reset, ImageSlot.freed]
  · simp [State.reset, ArtworkSlot.freed]

theorem execPowerOnReset_stores (s : State) : nextHas s.Stores (execPowerOnReset s) :=
  ⟨fun _ => rfl, fun _ => State.pagesPlaced_of_store (s := State.reset) rfl State.reset_pagesPlaced⟩

/-- Every command keeps the canonical form of image memory and the page account. -/
theorem exec_stores (c : Instr) (s : State) : nextHas s.Stores (exec c s) := by
  cases hc : Instr.writesMemory c with
  | false =>
    have h := exec_keeps c s hc
    cases ho : exec c s with
    | next t => exact (nextHas_of_eq h ho).stores
    | fault => trivial
    | refused => trivial
  | true =>
    cases c with
    | powerOnReset => exact execPowerOnReset_stores s
    | imageStagingWrite p count => exact execImageStagingWrite_stores p count s
    | artworkStagingWrite p count => exact execArtworkStagingWrite_stores p count s
    | readData n index data => exact execReadData_stores n index data s
    | _ => cases hc

/-- Every step keeps the canonical form of image memory and the page account; an idle millisecond touches neither. -/
theorem step_stores {s t : State} (h : step s = .next t) : s.Stores t := by
  unfold step at h
  split at h
  · cases h; exact (State.Keeps.of_store s.tick_store).stores
  · rename_i c rest _
    exact nextHas_of_eq (exec_stores c { s with pending := rest }) h

/-- Settles O52: the account is kept by every command (`exec_stores`), and so by every step. -/
theorem everyStepKeepsThePages : Obligations.EveryStepKeepsThePages :=
  fun _ _ hs h => (step_stores h).2 hs

/-- Settles O55: every write keeps the canonical form, and the commands that `exec_keeps` covers write nothing. -/
theorem everyStepKeepsTheMemoryForm : Obligations.EveryStepKeepsTheMemoryForm := by
  refine ⟨fun _ _ hs h => (step_stores h).1 hs, fun c s t h hmem => ?_⟩
  cases hc : Instr.writesMemory c with
  | false => exact absurd (nextHas_of_eq (exec_keeps c s hc) h).1 hmem
  | true =>
    cases c with
    | powerOnReset => exact .inl rfl
    | imageStagingWrite p n => exact .inr (.inl ⟨p, n, rfl⟩)
    | artworkStagingWrite p n => exact .inr (.inr (.inl ⟨p, n, rfl⟩))
    | readData n index data => exact .inr (.inr (.inr ⟨n, index, data, rfl⟩))
    | _ => cases hc

end Sys2Proof.Machine
end

