-- ==== Sys2Proof/Proofs/SlotBytes.lean ====
section
/-! The bytes of a slot (R1, R7, R11, R117): its addresses are distinct when its pages are, so that stored bytes are read back; and a
segment staged byte by byte is stored whole, with the CRC of exactly these bytes. -/

namespace Sys2Proof.Machine

/-! ## Addresses -/

theorem length_pagesOf (pages : List Extent) : (pagesOf pages).length = pagesIn pages := by
  induction pages with
  | nil => rfl
  | cons e rest ih => simp [pagesOf_cons, pagesIn, ih]

theorem pagesOf_getElem? (pages : List Extent) (k : Nat) (h : k < pagesIn pages) :
    (pagesOf pages)[k]? = some (pageAt pages k) := by
  induction pages generalizing k with
  | nil => simp [pagesIn] at h
  | cons e rest ih =>
    rw [pagesIn] at h
    rw [pagesOf_cons, pageAt]
    split
    · rename_i hk
      rw [List.getElem?_append_left (by simpa using hk), List.getElem?_range' hk, Nat.one_mul]
    · rw [List.getElem?_append_right (by simp; omega), List.length_range', ih _ (by omega)]

/-- Two bytes of a slot with distinct pages stand at two addresses. -/
theorem slotAddress_inj {pages : List Extent} (hpages : (pagesOf pages).Nodup) {x y : Nat}
    (hx : x < pagesIn pages * pageBytes) (hy : y < pagesIn pages * pageBytes)
    (h : slotAddress pages x = slotAddress pages y) : x = y := by
  have hpos : 0 < pageBytes := by decide
  simp only [slotAddress] at h
  have hoff : x % pageBytes = y % pageBytes := by
    have := congrArg (· % pageBytes) h
    simpa [Nat.mul_add_mod_self_right, Nat.add_mod] using this
  have hpage : pageAt pages (x / pageBytes) = pageAt pages (y / pageBytes) :=
    Nat.eq_of_mul_eq_mul_right hpos (by omega)
  have hxk := Nat.div_lt_of_lt_mul (Nat.mul_comm _ _ ▸ hx)
  have hyk := Nat.div_lt_of_lt_mul (Nat.mul_comm _ _ ▸ hy)
  have hk : x / pageBytes = y / pageBytes := (List.getElem?_inj (by rwa [length_pagesOf]) hpages).1
    (by rw [pagesOf_getElem? _ _ hxk, pagesOf_getElem? _ _ hyk, hpage])
  rw [← Nat.div_add_mod x pageBytes, ← Nat.div_add_mod y pageBytes, hk, hoff]

/-! ## A read of a slot after a write to it -/

/-- Bytes stored from `off` on leave an earlier byte of the slot as it was. -/
theorem memRead_writeSlot_before {pages : List Extent} (hpages : (pagesOf pages).Nodup) (m : Memory) (hm : Memory.wf m = true)
    (bytes : List Byte) (off x : Nat) (hx : x < off) (hend : off + bytes.length ≤ pagesIn pages * pageBytes) :
    memRead (writeSlot m pages off bytes) (slotAddress pages x) = memRead m (slotAddress pages x) := by
  induction bytes generalizing m off with
  | nil => rfl
  | cons b rest ih =>
    rw [List.length_cons] at hend
    have hne : slotAddress pages x ≠ slotAddress pages off := fun h => by
      have := slotAddress_inj hpages (by omega) (by omega) h
      omega
    rw [writeSlot, ih _ (memWrite_wf _ _ hm) _ (by omega) (by omega), memRead_memWrite _ _ _ hm, if_neg hne]

/-- Settles O20, by induction on the bytes: the first is read back because the later ones are stored elsewhere. -/
theorem storedBytesAreReadBack : Obligations.StoredBytesAreReadBack := by
  intro m pages off bytes hm hpages hend
  induction bytes generalizing m off with
  | nil => rfl
  | cons b rest ih =>
    rw [List.length_cons] at hend ⊢
    rw [writeSlot, readSlot, ih _ _ (memWrite_wf _ _ hm) (by omega),
      memRead_writeSlot_before hpages _ (memWrite_wf _ _ hm) _ _ _ (by omega) (by simp only [pageBytes]; omega),
      memRead_memWrite _ _ _ hm, if_pos rfl]

/-! ## A staged segment -/

/-- A byte within a segment is stored and passed to the remainder (R117). -/
theorem bulkByte_within (v : ImageSlot) (m : Memory) (segment fill : Nat) (remainder : Word32) (b : Byte)
    (h : fill + 1 ≠ segmentLength v.size v.segments segment) :
    bulkByte v ⟨m, segment, fill, remainder⟩ b =
      ⟨memWrite m (slotAddress v.pages (65536 * segment + fill)) b, segment, fill + 1, crcByte remainder b⟩ := if_neg h

/-- The last byte of a segment also stores the segment's CRC, and the next segment begins (R7, R117). -/
theorem bulkByte_last (v : ImageSlot) (m : Memory) (segment fill : Nat) (remainder : Word32) (b : Byte)
    (h : fill + 1 = segmentLength v.size v.segments segment) :
    bulkByte v ⟨m, segment, fill, remainder⟩ b =
      ⟨writeSlot (memWrite m (slotAddress v.pages (65536 * segment + fill)) b) v.pages
        (dataPages v.size * 1048576 + 4 * segment) (leBytes 4 (~~~crcByte remainder b).toNat), segment + 1, 0, 0xFFFFFFFF⟩ :=
  if_pos h

/-- The bytes that complete a segment, from any fill on: all are stored, and the digest is that of the remainder they leave. -/
theorem foldl_bulkByte_completes (v : ImageSlot) (segment : Nat) (b : Byte) (rest : List Byte) (m : Memory) (fill : Nat)
    (remainder : Word32) (h : fill + (rest.length + 1) = segmentLength v.size v.segments segment) :
    (b :: rest).foldl (bulkByte v) ⟨m, segment, fill, remainder⟩ =
      ⟨writeSlot (writeSlot m v.pages (65536 * segment + fill) (b :: rest)) v.pages (dataPages v.size * 1048576 + 4 * segment)
        (leBytes 4 (crcFinish ((b :: rest).foldl crcByte remainder)).toNat), segment + 1, 0, 0xFFFFFFFF⟩ := by
  induction rest generalizing b m fill remainder with
  | nil => exact bulkByte_last v m segment fill remainder b h
  | cons b' rest ih =>
    rw [List.length_cons] at h
    rw [List.foldl_cons, bulkByte_within v m segment fill remainder b (by omega), ih _ _ _ _ (by omega)]
    rfl

/-- Settles O19: `foldl_bulkByte_completes` from the start of the segment. -/
theorem stagedSegmentEndsWithItsCrc : Obligations.StagedSegmentEndsWithItsCrc := by
  intro v m segment bytes hne hlen
  cases bytes with
  | nil => exact absurd rfl hne
  | cons b rest => exact foldl_bulkByte_completes v segment b rest m 0 _ (by rw [← hlen, List.length_cons, Nat.zero_add])

end Sys2Proof.Machine
end

