-- ==== Sys2Proof/Proofs/ImageCommands.lean ====
section
/-! The commands on images and artwork (R4 to R22): how a command that waits at its block is taken, and, for each, its checks in order
and its effect. -/

namespace Sys2Proof.Machine

/-! ## The taking of a command that waits -/

/-- With nothing owed there are no follow-up computations (log 12). -/
theorem State.settle_of_settled {s : State} (h : s.settled) : s.settle = s := by
  unfold State.settled Due.nothing at h
  simp only [State.settle, State.settleClaims, State.settleChannel, State.when, h, Bool.false_eq_true, if_false]
  rw [← Due.nothing] at h
  unfold State.setDue
  rw [← h]

/-- A command that waits at its block is taken: its meaning is the event, and its reply goes on its way (R180). -/
theorem State.takeCommand_waiting {s : State} {p : Port} {r : CommandRecord} {code : Nat} (h : s.commandWaits p r code)
    (meaning : CommandRecord → State → Reply × State) :
    s.takeCommand p code meaning = (meaning r s).2.settle.replied p (meaning r s).1 := by
  obtain ⟨horphan, hout, hcode⟩ := h
  have huntaken : s.ports[p].untaken code = some r := by
    simp only [PortRecord.untaken, hout, hasCode, hcode, decide_true, if_true]
  unfold State.takeCommand
  rw [horphan, huntaken]
  rfl

/-- A command that is refused changes nothing but its reply (R182). -/
theorem State.takeCommand_refused {s : State} {p : Port} {r : CommandRecord} {code : Nat} {result : ResultCode}
    {meaning : CommandRecord → State → Reply × State} (hs : s.settled) (h : s.commandWaits p r code)
    (hm : meaning r s = refuse result s) : s.takeCommand p code meaning = s.replied p ⟨result, []⟩ := by
  rw [State.takeCommand_waiting h, hm]
  show s.settle.replied p ⟨result, []⟩ = _
  rw [State.settle_of_settled hs]

/-- A command that is accepted has its effect, with the follow-up computations owed, and is answered OK (R182). -/
theorem State.takeCommand_accepted {s u : State} {p : Port} {r : CommandRecord} {code : Nat}
    {meaning : CommandRecord → State → Reply × State} (h : s.commandWaits p r code) (hm : meaning r s = accept u) :
    s.takeCommand p code meaning = u.settle.replied p ⟨.ok, []⟩ := by
  rw [State.takeCommand_waiting h, hm]
  rfl

/-- Likewise when the effect owes nothing. -/
theorem State.takeCommand_accepted_settled {s u : State} {p : Port} {r : CommandRecord} {code : Nat}
    {meaning : CommandRecord → State → Reply × State} (hu : u.settled) (h : s.commandWaits p r code)
    (hm : meaning r s = accept u) : s.takeCommand p code meaning = u.replied p ⟨.ok, []⟩ := by
  rw [State.takeCommand_accepted h hm, State.settle_of_settled hu]

theorem refuse_settled {s : State} (h : s.settled) (code : ResultCode) (p : Port) :
    (refuse code s).2.settle.replied p (refuse code s).1 = s.replied p ⟨code, []⟩ := by
  rw [refuse_snd, State.settle_of_settled h]
  rfl

theorem accept_settled {s : State} (h : s.settled) (p : Port) :
    (accept s).2.settle.replied p (accept s).1 = s.replied p ⟨.ok, []⟩ := by
  rw [accept_snd, State.settle_of_settled h]
  rfl

/-! ## Parameters and the owner's check -/

theorem indexBelow_eq_none {n v : Nat} : indexBelow n v = none ↔ n ≤ v := by
  unfold indexBelow; split <;> simp <;> omega

theorem indexBelow_eq_some {n v : Nat} {i : Fin n} : indexBelow n v = some i ↔ i.val = v := by
  unfold indexBelow; split
  · simp [Fin.ext_iff, eq_comm]
  · simp; omega

theorem onImage_some {r : CommandRecord} {i : ImageId} (h : imageParam r = some i) (s : State) (f : ImageId → Reply × State) :
    onImage r s f = f i := by
  unfold onImage; rw [h]

theorem onImage_none {r : CommandRecord} (h : imageParam r = none) (s : State) (f : ImageId → Reply × State) :
    onImage r s f = refuse .badParam s := by
  unfold onImage; rw [h]

theorem onArtwork_some {r : CommandRecord} {i : ArtworkId} (h : artworkParam r = some i) (s : State)
    (f : ArtworkId → Reply × State) : onArtwork r s f = f i := by
  unfold onArtwork; rw [h]

theorem onArtwork_none {r : CommandRecord} (h : artworkParam r = none) (s : State) (f : ArtworkId → Reply × State) :
    onArtwork r s f = refuse .badParam s := by
  unfold onArtwork; rw [h]

theorem State.barredFrom_iff (s : State) (owner : Option Port) (p : Port) :
    s.barredFrom owner p = true ↔ owner ≠ some p ∧ s.key ≠ .service := by
  simp [State.barredFrom]

theorem State.barredFrom_owner {s : State} {q p : Port} (h : q = p ∨ s.key = .service) : s.barredFrom (some q) p = false := by
  rcases h with rfl | h <;> simp [State.barredFrom, *]

theorem State.streamOpen_iff (s : State) (p : Port) : s.streamOpen p = true ↔ s.ports[p].stream ≠ .none := by
  simp [State.streamOpen]

/-! ## UNPROTECT-IMAGE, PROTECT-IMAGE, MARK-NO-EXPORT, EXPORT-IMAGE -/

/-- Settles O16: each check refuses, and past them the flag is cleared. -/
theorem unprotectImageChecksThenClears : Obligations.UnprotectImageChecksThenClears := by
  intro p r s hs hw
  refine ⟨fun h => congrArg _ (State.takeCommand_refused hs hw (onImage_none (indexBelow_eq_none.2 h) s _)), fun i hi => ?_⟩
  show Host.Outcome.next (s.takeCommand p 5 (unprotectImage p)) = _
  rw [State.takeCommand_waiting hw, unprotectImage, onImage_some (indexBelow_eq_some.2 hi)]
  dsimp only
  (repeat' split)
  · rw [refuse_settled hs]
  · rw [refuse_settled hs]
  · rw [refuse_settled hs]
  · rw [accept_settled (by exact hs)]

/-- Settles O15: the two marks pass their checks and change one flag; EXPORT_IMAGE is refused or opens its stream. -/
theorem marksAndExportOnAnImage : Obligations.MarksAndExportOnAnImage := by
  refine ⟨fun p r i s hs hi => ⟨fun hw hready howner => ?_, fun hw hfree howner => ?_⟩, fun p r i s hs hw hi => ?_⟩
  · refine congrArg _ (State.takeCommand_accepted_settled (by exact hs) hw ?_)
    rw [protectImage, onImage_some hi]
    simp [hready, howner, -Fin.getElem_fin]
  · refine congrArg _ (State.takeCommand_accepted_settled (by exact hs) hw ?_)
    have hbar : s.barredFrom s.images[i].owner p = false := by
      rcases howner with h | h <;> simp [State.barredFrom, h, -Fin.getElem_fin]
    rw [markNoExport, onImage_some hi]
    simp [hfree, hbar, -Fin.getElem_fin]
  · show Host.Outcome.next (s.takeCommand p 7 (exportImage p)) = _
    rw [State.takeCommand_waiting hw, exportImage, onImage_some hi]
    simp only [State.streamOpen_iff]
    (repeat' split)
    · rw [refuse_settled hs]
    · rw [refuse_settled hs]
    · rw [refuse_settled hs]
    · rfl

/-! ## DELETE-IMAGE -/

/-- The effect of freeing a READY slot owes nothing. -/
theorem State.removeImage_ready {s : State} {i : ImageId} {q : Port} (hready : s.images[i].state = .ready)
    (howner : s.images[i].owner = some q) : s.removeImage i =
      ((s.setPool (s.pool ++ s.images[i].pages)).modImage i fun _ => ImageSlot.freed).notify q (.image i .deleted) := by
  rw [State.removeImage, if_pos hready, howner]
  rfl

/-- Settles O13: the checks in order, then the slot is freed, or its load fails. -/
theorem deleteImageChecksThenFrees : Obligations.DeleteImageChecksThenFrees := by
  intro p r s hs hw
  refine ⟨fun h => congrArg _ (State.takeCommand_refused hs hw (onImage_none (indexBelow_eq_none.2 h) s _)),
    fun i hi => ⟨fun code hcode => ?_, fun q howner hq hprot href => ?_⟩⟩
  · refine congrArg _ (State.takeCommand_refused hs hw ?_)
    rw [deleteImage, onImage_some hi]
    simp only [State.barredFrom_iff]
    (repeat' split at hcode) <;> simp_all [-Fin.getElem_fin]
  · have hmeaning (hstate : s.images[i].state ≠ .free) : deleteImage p r s = accept (s.removeImage i) := by
      rw [deleteImage, onImage_some hi]
      simp [hstate, howner, State.barredFrom_owner hq, hprot, href, -Fin.getElem_fin]
    refine ⟨fun hready => ?_, fun hload => ?_⟩
    · refine congrArg _ (State.takeCommand_accepted_settled ?_ hw
        ((hmeaning (by rw [hready]; decide)).trans (by rw [State.removeImage_ready hready howner])))
      exact hs
    · refine congrArg _ (State.takeCommand_accepted hw ((hmeaning ?_).trans ?_))
      · rcases hload with h | h <;> rw [h] <;> decide
      · rw [State.removeImage, if_neg (by rcases hload with h | h <;> rw [h] <;> decide)]

/-! ## LOAD-IMAGE, LOAD-FROM-DISC -/

theorem State.imageLoadBar_eq (s : State) (i : ImageId) (p : Port) (size : Nat) : s.imageLoadBar i p size =
    if s.images[i].state = .loadWait ∨ s.images[i].state = .loading then some .wrongState
    else if s.images[i].state = .ready ∧ s.images[i].owner ≠ some p ∧ s.key ≠ .service then some .notOwner
    else if s.images[i].state = .ready ∧ s.images[i].isProtected = true then some .slotProtected
    else if s.images[i].state = .ready ∧ 0 < s.images[i].refcount then some .inUse
    else if pagesIn s.pool + (if s.images[i].state = .ready then pagesIn s.images[i].pages else 0) < imagePages size then
      some .noSpace
    else none := by
  simp only [State.imageLoadBar, State.pagesForImage, Bool.or_eq_true, Bool.and_eq_true, decide_eq_true_eq,
    State.barredFrom_iff]
  congr

/-- Settles O12: the refusals of the two commands, each by its own check or by the slot's checks (`imageLoadBar`). -/
theorem loadImageRefusalsInOrder : Obligations.LoadImageRefusalsInOrder := by
  intro p r s hs
  simp only [← State.imageLoadBar_eq]
  refine ⟨fun hw => ⟨fun hbad => ?_, fun i cls hi hcls hpos hlimit code hcode => ?_⟩, fun hw => ⟨fun hbad => ?_, ?_⟩⟩
  · refine congrArg _ (State.takeCommand_refused hs hw ?_)
    cases hi : imageParam r with
    | none => exact onImage_none hi s _
    | some i =>
      rw [loadImage, onImage_some hi]
      cases hcls : classOfCode (recordByte r 3) with
      | none => rfl
      | some cls =>
        have : recordField r 4 8 = 0 ∨ classLimit cls < recordField r 4 8 := by simpa [hi, hcls] using hbad
        simp [this]
  · refine congrArg _ (State.takeCommand_refused hs hw ?_)
    rw [loadImage, onImage_some hi, hcls]
    dsimp only
    rw [if_neg (by simp; omega)]
    split at hcode
    · cases hcode
      rw [if_pos ((State.streamOpen_iff s p).2 (by assumption))]
    · rw [if_neg (by rw [State.streamOpen_iff]; assumption), hcode]
  · refine congrArg _ (State.takeCommand_refused hs hw ?_)
    cases hi : imageParam r with
    | none => exact onImage_none hi s _
    | some i =>
      have hlow := indexBelow_eq_some.1 hi
      have hn : indexBelow 8 (recordByte r 3) = none := indexBelow_eq_none.2 (by omega)
      rw [loadFromDisc, onImage_some hi, hn]
  · intro i n hi hn
    have hmeaning : loadFromDisc p r s = _ := onImage_some (indexBelow_eq_some.2 hi) s _
    rw [indexBelow_eq_some.2 hn] at hmeaning
    dsimp only at hmeaning
    refine ⟨fun hstate => congrArg _ (State.takeCommand_refused hs hw (by rw [hmeaning, if_pos hstate])),
      fun cls size hstate hmaster code hcode => congrArg _ (State.takeCommand_refused hs hw ?_)⟩
    rw [hmeaning, if_neg (by simp [hstate, -Fin.getElem_fin]), hmaster]
    dsimp only
    split at hcode
    · cases hcode; rw [if_pos (by simpa)]
    · rw [if_neg (by simpa only [Bool.or_eq_true, decide_eq_true_eq]), hcode]

/-- A slot that may be taken passes the slot's checks, when the pages are there (R4, R5, R8). -/
theorem State.imageLoadBar_taken {s base : State} {p : Port} {i : ImageId} {size : Nat} (h : s.imageSlotTaken p i base)
    (hpages : imagePages size ≤ pagesIn base.pool) : s.imageLoadBar i p size = none := by
  rcases h with ⟨hfree, rfl⟩ | ⟨q, hready, howner, hq, hprot, href, rfl⟩
  · simp [State.imageLoadBar, State.pagesForImage, hfree, hpages, -Fin.getElem_fin]
  · have hpages : imagePages size ≤ pagesIn s.pool + pagesIn s.images[i].pages := by
      simpa only [State.notify_pool, State.setPool_pool, pagesIn_append] using hpages
    simp [State.imageLoadBar, State.pagesForImage, hready, howner, State.barredFrom_owner hq, hprot, href, hpages,
      -Fin.getElem_fin]

/-- The load of a slot that may be taken, from the state in which its pages are taken. -/
theorem State.acceptImageLoad_taken {s base : State} {p : Port} {i : ImageId} (h : s.imageSlotTaken p i base)
    (source : LoadSource) (cls : MediaClass) (size : Nat) (noExport : Bool) :
    s.acceptImageLoad i p source cls size noExport =
      (base.setPool (takePages base.pool (imagePages size)).2).modImage i fun v =>
        { v with
          state := .loadWait, owner := some p, source := some source, cls := some cls, size := size
          segments := segmentCount size, pages := (takePages base.pool (imagePages size)).1, received := 0
          isProtected := false, noExport := v.noExport || noExport } := by
  unfold State.acceptImageLoad
  dsimp only
  rcases h with ⟨hfree, rfl⟩ | ⟨q, hready, howner, hq, hprot, href, rfl⟩
  · rw [if_neg (by rw [hfree]; decide)]
  · rw [if_pos hready, howner]
    rfl

/-- Settles O11: the checks are passed (`imageLoadBar_taken`), and the effect is that of `acceptImageLoad_taken`. -/
theorem imageLoadsTakeTheSlot : Obligations.ImageLoadsTakeTheSlot := by
  refine ⟨fun p r i cls size s base hw hi hcls hsize hpos hlimit hstream htaken hpages => ?_,
    fun p r i n cls size s base hw hi hn hstate hmaster hpos hlimit htaken hpages => ?_⟩
  · refine congrArg _ (State.takeCommand_accepted hw ?_)
    subst hsize
    rw [loadImage, onImage_some hi, hcls]
    dsimp only
    rw [if_neg (by simp; omega), if_neg (by simp [State.streamOpen_iff, hstream, -Fin.getElem_fin]),
      State.imageLoadBar_taken htaken hpages]
    dsimp only
    rw [State.openImageLoad, State.acceptImageLoad_taken htaken]
  · refine congrArg _ (State.takeCommand_accepted hw ?_)
    rw [loadFromDisc, onImage_some hi, hn]
    dsimp only
    rw [if_neg (by simp [hstate, -Fin.getElem_fin]), hmaster]
    dsimp only
    rw [if_neg (by simp; omega), State.imageLoadBar_taken htaken hpages]
    dsimp only
    rw [State.openDiscLoad, State.acceptImageLoad_taken htaken]

/-! ## LOAD-ARTWORK, DELETE-ARTWORK -/

theorem State.artworkLoadBar_eq (s : State) (i : ArtworkId) (p : Port) (bands : Nat) : s.artworkLoadBar i p bands =
    if s.artworks[i].state = .loading then some .wrongState
    else if s.artworks[i].state = .ready ∧ s.artworks[i].owner ≠ some p ∧ s.key ≠ .service then some .notOwner
    else if s.artworks[i].state = .ready ∧ 0 < s.artworks[i].refcount then some .inUse
    else if pagesIn s.pool + (if s.artworks[i].state = .ready then pagesIn s.artworks[i].pages else 0) <
      artworkPages bands then some .noSpace
    else none := by
  simp only [State.artworkLoadBar, State.pagesForArtwork, Bool.and_eq_true, decide_eq_true_eq, State.barredFrom_iff]
  congr

theorem State.artworkLoadBar_taken {s base : State} {p : Port} {i : ArtworkId} {bands : Nat} (h : s.artworkSlotTaken p i base)
    (hpages : artworkPages bands ≤ pagesIn base.pool) : s.artworkLoadBar i p bands = none := by
  rcases h with ⟨hfree, rfl⟩ | ⟨q, hready, howner, hq, href, rfl⟩
  · simp [State.artworkLoadBar, State.pagesForArtwork, hfree, hpages, -Fin.getElem_fin]
  · have hpages : artworkPages bands ≤ pagesIn s.pool + pagesIn s.artworks[i].pages := by
      simpa only [State.notify_pool, State.setPool_pool, pagesIn_append] using hpages
    simp [State.artworkLoadBar, State.pagesForArtwork, hready, howner, State.barredFrom_owner hq, href, hpages,
      -Fin.getElem_fin]

theorem State.openArtworkLoad_taken {s base : State} {p : Port} {i : ArtworkId} (h : s.artworkSlotTaken p i base)
    (bands : Nat) : s.openArtworkLoad p i bands =
      ((base.setPool (takePages base.pool (artworkPages bands)).2).modArtwork i fun v =>
        { v with
          state := .loading, owner := some p, bands := bands, pages := (takePages base.pool (artworkPages bands)).1
          received := 0, weights := ⟨0, 0, 0, 0⟩, costs := ⟨0, 0, 0, 0⟩ }).modPort p fun v =>
            { v with stream := .artwork i, staging := [] } := by
  unfold State.openArtworkLoad
  dsimp only
  rcases h with ⟨hfree, rfl⟩ | ⟨q, hready, howner, hq, href, rfl⟩
  · rw [if_neg (by rw [hfree]; decide)]
  · rw [if_pos hready, howner]
    rfl

/-- A state in which a slot's pages are taken owes what the state before owed. -/
theorem State.artworkSlotTaken_settled {s base : State} {p : Port} {i : ArtworkId} (hs : s.settled)
    (h : s.artworkSlotTaken p i base) : base.settled := by
  rcases h with ⟨-, rfl⟩ | ⟨q, -, -, -, -, rfl⟩ <;> exact hs

/-- The checks of LOAD-ARTWORK in order, each changing nothing but the reply (R20). -/
theorem execLoadArtwork_refused {p : Port} {r : CommandRecord} {s : State} (hs : s.settled) (hw : s.commandWaits p r 8)
    {i : ArtworkId} (hi : artworkParam r = some i) (hlow : 1 ≤ recordByte r 3) (hhigh : recordByte r 3 ≤ 64) {code : ResultCode}
    (hcode : (if s.ports[p].stream ≠ .none then some .busy else s.artworkLoadBar i p (recordByte r 3)) = some code) :
    exec (.loadArtwork p) s = .next (s.replied p ⟨code, []⟩) := by
  refine congrArg _ (State.takeCommand_refused hs hw ?_)
  rw [loadArtwork, onArtwork_some hi]
  dsimp only
  rw [if_neg (by simp; omega)]
  split at hcode
  · cases hcode
    rw [if_pos ((State.streamOpen_iff s p).2 (by assumption))]
  · rw [if_neg (by rw [State.streamOpen_iff]; assumption), hcode]

/-- Settles O17: LOAD-ARTWORK refuses or takes the slot; DELETE-ARTWORK refuses, frees, or fails the load. -/
theorem artworkIsLoadedAndDeleted : Obligations.ArtworkIsLoadedAndDeleted := by
  refine ⟨fun p r s hs hw => ⟨fun hbad => ?_, fun i hi hlow hhigh => ⟨fun code hcode => ?_, fun base hstream htaken hpages => ?_⟩⟩,
    fun p r s hs hw => ⟨fun hbad => ?_, fun i hi => ⟨fun code hcode => ?_, fun q howner hq href => ⟨fun hready => ?_,
      fun hload => ?_⟩⟩⟩⟩
  · refine congrArg _ (State.takeCommand_refused hs hw ?_)
    cases hi : artworkParam r with
    | none => exact onArtwork_none hi s _
    | some i =>
      have hlow := indexBelow_eq_some.1 hi
      rw [loadArtwork, onArtwork_some hi]
      exact if_pos (by simp; omega)
  · exact execLoadArtwork_refused hs hw hi hlow hhigh (by rw [State.artworkLoadBar_eq]; exact hcode)
  · refine congrArg _ (State.takeCommand_accepted_settled ?_ hw ?_)
    · have hbase := State.artworkSlotTaken_settled hs htaken
      exact hbase
    · rw [loadArtwork, onArtwork_some hi]
      dsimp only
      rw [if_neg (by simp; omega), if_neg (by simp [State.streamOpen_iff, hstream, -Fin.getElem_fin]),
        State.artworkLoadBar_taken htaken hpages]
      dsimp only
      rw [State.openArtworkLoad_taken htaken]
  · exact congrArg _ (State.takeCommand_refused hs hw (onArtwork_none (indexBelow_eq_none.2 hbad) s _))
  · refine congrArg _ (State.takeCommand_refused hs hw ?_)
    rw [deleteArtwork, onArtwork_some hi]
    simp only [State.barredFrom_iff]
    (repeat' split at hcode) <;> simp_all [-Fin.getElem_fin]
  · refine congrArg _ (State.takeCommand_accepted_settled (by exact hs) hw ?_)
    rw [deleteArtwork, onArtwork_some hi]
    simp [hready, howner, State.barredFrom_owner hq, href, State.removeArtwork, -Fin.getElem_fin]
    rfl
  · refine congrArg _ (State.takeCommand_accepted_settled (by exact hs) hw ?_)
    rw [deleteArtwork, onArtwork_some hi]
    simp [hload, howner, State.barredFrom_owner hq, href, State.removeArtwork, State.failArtworkLoad, -Fin.getElem_fin]
    rfl

end Sys2Proof.Machine
end

