-- ==== Sys2Proof/Proofs/ResetState.lean ====
section
/-! POWER_ON_RESET and the reset state (R1, R3, R19, R27, R67, R114, R126, R177). -/

namespace Sys2Proof.Machine

/-- Settles O3: every table of the reset state repeats one record. -/
theorem powerOnResetSetsEveryField : Obligations.PowerOnResetSetsEveryField := by
  intro s
  refine ⟨_, rfl, rfl, rfl, rfl, fun p => ?_, rfl, rfl, fun i => ?_, fun i => ?_, fun i => ?_, rfl, fun i => ?_, rfl, fun n => ?_,
    rfl, rfl, rfl, rfl, fun k => ?_, rfl, rfl, rfl, rfl, rfl, rfl, fun v => ?_, rfl, rfl, rfl, rfl, rfl⟩
  · exact Vector.getElem_map _ p.isLt
  all_goals exact Vector.getElem_replicate _

/-- No job is live at reset (R25). -/
theorem State.reset_liveJobs : State.reset.liveJobs = [] := by decide

/-- Settles O58: the reset state meets each invariant. -/
theorem resetMeetsTheInvariants : Obligations.ResetMeetsTheInvariants := by
  refine ⟨State.reset_pagesPlaced, ?_, ⟨List.nodup_nil, fun k => ?_⟩, rfl, fun p => ?_, ?_, fun n => ?_, by decide, rfl⟩
  · rw [State.ranksInOrder, State.reset_liveJobs]
    exact .refl _
  · exact iff_of_true (Vector.getElem_replicate _) fun e he => by simp [State.reset] at he
  · revert p; decide
  · unfold State.settingsInRange; decide
  · revert n; decide

end Sys2Proof.Machine
end

