-- ==== Sys2Proof/Proofs/StagedBytes.lean ====
section
/-! The writing of staged bytes (R7, R9, R21): artwork to its end, and image bytes with the end of a load. -/

namespace Sys2Proof.Machine

/-! ## Two changes of one record are one change -/

theorem State.modPort_modPort (s : State) (p : Port) (f g : PortRecord → PortRecord) :
    (s.modPort p f).modPort p g = s.modPort p fun r => g (f r) := by
  simp [State.modPort]

theorem State.modArtwork_modArtwork (s : State) (i : ArtworkId) (f g : ArtworkSlot → ArtworkSlot) :
    (s.modArtwork i f).modArtwork i g = s.modArtwork i fun v => g (f v) := by
  simp [State.modArtwork]

theorem State.modLane_modLane (s : State) (n : LaneId) (f g : Lane → Lane) :
    (s.modLane n f).modLane n g = s.modLane n fun l => g (f l) := by
  simp [State.modLane]

theorem State.modPort_modArtwork (s : State) (p : Port) (f : PortRecord → PortRecord) (i : ArtworkId)
    (g : ArtworkSlot → ArtworkSlot) : (s.modPort p f).modArtwork i g = (s.modArtwork i g).modPort p f := rfl

/-! ## Artwork -/

/-- The costs are the weights divided by 65,536, rounded up (R21). -/
theorem inkCosts_eq (w : Ink) :
    inkCosts w = ⟨(w.c + 65535) / 65536, (w.m + 65535) / 65536, (w.y + 65535) / 65536, (w.k + 65535) / 65536⟩ := by
  have hceil (w : Nat) : ceilDiv w 65536 = (w + 65535) / 65536 := by rw [ceilDiv, Nat.add_sub_assoc (by decide)]
  simp only [inkCosts, hceil]

/-- The end of a load of artwork, on the state whose bytes are stored and weighed (R21). -/
theorem State.finishArtworkLoad_stored (s : State) (p q : Port) (i : ArtworkId) (weights : Ink) (count : Nat)
    (howner : s.artworks[i].owner = some q) :
    ((s.modArtwork i fun v => { v with weights := weights }).modPort p
        fun r => { r with staging := r.staging.drop count }).finishArtworkLoad p i =
      ((s.modArtwork i fun v => { v with weights := weights, state := .ready, costs := inkCosts weights }).modPort p
        fun r => { r with stream := .none, staging := [] }).notify q (.artwork i .ready) := by
  have hq : ((s.modArtwork i fun v => { v with weights := weights }).modPort p
      fun r => { r with staging := r.staging.drop count }).artworks[i].owner = some q := by
    rw [State.modPort_artworks, State.modArtwork_same]; exact howner
  simp only [State.finishArtworkLoad, hq, State.notifyOpt, State.closeStream, State.modPort_modArtwork,
    State.modArtwork_modArtwork, State.modPort_modPort]

/-- Settles O21: the bytes are stored and weighed, and after the last one the load ends (`finishArtworkLoad_stored`). -/
theorem artworkStagingWriteStoresAndWeighs : Obligations.ArtworkStagingWriteStoresAndWeighs := by
  intro p count i s hstream hstate hmapped
  dsimp only
  have hexec : exec (.artworkStagingWrite p count) s = execArtworkStagingWrite p count s := rfl
  rw [hexec, execArtworkStagingWrite, hstream]
  dsimp only
  rw [if_pos hstate, if_pos hmapped]
  have hband : bandBytes = 262144 := rfl
  refine ⟨fun h => ?_, fun q h howner => ?_⟩
  · rw [if_neg (by rw [hband]; exact h)]
    rfl
  · simp only [← inkCosts_eq]
    rw [if_pos (by rw [hband]; exact h)]
    exact congrArg _ (State.finishArtworkLoad_stored _ p q i _ count howner)

/-! ## Entries that leave the verify queue -/

/-- The release of channels changes the channels and what is owed, nothing else (R115). -/
theorem State.releaseAll_eq (l : List VerifyEntry) (s : State) : State.releaseAll l s =
    { s with crc := (State.releaseAll l s).crc, due := (State.releaseAll l s).due } := by
  induction l generalizing s with
  | nil => rfl
  | cons e rest ih =>
    have he : s.releaseChannel e = { s with crc := (s.releaseChannel e).crc, due := (s.releaseChannel e).due } := by
      unfold State.releaseChannel; split <;> rfl
    rw [State.releaseAll, ih, he]

/-- A channel released owes a grant (R114). -/
theorem State.releaseAll_due (l : List VerifyEntry) (s : State)
    (h : s.due.crc = true ∨ ∃ e ∈ l, e.channel ≠ none) : (State.releaseAll l s).due.crc = true := by
  induction l generalizing s with
  | nil => simpa [State.releaseAll] using h
  | cons e rest ih =>
    refine ih _ ?_
    unfold State.releaseChannel
    cases he : e.channel with
    | none => simpa [he] using h
    | some c => exact .inl rfl

/-- Entries that leave the queue change the queue, the channels and what is owed, nothing else (R115). -/
theorem State.leaveVerifyQueue_eq (s : State) (leaves : VerifyEntry → Bool) : s.leaveVerifyQueue leaves =
    { s with
      verifyQueue := s.verifyQueue.filter fun e => !leaves e
      crc := (s.leaveVerifyQueue leaves).crc, due := (s.leaveVerifyQueue leaves).due } :=
  State.releaseAll_eq _ _

/-- A channel that an entry leaving the queue holds is FREE, the others are as before (R115). -/
theorem State.leaveVerifyQueue_crc (s : State) (leaves : VerifyEntry → Bool) (c : Fin 2) :
    ((∃ e ∈ s.verifyQueue, leaves e = true ∧ e.channel = some c) → (s.leaveVerifyQueue leaves).crc[c] = .free) ∧
      ((∀ e ∈ s.verifyQueue, leaves e = true → e.channel ≠ some c) → (s.leaveVerifyQueue leaves).crc[c] = s.crc[c]) := by
  obtain ⟨-, -, hcrc⟩ := State.releaseAll_spec (s.verifyQueue.filter leaves)
    (s.setVerifyQueue (s.verifyQueue.filter fun e => !leaves e))
  refine ⟨fun ⟨e, he, hl, hc⟩ => (hcrc c).1 ⟨e, List.mem_filter.2 ⟨he, hl⟩, hc⟩, fun h => (hcrc c).2 fun e he => ?_⟩
  obtain ⟨he, hl⟩ := List.mem_filter.1 he
  exact h e he hl

theorem State.leaveVerifyQueue_due (s : State) (leaves : VerifyEntry → Bool)
    (h : ∃ e ∈ s.verifyQueue, leaves e = true ∧ e.channel ≠ none) : (s.leaveVerifyQueue leaves).due.crc = true := by
  obtain ⟨e, he, hl, hc⟩ := h
  exact State.releaseAll_due _ _ (.inr ⟨e, List.mem_filter.2 ⟨he, hl⟩, hc⟩)

theorem State.leaveVerifyQueue_jobs (s : State) (leaves : VerifyEntry → Bool) : (s.leaveVerifyQueue leaves).jobs = s.jobs := by
  rw [State.leaveVerifyQueue_eq]

theorem State.leaveVerifyQueue_lanes (s : State) (leaves : VerifyEntry → Bool) : (s.leaveVerifyQueue leaves).lanes = s.lanes := by
  rw [State.leaveVerifyQueue_eq]

/-! ## The end of a load -/

/-- The QUEUED jobs of an image that becomes READY, given in rank order, become ACTIVE in that order (R29). -/
theorem State.imageReady_foldl (i : ImageId) (waiting : List (Handle × Job)) (s : State)
    (hmem : ∀ e, e ∈ waiting ↔ s.jobs[e.1.index] = ⟨e.1.generation, some e.2⟩ ∧ e.2.image = i ∧ e.2.state = .queued)
    (hsorted : waiting.Pairwise fun a b => a.2.rank < b.2.rank) (hranks : ∀ e ∈ waiting, e.2.rank < 16) :
    s.imageReady i = waiting.foldl (fun u e => ((u.setJobEntry e.1.index
      ⟨e.1.generation, some { e.2 with state := .active }⟩).notify e.2.owner (.jobActive e.1)).oweClaim) s :=
  State.activateRanks_foldl i (List.range 16) waiting s hmem hsorted (fun e he => List.mem_range.2 (hranks e he))
    List.pairwise_lt_range

/-- The source of a load from a stream ends with the owner's stream (R7). -/
theorem State.loadSourceEnds_stream (s : State) {v : ImageSlot} {p : Port} (hsource : v.source = some .stream)
    (howner : v.owner = some p) (early : Bool) : s.loadSourceEnds v early = s.closeStream p := by
  simp only [State.loadSourceEnds, hsource, howner]

/-- The source of a load from a disc ends at its lane (R9). -/
theorem State.loadSourceEnds_lane (s : State) {v : ImageSlot} {n : LaneId} (hsource : v.source = some (.lane n))
    (early : Bool) : s.loadSourceEnds v early = s.sourceLaneEnds n early := by
  simp only [State.loadSourceEnds, hsource]

/-- A lane whose reads have all come in returns to MASTER (R84). -/
theorem State.sourceLaneEnds_reading (s : State) {n : LaneId} (h : s.lanes[n].state = .sourceRead) :
    s.sourceLaneEnds n false = s.modLane n fun l => { l with state := .master, timer := none } := by
  simp only [State.sourceLaneEnds, h]
  rfl

/-- Settles O18: the taking and the two bytes are the definitions' own; the release of channels is `leaveVerifyQueue_crc`; the end
of a load is its source's end and `imageReady_foldl`. -/
theorem imageStagingWriteStoresAndDigests : Obligations.ImageStagingWriteStoresAndDigests := by
  refine ⟨fun p count i k segment fill remainder s hstream hchannel hcrc hmapped => ?_, bulkByte_within, bulkByte_last,
    fun leaves s => ⟨s.leaveVerifyQueue_eq leaves, fun c => ⟨fun ⟨e, he, hl, hc⟩ =>
      ⟨(s.leaveVerifyQueue_crc leaves c).1 ⟨e, he, hl, hc⟩, s.leaveVerifyQueue_due leaves ⟨e, he, hl, by simp [hc]⟩⟩,
      (s.leaveVerifyQueue_crc leaves c).2⟩⟩,
    fun i p waiting s howner hmem hsorted hranks => ?_⟩
  · have hexec : exec (.imageStagingWrite p count) s = execImageStagingWrite p count s := rfl
    rw [hexec, execImageStagingWrite, hstream]
    dsimp only
    rw [hchannel]
    dsimp only
    rw [hcrc]
    dsimp only
    rw [if_pos hmapped, apply_ite State.settle]
  · have hready (t : State) (ht : t.jobs = s.jobs) : (t.notify p (.image i .ready)).imageReady i = _ :=
      State.imageReady_foldl i waiting _ (by rw [State.notify_jobs, ht]; exact hmem) hsorted hranks
    refine ⟨fun hsource => ?_, fun n hsource hstate => ?_⟩
    · dsimp only [State.finishImageLoad]
      rw [State.loadSourceEnds_stream _ hsource howner, howner]
      exact hready _ (State.leaveVerifyQueue_jobs _ _)
    · dsimp only [State.finishImageLoad]
      rw [State.loadSourceEnds_lane _ hsource, howner, State.sourceLaneEnds_reading _
        (by rw [State.leaveVerifyQueue_lanes]; exact hstate)]
      exact hready _ (State.leaveVerifyQueue_jobs _ _)

end Sys2Proof.Machine
end

