-- ==== Sys2Proof/Proofs/Reads.lean ====
section
/-! READ_DATA and READ_FAIL (R84, R118 to R122): of a verify to its PASS or FAIL, and of a master's load to its end. -/

namespace Sys2Proof.Machine

/-! ## A lane's timer, discs and requests, under the changes of a read -/

/-- A running timer restarts from 0 with its limit (R85). -/
theorem State.restartTimer_running (s : State) {n : LaneId} {t : Timer} (h : s.lanes[n].timer = some t) :
    s.restartTimer n = s.modLane n fun l => { l with timer := some ⟨t.limit, 0⟩ } := by
  simp only [State.restartTimer, State.modLane, h]
  rfl

theorem State.modDiscAt_eq (s : State) (loc : Location) (f : Disc → Disc) :
    s.modDiscAt loc f = { s with discs := (s.modDiscAt loc f).discs } := by
  unfold State.modDiscAt; split <;> rfl

theorem State.modDiscAt_requests (s : State) (loc : Location) (f : Disc → Disc) : (s.modDiscAt loc f).requests = s.requests := by
  rw [State.modDiscAt_eq]

theorem State.modDiscAt_nextAge (s : State) (loc : Location) (f : Disc → Disc) : (s.modDiscAt loc f).nextAge = s.nextAge := by
  rw [State.modDiscAt_eq]

theorem State.modDiscAt_verifyQueue (s : State) (loc : Location) (f : Disc → Disc) :
    (s.modDiscAt loc f).verifyQueue = s.verifyQueue := by
  rw [State.modDiscAt_eq]

theorem State.modLane_modDiscAt (s : State) (n : LaneId) (f : Lane → Lane) (loc : Location) (g : Disc → Disc) :
    (s.modLane n f).modDiscAt loc g = (s.modDiscAt loc g).modLane n f := by
  have hloc : (s.modLane n f).discIndexAt loc = s.discIndexAt loc := rfl
  unfold State.modDiscAt
  rw [hloc]
  cases s.discIndexAt loc <;> rfl

/-- A lane that no request names queues its UNLOAD (R81, R130). -/
theorem State.queueUnload_new (s : State) {n : LaneId} (h : s.hasRequest n = false) : s.queueUnload n =
    ((s.setRequests (s.requests ++ [⟨.unload, some n, some n, none, s.nextAge, false, none⟩])).passAge).oweSelect := by
  rw [State.queueUnload, h]
  rfl

/-- The running entry of a lane stands in the queue and holds its channel. -/
theorem State.laneChannel_some {s : State} {n : LaneId} {e : VerifyEntry} {k : Fin 2} (h : s.laneChannel n = some (e, k)) :
    e ∈ s.verifyQueue ∧ e.ofLane n = true ∧ e.channel = some k := by
  obtain ⟨x, hx, hk⟩ := Option.bind_eq_some_iff.1 h
  obtain ⟨c, hc, hpair⟩ := Option.map_eq_some_iff.1 hk
  cases hpair
  exact ⟨List.mem_of_find?_eq_some hx, List.find?_some hx, hc⟩

/-- DONE is entered from a lane that no request names: its UNLOAD is queued, and the failures so far are forgotten (R81, R122). -/
theorem State.enterDone_cleared (s : State) {n : LaneId} (h : s.hasRequest n = false) :
    (s.enterDone n).modLane n (fun l => { l with failCount := 0 }) =
      (((s.modLane n fun l => { l with state := .done, timer := none, failCount := 0 }).setRequests
        (s.requests ++ [⟨.unload, some n, some n, none, s.nextAge, false, none⟩])).passAge).oweSelect := by
  have hnone : (s.modLane n fun l => { l with state := .done, timer := none }).hasRequest n = false := h
  have hswap (u : State) (requests : List Request) (f : Lane → Lane) :
      (((u.setRequests requests).passAge).oweSelect).modLane n f =
        (((u.modLane n f).setRequests requests).passAge).oweSelect := rfl
  rw [State.enterDone, State.queueUnload_new _ hnone, hswap, State.modLane_modLane]
  rfl

/-! ## A verify -/

/-- The state once the last READ of a verify has matched, its channel left at `v`: the record is PASSED, the lane DONE with its UNLOAD
queued (R122). -/
def State.verifyPassed (s : State) (n : LaneId) (k : Fin 2) (v : CrcChannel) : State :=
  (((((s.setCrc k v).modDiscAt (.tray n) fun d => { d with verify := some .pass, phase := .passed }).modLane n fun l =>
    { l with state := .done, timer := none, failCount := 0 }).setRequests
      (s.requests ++ [⟨.unload, some n, some n, none, s.nextAge, false, none⟩])).passAge).oweSelect

theorem State.verifyPassed_verifyQueue (s : State) (n : LaneId) (k : Fin 2) (v : CrcChannel) :
    (s.verifyPassed n k v).verifyQueue = s.verifyQueue := by
  unfold State.verifyPassed State.passAge
  simp only [State.oweSelect_verifyQueue, State.setRequests_verifyQueue, State.modLane_verifyQueue, State.modDiscAt_verifyQueue,
    State.setCrc_verifyQueue]

/-- A verify whose last READ has matched passes, and its entry leaves the queue (R122). -/
theorem State.verifyPasses_eq (s : State) {n : LaneId} (t : Timer) (k : Fin 2) (v : CrcChannel) (h : s.hasRequest n = false) :
    ((s.modLane n fun l => { l with timer := some ⟨t.limit, 0⟩ }).setCrc k v).verifyPasses n =
      (s.verifyPassed n k v).leaveVerifyQueue (VerifyEntry.ofLane n) := by
  have hswap : (s.modLane n fun l => { l with timer := some ⟨t.limit, 0⟩ }).setCrc k v =
      (s.setCrc k v).modLane n fun l => { l with timer := some ⟨t.limit, 0⟩ } := rfl
  have hdisc := (s.setCrc k v).modDiscAt_eq (.tray n) fun d => { d with verify := some .pass, phase := .passed }
  have hnone : (((s.setCrc k v).modDiscAt (.tray n) fun d => { d with verify := some .pass, phase := .passed }).modLane n
      fun l => { l with timer := some ⟨t.limit, 0⟩ }).hasRequest n = false := by rw [hdisc]; exact h
  rw [State.verifyPasses, hswap, State.modLane_modDiscAt, State.enterDone_cleared _ hnone, State.modLane_modLane]
  dsimp only [State.modLane_requests, State.modLane_nextAge]
  rw [State.modDiscAt_requests, State.modDiscAt_nextAge]
  rfl

/-- READ_DATA of an outstanding segment, of the right length, in VERIFYING (R121). -/
theorem execReadData_verifying {n : LaneId} {index : BitVec 24} {data : List Byte} {e : VerifyEntry} {k : Fin 2}
    {set : VerifySet} {next : Nat} {outstanding : List Nat} {matched : Nat} {v : ImageSlot} {s : State}
    (hstate : s.lanes[n].state = .verifying) (hchannel : s.laneChannel n = some (e, k))
    (hcrc : s.crc[k] = .verify set next outstanding matched) (hindex : outstanding.contains index.toNat = true)
    (himage : s.verifyImage n = some v) (hlength : data.length = segmentLength v.size v.segments index.toNat)
    (hmapped : pagesMapped v.pages (imagePages v.size) = true) :
    exec (.readData n index data) s = .next ((if crc32 data = s.digest v index.toNat then
        s.verifyMatches n k set next outstanding matched index.toNat
      else s.verifyFails n (.mismatch index.toNat) .verifyMismatch).settle) := by
  have hexec : exec (.readData n index data) s = execReadData n index data s := rfl
  rw [hexec, execReadData, hchannel]
  dsimp only
  rw [hcrc, hstate]
  dsimp only
  rw [himage]
  dsimp only
  rw [if_pos hindex, if_pos hlength, if_pos hmapped]

/-- READ_FAIL of an outstanding segment in VERIFYING (R121). -/
theorem execReadFail_verifying {n : LaneId} {index : BitVec 24} {e : VerifyEntry} {k : Fin 2} {set : VerifySet} {next : Nat}
    {outstanding : List Nat} {matched : Nat} {s : State} (hstate : s.lanes[n].state = .verifying)
    (hchannel : s.laneChannel n = some (e, k)) (hcrc : s.crc[k] = .verify set next outstanding matched)
    (hindex : outstanding.contains index.toNat = true) :
    exec (.readFail n index) s = .next ((s.verifyFails n (.unreadable index.toNat) .unreadable).settle) := by
  have hexec : exec (.readFail n index) s = execReadFail n index s := rfl
  rw [hexec, execReadFail, hchannel]
  dsimp only
  rw [hcrc, hstate]
  dsimp only
  rw [if_pos hindex]

/-- A matching segment with another READ to ask for (R120). -/
theorem State.verifyMatches_next (s : State) {n : LaneId} {k : Fin 2} {set : VerifySet} {next : Nat} {t : Timer}
    (htimer : s.lanes[n].timer = some t) (h : next < set.size) (outstanding : List Nat) (matched index : Nat) :
    s.verifyMatches n k set next outstanding matched index =
      ((s.modLane n fun l => { l with timer := some ⟨t.limit, 0⟩ }).setCrc k
        (.verify set (next + 1) (outstanding.erase index ++ [set.index next]) (matched + 1))).emit
          (.drive n (7 :: leBytes 3 (set.index next))) := by
  rw [State.verifyMatches, s.restartTimer_running htimer]
  exact if_pos h

/-- A matching segment with no further READ to ask for: the verify passes when nothing is outstanding (R120, R122). -/
theorem State.verifyMatches_last (s : State) {n : LaneId} {k : Fin 2} {set : VerifySet} {next : Nat} {t : Timer}
    (htimer : s.lanes[n].timer = some t) (h : set.size ≤ next) (outstanding : List Nat) (matched index : Nat) :
    s.verifyMatches n k set next outstanding matched index =
      if (outstanding.erase index).isEmpty then
        ((s.modLane n fun l => { l with timer := some ⟨t.limit, 0⟩ }).setCrc k
          (.verify set next (outstanding.erase index) (matched + 1))).verifyPasses n
      else (s.modLane n fun l => { l with timer := some ⟨t.limit, 0⟩ }).setCrc k
        (.verify set next (outstanding.erase index) (matched + 1)) := by
  rw [State.verifyMatches, s.restartTimer_running htimer]
  exact if_neg (by omega)

/-! ## The read of a master -/

theorem State.modJob_images (s : State) (h : Handle) (f : Job → Job) : (s.modJob h f).images = s.images := by
  unfold State.modJob; split <;> rfl

theorem State.notifyOpt_images (s : State) (p : Option Port) (v : Notice) : (s.notifyOpt p v).images = s.images := by
  cases p <;> rfl

theorem State.notifyOpt_lanes (s : State) (p : Option Port) (v : Notice) : (s.notifyOpt p v).lanes = s.lanes := by
  cases p <;> rfl

/-- Jobs that become ACTIVE leave the image table and the lanes alone (R29). -/
theorem State.activateRanks_images_lanes (i : ImageId) (ranks : List Nat) (s : State) :
    (State.activateRanks i ranks s).images = s.images ∧ (State.activateRanks i ranks s).lanes = s.lanes := by
  induction ranks generalizing s with
  | nil => exact ⟨rfl, rfl⟩
  | cons r rest ih =>
    unfold State.activateRanks
    split
    · exact ih s
    · obtain ⟨himages, hlanes⟩ := ih (((s.modJob _ fun j => { j with state := .active }).notify _ (.jobActive _)).oweClaim)
      exact ⟨himages.trans (State.modJob_images _ _ _), hlanes.trans (State.modJob_lanes _ _ _)⟩

theorem State.leaveVerifyQueue_images (s : State) (leaves : VerifyEntry → Bool) :
    (s.leaveVerifyQueue leaves).images = s.images := by
  rw [State.leaveVerifyQueue_eq]

/-- A load from a disc that ends leaves its slot READY and its lane in MASTER with the timer stopped (R9, R84). -/
theorem State.finishImageLoad_fromLane (s : State) {i : ImageId} {n : LaneId} (hsource : s.images[i].source = some (.lane n))
    (hstate : s.lanes[n].state = .sourceRead) : (s.finishImageLoad i).images[i].state = .ready ∧
      (s.finishImageLoad i).lanes[n] = { s.lanes[n] with state := .master, timer := none } := by
  dsimp only [State.finishImageLoad]
  rw [State.loadSourceEnds_lane _ hsource, State.sourceLaneEnds_reading _
    (by rw [State.leaveVerifyQueue_lanes]; exact hstate), State.imageReady]
  obtain ⟨himages, hlanes⟩ := State.activateRanks_images_lanes i (List.range 16)
    ((((s.modImage i fun v => { v with state := .ready, source := none }).leaveVerifyQueue (VerifyEntry.ofSlot i)).modLane n
      fun l => { l with state := .master, timer := none }).notifyOpt s.images[i].owner (.image i .ready))
  refine ⟨?_, ?_⟩
  · rw [himages, State.notifyOpt_images, State.modLane_images, State.leaveVerifyQueue_images, State.modImage_same]
  · rw [hlanes, State.notifyOpt_lanes, State.modLane_same, State.leaveVerifyQueue_lanes]
    rfl

theorem State.sourceSlotOf_some {s : State} {n : LaneId} {i : ImageId} (h : s.sourceSlotOf n = some i) :
    s.images[i].source = some (.lane n) := by
  unfold State.sourceSlotOf at h
  exact of_decide_eq_true (List.find?_some h :)

/-- READ_DATA of an outstanding segment, of the right length, in SOURCE_READ (R84, R118). -/
theorem execReadData_reading {n : LaneId} {index : BitVec 24} {data : List Byte} {e : VerifyEntry} {k : Fin 2} {i : ImageId}
    {next : Nat} {outstanding : List Nat} {digested : Nat} {s : State} (hstate : s.lanes[n].state = .sourceRead)
    (hchannel : s.laneChannel n = some (e, k)) (hcrc : s.crc[k] = .source next outstanding digested)
    (hslot : s.sourceSlotOf n = some i) (hindex : outstanding.contains index.toNat = true)
    (hlength : data.length = segmentLength s.images[i].size s.images[i].segments index.toNat)
    (hmapped : pagesMapped s.images[i].pages (imagePages s.images[i].size) = true) :
    exec (.readData n index data) s =
      .next ((s.sourceArrives n k i next outstanding digested index.toNat data).settle) := by
  have hexec : exec (.readData n index data) s = execReadData n index data s := rfl
  rw [hexec, execReadData, hchannel]
  dsimp only
  rw [hcrc, hstate]
  dsimp only
  rw [hslot]
  dsimp only
  rw [if_pos hindex, if_pos hlength, if_pos hmapped]

/-- READ_FAIL of an outstanding segment in SOURCE_READ (R10, R84). -/
theorem execReadFail_reading {n : LaneId} {index : BitVec 24} {e : VerifyEntry} {k : Fin 2} {i : ImageId} {next : Nat}
    {outstanding : List Nat} {digested : Nat} {s : State} (hstate : s.lanes[n].state = .sourceRead)
    (hchannel : s.laneChannel n = some (e, k)) (hcrc : s.crc[k] = .source next outstanding digested)
    (hslot : s.sourceSlotOf n = some i) (hindex : outstanding.contains index.toNat = true) :
    exec (.readFail n index) s = .next ((s.failImageLoad i).settle) := by
  have hexec : exec (.readFail n index) s = execReadFail n index s := rfl
  rw [hexec, execReadFail, hchannel]
  dsimp only
  rw [hcrc, hstate]
  dsimp only
  rw [hslot]
  dsimp only
  rw [if_pos hindex]

/-- The state once a segment read is stored, digested and counted, and the lane's timer has restarted (R84, R118). -/
def State.segmentStored (s : State) (n : LaneId) (t : Timer) (i : ImageId) (index : Nat) (data : List Byte) : State :=
  ((s.setMem (writeSlot (writeSlot s.mem s.images[i].pages (65536 * index) data) s.images[i].pages
    (dataPages s.images[i].size * 1048576 + 4 * index) (leBytes 4 (crc32 data).toNat))).modImage i
      fun v => { v with received := v.received + data.length }).modLane n fun l => { l with timer := some ⟨t.limit, 0⟩ }

theorem State.segmentStored_lane (s : State) (n : LaneId) (t : Timer) (i : ImageId) (index : Nat) (data : List Byte) :
    (s.segmentStored n t i index data).lanes[n] = { s.lanes[n] with timer := some ⟨t.limit, 0⟩ } := by
  rw [State.segmentStored, State.modLane_same]
  rfl

theorem State.segmentStored_source (s : State) (n : LaneId) (t : Timer) (i : ImageId) (index : Nat) (data : List Byte) :
    (s.segmentStored n t i index data).images[i].source = s.images[i].source := by
  rw [State.segmentStored, State.modLane_images, State.modImage_same]
  rfl

/-- The arrival of a segment, by what is left to ask for and to digest (R84, R118). -/
theorem State.sourceArrives_eq (s : State) {n : LaneId} {t : Timer} (htimer : s.lanes[n].timer = some t) (k : Fin 2)
    (i : ImageId) (next : Nat) (outstanding : List Nat) (digested index : Nat) (data : List Byte) :
    s.sourceArrives n k i next outstanding digested index data =
      let c := if next < s.images[i].segments then
          ((s.segmentStored n t i index data).setCrc k (.source (next + 1) (outstanding.erase index ++ [next]) (digested + 1))).emit
            (.drive n (7 :: leBytes 3 next))
        else (s.segmentStored n t i index data).setCrc k (.source next (outstanding.erase index) (digested + 1))
      if digested + 1 = s.images[i].segments then c.finishImageLoad i else c := by
  have hstored : (((s.setMem (writeSlot s.mem s.images[i].pages (segmentBytes * index) data)).storeDigest s.images[i] index
      (crc32 data)).modImage i fun v => { v with received := v.received + data.length }).restartTimer n =
        s.segmentStored n t i index data := State.restartTimer_running _ htimer
  unfold State.sourceArrives
  dsimp only
  rw [hstored]
  rfl

/-- Settles O37: a verify's read by whether it matches and what is left, a master's read by what is left; the failures are the
definitions' own. -/
theorem readsCompareOrStoreASegment : Obligations.ReadsCompareOrStoreASegment := by
  refine ⟨fun n index data e k set next outstanding matched v t s hstate hchannel hcrc hindex htimer =>
      ⟨fun himage hlength hmapped => ?_, execReadFail_verifying hstate hchannel hcrc hindex⟩,
    fun n index data e k i next outstanding digested t s hstate hchannel hcrc hslot hindex htimer =>
      ⟨fun hlength hmapped => ?_, execReadFail_reading hstate hchannel hcrc hslot hindex⟩⟩
  · rw [execReadData_verifying hstate hchannel hcrc hindex himage hlength hmapped]
    refine ⟨fun hmatch hnext hs => ?_, fun hmatch hlast hrest hs => ?_, fun hmatch hlast hone hrequest => ?_, fun hmiss => ?_⟩
    · rw [if_pos hmatch, State.verifyMatches_next s htimer hnext, State.settle_of_settled (by exact hs)]
    · rw [if_pos hmatch, State.verifyMatches_last s htimer hlast, if_neg (by simpa using hrest),
        State.settle_of_settled (by exact hs)]
    · subst hone
      obtain ⟨hmem, hof, hheld⟩ := State.laneChannel_some hchannel
      rw [if_pos hmatch, State.verifyMatches_last s htimer hlast, List.erase_cons_head, if_pos List.isEmpty_nil,
        State.verifyPasses_eq s t k _ hrequest]
      have hqueue := s.verifyPassed_verifyQueue n k (.verify set next [] (matched + 1))
      refine ⟨rfl, (State.leaveVerifyQueue_crc (s.verifyPassed n k (.verify set next [] (matched + 1))) _ k).1
        ⟨e, hqueue.symm ▸ hmem, hof, hheld⟩, ?_⟩
      exact (congrArg State.verifyQueue (State.leaveVerifyQueue_eq (s.verifyPassed n k _) _)).trans (congrArg _ hqueue)
    · rw [if_neg hmiss]
      rfl
  · have hsource := State.sourceSlotOf_some hslot
    rw [execReadData_reading hstate hchannel hcrc hslot hindex hlength hmapped, State.sourceArrives_eq s htimer]
    refine ⟨fun hnext hleft hs => ?_, fun hlast hleft hs => ?_, fun hlast hdone => ?_⟩
    · dsimp only
      rw [if_pos hnext, if_neg (Nat.ne_of_lt hleft), State.settle_of_settled (by exact hs)]
      rfl
    · dsimp only
      rw [if_neg (Nat.not_lt.2 hlast), if_neg (Nat.ne_of_lt hleft), State.settle_of_settled (by exact hs)]
      rfl
    · dsimp only
      rw [if_neg (Nat.not_lt.2 hlast), if_pos hdone]
      obtain ⟨hready, hmaster⟩ := State.finishImageLoad_fromLane ((s.segmentStored n t i index.toNat data).setCrc k
        (.source next (outstanding.erase index.toNat) (digested + 1))) (i := i) (n := n)
        (by rw [State.setCrc_images, State.segmentStored_source]; exact hsource)
        (by rw [State.setCrc_lanes, State.segmentStored_lane]; exact hstate)
      rw [State.setCrc_lanes, State.segmentStored_lane] at hmaster
      exact ⟨rfl, hready, hmaster⟩

end Sys2Proof.Machine
end

