-- ==== Sys2Proof/Proofs/FailedLoads.lean ====
section
/-! A failed image load (R10): what the end of a job leaves alone, that no job of the slot is left, what becomes of the lane that fed
the load, and the event as a whole. -/

namespace Sys2Proof.Machine

/-! ## What the end of a job leaves alone -/

/-- The state but for jobs, notices, reference counts and what no load touches: messages, lanes, the verify queue and its channels,
memory and its pool, the ports' streams, and the image slots without their reference counts. -/
def State.besidesJobs (s : State) :=
  (s.out, s.lanes, s.verifyQueue, s.crc, s.mem, s.pool, s.ports.map (fun r => (r.stream, r.staging)),
    s.images.map fun v => { v with refcount := 0 })

/-- A table's view that a replaced record does not change. -/
theorem map_set_of_eq {α β : Type} {n : Nat} (table : Vector α n) (i : Fin n) (x : α) (g : α → β) (h : g x = g table[i]) :
    (table.set i x).map g = table.map g := by
  ext k hk
  rw [Vector.getElem_map, Vector.getElem_map, Vector.getElem_set]
  split
  · rename_i hik; subst hik; exact h
  · rfl

/-- What two states share that differ by the ends of jobs. -/
theorem State.of_besidesJobs {s t : State} (h : t.besidesJobs = s.besidesJobs) :
    t.out = s.out ∧ t.lanes = s.lanes ∧ t.verifyQueue = s.verifyQueue ∧ t.crc = s.crc ∧ t.mem = s.mem ∧ t.pool = s.pool ∧
      (∀ p : Port, t.ports[p].stream = s.ports[p].stream ∧ t.ports[p].staging = s.ports[p].staging) ∧
      ∀ k : ImageId, t.images[k].state = s.images[k].state ∧ t.images[k].pages = s.images[k].pages := by
  simp only [State.besidesJobs, Prod.mk.injEq] at h
  obtain ⟨hout, hlanes, hqueue, hcrc, hmem, hpool, hports, himages⟩ := h
  refine ⟨hout, hlanes, hqueue, hcrc, hmem, hpool, fun p => ?_, fun k => ?_⟩
  · simpa using congrArg (·[p]) hports
  · have := congrArg (·[k]) himages
    simp only [Fin.getElem_fin, Vector.getElem_map, ImageSlot.mk.injEq] at this
    exact ⟨this.1, this.2.2.2.2.2.2.1⟩

theorem PortRecord.join_stream (r : PortRecord) (v : Notice) (now : Nat) :
    (r.join v now).stream = r.stream ∧ (r.join v now).staging = r.staging := by
  unfold PortRecord.join; dsimp only; split <;> exact ⟨rfl, rfl⟩

@[simp] theorem State.notify_besidesJobs (s : State) (p : Port) (v : Notice) : (s.notify p v).besidesJobs = s.besidesJobs := by
  have hports : (s.notify p v).ports.map (fun r => (r.stream, r.staging)) = s.ports.map fun r => (r.stream, r.staging) := by
    obtain ⟨hstream, hstaging⟩ := s.ports[p].join_stream v s.now
    exact map_set_of_eq s.ports p _ _ (by rw [hstream, hstaging])
  rw [State.besidesJobs, hports]
  rfl

@[simp] theorem State.releaseImage_besidesJobs (s : State) (i : ImageId) : (s.releaseImage i).besidesJobs = s.besidesJobs := by
  have himages : (s.releaseImage i).images.map (fun v => { v with refcount := 0 }) =
      s.images.map fun v => { v with refcount := 0 } := map_set_of_eq s.images i _ _ rfl
  rw [State.besidesJobs, himages]
  rfl

@[simp] theorem State.endJob_besidesJobs (s : State) (h : Handle) (result : JobResult) :
    (s.endJob h result).besidesJobs = s.besidesJobs := by
  have entry (u : State) (k : TableId) (e : JobEntry) (rank : Nat) :
      ((u.setJobEntry k e).lowerRanks rank).besidesJobs = u.besidesJobs := rfl
  have artwork (u : State) (a : ArtworkId) : (u.releaseArtwork a).besidesJobs = u.besidesJobs := rfl
  unfold State.endJob
  dsimp only
  (repeat' split) <;> simp [entry, artwork]

@[simp] theorem State.failJobsOf_besidesJobs (i : ImageId) (l : List TableId) (s : State) :
    (State.failJobsOf i l s).besidesJobs = s.besidesJobs := by
  induction l generalizing s with
  | nil => rfl
  | cons k rest ih => unfold State.failJobsOf; rw [ih]; (repeat' split) <;> simp

/-! ## No job of the slot is left -/

/-- The image that the job of an entry names, if it holds one. -/
def State.imageNamed (s : State) (k : TableId) : Option ImageId := s.jobs[k].job.map (·.image)

/-- The end of a job frees its entry; the other entries hold jobs of the images that they held them of. -/
theorem State.endJob_imageNamed (s : State) {h : Handle} {j : Job} (hj : s.jobOf h = some j) (result : JobResult) (k : TableId) :
    (s.endJob h result).imageNamed k = if k = h.index then none else s.imageNamed k := by
  have hjobs : (s.endJob h result).jobs = (s.jobs.set h.index ⟨h.generation + 1, none⟩).map fun e =>
      { e with job := e.job.map fun x => if j.rank < x.rank then { x with rank := x.rank - 1 } else x } := by
    unfold State.endJob
    rw [hj]
    dsimp only
    cases j.artwork <;> rfl
  have hlowered : (fun x : Job => (if j.rank < x.rank then { x with rank := x.rank - 1 } else x).image) = (·.image) := by
    funext x; split <;> rfl
  unfold State.imageNamed
  rw [hjobs]
  simp only [Fin.getElem_fin, Vector.getElem_map, Vector.getElem_set, Option.map_map, Function.comp_def, hlowered]
  by_cases hk : k = h.index
  · simp [hk]
  · rw [if_neg (fun hh => hk (Fin.ext hh.symm)), if_neg hk]

/-- A job that still names the slot was not of the entries looked at, and named it before. -/
theorem State.failJobsOf_imageNamed (i : ImageId) (l : List TableId) (s : State) (k : TableId)
    (h : (State.failJobsOf i l s).imageNamed k = some i) : s.imageNamed k = some i ∧ k ∉ l := by
  induction l generalizing s with
  | nil => exact ⟨h, List.not_mem_nil⟩
  | cons m rest ih =>
    obtain ⟨hk, hrest⟩ := ih _ h
    rw [List.mem_cons, not_or]
    split at hk
    · rename_i hm
      exact ⟨hk, fun hkm => by subst hkm; simp [State.imageNamed, hm, -Fin.getElem_fin] at hk, hrest⟩
    · rename_i j hm
      split at hk
      · have hof : s.jobOf ⟨m, s.jobs[m].generation⟩ = some j := by simp [State.jobOf, hm, -Fin.getElem_fin]
        rw [State.endJob_imageNamed s hof] at hk
        split at hk
        · cases hk
        · rename_i hkm
          exact ⟨hk, hkm, hrest⟩
      · rename_i hji
        exact ⟨hk, fun hkm => by subst hkm; simp [State.imageNamed, hm, hji, -Fin.getElem_fin] at hk, hrest⟩

/-- Once every entry has been looked at, no live job names the slot (R10 step 4). -/
theorem State.failJobsOf_liveJobs (i : ImageId) (s : State) : ∀ e ∈ (State.failJobsOf i tableIds s).liveJobs, e.2.image ≠ i := by
  intro e he himage
  have hentry := (State.mem_liveJobs _ e).1 he
  exact (State.failJobsOf_imageNamed i tableIds s e.1.index (by
    simp [State.imageNamed, hentry, himage, -Fin.getElem_fin])).2 (mem_tableIds _)

/-! ## The lane or the stream that fed the load -/

/-- The end of a load's source touches its stream or its lane, and what is sent to the drive. -/
theorem State.loadSourceEnds_leaves (s : State) (v : ImageSlot) (early : Bool) :
    (s.loadSourceEnds v early).verifyQueue = s.verifyQueue ∧ (s.loadSourceEnds v early).crc = s.crc ∧
      (s.loadSourceEnds v early).images = s.images ∧ (s.loadSourceEnds v early).pool = s.pool := by
  unfold State.loadSourceEnds State.sourceLaneEnds
  (repeat' split) <;> exact ⟨rfl, rfl, rfl, rfl⟩

/-- A lane that is not the load's source, or not in one of the two states of a source, is as before (R83). -/
theorem State.loadSourceEnds_otherLane (s : State) (v : ImageSlot) (early : Bool) (n : LaneId)
    (h : v.source ≠ some (.lane n) ∨ s.lanes[n].state ≠ .sourceWait ∧ s.lanes[n].state ≠ .sourceRead) :
    (s.loadSourceEnds v early).lanes[n] = s.lanes[n] := by
  unfold State.loadSourceEnds
  split
  · rfl
  · split <;> rfl
  · rename_i m hm
    by_cases hnm : n = m
    · subst hnm
      obtain ⟨hwait, hread⟩ := h.resolve_left (fun hne => hne hm)
      unfold State.sourceLaneEnds
      split
      · exact absurd (by assumption) hwait
      · exact absurd (by assumption) hread
      · rfl
    · unfold State.sourceLaneEnds
      split
      · exact State.modLane_other _ _ _ _ hnm
      · rw [State.modLane_other _ _ _ _ hnm]
        split
        · exact State.modLane_other _ _ _ _ hnm
        · rfl
      · rfl

/-- A lane that still waits for its channel returns to MASTER, without a message (R83). -/
theorem State.loadSourceEnds_waiting (s : State) {v : ImageSlot} {n : LaneId} (hsource : v.source = some (.lane n))
    (hstate : s.lanes[n].state = .sourceWait) (early : Bool) :
    (s.loadSourceEnds v early).lanes[n] = { s.lanes[n] with state := .master, timer := none } ∧
      (s.loadSourceEnds v early).out = s.out := by
  rw [State.loadSourceEnds_lane s hsource, State.sourceLaneEnds, hstate]
  exact ⟨State.modLane_same _ _ _, rfl⟩

/-- A lane whose reads have begun returns to MASTER with ABORT (R84). -/
theorem State.loadSourceEnds_reading (s : State) {v : ImageSlot} {n : LaneId} (hsource : v.source = some (.lane n))
    (hstate : s.lanes[n].state = .sourceRead) :
    (s.loadSourceEnds v true).lanes[n] =
        { s.lanes[n] with state := .master, timer := none, unanswered := none, heldBack := none } ∧
      (s.loadSourceEnds v true).out = s.out ++ [.drive n [8]] := by
  rw [State.loadSourceEnds_lane s hsource, State.sourceLaneEnds, hstate]
  refine ⟨?_, rfl⟩
  dsimp only
  rw [if_pos rfl, State.sendAbort, State.modLane_modLane]
  exact State.modLane_same _ _ _

/-! ## The event -/

/-- The state before the slot is freed: its entry has left the queue, its source has been told, and its jobs have ended. -/
def State.loadWithdrawn (s : State) (i : ImageId) : State :=
  State.failJobsOf i tableIds ((s.leaveVerifyQueue (VerifyEntry.ofSlot i)).loadSourceEnds s.images[i] true)

theorem State.failImageLoad_eq {s : State} {i : ImageId} (h : s.images[i].state = .loadWait ∨ s.images[i].state = .loading) :
    s.failImageLoad i = ((s.loadWithdrawn i).freeImage i).notifyOpt s.images[i].owner (.image i .failed) := by
  refine if_pos ?_
  simpa only [Bool.or_eq_true, decide_eq_true_eq] using h

theorem State.notifyOpt_eq (s : State) (p : Option Port) (v : Notice) :
    s.notifyOpt p v = { s with ports := (s.notifyOpt p v).ports } := by
  cases p <;> rfl

theorem State.notifyOpt_stream (s : State) (o : Option Port) (v : Notice) (p : Port) :
    (s.notifyOpt o v).ports[p].stream = s.ports[p].stream ∧ (s.notifyOpt o v).ports[p].staging = s.ports[p].staging := by
  cases o with
  | none => exact ⟨rfl, rfl⟩
  | some q =>
    by_cases hpq : p = q
    · subst hpq
      have hjoin := s.ports[p].join_stream v s.now
      rw [State.notifyOpt, State.notify, State.modPort_same]
      exact hjoin
    · rw [State.notifyOpt, State.notify, State.modPort_other _ _ _ _ hpq]
      exact ⟨rfl, rfl⟩

/-- Freeing a slot and a notice leave every stream as it is. -/
theorem State.freeImage_notifyOpt_stream (u : State) (i : ImageId) (o : Option Port) (v : Notice) (p : Port) :
    ((u.freeImage i).notifyOpt o v).ports[p].stream = u.ports[p].stream ∧
      ((u.freeImage i).notifyOpt o v).ports[p].staging = u.ports[p].staging :=
  State.notifyOpt_stream (u.freeImage i) o v p

/-- Freeing a slot and a notice touch neither what is sent nor the lanes, the verify queue, its channels, or the jobs. -/
theorem State.freeImage_notifyOpt (u : State) (i : ImageId) (o : Option Port) (v : Notice) :
    let t := (u.freeImage i).notifyOpt o v
    t.out = u.out ∧ t.lanes = u.lanes ∧ t.verifyQueue = u.verifyQueue ∧ t.crc = u.crc ∧ t.jobs = u.jobs ∧
      t.pool = u.pool ++ u.images[i].pages ∧ t.images = u.images.set i ImageSlot.freed := by
  cases o <;> exact ⟨rfl, rfl, rfl, rfl, rfl, rfl, rfl⟩

/-- Settles O14: the load is withdrawn (`loadWithdrawn`), by the lemmas on the queue, on the source and on the jobs; then the slot is
freed. -/
theorem failedImageLoadReleasesEverything : Obligations.FailedImageLoadReleasesEverything := by
  intro i s h
  obtain ⟨bout, blanes, bqueue, bcrc, -, bpool, bports, bimages⟩ :=
    State.of_besidesJobs (t := s.loadWithdrawn i) (State.failJobsOf_besidesJobs i tableIds _)
  have hjobless : ∀ e ∈ (s.loadWithdrawn i).liveJobs, e.2.image ≠ i := State.failJobsOf_liveJobs i _
  obtain ⟨lqueue, lcrc, limages, lpool⟩ :=
    (s.leaveVerifyQueue (VerifyEntry.ofSlot i)).loadSourceEnds_leaves s.images[i] true
  have hleave := s.leaveVerifyQueue_eq (VerifyEntry.ofSlot i)
  have hleaveLanes (n : LaneId) : (s.leaveVerifyQueue (VerifyEntry.ofSlot i)).lanes[n] = s.lanes[n] := by
    rw [State.leaveVerifyQueue_lanes]
  have hleaveOut : (s.leaveVerifyQueue (VerifyEntry.ofSlot i)).out = s.out := by rw [hleave]
  have hslots (k : ImageId) : (s.loadWithdrawn i).images[k].state = s.images[k].state ∧
      (s.loadWithdrawn i).images[k].pages = s.images[k].pages := by
    have := bimages k
    rwa [limages, State.leaveVerifyQueue_images] at this
  have hmem : (s.failImageLoad i).mem = s.mem := congrArg (·.2.2.1) (s.failImageLoad_quiet i)
  obtain ⟨hout, hlanes, hqueue, hcrc, hjobs, hpool, himages⟩ :=
    (s.loadWithdrawn i).freeImage_notifyOpt i s.images[i].owner (.image i .failed)
  have hstream := (s.loadWithdrawn i).freeImage_notifyOpt_stream i s.images[i].owner (.image i .failed)
  rw [← State.failImageLoad_eq h] at hout hlanes hqueue hcrc hjobs hpool himages
  rw [← State.failImageLoad_eq h] at hstream
  rw [hpool, bpool, lpool, (hslots i).2, hqueue, bqueue, lqueue, hout, bout, hlanes, blanes, hcrc, bcrc, lcrc, himages]
  refine ⟨Vector.getElem_set_self _, ?_, fun e he => ?_, fun e he => ?_, fun p hsource howner => ?_,
    s.leaveVerifyQueue_crc _, fun n => ⟨fun hsource hstate => ?_, fun hsource hstate => ?_, fun hother => ?_⟩,
    fun k hk => ?_, hmem⟩
  case refine_1 => rw [hleave]
  case refine_2 =>
    rw [hleave] at he
    simpa using (List.mem_filter.1 he).2
  case refine_3 =>
    refine hjobless e ((State.mem_liveJobs _ e).2 ?_)
    rw [← hjobs]
    exact (State.mem_liveJobs _ e).1 he
  case refine_4 =>
    have hclosed : ((s.leaveVerifyQueue (VerifyEntry.ofSlot i)).closeStream p).ports[p].stream = .none ∧
        ((s.leaveVerifyQueue (VerifyEntry.ofSlot i)).closeStream p).ports[p].staging = [] := by
      rw [State.closeStream, State.modPort_same]
      exact ⟨rfl, rfl⟩
    have hport := bports p
    rw [State.loadSourceEnds_stream _ hsource howner, hclosed.1, hclosed.2] at hport
    rwa [(hstream p).1, (hstream p).2]
  case refine_5 =>
    have := State.loadSourceEnds_waiting (s.leaveVerifyQueue (VerifyEntry.ofSlot i)) hsource
      (by rw [hleaveLanes]; exact hstate) true
    rwa [hleaveLanes, hleaveOut] at this
  case refine_6 =>
    have := State.loadSourceEnds_reading (s.leaveVerifyQueue (VerifyEntry.ofSlot i)) hsource (by rw [hleaveLanes]; exact hstate)
    rwa [hleaveLanes, hleaveOut] at this
  case refine_7 =>
    rw [State.loadSourceEnds_otherLane _ _ _ n (by rw [hleaveLanes]; exact hother), hleaveLanes]
  case refine_8 =>
    have hset : ((s.loadWithdrawn i).images.set i ImageSlot.freed)[k] = (s.loadWithdrawn i).images[k] :=
      Vector.getElem_set_ne _ _ fun hik => hk (Fin.ext hik.symm)
    rw [hset]
    exact hslots k

end Sys2Proof.Machine
end

