-- ==== Sys2Proof/Proofs/Transfers.lean ====
section
/-! The read channel and the CRC channels (R104 to R114): what a completed transfer delivers, the requester that a grant serves, and the
entry that a CRC channel goes to with the work that starts. -/

namespace Sys2Proof.Machine

/-! ## A completed transfer -/

/-- What a completed transfer does: it delivers, the printer may raise its next fetch after a quarter, and a grant is owed. -/
theorem execTransferCompletion_eq {s : State} {t : Transfer} (h : s.channel = some t)
    (hmapped : t.wanted = true → s.sourceMapped t.recipient = true) :
    exec .transferCompletion s = .next (((if t.recipient.isBand then ((s.setChannel none).deliverTransfer t).raiseFetch
      else (s.setChannel none).deliverTransfer t).oweGrant).settle) := by
  have hexec : exec .transferCompletion s = execTransferCompletion s := rfl
  have hfault : (t.wanted && !s.sourceMapped t.recipient) ≠ true := by
    intro hf
    rw [Bool.and_eq_true, Bool.not_eq_true'] at hf
    rw [hmapped hf.1] at hf
    exact absurd hf.2 (by decide)
  rw [hexec, execTransferCompletion, h]
  dsimp only
  rw [if_neg hfault]

/-- A transfer that no one wants is dropped (R110). -/
theorem execTransferCompletion_dropped {s : State} {r : TransferTo} (h : s.channel = some ⟨r, false⟩) :
    exec .transferCompletion s = .next (((if r.isBand then ((s.setChannel none).deliverTransfer ⟨r, false⟩).raiseFetch
      else (s.setChannel none).deliverTransfer ⟨r, false⟩).oweGrant).settle) := by
  rw [execTransferCompletion_eq h fun hw => nomatch hw]

/-- A segment that a lane wants goes to its drive (R76). -/
theorem execTransferCompletion_lane {s : State} {n : LaneId} {slot : ImageId} {k : Nat}
    (h : s.channel = some ⟨.lane n slot k, true⟩)
    (hmapped : pagesMapped s.images[slot].pages (imagePages s.images[slot].size) = true) :
    exec .transferCompletion s = .next ((((s.setChannel none).segmentDone n slot k).oweGrant).settle) := by
  rw [execTransferCompletion_eq h fun _ => hmapped]
  simp only [TransferTo.isBand, State.deliverTransfer, if_true, Bool.false_eq_true, if_false]

/-- A quarter that the printer wants joins its band buffer, and the next fetch may be raised (R163). -/
theorem execTransferCompletion_band {s : State} {slot : ArtworkId} {band q : Nat} {which : BufferId}
    (h : s.channel = some ⟨.band slot band q which, true⟩)
    (hmapped : pagesMapped s.artworks[slot].pages (artworkPages s.artworks[slot].bands) = true) :
    exec .transferCompletion s =
      .next ((((s.setChannel none).quarterDone slot band q which).raiseFetch.oweGrant).settle) := by
  rw [execTransferCompletion_eq h fun _ => hmapped]
  simp only [TransferTo.isBand, State.deliverTransfer, if_true]

/-- A chunk that an outbound stream wants fills its buffer (R18). -/
theorem execTransferCompletion_client {s : State} {p : Port} {slot : ImageId} {k : Nat}
    (h : s.channel = some ⟨.client p slot k, true⟩)
    (hmapped : pagesMapped s.images[slot].pages (imagePages s.images[slot].size) = true) :
    exec .transferCompletion s = .next ((((s.setChannel none).chunkDone p slot k).oweGrant).settle) := by
  rw [execTransferCompletion_eq h fun _ => hmapped]
  simp only [TransferTo.isBand, State.deliverTransfer, if_true, Bool.false_eq_true, if_false]

theorem State.quarterDone_filling (s : State) (slot : ArtworkId) (band q : Nat) (which : BufferId) (h : q < 3) :
    s.quarterDone slot band q which = s.modPrinter fun v => v.setBuffer which ⟨.filling band (q + 1), (s.printer.buffer which).data ++
      readSlot s.mem s.artworks[slot].pages (262144 * band + 65536 * q) 65536⟩ := by
  have hq : ¬ q + 1 = 4 := by omega
  exact if_neg hq

/-- The band buffer is FULL with the fourth quarter, and the fetch band rises (R163). -/
def State.bandFilled (s : State) (slot : ArtworkId) (band : Nat) (which : BufferId) : State :=
  s.modPrinter fun v =>
    { v.setBuffer which ⟨.full band, (s.printer.buffer which).data ++
        readSlot s.mem s.artworks[slot].pages (262144 * band + 65536 * 3) 65536⟩ with fetchBand := v.fetchBand + 1 }

/-- The printer waits for this band. -/
def State.bandAwaited (s : State) (band : Nat) : Prop :=
  (s.printer.state = .fetchWait ∨ s.printer.state = .bandWait) ∧ s.printer.nextBand = band

theorem State.bandAwaited_iff (s : State) (band : Nat) : s.bandAwaited band ↔
    ((decide (s.printer.state = .fetchWait) || decide (s.printer.state = .bandWait)) &&
      decide (s.printer.nextBand = band)) = true := by
  simp only [State.bandAwaited, Bool.and_eq_true, Bool.or_eq_true, decide_eq_true_eq]

/-- The fourth quarter fills the band buffer; a printer that waits for this band tries to start it (R164). -/
theorem State.quarterDone_awaited {s : State} {band : Nat} (h : s.bandAwaited band) (slot : ArtworkId) (which : BufferId) :
    s.quarterDone slot band 3 which = (s.bandFilled slot band which).tryStartBand := by
  rw [State.quarterDone, if_pos rfl, if_pos ((s.bandAwaited_iff band).1 h)]
  rfl

theorem State.quarterDone_notAwaited {s : State} {band : Nat} (h : ¬s.bandAwaited band) (slot : ArtworkId) (which : BufferId) :
    s.quarterDone slot band 3 which = s.bandFilled slot band which := by
  rw [State.quarterDone, if_pos rfl, if_neg (mt (s.bandAwaited_iff band).2 h)]
  rfl

theorem State.chunkDone_outbound {s : State} {p : Port} {i : ImageId} {position : Nat} {buffer : List Byte}
    (h : s.ports[p].stream = .outbound i position buffer) (slot : ImageId) (k : Nat) :
    s.chunkDone p slot k = s.modPort p fun r => { r with stream := .outbound i position (s.segmentData s.images[slot] k) } := by
  rw [State.chunkDone, h]

/-! ## The requester that a grant serves -/

/-- The lane is the first of a list in the order of service: of less slack than every other, or of equal slack and lower (R107). -/
def State.servedFirst (s : State) (l : List LaneId) (n : LaneId) : Prop :=
  ∀ m ∈ l, s.laneSlack n < s.laneSlack m ∨ (s.laneSlack n = s.laneSlack m ∧ n ≤ m)

/-- Of lanes in ascending order the choice is one of them, and first in the order of service. -/
theorem State.leastSlack_spec (s : State) (l : List LaneId) (hsorted : l.Pairwise (· < ·)) {n : LaneId}
    (h : s.leastSlack l = some n) : n ∈ l ∧ s.servedFirst l n := by
  induction l generalizing n with
  | nil => cases h
  | cons a rest ih =>
    obtain ⟨hlower, hrest⟩ := List.pairwise_cons.1 hsorted
    rw [State.leastSlack] at h
    split at h
    · rename_i hnone
      cases h
      have hnil : rest = [] := by
        cases rest with
        | nil => rfl
        | cons b tail =>
          rw [State.leastSlack] at hnone
          split at hnone <;> cases hnone
      subst hnil
      refine ⟨List.mem_cons_self, fun m hm => .inr ?_⟩
      rw [List.mem_singleton.1 hm]
      exact ⟨rfl, le_refl _⟩
    · rename_i b hb
      obtain ⟨hmem, hfirst⟩ := ih hrest hb
      split at h
      · rename_i hle
        cases h
        refine ⟨List.mem_cons_self, fun m hm => ?_⟩
        rcases List.mem_cons.1 hm with rfl | hm
        · exact .inr ⟨rfl, le_refl _⟩
        · rcases hfirst m hm with hlt | ⟨heq, -⟩
          · exact .inl (lt_of_le_of_lt hle hlt)
          · exact (lt_or_eq_of_le (hle.trans heq.le)).imp_right fun hequal => ⟨hequal, (hlower m hm).le⟩
      · rename_i hgt
        cases h
        refine ⟨List.mem_cons_of_mem _ hmem, fun m hm => ?_⟩
        rcases List.mem_cons.1 hm with rfl | hm
        · exact .inl (by omega)
        · exact hfirst m hm

/-- The first in the order of service is the one chosen. -/
theorem State.leastSlack_eq_some (s : State) {l : List LaneId} (hsorted : l.Pairwise (· < ·)) {n : LaneId} (hn : n ∈ l)
    (hfirst : s.servedFirst l n) : s.leastSlack l = some n := by
  cases hm : s.leastSlack l with
  | none =>
    cases l with
    | nil => cases hn
    | cons a rest =>
      rw [State.leastSlack] at hm
      split at hm <;> cases hm
  | some m =>
    obtain ⟨hmem, hmfirst⟩ := s.leastSlack_spec l hsorted hm
    rcases hfirst m hmem with hlt | ⟨heq, hnm⟩
    · rcases hmfirst n hn with hlt' | ⟨heq', -⟩
      · exact absurd hlt (lt_asymm hlt')
      · exact absurd hlt (by rw [heq']; exact lt_irrefl _)
    · rcases hmfirst n hn with hlt' | ⟨-, hmn⟩
      · exact absurd hlt' (by rw [heq]; exact lt_irrefl _)
      · rw [le_antisymm hmn hnm]

theorem laneIds_filter_sorted (f : LaneId → Bool) : (laneIds.filter f).Pairwise (· < ·) :=
  List.Pairwise.filter f (by decide)

/-- The lane is BURNING with a credit and segments to come (R105). -/
theorem State.laneEligible_iff (s : State) (n : LaneId) : s.laneEligible n = true ↔
    s.lanes[n].state = .burning ∧ 1 ≤ s.lanes[n].credits ∧ s.lanes[n].granted < s.laneSegments n := by
  simp only [State.laneEligible, Bool.and_eq_true, decide_eq_true_eq, and_assoc]

theorem State.mem_criticalLanes (s : State) (n : LaneId) :
    n ∈ s.criticalLanes ↔ s.laneEligible n = true ∧ s.laneSlack n < 500 := by
  rw [State.criticalLanes, List.mem_filter, Bool.and_eq_true, decide_eq_true_eq]
  exact and_iff_right (mem_laneIds n)

/-- With no critical lane, the calm lanes are the eligible ones. -/
theorem State.mem_calmLanes {s : State} (h : s.criticalLanes = []) (n : LaneId) :
    n ∈ s.calmLanes ↔ s.laneEligible n = true := by
  have hn : n ∉ s.criticalLanes := by rw [h]; exact List.not_mem_nil
  rw [State.mem_criticalLanes, not_and] at hn
  simp only [State.calmLanes, List.mem_filter, mem_laneIds, true_and, Bool.and_eq_true, Bool.not_eq_true', decide_eq_false_iff_not]
  exact ⟨fun h => h.1, fun h => ⟨h, hn h⟩⟩

/-- A critical lane is served before all others (R107). -/
theorem State.chooseRequester_critical {s : State} {n : LaneId} (hn : n ∈ s.criticalLanes)
    (hfirst : s.servedFirst s.criticalLanes n) : s.chooseRequester = some (.lane n) := by
  have hsorted : s.criticalLanes.Pairwise (· < ·) := laneIds_filter_sorted _
  rw [State.chooseRequester, s.leastSlack_eq_some hsorted hn hfirst]

/-- A fetch is served when no lane is critical, and it is urgent or no lane is eligible. -/
theorem State.chooseRequester_fetch {s : State} {f : FetchRequest} (hcritical : s.criticalLanes = [])
    (h : s.printer.state = .bandWait ∨ s.calmLanes = []) (hrequest : s.printer.request = some f) :
    s.chooseRequester = some (.band f) := by
  rw [State.chooseRequester, hcritical]
  simp only [State.leastSlack, State.fetchRequester, State.fetchUrgent, hrequest, Option.map_some]
  rcases h with hwait | hcalm
  · simp [hwait]
  · by_cases hwait : s.printer.state = .bandWait <;> simp [hwait, hcalm, State.leastSlack]

/-- A calm lane is served when no lane is critical and no fetch is urgent. -/
theorem State.chooseRequester_calm {s : State} {n : LaneId} (hcritical : s.criticalLanes = [])
    (hfetch : ¬(s.printer.state = .bandWait ∧ s.printer.request.isSome)) (hn : n ∈ s.calmLanes)
    (hfirst : s.servedFirst s.calmLanes n) : s.chooseRequester = some (.lane n) := by
  have hurgent : s.fetchRequester true = none := by
    rw [State.fetchRequester, State.fetchUrgent]
    split
    · rename_i hwait
      simpa [of_decide_eq_true hwait] using hfetch
    · rfl
  have hsorted : s.calmLanes.Pairwise (· < ·) := laneIds_filter_sorted _
  rw [State.chooseRequester, hcritical, hurgent, s.leastSlack_eq_some hsorted hn hfirst]
  rfl

/-- With neither a lane nor a fetch to serve, the choice is among the exports. -/
theorem State.chooseRequester_client {s : State} (hcritical : s.criticalLanes = []) (hcalm : s.calmLanes = [])
    (hrequest : s.printer.request = none) : s.chooseRequester = portIds.findSome? s.clientRequester := by
  simp [State.chooseRequester, hcritical, hcalm, State.leastSlack, State.fetchRequester, hrequest]

theorem State.clientRequester_waits {s : State} {p : Port} {i : ImageId} {position : Nat}
    (hstream : s.ports[p].stream = .outbound i position []) (h : position < s.images[i].size) :
    s.clientRequester p = some (.client p i (position / 65536)) := by
  rw [State.clientRequester, hstream]
  exact if_pos h

theorem State.clientRequester_none {s : State} {p : Port}
    (h : ∀ i position, ¬(s.ports[p].stream = .outbound i position [] ∧ position < s.images[i].size)) :
    s.clientRequester p = none := by
  unfold State.clientRequester
  split
  · rename_i i position hstream
    exact if_neg fun hlt => h i position ⟨hstream, hlt⟩
  · rfl

theorem portIds_split (p : Port) :
    portIds = portIds.take p ++ p :: portIds.drop (p + 1) ∧ ∀ q ∈ portIds.take p, q < p := by
  revert p
  decide

/-- The lowest port that requests is found. -/
theorem portIds_findSome? {β : Type} (f : Port → Option β) {p : Port} {b : β} (hp : f p = some b) (hlower : ∀ q < p, f q = none) :
    portIds.findSome? f = some b := by
  obtain ⟨hsplit, hbelow⟩ := portIds_split p
  exact List.findSome?_eq_some_iff.2 ⟨_, p, _, hsplit, hp, fun q hq => hlower q (hbelow q hq)⟩

theorem State.chooseGrant_of_some {s : State} (h : s.channel = none) {r : Requester} (hr : s.chooseRequester = some r) :
    s.chooseGrant = s.grantTo r := by
  simp [State.chooseGrant, h, hr]

theorem State.chooseGrant_of_none {s : State} (hr : s.chooseRequester = none) : s.chooseGrant = s := by
  rw [State.chooseGrant, hr]
  exact ite_self s

theorem State.grantTo_lane (s : State) {n : LaneId} {slot : ImageId} (h : s.laneImageId n = some slot) : s.grantTo (.lane n) =
    (s.setChannel (some ⟨.lane n slot s.lanes[n].granted, true⟩)).modLane n
      fun l => { l with granted := l.granted + 1, credits := l.credits - 1 } := by
  simp only [State.grantTo, h]

/-! ## The grants of the CRC channels -/

theorem State.freeChannel_eq_some {s : State} {k : Fin 2} (hfree : s.crc[k] = .free) (hlower : ∀ m < k, s.crc[m] ≠ .free) :
    s.freeChannel = some k := by
  rcases Fin.exists_fin_two.1 ⟨k, rfl⟩ with rfl | rfl
  · exact if_pos hfree
  · rw [State.freeChannel, if_neg (hlower 0 (by decide)), if_pos hfree]

theorem State.freeChannel_eq_none {s : State} (h : ∀ k : Fin 2, s.crc[k] ≠ .free) : s.freeChannel = none := by
  rw [State.freeChannel, if_neg (h 0), if_neg (h 1)]

theorem grantOldest_eq_none (c : Fin 2) {q : List VerifyEntry} (h : ∀ e ∈ q, e.channel ≠ none) : grantOldest c q = none := by
  induction q with
  | nil => rfl
  | cons e rest ih =>
    have he : ¬ e.channel.isNone = true := by simpa using h e List.mem_cons_self
    rw [grantOldest, if_neg he, ih fun x hx => h x (List.mem_cons_of_mem _ hx)]
    rfl

/-- Past the entries that hold a channel, the first that waits takes this one (R114). -/
theorem grantOldest_append (c : Fin 2) {before : List VerifyEntry} {e : VerifyEntry} (after : List VerifyEntry)
    (hbefore : ∀ x ∈ before, x.channel ≠ none) (he : e.channel = none) :
    grantOldest c (before ++ e :: after) = some (before ++ { e with channel := some c } :: after, e.work) := by
  induction before with
  | nil =>
    rw [List.nil_append, grantOldest, he]
    rfl
  | cons x rest ih =>
    have hx : ¬ x.channel.isNone = true := by simpa using hbefore x List.mem_cons_self
    rw [List.cons_append, grantOldest, if_neg hx, ih fun y hy => hbefore y (List.mem_cons_of_mem _ hy)]
    rfl

/-- With no channel FREE, or no entry that waits, nothing is granted. -/
theorem State.crcRounds_idle {s : State} (h : (∀ k : Fin 2, s.crc[k] ≠ .free) ∨ ∀ e ∈ s.verifyQueue, e.channel ≠ none)
    (rounds : Nat) : State.crcRounds rounds s = s := by
  cases rounds with
  | zero => rfl
  | succ rounds =>
    rw [State.crcRounds]
    rcases h with hbusy | hqueue
    · rw [State.freeChannel_eq_none hbusy]
    · split
      · rfl
      · rw [grantOldest_eq_none _ hqueue]

theorem State.loadBegins_eq (s : State) (i : ImageId) : s.loadBegins i = s.modImage i fun v =>
    { v with state := if v.state = .loadWait then .loading else v.state } := by
  refine congrArg (s.modImage i) (funext fun v => ?_)
  split <;> rfl

theorem State.modLane_modImage (s : State) (n : LaneId) (f : Lane → Lane) (i : ImageId) (g : ImageSlot → ImageSlot) :
    (s.modLane n f).modImage i g = (s.modImage i g).modLane n f := rfl

/-- A verify starts: the lane is VERIFYING under the read limit, its record with it, and the first READs are sent (R80, R120). -/
theorem State.startWork_verify (s : State) (c : Fin 2) (n : LaneId) (serial : Word32) :
    let set := s.verifySetFor serial
    let first := (List.range (min 4 set.size)).map set.index
    s.startWork c (.verify n serial) = State.sendReads n first
      (((s.setCrc c (.verify set (min 4 set.size) first 0)).modDiscAt (.tray n) fun d => { d with phase := .verifying }).modLane n
        fun l => { l with state := .verifying, timer := some ⟨10000, 0⟩ }) := by
  intro set first
  have hfirst : setIndices set 0 (min 4 set.size) = first := by simp only [setIndices, Nat.zero_add, first]
  rw [← hfirst, State.startWork]
  rw [State.modLane_modDiscAt, State.startTimer, State.modLane_modLane]
  rfl

/-- A load from a disc starts: the slot is LOADING, the lane in SOURCE_READ, and the first READs are sent (R9, R84). -/
theorem State.startWork_source (s : State) (c : Fin 2) (n : LaneId) (i : ImageId) :
    let first := List.range (min 4 s.images[i].segments)
    s.startWork c (.source n i) = State.sendReads n first
      (((s.setCrc c (.source (min 4 s.images[i].segments) first 0)).modImage i fun v =>
          { v with state := if v.state = .loadWait then .loading else v.state }).modLane n
        fun l => { l with state := .sourceRead, timer := some ⟨10000, 0⟩ }) := by
  intro first
  rw [State.startWork]
  rw [State.loadBegins_eq, State.modLane_modImage, State.startTimer, State.modLane_modLane]
  rfl

/-- Settles O40: the deliveries, the order of service (`leastSlack_eq_some` and the choices), and the CRC grants. -/
theorem transferCompletionDelivers : Obligations.TransferCompletionDelivers := by
  refine ⟨fun s => ⟨fun h => ?_, fun n slot k h => ?_, fun slot band q which h => ?_, fun p slot k h => ?_,
    fun n slot k h hmapped => ?_, fun slot band q which h hmapped => ⟨fun hq => ?_, fun hq => ?_⟩,
    fun p slot k i position buffer h hstream hmapped => ?_⟩, fun s => ?_, fun rounds s => ?_⟩
  · have hexec : exec .transferCompletion s = execTransferCompletion s := rfl
    rw [hexec, execTransferCompletion, h]
  · rw [execTransferCompletion_dropped h]
    simp only [TransferTo.isBand, State.deliverTransfer, Bool.false_eq_true, if_false]
  · rw [execTransferCompletion_dropped h]
    simp only [TransferTo.isBand, State.deliverTransfer, Bool.false_eq_true, if_true, if_false]
  · rw [execTransferCompletion_dropped h]
    simp only [TransferTo.isBand, State.deliverTransfer, Bool.false_eq_true, if_false]
    rfl
  · rw [execTransferCompletion_lane h hmapped]
    rfl
  · rw [execTransferCompletion_band h hmapped, State.quarterDone_filling _ _ _ _ _ hq]
    rfl
  · subst hq
    rw [execTransferCompletion_band h hmapped]
    by_cases hwaits : (s.setChannel none).bandAwaited band
    · rw [State.quarterDone_awaited hwaits]
      exact (if_pos hwaits).symm
    · rw [State.quarterDone_notAwaited hwaits]
      exact (if_neg hwaits).symm
  · rw [execTransferCompletion_client h hmapped, State.chunkDone_outbound (s := s.setChannel none) hstream]
    rfl
  · intro able slack critical least granted waits
    have hslack (n : LaneId) : s.laneSlack n = slack n := by
      dsimp only [State.laneSlack, slackOf, slack]
      rw [Nat.mul_assoc]
    have hcritical (n : LaneId) : n ∈ s.criticalLanes ↔ critical n := by
      rw [State.mem_criticalLanes, State.laneEligible_iff, hslack]
    have hcalm (hnone : s.criticalLanes = []) (n : LaneId) : n ∈ s.calmLanes ↔ able n :=
      (State.mem_calmLanes hnone n).trans (s.laneEligible_iff n)
    have noCritical (h : ∀ n, ¬critical n) : s.criticalLanes = [] :=
      List.eq_nil_iff_forall_not_mem.2 fun n hn => h n ((hcritical n).1 hn)
    have noAble (h : ∀ n, ¬able n) : s.criticalLanes = [] ∧ s.calmLanes = [] := by
      have hnone := noCritical fun n hn => h n hn.1
      exact ⟨hnone, List.eq_nil_iff_forall_not_mem.2 fun n hn => h n ((hcalm hnone n).1 hn)⟩
    have first {l : List LaneId} {p : LaneId → Prop} (hl : ∀ n, n ∈ l ↔ p n) {n : LaneId} (h : least p n) :
        n ∈ l ∧ s.servedFirst l n := by
      refine ⟨(hl n).2 h.1, fun m hm => ?_⟩
      rw [hslack, hslack]
      exact h.2 m ((hl m).1 hm)
    refine ⟨fun h => ?_, fun hidle => ⟨fun n h slot hslot => ?_, fun f hnone h hrequest => ?_,
      fun n hnone hfetch h slot hslot => ?_, fun hnone hrequest => ⟨fun p i position hp hlower => ?_, fun h => ?_⟩⟩⟩
    · exact if_pos (Option.isSome_iff_ne_none.2 h)
    · obtain ⟨hmem, hfirst⟩ := first hcritical h
      rw [State.chooseGrant_of_some hidle (State.chooseRequester_critical hmem hfirst), State.grantTo_lane s hslot]
    · have hcriticalNone := noCritical hnone
      rw [State.chooseGrant_of_some hidle (State.chooseRequester_fetch hcriticalNone (h.imp_right fun h => (noAble h).2) hrequest)]
      rfl
    · have hcriticalNone := noCritical hnone
      obtain ⟨hmem, hfirst⟩ := first (hcalm hcriticalNone) h
      rw [State.chooseGrant_of_some hidle (State.chooseRequester_calm hcriticalNone hfetch hmem hfirst), State.grantTo_lane s hslot]
    · obtain ⟨hcriticalNone, hcalmNone⟩ := noAble hnone
      have hfound := portIds_findSome? s.clientRequester (State.clientRequester_waits hp.1 hp.2)
        fun q hq => State.clientRequester_none (hlower q hq)
      rw [State.chooseGrant_of_some hidle ((State.chooseRequester_client hcriticalNone hcalmNone hrequest).trans hfound)]
      rfl
    · obtain ⟨hcriticalNone, hcalmNone⟩ := noAble hnone
      refine State.chooseGrant_of_none ((State.chooseRequester_client hcriticalNone hcalmNone hrequest).trans ?_)
      exact List.findSome?_eq_none_iff.2 fun p _ => State.clientRequester_none (h p)
  · refine ⟨rfl, rfl, fun h => State.crcRounds_idle h rounds, fun k before e after hfree hlower hqueue hbefore he => ?_⟩
    intro held
    refine ⟨?_, fun p i hwork => ?_, fun n serial hwork => ?_, fun n i hwork => ?_⟩
    · rw [State.crcRounds, State.freeChannel_eq_some hfree hlower]
      dsimp only
      rw [hqueue, grantOldest_append k after hbefore he]
    · rw [hwork]
      exact State.loadBegins_eq _ i
    · have hset : held.verifySetFor serial = s.verifySetFor serial := rfl
      rw [hwork, State.startWork_verify, State.sendReads_foldl, hset]
      rfl
    · rw [hwork, State.startWork_source, State.sendReads_foldl]
      rfl

end Sys2Proof.Machine
end

