-- ==== Sys2Proof/Proofs/JobTable.lean ====
section
/-! The operations that leave the job table alone (R25): one frame lemma for each, in the order of their definitions. -/

namespace Sys2Proof.Machine

@[simp] theorem State.notifyOpt_jobs (s : State) (p : Option Port) (v : Notice) : (s.notifyOpt p v).jobs = s.jobs := by
  unfold State.notifyOpt; split <;> simp

@[simp] theorem State.raiseTo_jobs (g : Group) (v : Notice) (l : List Port) (s : State) :
    (State.raiseTo g v l s).jobs = s.jobs := by
  induction l generalizing s with
  | nil => rfl
  | cons x rest ih => unfold State.raiseTo; split <;> simp [ih]

@[simp] theorem State.raise_jobs (s : State) (g : Group) (v : Notice) :
    (s.raise g v).jobs = s.jobs := by simp [State.raise]

@[simp] theorem State.modDiscAt_jobs (s : State) (loc : Location) (f : Disc → Disc) :
    (s.modDiscAt loc f).jobs = s.jobs := by
  unfold State.modDiscAt; split <;> simp

@[simp] theorem State.queueRequest_jobs (s : State) (kind : RequestKind) (n : Option LaneId) (cls : Option MediaClass) :
    (s.queueRequest kind n cls).jobs = s.jobs := rfl

@[simp] theorem State.queueUnload_jobs (s : State) (n : LaneId) : (s.queueUnload n).jobs = s.jobs := by
  unfold State.queueUnload; split <;> simp

@[simp] theorem State.joinStartQueue_jobs (s : State) (n : LaneId) : (s.joinStartQueue n).jobs = s.jobs := rfl

@[simp] theorem State.leaveStartQueue_jobs (s : State) (n : LaneId) : (s.leaveStartQueue n).jobs = s.jobs := by
  unfold State.leaveStartQueue; split <;> simp

@[simp] theorem State.dropLaneChunk_jobs (s : State) (n : LaneId) : (s.dropLaneChunk n).jobs = s.jobs := rfl

@[simp] theorem State.joinVerifyQueue_jobs (s : State) (w : VerifyWork) : (s.joinVerifyQueue w).jobs = s.jobs := rfl

@[simp] theorem State.sendTray_jobs (s : State) (n : LaneId) (v : TrayCommand) : (s.sendTray n v).jobs = s.jobs := by
  unfold State.sendTray; split <;> simp

@[simp] theorem State.releaseTray_jobs (s : State) (n : LaneId) : (s.releaseTray n).jobs = s.jobs := by
  unfold State.releaseTray; split <;> simp

@[simp] theorem State.sendAbort_jobs (s : State) (n : LaneId) : (s.sendAbort n).jobs = s.jobs := rfl

@[simp] theorem State.enterOpening_jobs (s : State) (n : LaneId) (v : TrayPurpose) :
    (s.enterOpening n v).jobs = s.jobs := by simp [State.enterOpening]

@[simp] theorem State.enterClosing_jobs (s : State) (n : LaneId) (v : Option TrayPurpose) :
    (s.enterClosing n v).jobs = s.jobs := by simp [State.enterClosing]

@[simp] theorem State.enterProbing_jobs (s : State) (n : LaneId) : (s.enterProbing n).jobs = s.jobs := rfl

@[simp] theorem State.enterDone_jobs (s : State) (n : LaneId) : (s.enterDone n).jobs = s.jobs := by simp [State.enterDone]

@[simp] theorem State.enterFeedWait_jobs (s : State) (n : LaneId) : (s.enterFeedWait n).jobs = s.jobs := rfl

@[simp] theorem State.enterIdle_jobs (s : State) (n : LaneId) : (s.enterIdle n).jobs = s.jobs := rfl

@[simp] theorem State.quarantineLane_jobs (s : State) (n : LaneId) :
    (s.quarantineLane n).jobs = s.jobs := by simp [State.quarantineLane]

@[simp] theorem State.freeImage_jobs (s : State) (i : ImageId) : (State.freeImage s i).jobs = s.jobs := rfl

@[simp] theorem State.freeArtwork_jobs (s : State) (i : ArtworkId) : (State.freeArtwork s i).jobs = s.jobs := rfl

@[simp] theorem State.enterTrayOut_jobs (s : State) : s.enterTrayOut.jobs = s.jobs := rfl

@[simp] theorem State.unprintedReturn_jobs (s : State) :
    s.unprintedReturn.jobs = s.jobs := by simp [State.unprintedReturn]

@[simp] theorem State.killDisc_jobs (s : State) (n : LaneId) : (s.killDisc n).jobs = s.jobs := by simp [State.killDisc]

@[simp] theorem State.killAtPrinter_jobs (s : State) (h : Handle) : (s.killAtPrinter h).jobs = s.jobs := by
  unfold State.killAtPrinter; split <;> simp

@[simp] theorem State.acceptImageLoad_jobs (s : State) (i : ImageId) (p : Port) (source : LoadSource) (cls : MediaClass) (size : Nat) (noExport : Bool) : (State.acceptImageLoad s i p source cls size noExport).jobs = s.jobs := by
  unfold State.acceptImageLoad; dsimp only; split <;> simp

@[simp] theorem State.sourceLaneEnds_jobs (s : State) (n : LaneId) (early : Bool) :
    (s.sourceLaneEnds n early).jobs = s.jobs := by
  unfold State.sourceLaneEnds; (repeat' split) <;> simp

@[simp] theorem State.loadSourceEnds_jobs (s : State) (v : ImageSlot) (early : Bool) :
    (s.loadSourceEnds v early).jobs = s.jobs := by
  unfold State.loadSourceEnds; (repeat' split) <;> simp

@[simp] theorem State.failArtworkLoad_jobs (s : State) (i : ArtworkId) : (State.failArtworkLoad s i).jobs = s.jobs := by
  unfold State.failArtworkLoad; dsimp only; (repeat' split) <;> simp

@[simp] theorem State.endOutbound_jobs (s : State) (p : Port) : (s.endOutbound p).jobs = s.jobs := by
  unfold State.endOutbound; (repeat' split) <;> simp

@[simp] theorem State.failArtworkLoads_jobs  (l : List ArtworkId) (s : State) : (State.failArtworkLoads l s).jobs = s.jobs := by
  induction l generalizing s with
  | nil => rfl
  | cons x rest ih => simp [State.failArtworkLoads, ih]

@[simp] theorem State.endOutbounds_jobs (l : List Port) (s : State) : (State.endOutbounds l s).jobs = s.jobs := by
  induction l generalizing s with
  | nil => rfl
  | cons x rest ih => simp [State.endOutbounds, ih]

@[simp] theorem State.faultUnload_jobs (s : State) (n : LaneId) : (s.faultUnload n).jobs = s.jobs := by
  unfold State.faultUnload; split <;> simp

@[simp] theorem State.failTrayDisc_jobs (s : State) (n : LaneId) : (s.failTrayDisc n).jobs = s.jobs := by
  unfold State.failTrayDisc; (repeat' split) <;> simp

@[simp] theorem State.sendReads_jobs (n : LaneId) (l : List Nat) (s : State) : (State.sendReads n l s).jobs = s.jobs := by
  induction l generalizing s with
  | nil => rfl
  | cons x rest ih => simp [State.sendReads, ih]

@[simp] theorem State.loadBegins_jobs (s : State) (i : ImageId) : (s.loadBegins i).jobs = s.jobs := rfl

@[simp] theorem State.startWork_jobs (s : State) (c : Fin 2) (w : VerifyWork) : (s.startWork c w).jobs = s.jobs := by
  unfold State.startWork; split <;> simp

@[simp] theorem State.crcRounds_jobs (l : Nat) (s : State) : (State.crcRounds l s).jobs = s.jobs := by
  induction l generalizing s with
  | zero => rfl
  | succ k ih => unfold State.crcRounds; (repeat' split) <;> simp [ih]

@[simp] theorem State.crcGrants_jobs (s : State) : s.crcGrants.jobs = s.jobs := by simp [State.crcGrants]

@[simp] theorem State.verifyFails_jobs (s : State) (n : LaneId) (result : VerifyResult) (reason : FailReason) :
    (s.verifyFails n result reason).jobs = s.jobs := by simp [State.leaveVerifyQueue_jobs, State.verifyFails]

@[simp] theorem State.verifyPasses_jobs (s : State) (n : LaneId) :
    (s.verifyPasses n).jobs = s.jobs := by simp [State.leaveVerifyQueue_jobs, State.verifyPasses]

@[simp] theorem State.startLane_jobs (s : State) (n : LaneId) (speed : Nat) :
    (s.startLane n speed).jobs = s.jobs := by simp [State.startLane]

@[simp] theorem State.startScan_jobs (l : List LaneId) (s : State) : (State.startScan l s).jobs = s.jobs := by
  induction l generalizing s with
  | nil => rfl
  | cons x rest ih => unfold State.startScan; split <;> simp [ih]

@[simp] theorem State.startComputation_jobs (s : State) :
    s.startComputation.jobs = s.jobs := by simp [State.startComputation]

@[simp] theorem State.grantTo_jobs (s : State) (r : Requester) : (s.grantTo r).jobs = s.jobs := by
  unfold State.grantTo; (repeat' split) <;> simp

@[simp] theorem State.chooseGrant_jobs (s : State) : s.chooseGrant.jobs = s.jobs := by
  unfold State.chooseGrant; (repeat' split) <;> simp

@[simp] theorem State.raiseFetch_jobs (s : State) : s.raiseFetch.jobs = s.jobs := by
  unfold State.raiseFetch; dsimp only; (repeat' split) <;> simp

@[simp] theorem State.printerFaults_jobs (s : State) (cause : PrinterCause) :
    (s.printerFaults cause).jobs = s.jobs := by simp [State.printerFaults]

@[simp] theorem State.startBand_jobs (s : State) (which : BufferId) : (s.startBand which).jobs = s.jobs := rfl

@[simp] theorem State.tryStartBand_jobs (s : State) : s.tryStartBand.jobs = s.jobs := by
  unfold State.tryStartBand; dsimp only; (repeat' split) <;> simp

@[simp] theorem State.enterTrayIn_jobs (s : State) : s.enterTrayIn.jobs = s.jobs := by simp [State.enterTrayIn]

@[simp] theorem State.inkCheck_jobs (s : State) : s.inkCheck.jobs = s.jobs := by
  unfold State.inkCheck; (repeat' split) <;> simp

@[simp] theorem State.lowInkBlack_jobs (s : State) : s.lowInkBlack.jobs = s.jobs := by
  unfold State.lowInkBlack; split <;> simp

@[simp] theorem State.lowInkColour_jobs (s : State) : s.lowInkColour.jobs = s.jobs := by
  unfold State.lowInkColour; split <;> simp

@[simp] theorem State.completeLabel_jobs (s : State) : s.completeLabel.jobs = s.jobs := by simp [State.completeLabel]

@[simp] theorem State.endTrayOut_jobs (s : State) (disc : Bool) : (s.endTrayOut disc).jobs = s.jobs := by
  unfold State.endTrayOut; (repeat' split) <;> simp

@[simp] theorem State.printerCleared_jobs (s : State) : s.printerCleared.jobs = s.jobs := rfl

@[simp] theorem State.issueStep_jobs (s : State) (v : ArmStep) : (s.issueStep v).jobs = s.jobs := by
  unfold State.issueStep; split <;> simp

@[simp] theorem State.issueBinPick_jobs (s : State) : s.issueBinPick.jobs = s.jobs := by
  unfold State.issueBinPick; split <;> simp

theorem State.goTo_jobs (s : State) (p : Position) (next : State → State) (h : ∀ t, (next t).jobs = t.jobs) :
    (s.goTo p next).jobs = s.jobs := by
  unfold State.goTo; split <;> simp [h]

@[simp] theorem State.armToIdle_jobs (s : State) : s.armToIdle.jobs = s.jobs := rfl

@[simp] theorem State.setAside_jobs (s : State) : s.setAside.jobs = s.jobs := by
  simp [State.setAside]

@[simp] theorem State.deliver_jobs (s : State) (d : Destination) : (s.deliver d).jobs = s.jobs := by
  unfold State.deliver; cases d <;> refine State.goTo_jobs _ _ _ fun t => ?_ <;> split <;> simp

@[simp] theorem State.pickFromBin_jobs (s : State) (which : Bin) : (s.pickFromBin which).jobs = s.jobs := by
  unfold State.pickFromBin; refine State.goTo_jobs _ _ _ fun t => ?_; dsimp only; (repeat' split) <;> simp

@[simp] theorem State.deliverFeed_jobs (s : State) (r : Request) : (s.deliverFeed r).jobs = s.jobs := by
  unfold State.deliverFeed; split
  · simp
  · split
    · simp
    · simp
    · exact State.goTo_jobs _ _ _ fun t => by split <;> simp

@[simp] theorem State.armNext_jobs (s : State) : s.armNext.jobs = s.jobs := by
  unfold State.armNext; split
  · split
    · simp
    · simp
    · simp
    · exact State.goTo_jobs _ _ _ fun t => by split <;> simp
    · simp
    · exact State.goTo_jobs _ _ _ fun t => by simp
  · (repeat' split) <;> simp

@[simp] theorem State.armContinue_jobs (s : State) : s.armContinue.jobs = s.jobs := by
  unfold State.armContinue; split <;> simp

@[simp] theorem State.tellSelected_jobs (s : State) (r : Request) : (s.tellSelected r).jobs = s.jobs := by
  unfold State.tellSelected; (repeat' split) <;> simp

@[simp] theorem State.takeUp_jobs (s : State) (r : Request) : (s.takeUp r).jobs = s.jobs := by
  unfold State.takeUp; dsimp only; split <;> simp

@[simp] theorem State.select_jobs (s : State) : s.select.jobs = s.jobs := by
  unfold State.select; (repeat' split) <;> simp

@[simp] theorem State.streamReceives_jobs (s : State) (v : Stream) (k : Nat) : (s.streamReceives v k).jobs = s.jobs := by
  cases v <;> rfl

@[simp] theorem State.readOutbound_jobs (s : State) (p : Port) (slot : ImageId) (position : Nat) (buffer : List Byte) (k : Nat) :
    (s.readOutbound p slot position buffer k).jobs = s.jobs := by
  unfold State.readOutbound; (repeat' split) <;> simp

@[simp] theorem State.clearOutstanding_jobs (s : State) (p : Port) : (s.clearOutstanding p).jobs = s.jobs := rfl

@[simp] theorem State.openImageLoad_jobs (s : State) (p : Port) (i : ImageId) (cls : MediaClass) (size : Nat) (noExport : Bool) : (State.openImageLoad s p i cls size noExport).jobs = s.jobs := by simp [State.openImageLoad]

@[simp] theorem State.openDiscLoad_jobs (s : State) (p : Port) (i : ImageId) (n : LaneId) (cls : MediaClass) (size : Nat) (noExport : Bool) : (State.openDiscLoad s p i n cls size noExport).jobs = s.jobs := by simp [State.openDiscLoad]

@[simp] theorem State.openOutbound_jobs (s : State) (p : Port) (i : ImageId) : (s.openOutbound p i).jobs = s.jobs := by
  simp [State.openOutbound]

@[simp] theorem State.openArtworkLoad_jobs (s : State) (p : Port) (i : ArtworkId) (bands : Nat) : (State.openArtworkLoad s p i bands).jobs = s.jobs := by
  unfold State.openArtworkLoad; dsimp only; split <;> simp

@[simp] theorem State.removeArtwork_jobs (s : State) (i : ArtworkId) : (State.removeArtwork s i).jobs = s.jobs := by
  unfold State.removeArtwork; split <;> simp

@[simp] theorem State.finishArtworkLoad_jobs (s : State) (p : Port) (i : ArtworkId) : (State.finishArtworkLoad s p i).jobs = s.jobs := by simp [State.finishArtworkLoad]

@[simp] theorem State.openInFault_jobs (s : State) (n : LaneId) : (s.openInFault n).jobs = s.jobs := by
  unfold State.openInFault; split <;> simp

@[simp] theorem State.closeInFault_jobs (s : State) (n : LaneId) :
    (s.closeInFault n).jobs = s.jobs := by simp [State.closeInFault]

@[simp] theorem State.bringOnline_jobs (s : State) (n : LaneId) : (s.bringOnline n).jobs = s.jobs := by
  unfold State.bringOnline; dsimp only; (repeat' split) <;> simp

@[simp] theorem State.takeOffline_jobs (s : State) (n : LaneId) : (s.takeOffline n).jobs = s.jobs := rfl

@[simp] theorem State.faultTray_jobs (s : State) (n : LaneId) (pos : TrayPosition) :
    (s.faultTray n pos).jobs = s.jobs := by
  unfold State.faultTray; (repeat' split) <;> simp

@[simp] theorem State.closedByOperator_jobs (s : State) (n : LaneId) : (s.closedByOperator n).jobs = s.jobs := by
  simp [State.closedByOperator]

@[simp] theorem State.closedAfterPick_jobs (s : State) (n : LaneId) : (s.closedAfterPick n).jobs = s.jobs := by
  unfold State.closedAfterPick; (repeat' split) <;> simp

@[simp] theorem State.restingTray_jobs (s : State) (n : LaneId) (pos : TrayPosition) :
    (s.restingTray n pos).jobs = s.jobs := by
  unfold State.restingTray; split <;> simp

@[simp] theorem State.probeUnrecorded_jobs (s : State) (n : LaneId) (report : MediaReport) :
    (s.probeUnrecorded n report).jobs = s.jobs := by
  unfold State.probeUnrecorded; dsimp only; (repeat' split) <;> simp

@[simp] theorem State.finalize_jobs (s : State) (n : LaneId) : (s.finalize n).jobs = s.jobs := by simp [State.finalize]

@[simp] theorem State.takeCredit_jobs (s : State) (n : LaneId) (freed committed : Nat) :
    (s.takeCredit n freed committed).jobs = s.jobs := by
  unfold State.takeCredit; dsimp only; (repeat' split) <;> simp

@[simp] theorem State.finalized_jobs (s : State) (n : LaneId) (d : Disc) : (s.finalized n d).jobs = s.jobs := by
  unfold State.finalized; dsimp only; (repeat' split) <;> simp

@[simp] theorem State.verifyMatches_jobs (s : State) (n : LaneId) (k : Fin 2) (set : VerifySet) (next : Nat) (outstanding : List Nat) (matched index : Nat) :
    (s.verifyMatches n k set next outstanding matched index).jobs = s.jobs := by
  unfold State.verifyMatches; dsimp only; (repeat' split) <;> simp

@[simp] theorem State.segmentDone_jobs (s : State) (n : LaneId) (slot : ImageId) (k : Nat) :
    (s.segmentDone n slot k).jobs = s.jobs := rfl

@[simp] theorem State.quarterDone_jobs (s : State) (slot : ArtworkId) (band q : Nat) (which : BufferId) :
    (s.quarterDone slot band q which).jobs = s.jobs := by
  unfold State.quarterDone; (repeat' split) <;> simp

@[simp] theorem State.chunkDone_jobs (s : State) (p : Port) (slot : ImageId) (k : Nat) :
    (s.chunkDone p slot k).jobs = s.jobs := by
  unfold State.chunkDone; split <;> simp

@[simp] theorem State.deliverTransfer_jobs (s : State) (t : Transfer) : (s.deliverTransfer t).jobs = s.jobs := by
  unfold State.deliverTransfer; (repeat' split) <;> simp

@[simp] theorem State.dropServed_jobs (s : State) : s.dropServed.jobs = s.jobs := by
  unfold State.dropServed; split <;> simp

@[simp] theorem State.placedOnPrinter_jobs (s : State) :
    s.placedOnPrinter.jobs = s.jobs := by simp [State.placedOnPrinter]

@[simp] theorem State.endStep_jobs (s : State) : s.endStep.jobs = s.jobs := rfl

@[simp] theorem State.doorReleases_jobs (s : State) : s.doorReleases.jobs = s.jobs := by
  unfold State.doorReleases; dsimp only; (repeat' split) <;> simp

@[simp] theorem State.lidOpens_jobs (s : State) : s.lidOpens.jobs = s.jobs := by
  unfold State.lidOpens; split <;> simp

@[simp] theorem State.printerHomeReads_jobs (s : State) : s.printerHomeReads.jobs = s.jobs := by
  unfold State.printerHomeReads; split <;> simp

@[simp] theorem State.recheckInk_jobs (s : State) : s.recheckInk.jobs = s.jobs := by
  unfold State.recheckInk; split <;> simp

@[simp] theorem State.blackChange_jobs (s : State) (on : Bool) : (s.blackChange on).jobs = s.jobs := by
  unfold State.blackChange; split <;> simp

@[simp] theorem State.colourChange_jobs (s : State) (on : Bool) : (s.colourChange on).jobs = s.jobs := by
  unfold State.colourChange; split <;> simp

@[simp] theorem State.bandEnds_jobs (s : State) (which : BufferId) : (s.bandEnds which).jobs = s.jobs := by
  unfold State.bandEnds; split <;> simp

@[simp] theorem State.createDisc_jobs (s : State) (r : Request) : (s.createDisc r).jobs = s.jobs := by
  unfold State.createDisc; split <;> simp

@[simp] theorem State.binFaults_jobs (s : State) (which : Bin) : (s.binFaults which).jobs = s.jobs := by
  simp [State.binFaults]

@[simp] theorem State.pickedAtBin_jobs (s : State) (which : Bin) : (s.pickedAtBin which).jobs = s.jobs := by
  unfold State.pickedAtBin; (repeat' split) <;> simp

@[simp] theorem State.putBack_jobs (s : State) (which : Bin) : (s.putBack which).jobs = s.jobs := by
  unfold State.putBack; dsimp only; split <;> simp

@[simp] theorem State.binPresence_jobs (s : State) (which : Bin) (on : Bool) : (s.binPresence which on).jobs = s.jobs := by
  unfold State.binPresence; dsimp only; split <;> simp

@[simp] theorem State.outputChange_jobs (s : State) (on : Bool) : (s.outputChange on).jobs = s.jobs := by
  unfold State.outputChange; dsimp only; split <;> simp

@[simp] theorem State.rejectChange_jobs (s : State) (on : Bool) : (s.rejectChange on).jobs = s.jobs := by
  unfold State.rejectChange; dsimp only; split <;> simp

@[simp] theorem State.doorChange_jobs (s : State) (on : Bool) : (s.doorChange on).jobs = s.jobs := by
  unfold State.doorChange; dsimp only; split <;> simp

@[simp] theorem State.deriveKey_jobs (s : State) : s.deriveKey.jobs = s.jobs := by
  unfold State.deriveKey; dsimp only; split <;> simp

@[simp] theorem State.countReadings_jobs (readings : BitVec 32) (l : List Sensor) (s : State) :
    (State.countReadings readings l s).jobs = s.jobs := by
  induction l generalizing s with
  | nil => rfl
  | cons v rest ih => simp [State.countReadings, ih]

theorem State.when_jobs (s : State) (owed : Bool) (f : State → State) (h : ∀ t, (f t).jobs = t.jobs) :
    (s.when owed f).jobs = s.jobs := by
  unfold State.when; split <;> simp [h]

@[simp] theorem State.settleChannel_jobs (s : State) : s.settleChannel.jobs = s.jobs := by
  simp [State.settleChannel, State.when_jobs]

end Sys2Proof.Machine
end

