-- ==== Sys2Proof/Proofs/Ranks.lean ====
section
/-! The ranks of the live jobs (R27): what the end of a job and an admission do to them, and that every other operation leaves them. -/

namespace Sys2Proof.Machine

/-! ## The ranks of a job table -/

/-- The ranks of the live jobs of a table, in ascending index. -/
def ranksOf (jobs : Vector JobEntry 16) : List Nat := tableIds.filterMap fun i => jobs[i].job.map (·.rank)

/-- The ranks are 0 up to their number less 1, each used once. -/
def RanksOrdered (jobs : Vector JobEntry 16) : Prop := (ranksOf jobs).Perm (List.range (ranksOf jobs).length)

theorem State.liveJobs_ranks (s : State) : s.liveJobs.map (fun e => e.2.rank) = ranksOf s.jobs := by
  simp only [State.liveJobs, List.map_filterMap, Option.map_map]
  rfl

theorem State.ranksInOrder_iff (s : State) : s.ranksInOrder ↔ RanksOrdered s.jobs := by
  rw [State.ranksInOrder, RanksOrdered, ← s.liveJobs_ranks, List.length_map]

theorem ranksOf_congr {jobs jobs' : Vector JobEntry 16}
    (h : ∀ i : TableId, jobs'[i].job.map (·.rank) = jobs[i].job.map (·.rank)) : ranksOf jobs' = ranksOf jobs :=
  List.filterMap_congr fun i _ => h i

theorem tableIds_nodup : tableIds.Nodup := by decide

/-- The rank of one entry, and those of the others. -/
theorem ranksOf_perm (jobs : Vector JobEntry 16) (i : TableId) :
    (ranksOf jobs).Perm ((jobs[i].job.map (·.rank)).toList ++
      (tableIds.erase i).filterMap fun k => jobs[k].job.map (·.rank)) := by
  refine ((List.perm_cons_erase (mem_tableIds i)).filterMap _).trans (.of_eq ?_)
  rw [List.filterMap_cons]
  cases jobs[i].job <;> rfl

/-- A list of numbers is 0 up to its length less 1, in some order, exactly when each is below the length and none comes twice. -/
theorem perm_range_iff (l : List Nat) : l.Perm (List.range l.length) ↔ l.Nodup ∧ ∀ x ∈ l, x < l.length := by
  refine ⟨fun h => ⟨h.nodup_iff.2 List.nodup_range, fun x hx => List.mem_range.1 (h.subset hx)⟩, fun ⟨hnodup, hlt⟩ => ?_⟩
  exact (List.subperm_of_subset hnodup fun x hx => List.mem_range.2 (hlt x hx)).perm_of_length_le (by simp)

/-- A rank above one that is given up falls by 1 (R27). -/
def lowered (rank x : Nat) : Nat := if rank < x then x - 1 else x

/-- Without one of them, the others lowered: the ranks are in order again. -/
theorem perm_range_lowered {l : List Nat} {rank : Nat} (h : (rank :: l).Perm (List.range (rank :: l).length)) :
    (l.map (lowered rank)).Perm (List.range (l.map (lowered rank)).length) := by
  rw [perm_range_iff, List.nodup_cons] at h
  obtain ⟨⟨hrank, hnodup⟩, hlt⟩ := h
  have hne : ∀ x ∈ l, x ≠ rank := fun x hx hxr => hrank (hxr ▸ hx)
  have hbelow : ∀ x ∈ l, x < l.length + 1 := fun x hx => by simpa using hlt x (List.mem_cons_of_mem _ hx)
  have hr : rank < l.length + 1 := by simpa using hlt rank List.mem_cons_self
  rw [perm_range_iff]
  refine ⟨List.Nodup.map_on (fun x hx y hy hxy => ?_) hnodup, ?_⟩
  · have := hne x hx
    have := hne y hy
    unfold lowered at hxy
    split at hxy <;> split at hxy <;> omega
  · simp only [List.mem_map, List.length_map, forall_exists_index, and_imp, forall_apply_eq_imp_iff₂]
    intro x hx
    have := hne x hx
    have := hbelow x hx
    unfold lowered
    split <;> omega

/-- A table that differs by one job ended, the higher ranks lowered, keeps its ranks in order. -/
theorem RanksOrdered.ended {jobs jobs' : Vector JobEntry 16} {i : TableId} {j : Job} (h : RanksOrdered jobs)
    (hj : jobs[i].job = some j) (hended : jobs'[i].job = none)
    (hothers : ∀ k, k ≠ i → jobs'[k].job.map (·.rank) = (jobs[k].job.map (·.rank)).map (lowered j.rank)) :
    RanksOrdered jobs' := by
  have hbefore := ranksOf_perm jobs i
  have hafter := ranksOf_perm jobs' i
  have hrest : (tableIds.erase i).filterMap (fun k => jobs'[k].job.map (·.rank)) =
      ((tableIds.erase i).filterMap fun k => jobs[k].job.map (·.rank)).map (lowered j.rank) := by
    rw [List.map_filterMap]
    exact List.filterMap_congr fun k hk => hothers k ((tableIds_nodup.mem_erase_iff.1 hk).1)
  rw [hj] at hbefore
  rw [hended, hrest] at hafter
  have hcut := perm_range_lowered (hbefore.symm.trans (h.trans (.of_eq (by rw [hbefore.length_eq]; rfl))))
  exact hafter.trans (hcut.trans (.of_eq (by rw [hafter.length_eq]; rfl)))

/-- A job in a FREE entry, of the next rank, keeps the ranks in order. -/
theorem RanksOrdered.admitted {jobs : Vector JobEntry 16} {i : TableId} {e : JobEntry} {j : Job} (h : RanksOrdered jobs)
    (hfree : jobs[i].job = none) (he : e.job = some j) (hrank : j.rank = (ranksOf jobs).length) :
    RanksOrdered (jobs.set i e) := by
  have hbefore := ranksOf_perm jobs i
  have hafter := ranksOf_perm (jobs.set i e) i
  have hset : (jobs.set i e)[i] = e := Vector.getElem_set_self _
  have hrest : (tableIds.erase i).filterMap (fun k => (jobs.set i e)[k].job.map (·.rank)) =
      (tableIds.erase i).filterMap fun k => jobs[k].job.map (·.rank) := by
    refine List.filterMap_congr fun k hk => ?_
    have hki := (tableIds_nodup.mem_erase_iff.1 hk).1
    have : (jobs.set i e)[k] = jobs[k] := Vector.getElem_set_ne _ _ fun hik => hki (Fin.ext hik.symm)
    rw [this]
  rw [hfree] at hbefore
  rw [hset, he, hrest] at hafter
  have hnew : (ranksOf (jobs.set i e)).Perm ((ranksOf jobs).length :: ranksOf jobs) :=
    hafter.trans (hrank ▸ (hbefore.cons _).symm)
  refine hnew.trans ?_
  rw [hnew.length_eq, List.length_cons, List.range_succ]
  exact (h.cons _).trans (List.perm_append_singleton _ _).symm

/-! ## Changes of jobs that keep their ranks -/

theorem State.jobOf_some {s : State} {h : Handle} {j : Job} (hj : s.jobOf h = some j) :
    s.jobs[h.index] = ⟨h.generation, some j⟩ := by
  unfold State.jobOf at hj
  dsimp only at hj
  split at hj
  · rename_i hgen
    rw [← hgen, ← hj]
  · cases hj

@[simp] theorem State.modJob_ranks (s : State) (h : Handle) (f : Job → Job) (hf : ∀ j, (f j).rank = j.rank) :
    RanksOrdered (s.modJob h f).jobs ↔ RanksOrdered s.jobs := by
  suffices heq : ranksOf (s.modJob h f).jobs = ranksOf s.jobs by rw [RanksOrdered, heq, RanksOrdered]
  refine ranksOf_congr fun i => ?_
  unfold State.modJob
  split
  · rfl
  · rename_i j hj
    by_cases hi : i = h.index
    · subst hi
      rw [State.setJobEntry_same, State.jobOf_some hj]
      exact congrArg some (hf j)
    · rw [State.setJobEntry_other _ _ _ _ hi]

@[simp] theorem State.laneLeavesJob_ranks (s : State) (n : LaneId) :
    RanksOrdered (s.laneLeavesJob n).jobs ↔ RanksOrdered s.jobs := by
  unfold State.laneLeavesJob; split <;> simp

@[simp] theorem State.claim_ranks (s : State) (h : Handle) (j : Job) (n : LaneId) :
    RanksOrdered (s.claim h j n).jobs ↔ RanksOrdered s.jobs := by
  unfold State.claim; dsimp only; split <;> simp

theorem State.claimOne_ranks {s t : State} (h : s.claimOne = some t) : RanksOrdered t.jobs ↔ RanksOrdered s.jobs := by
  unfold State.claimOne at h
  split at h
  · cases h
  · obtain ⟨n, -, rfl⟩ := Option.map_eq_some_iff.1 h
    simp

@[simp] theorem State.claimRounds_ranks (k : Nat) (s : State) :
    RanksOrdered (State.claimRounds k s).jobs ↔ RanksOrdered s.jobs := by
  induction k generalizing s with
  | zero => rfl
  | succ k ih =>
    unfold State.claimRounds
    split
    · rfl
    · rename_i t ht
      exact (ih t).trans (State.claimOne_ranks ht)

@[simp] theorem State.claimAttempt_ranks (s : State) : RanksOrdered s.claimAttempt.jobs ↔ RanksOrdered s.jobs := by
  simp [State.claimAttempt]

@[simp] theorem State.withdrawClaim_ranks (s : State) (h : Handle) (n : LaneId) :
    RanksOrdered (s.withdrawClaim h n).jobs ↔ RanksOrdered s.jobs := by
  unfold State.withdrawClaim; (repeat' split) <;> simp

@[simp] theorem State.activateRanks_ranks (i : ImageId) (l : List Nat) (s : State) :
    RanksOrdered (State.activateRanks i l s).jobs ↔ RanksOrdered s.jobs := by
  induction l generalizing s with
  | nil => rfl
  | cons r rest ih => unfold State.activateRanks; split <;> simp [ih]

@[simp] theorem State.finishImageLoad_ranks (s : State) (i : ImageId) :
    RanksOrdered (s.finishImageLoad i).jobs ↔ RanksOrdered s.jobs := by
  simp [State.finishImageLoad, State.imageReady, State.leaveVerifyQueue_jobs]

@[simp] theorem State.divertFeed_ranks (s : State) (n : LaneId) (r : Request) :
    RanksOrdered (s.divertFeed n r).jobs ↔ RanksOrdered s.jobs := by
  simp [State.divertFeed]

@[simp] theorem State.lanePicked_ranks (s : State) (n : LaneId) :
    RanksOrdered (s.lanePicked n).jobs ↔ RanksOrdered s.jobs := by
  unfold State.lanePicked; dsimp only; split <;> simp

@[simp] theorem State.feedDiscGone_ranks (s : State) (n : LaneId) :
    RanksOrdered (s.feedDiscGone n).jobs ↔ RanksOrdered s.jobs := by
  unfold State.feedDiscGone; split <;> simp

@[simp] theorem State.pickedUp_ranks (s : State) (loc : Location) (age : Option Nat) :
    RanksOrdered (s.pickedUp loc age).jobs ↔ RanksOrdered s.jobs := by
  unfold State.pickedUp; (repeat' split) <;> simp

@[simp] theorem State.followPick_ranks (s : State) : RanksOrdered s.followPick.jobs ↔ RanksOrdered s.jobs := by
  unfold State.followPick; (repeat' split) <;> simp

@[simp] theorem State.settleClaims_ranks (s : State) : RanksOrdered s.settleClaims.jobs ↔ RanksOrdered s.jobs := by
  unfold State.settleClaims State.when; dsimp only; (repeat' split) <;> simp

@[simp] theorem State.settlePart_ranks (s : State) : RanksOrdered s.settlePart.jobs ↔ RanksOrdered s.jobs := by
  simp [State.settlePart]

@[simp] theorem State.settle_ranks (s : State) : RanksOrdered s.settle.jobs ↔ RanksOrdered s.jobs := by
  unfold State.settle State.when; dsimp only; split <;> simp

@[simp] theorem State.resume_ranks (s : State) (h : Handle) (j : Job) :
    RanksOrdered (s.resume h j).jobs ↔ RanksOrdered s.jobs := by
  unfold State.resume; dsimp only; split <;> simp

@[simp] theorem State.sourceArrives_ranks (s : State) (n : LaneId) (k : Fin 2) (i : ImageId) (next : Nat) (outstanding : List Nat)
    (digested index : Nat) (data : List Byte) :
    RanksOrdered (s.sourceArrives n k i next outstanding digested index data).jobs ↔ RanksOrdered s.jobs := by
  unfold State.sourceArrives; dsimp only; (repeat' split) <;> simp [State.storeDigest]

/-! ## Jobs that end -/

/-- The job table after the end of a job: its entry is FREE with the generation raised, the ranks above it are lowered (R27, R42). -/
theorem State.endJob_jobs {s : State} {h : Handle} {j : Job} (hj : s.jobOf h = some j) (result : JobResult) :
    (s.endJob h result).jobs = (s.jobs.set h.index ⟨h.generation + 1, none⟩).map fun e =>
      { e with job := e.job.map fun x => if j.rank < x.rank then { x with rank := x.rank - 1 } else x } := by
  unfold State.endJob
  rw [hj]
  dsimp only
  cases j.artwork <;> rfl

@[simp] theorem State.endJob_ranks {s : State} (hs : RanksOrdered s.jobs) (h : Handle) (result : JobResult) :
    RanksOrdered (s.endJob h result).jobs := by
  cases hj : s.jobOf h with
  | none => rwa [State.endJob, hj]
  | some j =>
    rw [State.endJob_jobs hj]
    refine hs.ended (i := h.index) (j := j) (by rw [State.jobOf_some hj]) ?_ fun k hk => ?_
    · simp
    · have hkeep : (s.jobs.set h.index ⟨h.generation + 1, none⟩)[k] = s.jobs[k] :=
        Vector.getElem_set_ne _ _ fun hik => hk (Fin.ext hik.symm)
      simp only [Fin.getElem_fin, Vector.getElem_map] at hkeep ⊢
      rw [hkeep]
      cases s.jobs[k.val].job with
      | none => rfl
      | some x => simp only [Option.map_some, lowered]; split <;> rfl

@[simp] theorem State.drainCheck_ranks {s : State} (hs : RanksOrdered s.jobs) (h : Handle) :
    RanksOrdered (s.drainCheck h).jobs := by
  unfold State.drainCheck; (repeat' split) <;> simp [hs]

@[simp] theorem State.offerBlank_ranks {s : State} (hs : RanksOrdered s.jobs) (n : LaneId) (h : Handle) :
    RanksOrdered (s.offerBlank n h).jobs := by
  unfold State.offerBlank; dsimp only; split <;> simp [hs]

@[simp] theorem State.drainLane_ranks {s : State} (hs : RanksOrdered s.jobs) (h : Handle) (n : LaneId) :
    RanksOrdered (s.drainLane h n).jobs := by
  unfold State.drainLane; (repeat' split) <;> simp [hs]

@[simp] theorem State.killLane_ranks {s : State} (hs : RanksOrdered s.jobs) (h : Handle) (n : LaneId) :
    RanksOrdered (s.killLane h n).jobs := by
  unfold State.killLane; (repeat' split) <;> simp [hs, State.leaveVerifyQueue_jobs]

theorem State.forLanes_ranks (f : State → LaneId → State) (hf : ∀ t n, RanksOrdered t.jobs → RanksOrdered (f t n).jobs)
    (l : List LaneId) {s : State} (hs : RanksOrdered s.jobs) : RanksOrdered (State.forLanes f l s).jobs := by
  induction l generalizing s with
  | nil => exact hs
  | cons n rest ih => exact ih (hf s n hs)

@[simp] theorem State.drainLanes_ranks {s : State} (hs : RanksOrdered s.jobs) (h : Handle) (reason : EndReason) :
    RanksOrdered (s.drainLanes h reason).jobs := by
  have hmod : RanksOrdered (s.modJob h fun j => { j with state := .draining, endReason := some reason }).jobs := by simp [hs]
  unfold State.drainLanes
  split
  · rw [State.killAtPrinter_jobs]
    exact State.forLanes_ranks _ (fun t n ht => State.killLane_ranks ht h n) _ hmod
  · exact State.forLanes_ranks _ (fun t n ht => State.drainLane_ranks ht h n) _ hmod

@[simp] theorem State.drainJob_ranks {s : State} (hs : RanksOrdered s.jobs) (h : Handle) (reason : EndReason) :
    RanksOrdered (s.drainJob h reason).jobs := by
  unfold State.drainJob; dsimp only; (repeat' split) <;> simp [hs]

@[simp] theorem State.closingChecks_ranks {s : State} (hs : RanksOrdered s.jobs) (h : Handle) :
    RanksOrdered (s.closingChecks h).jobs := by
  unfold State.closingChecks; (repeat' split) <;> simp [hs]

theorem Job.count_rank (j : Job) (fate : Option Fate) (reason : Option FailReason) : (j.count fate reason).rank = j.rank := by
  unfold Job.count; dsimp only; split <;> rfl

@[simp] theorem State.closeDisc_ranks {s : State} (hs : RanksOrdered s.jobs) (i : TableId) (fate : Option Fate)
    (why : Option FailReason) : RanksOrdered (s.closeDisc i fate why).jobs := by
  unfold State.closeDisc; dsimp only; (repeat' split) <;> simp [hs, State.reportClosing, Job.count_rank]

@[simp] theorem State.closeDiscAt_ranks {s : State} (hs : RanksOrdered s.jobs) (loc : Location) (fate : Option Fate)
    (why : Option FailReason) : RanksOrdered (s.closeDiscAt loc fate why).jobs := by
  unfold State.closeDiscAt; split <;> simp [hs]

@[simp] theorem State.failJobsOf_ranks (i : ImageId) (l : List TableId) {s : State} (hs : RanksOrdered s.jobs) :
    RanksOrdered (State.failJobsOf i l s).jobs := by
  induction l generalizing s with
  | nil => exact hs
  | cons k rest ih => refine ih ?_; (repeat' split) <;> simp [hs]

@[simp] theorem State.failImageLoad_ranks {s : State} (hs : RanksOrdered s.jobs) (i : ImageId) :
    RanksOrdered (s.failImageLoad i).jobs := by
  unfold State.failImageLoad; dsimp only; split <;> simp [hs, State.leaveVerifyQueue_jobs]

theorem State.failImageLoads_ranks (l : List ImageId) {s : State} (hs : RanksOrdered s.jobs) :
    RanksOrdered (State.failImageLoads l s).jobs := by
  induction l generalizing s with
  | nil => exact hs
  | cons i rest ih => exact ih (State.failImageLoad_ranks hs i)

/-! ## Lanes that fault, discs that are lost -/

@[simp] theorem State.claimEnds_ranks {s : State} (hs : RanksOrdered s.jobs) (n : LaneId) :
    RanksOrdered (s.claimEnds n).jobs := by
  unfold State.claimEnds; (repeat' split) <;> simp [hs]

@[simp] theorem State.faultClaim_ranks {s : State} (hs : RanksOrdered s.jobs) (n : LaneId) (stood : LaneState)
    (purpose : Option TrayPurpose) : RanksOrdered (s.faultClaim n stood purpose).jobs := by
  unfold State.faultClaim; (repeat' split) <;> simp [hs]

@[simp] theorem State.faultQueues_ranks {s : State} (hs : RanksOrdered s.jobs) (n : LaneId) (stood : LaneState) :
    RanksOrdered (s.faultQueues n stood).jobs := by
  unfold State.faultQueues; dsimp only; (repeat' split) <;> simp [hs, State.leaveVerifyQueue_jobs]

@[simp] theorem State.laneFault_ranks {s : State} (hs : RanksOrdered s.jobs) (n : LaneId) (cause : LaneCause) :
    RanksOrdered (s.laneFault n cause).jobs := by
  simp [State.laneFault, hs]

@[simp] theorem State.stuck_ranks {s : State} (hs : RanksOrdered s.jobs) (n : LaneId) : RanksOrdered (s.stuck n).jobs := by
  unfold State.stuck; dsimp only; (repeat' split) <;> simp [hs]

@[simp] theorem State.laneError_ranks {s : State} (hs : RanksOrdered s.jobs) (n : LaneId) (code : Byte) :
    RanksOrdered (s.laneError n code).jobs := by
  unfold State.laneError; (repeat' split) <;> simp [hs]

@[simp] theorem State.lanePlaced_ranks {s : State} (hs : RanksOrdered s.jobs) (n : LaneId) :
    RanksOrdered (s.lanePlaced n).jobs := by
  unfold State.lanePlaced State.placedAfterFault; (repeat' split) <;> simp [hs]

@[simp] theorem State.loseArmDisc_ranks {s : State} (hs : RanksOrdered s.jobs) : RanksOrdered s.loseArmDisc.jobs := by
  unfold State.loseArmDisc
  dsimp only
  split
  · exact hs
  · refine State.closeDiscAt_ranks ?_ _ _ _
    (repeat' split) <;> simp [hs]

@[simp] theorem State.armFaults_ranks {s : State} (hs : RanksOrdered s.jobs) (cause : ArmCause) (step : Option ArmStep) :
    RanksOrdered (s.armFaults cause step).jobs := by
  unfold State.armFaults
  dsimp only
  rw [State.raise_jobs]
  split
  · exact State.loseArmDisc_ranks hs
  · exact hs

@[simp] theorem State.homed_ranks {s : State} (hs : RanksOrdered s.jobs) : RanksOrdered s.homed.jobs := by
  unfold State.homed
  dsimp only
  (repeat' split)
  · rw [State.raise_jobs]; exact hs
  · exact hs
  · exact State.armFaults_ranks (s := s.modArm _) hs _ _

@[simp] theorem State.faultTimeout_ranks {s : State} (hs : RanksOrdered s.jobs) (n : LaneId) :
    RanksOrdered (s.faultTimeout n).jobs := by
  unfold State.faultTimeout; split <;> simp [hs]

@[simp] theorem State.trayMoves_ranks {s : State} (hs : RanksOrdered s.jobs) (n : LaneId) (pos : TrayPosition) :
    RanksOrdered (s.trayMoves n pos).jobs := by
  unfold State.trayMoves State.openingTray State.openTrayReports State.closingTray
  (repeat' split) <;> simp [hs]

@[simp] theorem State.probeFed_ranks {s : State} (hs : RanksOrdered s.jobs) (n : LaneId) (report : MediaReport) :
    RanksOrdered (s.probeFed n report).jobs := by
  unfold State.probeFed State.probeBlank; dsimp only; (repeat' split) <;> simp [hs]

/-! ## The arm's picks and places, and the sensors' consumers -/

@[simp] theorem State.pickDone_ranks {s : State} (hs : RanksOrdered s.jobs) : RanksOrdered s.pickDone.jobs := by
  unfold State.pickDone State.pickedAt; (repeat' split) <;> simp [hs]

@[simp] theorem State.placeDone_ranks {s : State} (hs : RanksOrdered s.jobs) : RanksOrdered s.placeDone.jobs := by
  unfold State.placeDone State.placedInTray State.placedInBin; split <;> simp [hs]

@[simp] theorem State.gripChange_ranks {s : State} (hs : RanksOrdered s.jobs) (before : Nat) :
    RanksOrdered (s.gripChange before).jobs := by
  unfold State.gripChange State.gripEmptied State.gripFilled; (repeat' split) <;> simp [hs]

@[simp] theorem State.consume_ranks {s : State} (hs : RanksOrdered s.jobs) (startUp : Bool) (before : Nat) (v : Sensor)
    (on : Bool) : RanksOrdered (s.consume startUp before v on).jobs := by
  unfold State.consume State.homeReads; (repeat' split) <;> simp [hs]

theorem State.changeEvents_ranks (startUp : Bool) (readings : BitVec 32) (l : List Sensor) {s : State}
    (hs : RanksOrdered s.jobs) : RanksOrdered (State.changeEvents startUp readings l s).jobs := by
  induction l generalizing s with
  | nil => exact hs
  | cons v rest ih =>
    refine ih ?_
    rw [State.changeEvent, State.settle_ranks]
    exact State.consume_ranks (s := s.modSensor v _) hs _ _ _ _

end Sys2Proof.Machine
end

