-- ==== Sys2Proof/Proofs/RankSteps.lean ====
section
/-! Every command keeps the ranks of the live jobs in order (R27): the meanings of the commands taken one by one, then the step. -/

namespace Sys2Proof.Machine

/-! ## Client commands -/

/-- A meaning that keeps the ranks in order keeps them when its command is taken. -/
theorem State.takeCommand_ranks {s : State} (hs : RanksOrdered s.jobs) (p : Port) (code : Nat)
    (meaning : CommandRecord → State → Reply × State)
    (h : ∀ r (u : State), RanksOrdered u.jobs → RanksOrdered (meaning r u).2.jobs) :
    RanksOrdered (s.takeCommand p code meaning).jobs := by
  unfold State.takeCommand
  split
  · rw [State.settle_ranks]; exact h _ _ hs
  · split
    · exact hs
    · rw [State.modPort_jobs, State.settle_ranks]; exact h _ _ hs

/-- A command on an image, an artwork, a lane or a job keeps the ranks in order if it does past the check of its parameter. -/
theorem onImage_ranks {s : State} (hs : RanksOrdered s.jobs) (r : CommandRecord) (f : ImageId → Reply × State)
    (h : ∀ i, RanksOrdered (f i).2.jobs) : RanksOrdered (onImage r s f).2.jobs := by
  unfold onImage; split
  · exact hs
  · exact h _

theorem onArtwork_ranks {s : State} (hs : RanksOrdered s.jobs) (r : CommandRecord) (f : ArtworkId → Reply × State)
    (h : ∀ i, RanksOrdered (f i).2.jobs) : RanksOrdered (onArtwork r s f).2.jobs := by
  unfold onArtwork; split
  · exact hs
  · exact h _

theorem onLane_ranks {s : State} (hs : RanksOrdered s.jobs) (r : CommandRecord) (f : LaneId → Reply × State)
    (h : ∀ n, RanksOrdered (f n).2.jobs) : RanksOrdered (onLane r s f).2.jobs := by
  unfold onLane; split
  · exact hs
  · exact h _

theorem onJob_ranks {s : State} (hs : RanksOrdered s.jobs) (r : CommandRecord) (f : Handle → Job → Reply × State)
    (h : ∀ k j, RanksOrdered (f k j).2.jobs) : RanksOrdered (onJob r s f).2.jobs := by
  unfold onJob; dsimp only; (repeat' split)
  · exact hs
  · exact hs
  · exact h _ _

/-- The entry that SUBMIT-JOB takes is FREE (R25). -/
theorem State.freeJobEntry_free {s : State} {k : TableId} (h : s.freeJobEntry = some k) : s.jobs[k].job = none :=
  Option.isNone_iff_eq_none.1 (List.find?_some h :)

/-- A job admitted with the rank after the last one keeps the ranks in order (R32). -/
theorem State.admitJob_ranks {s : State} (hs : RanksOrdered s.jobs) {k : TableId} {j : Job} (hk : s.freeJobEntry = some k)
    (hrank : j.rank = s.liveJobs.length) : RanksOrdered (s.admitJob k j).jobs := by
  have hjobs : (s.admitJob k j).jobs = s.jobs.set k { s.jobs[k] with job := some j } := by
    unfold State.admitJob
    (repeat' split) <;> rfl
  rw [hjobs]
  refine hs.admitted (State.freeJobEntry_free hk) rfl ?_
  rw [hrank, ← s.liveJobs_ranks, List.length_map]

theorem submitJob_ranks (p : Port) (r : CommandRecord) {s : State} (hs : RanksOrdered s.jobs) :
    RanksOrdered (submitJob p r s).2.jobs := by
  unfold submitJob
  (repeat' split) <;> first
    | exact hs
    | exact State.admitJob_ranks hs (by assumption) rfl

theorem State.killJobs_ranks (l : List TableId) {s : State} (hs : RanksOrdered s.jobs) :
    RanksOrdered (State.killJobs l s).jobs := by
  induction l generalizing s with
  | nil => exact hs
  | cons i rest ih => refine ih ?_; (repeat' split) <;> simp [hs]

theorem State.failEveryLoad_ranks {s : State} (hs : RanksOrdered s.jobs) : RanksOrdered s.failEveryLoad.jobs := by
  rw [State.failEveryLoad, State.endOutbounds_jobs, State.failArtworkLoads_jobs]
  exact State.failImageLoads_ranks _ hs

theorem towerResetEffect_ranks (loadsFirst : Bool) {s : State} (hs : RanksOrdered s.jobs) :
    RanksOrdered (towerResetEffect loadsFirst s).jobs := by
  rw [towerResetEffect, State.oweStart_jobs]
  split
  · exact State.killJobs_ranks _ ((State.settlePart_ranks _).2 (State.failEveryLoad_ranks hs))
  · exact State.failEveryLoad_ranks ((State.settlePart_ranks _).2 (State.killJobs_ranks _ hs))

theorem State.resetStream_ranks {s : State} (hs : RanksOrdered s.jobs) (p : Port) : RanksOrdered (s.resetStream p).jobs := by
  unfold State.resetStream; split <;> simp [hs]

/-! ## The step -/

/-- Every command keeps the ranks in order. -/
theorem exec_ranks (c : Instr) {s : State} (hs : RanksOrdered s.jobs) : nextHas (fun t => RanksOrdered t.jobs) (exec c s) := by
  cases c with
  | powerOnReset => exact (State.ranksInOrder_iff State.reset).1 (by rw [State.ranksInOrder, State.reset_liveJobs]; rfl)
  | linkReset p =>
    dsimp only [exec, execLinkReset]
    rw [nextHas_next]
    split
    · exact hs
    · rw [State.settle_ranks]; exact State.resetStream_ranks (s := s.modPort p _) hs p
  | linkResetRelease p => exact hs
  | putCommands p records => dsimp only [exec, execPutCommands]; split <;> exact hs
  | takeNotices p n => dsimp only [exec, execTakeNotices]; split <;> exact hs
  | bulkWrite p bytes => dsimp only [exec, execBulkWrite]; split <;> simp [hs]
  | bulkRead p n => dsimp only [exec, execBulkRead]; (repeat' split) <;> simp [hs]
  | linkStatus p => exact hs
  | unknownTransaction p => exact hs
  | replyReturn p => dsimp only [exec, execReplyReturn]; (repeat' split) <;> simp [hs]
  | badCommand p => dsimp only [exec, execBadCommand]; (repeat' split) <;> simp [hs]
  | loadImage p =>
    refine State.takeCommand_ranks hs p _ _ fun r u hu => onImage_ranks hu r _ fun i => ?_
    dsimp only; (repeat' split) <;> simp [hu]
  | loadFromDisc p =>
    refine State.takeCommand_ranks hs p _ _ fun r u hu => onImage_ranks hu r _ fun i => ?_
    (repeat' split) <;> simp [hu]
  | deleteImage p =>
    refine State.takeCommand_ranks hs p _ _ fun r u hu => onImage_ranks hu r _ fun i => ?_
    dsimp only [State.removeImage]; (repeat' split) <;> simp [hu]
  | protectImage p =>
    refine State.takeCommand_ranks hs p _ _ fun r u hu => onImage_ranks hu r _ fun i => ?_
    dsimp only; (repeat' split) <;> exact hu
  | unprotectImage p =>
    refine State.takeCommand_ranks hs p _ _ fun r u hu => onImage_ranks hu r _ fun i => ?_
    dsimp only; (repeat' split) <;> exact hu
  | markNoExport p =>
    refine State.takeCommand_ranks hs p _ _ fun r u hu => onImage_ranks hu r _ fun i => ?_
    dsimp only; (repeat' split) <;> exact hu
  | exportImage p =>
    refine State.takeCommand_ranks hs p _ _ fun r u hu => onImage_ranks hu r _ fun i => ?_
    dsimp only; (repeat' split) <;> exact hu
  | loadArtwork p =>
    refine State.takeCommand_ranks hs p _ _ fun r u hu => onArtwork_ranks hu r _ fun i => ?_
    dsimp only; (repeat' split) <;> simp [hu]
  | deleteArtwork p =>
    refine State.takeCommand_ranks hs p _ _ fun r u hu => onArtwork_ranks hu r _ fun i => ?_
    dsimp only; (repeat' split) <;> simp [hu]
  | submitJob p => exact State.takeCommand_ranks hs p _ _ fun r _ hu => submitJob_ranks p r hu
  | pauseJob p =>
    refine State.takeCommand_ranks hs p _ _ fun r u hu => onJob_ranks hu r _ fun h j => ?_
    (repeat' split) <;> simp [hu]
  | resumeJob p =>
    refine State.takeCommand_ranks hs p _ _ fun r u hu => onJob_ranks hu r _ fun h j => ?_
    (repeat' split) <;> simp [hu]
  | cancelJob p =>
    refine State.takeCommand_ranks hs p _ _ fun r u hu => onJob_ranks hu r _ fun h j => ?_
    (repeat' split) <;> simp [hu]
  | killJob p =>
    refine State.takeCommand_ranks hs p _ _ fun r u hu => onJob_ranks hu r _ fun h j => ?_
    (repeat' split) <;> simp [hu]
  | openTray p =>
    refine State.takeCommand_ranks hs p _ _ fun r u hu => onLane_ranks hu r _ fun n => ?_
    (repeat' split) <;> simp [hu]
  | closeTray p =>
    refine State.takeCommand_ranks hs p _ _ fun r u hu => onLane_ranks hu r _ fun n => ?_
    dsimp only; (repeat' split) <;> simp [hu]
  | laneOnline p =>
    refine State.takeCommand_ranks hs p _ _ fun r u hu => onLane_ranks hu r _ fun n => ?_
    (repeat' split) <;> simp [hu]
  | laneOffline p =>
    refine State.takeCommand_ranks hs p _ _ fun r u hu => onLane_ranks hu r _ fun n => ?_
    (repeat' split) <;> simp [hu]
  | clearLane p =>
    refine State.takeCommand_ranks hs p _ _ fun r u hu => onLane_ranks hu r _ fun n => ?_
    split <;> simp [hu]
  | setFeedBudget p =>
    refine State.takeCommand_ranks hs p _ _ fun r u hu => ?_
    unfold setFeedBudget; split <;> exact hu
  | setBinClass p =>
    refine State.takeCommand_ranks hs p _ _ fun r u hu => ?_
    unfold setBinClass; (repeat' split) <;> simp [hu]
  | clearBinFault p =>
    refine State.takeCommand_ranks hs p _ _ fun r u hu => ?_
    unfold clearBinFault; (repeat' split) <;> simp [hu]
  | clearArmFault p =>
    refine State.takeCommand_ranks hs p _ _ fun r u hu => ?_
    unfold clearArmFault; (repeat' split) <;> simp [hu]
  | clearPrinterFault p =>
    refine State.takeCommand_ranks hs p _ _ fun r u hu => ?_
    unfold clearPrinterFault; split <;> simp [hu]
  | setPrintParams p => exact State.takeCommand_ranks hs p _ _ fun _ _ hu => hu
  | setInkCapacity p => exact State.takeCommand_ranks hs p _ _ fun _ _ hu => hu
  | setNoticeMask p => exact State.takeCommand_ranks hs p _ _ fun _ _ hu => hu
  | setAttention p =>
    have taken := State.takeCommand_ranks hs p 49 (setAttention p) fun _ _ hu => hu
    dsimp only [exec, execSetAttention]
    split <;> exact taken
  | towerReset p loadsFirst =>
    refine State.takeCommand_ranks hs p _ _ fun r u hu => ?_
    unfold towerReset; split
    · exact towerResetEffect_ranks loadsFirst hu
    · exact hu
  | attentionHoldExpiry p => exact hs
  | imageStagingWrite p count =>
    dsimp only [exec, execImageStagingWrite]; (repeat' split) <;> simp [hs]
  | artworkStagingWrite p count =>
    dsimp only [exec, execArtworkStagingWrite]; (repeat' split) <;> simp [hs]
  | ident n buffer burnsL burnsM =>
    dsimp only [exec, execIdent]
    split
    · rw [nextHas_next]
      split
      · split <;> simp [hs]
      · exact hs
      · rw [State.settle_ranks]; exact State.laneFault_ranks (s := s.modLane n _) hs n _
    · simp [hs]
  | trayState n pos =>
    rw [exec, execTrayState, nextHas_next, State.settle_ranks, State.releaseTray_jobs]
    exact State.trayMoves_ranks (s := s.modLane n _) hs n pos
  | media n report => dsimp only [exec, execMedia]; (repeat' split) <;> simp [hs]
  | credit n freed committed => dsimp only [exec, execCredit]; (repeat' split) <;> simp [hs]
  | bufferEmpty n => dsimp only [exec, execBufferEmpty]; split <;> simp [hs]
  | writeRecovered n => dsimp only [exec, execWriteRecovered]; split <;> simp [hs]
  | writeError n => dsimp only [exec, execWriteError]; split <;> simp [hs]
  | finalizeDone n => dsimp only [exec, execFinalizeDone]; (repeat' split) <;> simp [hs]
  | readData n index data => dsimp only [exec, execReadData]; (repeat' split) <;> simp [hs]
  | readFail n index => dsimp only [exec, execReadFail]; (repeat' split) <;> simp [hs]
  | error n code => simp [exec, execError, hs]
  | driveMalformedMessage n => simp [exec, execDriveMalformedMessage, hs]
  | laneTimerExpiry n => dsimp only [exec, execLaneTimerExpiry]; (repeat' split) <;> simp [hs]
  | transferCompletion => dsimp only [exec, execTransferCompletion]; (repeat' split) <;> simp [hs]
  | armStepDone =>
    dsimp only [exec, execArmStepDone]
    split
    · exact hs
    · rw [nextHas_next, State.settle_ranks]; split <;> simp [hs]
    · simp [hs]
    · rw [nextHas_next, State.settle_ranks]; exact State.pickDone_ranks (s := s.endStep) hs
    · rw [nextHas_next, State.settle_ranks]; exact State.placeDone_ranks (s := s.endStep) hs
  | armDriverFault => dsimp only [exec, execArmDriverFault]; split <;> simp [hs]
  | armStepTimeout => dsimp only [exec, execArmStepTimeout]; split <;> simp [hs]
  | sensorScan readings order =>
    have hcounted : RanksOrdered (State.countReadings readings allSensors (s.setScans (min 3 (s.scans + 1)))).jobs := by simp [hs]
    have hevents := fun startUp changed => State.changeEvents_ranks startUp readings changed hcounted
    dsimp only [exec, execSensorScan]; split <;> simp [hevents]
  | trayDone disc => dsimp only [exec, execTrayDone]; (repeat' split) <;> simp [hs]
  | bandDone band => dsimp only [exec, execBandDone]; (repeat' split) <;> simp [hs]
  | temp reading => dsimp only [exec, execTemp]; (repeat' split) <;> simp [hs]
  | printerError code => simp only [exec, execPrinterError, State.printerErrorTaken]; split <;> simp [hs]
  | printerMalformedReport => simp only [exec, execPrinterMalformedReport, State.printerErrorTaken]; split <;> simp [hs]
  | printerTimeout => dsimp only [exec, execPrinterTimeout]; split <;> simp [hs]
  | bandWaitExpiry => dsimp only [exec, execBandWaitExpiry]; split <;> simp [hs]

/-- Settles O53: a job that ends lowers the ranks above its own, one that is admitted takes the next, and every other operation leaves
them as they are (`exec_ranks`). -/
theorem everyStepKeepsTheRanks : Obligations.EveryStepKeepsTheRanks := by
  intro s t hs h
  rw [State.ranksInOrder_iff] at hs ⊢
  unfold step at h
  split at h
  · cases h; exact hs
  · rename_i c rest _
    exact nextHas_of_eq (exec_ranks c (s := { s with pending := rest }) hs) h

end Sys2Proof.Machine
end

