-- ==== Sys2Proof/Proofs/JobCommands.lean ====
section
/-! The Dispatcher's commands (R28 to R37): the handle check, PAUSE and RESUME, CANCEL and KILL, and SUBMIT-JOB. -/

namespace Sys2Proof.Machine

/-! ## Handles (R25, R28) -/

theorem State.jobOf_eq_some {s : State} {h : Handle} {j : Job} : s.jobOf h = some j ↔ s.jobs[h.index] = ⟨h.generation, some j⟩ :=
  ⟨State.jobOf_some, fun hj => by simp only [State.jobOf, hj, if_true]⟩

theorem State.jobOf_eq_none {s : State} {h : Handle} :
    s.jobOf h = none ↔ s.jobs[h.index].job = none ∨ s.jobs[h.index].generation ≠ h.generation := by
  unfold State.jobOf
  dsimp only
  split
  · rename_i hgen; simp only [hgen, ne_eq, not_true, or_false]
  · rename_i hgen; simp only [hgen, ne_eq, not_false_eq_true, or_true]

/-- A live job that changes is written back under its handle. -/
theorem State.modJob_eq {s : State} {h : Handle} {j : Job} (hj : s.jobOf h = some j) (f : Job → Job) :
    s.modJob h f = s.setJobEntry h.index ⟨h.generation, some (f j)⟩ := by
  rw [State.modJob, hj]

/-- A job command whose handle names a live job acts on this job (R28). -/
theorem onJob_live {r : CommandRecord} {s : State} {i : TableId} {j : Job} (hi : i.val = recordByte r 2)
    (hj : s.jobs[i] = ⟨r[3], some j⟩) (f : Handle → Job → Reply × State) : onJob r s f = f ⟨i, r[3]⟩ j := by
  have hof : s.jobOf ⟨i, r[3]⟩ = some j := State.jobOf_eq_some.2 hj
  rw [onJob, indexBelow_eq_some.2 hi]
  dsimp only
  rw [hof]

/-- The handle check: an index above 15 names no entry; a FREE entry, or one of another generation, holds no such job (R28). -/
theorem onJob_refused {r : CommandRecord} {s : State} {code : ResultCode}
    (h : (if 15 < recordByte r 2 then some ResultCode.badParam
      else if ∀ i : TableId, i.val = recordByte r 2 → s.jobs[i].job = none ∨ s.jobs[i].generation ≠ r[3] then some .noSuch
      else none) = some code) (f : Handle → Job → Reply × State) : onJob r s f = refuse code s := by
  unfold onJob
  split at h
  · rename_i hbig
    cases h
    rw [indexBelow_eq_none.2 hbig]
  · rename_i hsmall
    split at h
    · rename_i hdead
      cases h
      have hi : indexBelow 16 (recordByte r 2) = some ⟨recordByte r 2, by omega⟩ := indexBelow_eq_some.2 rfl
      rw [hi]
      dsimp only
      rw [State.jobOf_eq_none.2 (hdead _ rfl)]
    · cases h

/-- Settles O23: each of the four commands makes the handle check first (`onJob_refused`). -/
theorem handleCheckComesFirst : Obligations.HandleCheckComesFirst := by
  intro p r s hs refusal code hcode
  have refused {n : Nat} (f : Handle → Job → Reply × State) {meaning : CommandRecord → State → Reply × State}
      (hm : meaning r s = onJob r s f) (hw : s.commandWaits p r n) : s.takeCommand p n meaning = s.replied p ⟨code, []⟩ :=
    State.takeCommand_refused hs hw (hm.trans (onJob_refused hcode f))
  exact ⟨fun hw => congrArg _ (refused _ rfl hw), fun hw => congrArg _ (refused _ rfl hw),
    fun hw => congrArg _ (refused _ rfl hw), fun hw => congrArg _ (refused _ rfl hw)⟩

/-! ## PAUSE-JOB and RESUME-JOB -/

/-- Settles O24: past the owner's check each state of the job has its own case. -/
theorem pauseAndResumeByState : Obligations.PauseAndResumeByState := by
  constructor
  · intro p r i j s hs hw hi hj
    have hof : s.jobOf ⟨i, r[3]⟩ = some j := State.jobOf_eq_some.2 hj
    show Host.Outcome.next (s.takeCommand p 17 (pauseJob p)) = _
    rw [State.takeCommand_waiting hw, pauseJob, onJob_live hi hj, State.modJob_eq hof]
    by_cases howner : j.owner = p
    · subst howner
      cases hstate : j.state <;> simp only [ne_eq, not_true, if_false, if_true, reduceCtorEq, or_true, or_false]
      case queued => rw [accept_settled (by exact hs)]
      case active => rw [accept_settled (by exact hs)]
      case paused => rw [accept_settled hs]
      case draining => rw [refuse_settled hs]
    · simp only [ne_eq, howner, not_false_eq_true, if_true]
      rw [refuse_settled hs]
  · intro p r i j s hs hw hi hj
    have hof : s.jobOf ⟨i, r[3]⟩ = some j := State.jobOf_eq_some.2 hj
    show Host.Outcome.next (s.takeCommand p 18 (resumeJob p)) = _
    rw [State.takeCommand_waiting hw, resumeJob, onJob_live hi hj]
    by_cases howner : j.owner = p
    · subst howner
      cases hstate : j.state <;> simp only [ne_eq, not_true, if_false, if_true, reduceCtorEq, or_true, or_false]
      case queued => rw [accept_settled hs]
      case active => rw [accept_settled hs]
      case draining => rw [refuse_settled hs]
      case paused =>
        rw [State.resume, State.modJob_eq hof]
        by_cases hready : s.images[j.image].state = .ready
        · simp only [hready, decide_true, if_true]
          rfl
        · simp only [hready, decide_false, Bool.false_eq_true, if_false]
          rw [accept_settled (by exact hs)]
    · simp only [ne_eq, howner, not_false_eq_true, if_true]
      rw [refuse_settled hs]

/-! ## CANCEL-JOB and KILL-JOB -/

/-- Settles O25: past the owner's check and the state's the job drains. -/
theorem cancelAndKillDrainTheJob : Obligations.CancelAndKillDrainTheJob := by
  intro p r i j s hs hi hj
  have hbar : s.barredFrom (some j.owner) p = true ↔ j.owner ≠ p ∧ s.key ≠ .service := by
    rw [State.barredFrom_iff]; simp
  have hkilled : (decide (j.state = .draining) && j.isKilled) = true ↔ j.state = .draining ∧ j.endReason = some .killed := by
    simp [Job.isKilled]
  refine ⟨fun hw => ?_, fun hw => ?_⟩
  · show Host.Outcome.next (s.takeCommand p 19 (cancelJob p)) = _
    rw [State.takeCommand_waiting hw, cancelJob, onJob_live hi hj]
    simp only [hbar]
    split
    · rw [refuse_settled hs]
    · split
      · rw [refuse_settled hs]
      · rw [accept_snd]; rfl
  · show Host.Outcome.next (s.takeCommand p 20 (killJob p)) = _
    rw [State.takeCommand_waiting hw, killJob, onJob_live hi hj]
    simp only [hbar, hkilled]
    split
    · rw [refuse_settled hs]
    · split
      · rw [accept_settled hs]
      · rw [accept_snd]; rfl

/-! ## SUBMIT-JOB -/

theorem imageParam_isNone (r : CommandRecord) : (imageParam r).isNone = true ↔ 7 < recordByte r 2 := by
  rw [Option.isNone_iff_eq_none, imageParam, indexBelow_eq_none]; omega

theorem submitVerify_isNone (r : CommandRecord) : (submitVerify r).isNone = true ↔ 2 < recordByte r 6 := by
  unfold submitVerify
  generalize recordByte r 6 = v
  match v with
  | 0 => simp
  | 1 => simp
  | 2 => simp
  | v + 3 => simp

theorem qualityOf_isNone (v : Nat) : (qualityOf v).isNone = true ↔ 2 < v := by
  match v with
  | 0 => simp [qualityOf]
  | 1 => simp [qualityOf]
  | 2 => simp [qualityOf]
  | v + 3 => simp [qualityOf]

theorem submitQuality_isNone (r : CommandRecord) :
    (submitQuality r).isNone = true ↔ recordByte r 3 ≠ 255 ∧ 2 < recordByte r 13 := by
  unfold submitQuality artworkGiven
  by_cases h : recordByte r 3 = 255
  · simp [h]
  · rw [if_pos (decide_eq_true h), qualityOf_isNone]
    exact ⟨fun hv => ⟨h, hv⟩, And.right⟩

theorem submitArtwork_eq_some (r : CommandRecord) (w : ArtworkId) : submitArtwork r = some w ↔ w.val = recordByte r 3 := by
  unfold submitArtwork artworkGiven
  split
  · exact indexBelow_eq_some
  · rename_i h
    have h255 : recordByte r 3 = 255 := by simpa using h
    simp; omega

theorem submitArtwork_isNone (r : CommandRecord) :
    (artworkGiven r && (submitArtwork r).isNone) = true ↔ recordByte r 3 ≠ 255 ∧ 3 < recordByte r 3 := by
  unfold submitArtwork artworkGiven
  by_cases h : recordByte r 3 = 255
  · simp [h]
  · simp [h, indexBelow_eq_none]; omega

/-- Check 1 of R30. -/
theorem submitMalformed_iff (r : CommandRecord) : submitMalformed r = true ↔
    7 < recordByte r 2 ∨ (recordByte r 3 ≠ 255 ∧ 3 < recordByte r 3) ∨ recordField r 4 2 = 0 ∨ 9999 < recordField r 4 2 ∨
      2 < recordByte r 6 ∨ (recordByte r 3 ≠ 255 ∧ 2 < recordByte r 13) := by
  simp only [submitMalformed, Bool.or_eq_true, imageParam_isNone, submitArtwork_isNone, submitVerify_isNone, submitQuality_isNone,
    decide_eq_true_eq, or_assoc]

/-- Check 3 of R30. -/
theorem speedsOk_eq_false (cls : MediaClass) (lo hi : Nat) :
    (!speedsOk cls lo hi) = true ↔ lo ∉ classSpeeds cls ∨ hi ∉ classSpeeds cls ∨ hi < lo := by
  simp only [speedsOk, Bool.not_eq_true', Bool.and_eq_false_iff, List.contains_eq_mem, decide_eq_false_iff_not, not_le, or_assoc]

/-- Check 4 of R30. -/
theorem State.artworkUnready_iff (s : State) (r : CommandRecord) :
    ((submitArtwork r).map fun a => decide (s.artworks[a].state ≠ .ready)).getD false = true ↔
      ∃ w : ArtworkId, w.val = recordByte r 3 ∧ s.artworks[w].state ≠ .ready := by
  simp only [← submitArtwork_eq_some]
  cases submitArtwork r <;> simp

theorem State.freeJobEntry_eq_none (s : State) : s.freeJobEntry = none ↔ ∀ k : TableId, s.jobs[k].job ≠ none := by
  simp only [State.freeJobEntry, List.find?_eq_none, mem_tableIds, true_implies, Option.isNone_iff_eq_none, ne_eq]

theorem submitJob_malformed {r : CommandRecord} (h : submitMalformed r = true) (p : Port) (s : State) :
    submitJob p r s = refuse .badParam s := if_pos h

/-- The parameters of a command that passes check 1. -/
theorem submit_parameters {r : CommandRecord} (h : ¬submitMalformed r = true) :
    ∃ verify quality, submitVerify r = some verify ∧ submitQuality r = some quality := by
  rw [submitMalformed_iff] at h
  push Not at h
  obtain ⟨-, -, -, -, hverify, hquality⟩ := h
  have hv : ¬(submitVerify r).isNone = true := by rw [submitVerify_isNone]; omega
  have hq : ¬(submitQuality r).isNone = true := by rw [submitQuality_isNone]; rintro ⟨h255, h2⟩; have := hquality h255; omega
  simp only [Option.isNone_iff_eq_none] at hv hq
  obtain ⟨verify, hv⟩ := Option.ne_none_iff_exists'.1 hv
  obtain ⟨quality, hq⟩ := Option.ne_none_iff_exists'.1 hq
  exact ⟨verify, quality, hv, hq⟩

theorem submitJob_freeSlot {r : CommandRecord} {i : ImageId} {s : State} (h : ¬submitMalformed r = true)
    (hi : imageParam r = some i) (hfree : s.images[i].state = .free) (p : Port) : submitJob p r s = refuse .noSuch s := by
  obtain ⟨verify, quality, hverify, hquality⟩ := submit_parameters h
  rw [submitJob, if_neg h, hi, hverify, hquality]
  dsimp only
  split
  · rfl
  · exact if_pos hfree

/-- Checks 3 to 5 of R30, on an image slot that is not FREE. -/
theorem submitJob_refused {r : CommandRecord} {i : ImageId} {s : State} {cls : MediaClass} {code : ResultCode}
    (h : ¬submitMalformed r = true) (hi : imageParam r = some i) (hslot : s.images[i].state ≠ .free)
    (hcls : s.images[i].cls = some cls)
    (hcode : (if recordByte r 8 ∉ classSpeeds cls ∨ recordByte r 9 ∉ classSpeeds cls ∨ recordByte r 9 < recordByte r 8 then
        some ResultCode.badParam
      else if ∃ w : ArtworkId, w.val = recordByte r 3 ∧ s.artworks[w].state ≠ .ready then some .notReady
      else if ∀ k : TableId, s.jobs[k].job ≠ none then some .noSpace
      else none) = some code) (p : Port) : submitJob p r s = refuse code s := by
  obtain ⟨verify, quality, hverify, hquality⟩ := submit_parameters h
  simp only [← speedsOk_eq_false, ← State.artworkUnready_iff, ← State.freeJobEntry_eq_none] at hcode
  rw [submitJob, if_neg h, hi, hverify, hquality]
  dsimp only
  rw [hcls]
  dsimp only
  rw [if_neg hslot]
  split at hcode
  · rename_i hspeeds
    cases hcode
    exact if_pos hspeeds
  · rename_i hspeeds
    rw [if_neg hspeeds]
    split at hcode
    · rename_i hartwork
      cases hcode
      exact if_pos hartwork
    · rename_i hartwork
      rw [if_neg hartwork]
      split at hcode
      · rename_i hfull
        cases hcode
        rw [hfull]
      · cases hcode

/-- A command that passes every check admits its job (R32). -/
theorem submitJob_admitted {r : CommandRecord} {i : ImageId} {s : State} {cls : MediaClass} {verify : VerifyMode} {quality : Quality}
    {k : TableId} (h : ¬submitMalformed r = true) (hi : imageParam r = some i) (hverify : submitVerify r = some verify)
    (hquality : submitQuality r = some quality) (hslot : s.images[i].state ≠ .free) (hcls : s.images[i].cls = some cls)
    (hspeeds : speedsOk cls (recordByte r 8) (recordByte r 9) = true)
    (hartwork : ∀ w : ArtworkId, w.val = recordByte r 3 → s.artworks[w].state = .ready) (hfree : s.freeJobEntry = some k)
    (p : Port) (st : JobState) (hst : st = if s.images[i].state = .ready then .active else .queued) :
    submitJob p r s = acceptWith [byteOf k.val, s.jobs[k].generation, byteOf (if st = .active then 1 else 0)]
      (s.admitJob k (submittedJob p r i verify quality st s.liveJobs.length)) := by
  have hready : ¬((submitArtwork r).map fun a => decide (s.artworks[a].state ≠ .ready)).getD false = true := by
    rw [State.artworkUnready_iff]
    rintro ⟨w, hw, hne⟩
    exact hne (hartwork w hw)
  rw [submitJob, if_neg h, hi, hverify, hquality]
  dsimp only
  rw [hcls]
  dsimp only
  rw [if_neg hslot, hspeeds, if_neg (by decide), if_neg hready, hfree, hst]

/-- The values that R31 clamps. -/
theorem submitTolerance_eq (r : CommandRecord) :
    submitTolerance r = if recordByte r 10 = 255 then 2 else min 15 (recordByte r 10) := by
  unfold submitTolerance clampTo
  split
  · rfl
  · rw [if_neg (by omega)]; split <;> omega

theorem clampTo_one_eight (v : Nat) : clampTo 1 8 v = max 1 (min 8 v) := by
  unfold clampTo; (repeat' split) <;> omega

/-- The admission of a job: its entry, its references, and the claim attempt that an ACTIVE job owes (R32). -/
theorem State.admitJob_eq (s : State) (k : TableId) (j : Job) : s.admitJob k j =
    let entered := (s.setJobEntry k ⟨s.jobs[k].generation, some j⟩).modImage j.image fun v => { v with refcount := v.refcount + 1 }
    let referred := j.artwork.elim entered fun w => entered.modArtwork w fun v => { v with refcount := v.refcount + 1 }
    if j.state = .active then referred.oweClaim else referred := by
  unfold State.admitJob
  cases j.artwork <;> rfl

/-- Settles O22: the checks in order, then the admission of a job without and with an artwork. -/
theorem submitJobAdmits : Obligations.SubmitJobAdmits := by
  constructor
  · intro p r s hs hw malformed
    refine ⟨fun h => congrArg _ (State.takeCommand_refused hs hw (submitJob_malformed ((submitMalformed_iff r).2 h) p s)),
      fun i hi hwell => ?_⟩
    have hm : ¬submitMalformed r = true := fun h => hwell ((submitMalformed_iff r).1 h)
    have hparam : imageParam r = some i := indexBelow_eq_some.2 hi
    exact ⟨fun hfree => congrArg _ (State.takeCommand_refused hs hw (submitJob_freeSlot hm hparam hfree p)),
      fun cls hslot hcls code hcode =>
        congrArg _ (State.takeCommand_refused hs hw (submitJob_refused hm hparam hslot hcls hcode p))⟩
  · intro p r i cls verify k s hs hw hi hlow hhigh hverify hslot hcls hlo hhi hle hfree st job admitted reply
    have hwell (hartwork : recordByte r 3 = 255 ∨ recordByte r 3 ≤ 3 ∧ recordByte r 13 ≤ 2) : ¬submitMalformed r = true := by
      have himage : ¬(imageParam r).isNone = true := by simp [hi]
      have hmode : ¬(submitVerify r).isNone = true := by simp [hverify]
      rw [imageParam_isNone] at himage
      rw [submitVerify_isNone] at hmode
      rw [submitMalformed_iff]
      omega
    have hspeeds : speedsOk cls (recordByte r 8) (recordByte r 9) = true := by
      rw [speedsOk, hlo, hhi, decide_eq_true hle]; rfl
    have hjob (artwork : Option ArtworkId) (quality : Quality) (h : submitArtwork r = artwork) :
        submittedJob p r i verify quality st s.liveJobs.length = job artwork quality := by
      simp only [submittedJob, job, h, submitTolerance_eq, clampTo_one_eight]
    have hbyte : byteOf (if st = .active then 1 else 0) = if s.images[i].state = .ready then 1 else 0 := by
      dsimp only [st]; split <;> rfl
    have admits (artwork : Option ArtworkId) (quality : Quality) (hm : ¬submitMalformed r = true)
        (h : submitArtwork r = artwork) (hq : submitQuality r = some quality)
        (hready : ∀ w : ArtworkId, w.val = recordByte r 3 → s.artworks[w].state = .ready) :
        exec (.submitJob p) s = .next ((s.admitJob k (job artwork quality)).settle.replied p reply) := by
      show Host.Outcome.next (s.takeCommand p 16 (submitJob p)) = _
      rw [State.takeCommand_waiting hw, submitJob_admitted hm hi hverify hq hslot hcls hspeeds hready hfree p st rfl,
        hjob artwork quality h, hbyte]
      rfl
    have settles (u : State) (hu : u.settled) : (if st = .active then u.oweClaim else u).settle.replied p reply =
        if s.images[i].state = .ready then u.oweClaim.settle.replied p reply else u.replied p reply := by
      by_cases hready : s.images[i].state = .ready
      · rw [if_pos (show st = .active from if_pos hready), if_pos hready]
      · rw [if_neg (show ¬st = .active by rw [show st = .queued from if_neg hready]; decide), if_neg hready,
          State.settle_of_settled hu]
    refine ⟨fun hnone => ?_, fun w quality hw3 hquality hready => ?_⟩
    · have hnoArtwork : submitArtwork r = none := by rw [submitArtwork, artworkGiven, hnone]; rfl
      have hnormal : submitQuality r = some .normal := by rw [submitQuality, artworkGiven, hnone]; rfl
      rw [admits none .normal (hwell (.inl hnone)) hnoArtwork hnormal fun w hw3 => by omega, State.admitJob_eq]
      exact congrArg _ (settles (admitted none .normal) hs)
    · have hgiven : recordByte r 3 ≠ 255 := by omega
      have hqualityOk : ¬(qualityOf (recordByte r 13)).isNone = true := by simp [hquality]
      rw [qualityOf_isNone] at hqualityOk
      have hq : submitQuality r = some quality := by
        rw [submitQuality, artworkGiven, decide_eq_true hgiven]; exact hquality
      rw [admits (some w) quality (hwell (.inr ⟨by omega, by omega⟩)) ((submitArtwork_eq_some r w).2 hw3) hq fun w' hw' => by
        rwa [show w' = w from Fin.ext (hw'.trans hw3.symm)], State.admitJob_eq]
      exact congrArg _ (settles ((admitted (some w) quality).modArtwork w fun v => { v with refcount := v.refcount + 1 }) hs)

end Sys2Proof.Machine
end

