-- ==== Sys2Proof/Proofs/FollowUps.lean ====
section
/-! The follow-up computations of an event (log 12): what they leave alone (R46, R101, R108, R114, R129, R132), and that every step
ends with none of them owed. -/

namespace Sys2Proof.Machine

/-! ## What the claim attempt, the start computation, the arm and the read channel leave alone -/

/-- The ports, the images, the artwork, and the printer but for its fetch request. -/
def State.standing (s : State) := (s.ports, s.images, s.artworks, { s.printer with request := none })

@[simp] theorem State.modLane_standing (s : State) (n : LaneId) (f : Lane → Lane) : (s.modLane n f).standing = s.standing := rfl
@[simp] theorem State.setDisc_standing (s : State) (i : TableId) (d : Option Disc) : (s.setDisc i d).standing = s.standing := rfl
@[simp] theorem State.setJobEntry_standing (s : State) (i : TableId) (e : JobEntry) :
    (s.setJobEntry i e).standing = s.standing := rfl
@[simp] theorem State.modArm_standing (s : State) (f : Arm → Arm) : (s.modArm f).standing = s.standing := rfl
@[simp] theorem State.setCrc_standing (s : State) (k : Fin 2) (v : CrcChannel) : (s.setCrc k v).standing = s.standing := rfl
@[simp] theorem State.setRotation_standing (s : State) (v : Port) : (s.setRotation v).standing = s.standing := rfl
@[simp] theorem State.setStartQueue_standing (s : State) (v : List LaneId) : (s.setStartQueue v).standing = s.standing := rfl
@[simp] theorem State.setChannel_standing (s : State) (v : Option Transfer) : (s.setChannel v).standing = s.standing := rfl
@[simp] theorem State.setVerifyQueue_standing (s : State) (v : List VerifyEntry) :
    (s.setVerifyQueue v).standing = s.standing := rfl
@[simp] theorem State.setDue_standing (s : State) (v : Due) : (s.setDue v).standing = s.standing := rfl
@[simp] theorem State.oweArm_standing (s : State) : s.oweArm.standing = s.standing := rfl
@[simp] theorem State.oweSelect_standing (s : State) : s.oweSelect.standing = s.standing := rfl
@[simp] theorem State.oweGrant_standing (s : State) : s.oweGrant.standing = s.standing := rfl
@[simp] theorem State.emit_standing (s : State) (o : Output) : (s.emit o).standing = s.standing := rfl
@[simp] theorem State.sendDrive_standing (s : State) (n : LaneId) (v : DriveMessage) :
    (s.sendDrive n v).standing = s.standing := rfl
@[simp] theorem State.startTimer_standing (s : State) (n : LaneId) (limit : Nat) :
    (s.startTimer n limit).standing = s.standing := rfl
@[simp] theorem State.modRequest_standing (s : State) (age : Nat) (f : Request → Request) :
    (s.modRequest age f).standing = s.standing := rfl
@[simp] theorem State.queueRequest_standing (s : State) (kind : RequestKind) (n : Option LaneId) (cls : Option MediaClass) :
    (s.queueRequest kind n cls).standing = s.standing := rfl
@[simp] theorem State.enterFeedWait_standing (s : State) (n : LaneId) : (s.enterFeedWait n).standing = s.standing := rfl
@[simp] theorem State.armToIdle_standing (s : State) : s.armToIdle.standing = s.standing := rfl
@[simp] theorem State.setAside_standing (s : State) : s.setAside.standing = s.standing := rfl

@[simp] theorem State.modJob_standing (s : State) (h : Handle) (f : Job → Job) : (s.modJob h f).standing = s.standing := by
  unfold State.modJob; split <;> rfl

@[simp] theorem State.modDiscAt_standing (s : State) (loc : Location) (f : Disc → Disc) :
    (s.modDiscAt loc f).standing = s.standing := by
  unfold State.modDiscAt; split <;> rfl

@[simp] theorem State.claim_standing (s : State) (h : Handle) (j : Job) (n : LaneId) : (s.claim h j n).standing = s.standing := by
  unfold State.claim; dsimp only; split <;> simp

@[simp] theorem State.claimRounds_standing (k : Nat) (s : State) : (State.claimRounds k s).standing = s.standing := by
  induction k generalizing s with
  | zero => rfl
  | succ k ih =>
    unfold State.claimRounds State.claimOne
    split
    · rfl
    · rename_i t ht
      split at ht
      · cases ht
      · obtain ⟨n, -, rfl⟩ := Option.map_eq_some_iff.1 ht
        simp [ih]

@[simp] theorem State.claimAttempt_standing (s : State) : s.claimAttempt.standing = s.standing := State.claimRounds_standing 8 s

@[simp] theorem State.startLane_standing (s : State) (n : LaneId) (speed : Nat) : (s.startLane n speed).standing = s.standing := by
  simp [State.startLane]

@[simp] theorem State.startScan_standing (l : List LaneId) (s : State) : (State.startScan l s).standing = s.standing := by
  induction l generalizing s with
  | nil => rfl
  | cons n rest ih => unfold State.startScan; split <;> simp [ih]

@[simp] theorem State.startComputation_standing (s : State) : s.startComputation.standing = s.standing :=
  State.startScan_standing _ s

@[simp] theorem State.sendTray_standing (s : State) (n : LaneId) (v : TrayCommand) : (s.sendTray n v).standing = s.standing := by
  unfold State.sendTray; split <;> rfl

@[simp] theorem State.faultUnload_standing (s : State) (n : LaneId) : (s.faultUnload n).standing = s.standing := by
  unfold State.faultUnload; split <;> simp

@[simp] theorem State.issueStep_standing (s : State) (v : ArmStep) : (s.issueStep v).standing = s.standing := by
  unfold State.issueStep; split <;> rfl

@[simp] theorem State.issueBinPick_standing (s : State) : s.issueBinPick.standing = s.standing := by
  unfold State.issueBinPick; split <;> simp

theorem State.goTo_standing (s : State) (p : Position) (next : State → State) (h : (next s).standing = s.standing) :
    (s.goTo p next).standing = s.standing := by
  unfold State.goTo; split
  · exact h
  · simp

@[simp] theorem State.deliver_standing (s : State) (d : Destination) : (s.deliver d).standing = s.standing := by
  cases d <;> refine s.goTo_standing _ _ ?_ <;> split <;> simp

@[simp] theorem State.pickFromBin_standing (s : State) (which : Bin) : (s.pickFromBin which).standing = s.standing := by
  refine s.goTo_standing _ _ ?_
  dsimp only
  (repeat' split) <;> simp

@[simp] theorem State.deliverFeed_standing (s : State) (r : Request) : (s.deliverFeed r).standing = s.standing := by
  unfold State.deliverFeed
  split
  · rfl
  · split
    · simp
    · simp
    · refine s.goTo_standing _ _ ?_; split <;> simp

@[simp] theorem State.armNext_standing (s : State) : s.armNext.standing = s.standing := by
  unfold State.armNext
  split
  · split
    · simp
    · rfl
    · simp
    · refine s.goTo_standing _ _ ?_; split <;> simp
    · rfl
    · exact s.goTo_standing _ _ (s.issueStep_standing _)
  · (repeat' split) <;> simp

@[simp] theorem State.armContinue_standing (s : State) : s.armContinue.standing = s.standing := by
  unfold State.armContinue; split <;> simp

@[simp] theorem State.tellSelected_standing (s : State) (r : Request) : (s.tellSelected r).standing = s.standing := by
  unfold State.tellSelected State.enterOpening; (repeat' split) <;> simp

@[simp] theorem State.select_standing (s : State) : s.select.standing = s.standing := by
  unfold State.select State.takeUp; dsimp only; (repeat' split) <;> simp

@[simp] theorem State.chooseGrant_standing (s : State) : s.chooseGrant.standing = s.standing := by
  unfold State.chooseGrant State.grantTo; (repeat' split) <;> rfl

theorem State.when_standing (s : State) (owed : Bool) (f : State → State) (h : ∀ t, (f t).standing = t.standing) :
    (s.when owed f).standing = s.standing := by
  unfold State.when; split
  · exact h s
  · rfl

/-! ## The grants of CRC channels -/

/-- From `s` to `t` the ports, the artwork and the printer but for its fetch request stay as they are, and of an image slot at most its
state changes, from LOAD_WAIT to LOADING. -/
structure State.LoadsBegin (s t : State) : Prop where
  ports : t.ports = s.ports
  artworks : t.artworks = s.artworks
  printer : t.printer = { s.printer with request := t.printer.request }
  images : ∀ i : ImageId, t.images[i] = { s.images[i] with state := t.images[i].state } ∧
    (t.images[i].state = s.images[i].state ∨ (s.images[i].state = .loadWait ∧ t.images[i].state = .loading))

theorem State.LoadsBegin.of_standing {s t : State} (h : t.standing = s.standing) : s.LoadsBegin t := by
  simp only [State.standing, Prod.mk.injEq] at h
  obtain ⟨hports, himages, hartworks, hprinter⟩ := h
  exact ⟨hports, hartworks, congrArg (fun v => { v with request := t.printer.request }) hprinter,
    fun i => himages ▸ ⟨rfl, .inl rfl⟩⟩

theorem State.LoadsBegin.trans {s t u : State} (h : s.LoadsBegin t) (h' : t.LoadsBegin u) : s.LoadsBegin u := by
  refine ⟨h'.ports.trans h.ports, h'.artworks.trans h.artworks, ?_, fun i => ?_⟩
  · rw [h'.printer, h.printer]
  · obtain ⟨hslot, hstate⟩ := h.images i
    obtain ⟨hslot', hstate'⟩ := h'.images i
    refine ⟨by rw [hslot', hslot], ?_⟩
    rcases hstate with heq | ⟨hwait, hloading⟩
    · rwa [heq] at hstate'
    · rcases hstate' with heq' | ⟨hwait', -⟩
      · exact .inr ⟨hwait, heq'.trans hloading⟩
      · rw [hloading] at hwait'; cases hwait'

theorem State.loadBegins_loadsBegin (s : State) (i : ImageId) : s.LoadsBegin (s.loadBegins i) := by
  refine ⟨rfl, rfl, rfl, fun k => ?_⟩
  unfold State.loadBegins
  by_cases hk : k = i
  · subst hk
    rw [State.modImage_same]
    split
    · rename_i hwait; exact ⟨rfl, .inr ⟨hwait, rfl⟩⟩
    · exact ⟨rfl, .inl rfl⟩
  · rw [State.modImage_other _ _ _ _ hk]
    exact ⟨rfl, .inl rfl⟩

@[simp] theorem State.sendReads_standing (n : LaneId) (l : List Nat) (s : State) : (State.sendReads n l s).standing = s.standing := by
  induction l generalizing s with
  | nil => rfl
  | cons i rest ih => rw [State.sendReads, ih]; rfl

theorem State.startWork_loadsBegin (s : State) (c : Fin 2) (w : VerifyWork) : s.LoadsBegin (s.startWork c w) := by
  cases w with
  | verify n serial => exact .of_standing (by simp [State.startWork])
  | source n i =>
    exact (State.LoadsBegin.of_standing rfl).trans
      ((State.loadBegins_loadsBegin _ i).trans (.of_standing (State.sendReads_standing _ _ _)))
  | bulk p i => exact (State.LoadsBegin.of_standing (State.setCrc_standing _ _ _)).trans (State.loadBegins_loadsBegin _ i)

theorem State.crcRounds_loadsBegin (k : Nat) (s : State) : s.LoadsBegin (State.crcRounds k s) := by
  induction k generalizing s with
  | zero => exact .of_standing rfl
  | succ k ih =>
    unfold State.crcRounds
    split
    · exact .of_standing rfl
    · split
      · exact .of_standing rfl
      · rename_i q w _
        exact ((State.LoadsBegin.of_standing (s.setVerifyQueue_standing q)).trans (State.startWork_loadsBegin _ _ w)).trans (ih _)

/-- What the follow-up computations do to ports, images, artwork and printer. -/
theorem State.settle_loadsBegin (s : State) : s.LoadsBegin s.settle := by
  have hcrc : s.LoadsBegin (s.when s.due.crc State.crcGrants) := by
    unfold State.when; split
    · exact State.crcRounds_loadsBegin 2 s
    · exact .of_standing rfl
  refine hcrc.trans (.of_standing ?_)
  simp [State.settle, State.settleClaims, State.settleChannel, State.when_standing]

/-! ## Nothing is owed after a step -/

@[simp] theorem State.settle_settled (s : State) : s.settle.settled := rfl

@[simp] theorem State.settle_due (s : State) : s.settle.due = Due.nothing := rfl

theorem State.settled_of_due {s t : State} (h : t.due = s.due) (hs : s.settled) : t.settled := h.trans hs

@[simp] theorem State.notifyOpt_due (s : State) (p : Option Port) (v : Notice) : (s.notifyOpt p v).due = s.due := by
  cases p <;> rfl

@[simp] theorem State.raise_due (s : State) (g : Group) (v : Notice) : (s.raise g v).due = s.due := by
  rw [State.raise_ports_only]

@[simp] theorem State.modDiscAt_due (s : State) (loc : Location) (f : Disc → Disc) : (s.modDiscAt loc f).due = s.due := by
  rw [State.modDiscAt_eq]

@[simp] theorem State.sendTray_due (s : State) (n : LaneId) (v : TrayCommand) : (s.sendTray n v).due = s.due := by
  unfold State.sendTray; split <;> rfl

@[simp] theorem State.enterClosing_due (s : State) (n : LaneId) (v : Option TrayPurpose) : (s.enterClosing n v).due = s.due :=
  s.sendTray_due n _

@[simp] theorem State.streamReceives_due (s : State) (v : Stream) (k : Nat) : (s.streamReceives v k).due = s.due := by
  cases v <;> rfl

@[simp] theorem State.finishArtworkLoad_due (s : State) (p : Port) (i : ArtworkId) : (s.finishArtworkLoad p i).due = s.due := by
  simp [State.finishArtworkLoad]

@[simp] theorem State.deriveKey_due (s : State) : s.deriveKey.due = s.due := by
  unfold State.deriveKey; dsimp only; split <;> simp

@[simp] theorem State.countReadings_due (readings : BitVec 32) (l : List Sensor) (s : State) :
    (State.countReadings readings l s).due = s.due := by
  induction l generalizing s with
  | nil => rfl
  | cons v rest ih => exact ih _

theorem State.changeEvents_settled (startUp : Bool) (readings : BitVec 32) (l : List Sensor) {s : State} (hs : s.settled) :
    (State.changeEvents startUp readings l s).settled := by
  induction l generalizing s with
  | nil => exact hs
  | cons v rest ih => exact ih (State.settle_settled _)

/-- A command that is taken ends settled; one that is not leaves what is owed. -/
theorem State.takeCommand_settled {s : State} (hs : s.settled) (p : Port) (code : Nat)
    (meaning : CommandRecord → State → Reply × State) : (s.takeCommand p code meaning).settled := by
  unfold State.takeCommand
  split
  · rfl
  · split
    · exact hs
    · rfl

/-- Every command ends settled. -/
theorem exec_settled (c : Instr) {s : State} (hs : s.settled) : nextHas State.settled (exec c s) := by
  have hdue : s.due = Due.nothing := hs
  cases c with
  | powerOnReset => rfl
  | linkReset p => dsimp only [exec, execLinkReset]; rw [nextHas_next]; split <;> [exact hs; rfl]
  | linkResetRelease p => exact hs
  | putCommands p records => dsimp only [exec, execPutCommands]; split <;> exact hs
  | takeNotices p n => dsimp only [exec, execTakeNotices]; split <;> exact hs
  | bulkWrite p bytes => dsimp only [exec, execBulkWrite]; split <;> simp [State.settled, hdue]
  | bulkRead p n => dsimp only [exec, execBulkRead]; (repeat' split) <;> simp [State.settled, hdue]
  | linkStatus p => exact hs
  | unknownTransaction p => exact hs
  | replyReturn p => dsimp only [exec, execReplyReturn]; (repeat' split) <;> exact hs
  | badCommand p => dsimp only [exec, execBadCommand]; (repeat' split) <;> exact hs
  | setAttention p =>
    have taken := State.takeCommand_settled hs p 49 (setAttention p)
    dsimp only [exec, execSetAttention]
    split <;> exact taken
  | attentionHoldExpiry p => exact hs
  | imageStagingWrite p count => dsimp only [exec, execImageStagingWrite]; (repeat' split) <;> simp [State.settled, hdue]
  | artworkStagingWrite p count => dsimp only [exec, execArtworkStagingWrite]; (repeat' split) <;> simp [State.settled, hdue]
  | ident n buffer burnsL burnsM => dsimp only [exec, execIdent]; (repeat' split) <;> simp [State.settled, hdue]
  | trayState n pos => rfl
  | media n report => dsimp only [exec, execMedia]; (repeat' split) <;> simp [State.settled, hdue]
  | credit n freed committed => dsimp only [exec, execCredit]; (repeat' split) <;> simp [State.settled, hdue]
  | bufferEmpty n => dsimp only [exec, execBufferEmpty]; split <;> simp [State.settled, hdue]
  | writeRecovered n => dsimp only [exec, execWriteRecovered]; split <;> simp [State.settled, hdue]
  | writeError n => dsimp only [exec, execWriteError]; split <;> simp [State.settled, hdue]
  | finalizeDone n => dsimp only [exec, execFinalizeDone]; (repeat' split) <;> simp [State.settled, hdue]
  | readData n index data => dsimp only [exec, execReadData]; (repeat' split) <;> simp [State.settled, hdue]
  | readFail n index => dsimp only [exec, execReadFail]; (repeat' split) <;> simp [State.settled, hdue]
  | error n code => rfl
  | driveMalformedMessage n => rfl
  | laneTimerExpiry n => dsimp only [exec, execLaneTimerExpiry]; (repeat' split) <;> simp [State.settled, hdue]
  | transferCompletion => dsimp only [exec, execTransferCompletion]; (repeat' split) <;> simp [State.settled, hdue]
  | armStepDone => dsimp only [exec, execArmStepDone]; split <;> simp [State.settled, hdue]
  | armDriverFault => dsimp only [exec, execArmDriverFault]; split <;> simp [State.settled, hdue]
  | armStepTimeout => dsimp only [exec, execArmStepTimeout]; split <;> simp [State.settled, hdue]
  | sensorScan readings order =>
    have hcounted : (State.countReadings readings allSensors (s.setScans (min 3 (s.scans + 1)))).settled :=
      State.settled_of_due (State.countReadings_due _ _ _) hs
    have hevents := State.changeEvents_settled (decide (s.scans < 3)) readings (s.changedSensors readings order) hcounted
    dsimp only [exec, execSensorScan]
    rw [nextHas_next]
    split
    · exact State.settled_of_due (State.deriveKey_due _) hevents
    · exact hevents
  | trayDone disc => dsimp only [exec, execTrayDone]; split <;> simp [State.settled, hdue]
  | bandDone band => dsimp only [exec, execBandDone]; (repeat' split) <;> simp [State.settled, hdue]
  | temp reading => dsimp only [exec, execTemp]; (repeat' split) <;> simp [State.settled, hdue]
  | printerError code => dsimp only [exec, execPrinterError, State.printerErrorTaken]; rw [nextHas_next]; split <;> simp [State.settled, hdue]
  | printerMalformedReport =>
    dsimp only [exec, execPrinterMalformedReport, State.printerErrorTaken]; rw [nextHas_next]; split <;> simp [State.settled, hdue]
  | printerTimeout => dsimp only [exec, execPrinterTimeout]; split <;> simp [State.settled, hdue]
  | bandWaitExpiry => dsimp only [exec, execBandWaitExpiry]; split <;> simp [State.settled, hdue]
  | _ p => exact State.takeCommand_settled hs _ _ _

/-- Settles O57: commands end settled (`exec_settled`); what the follow-up computations leave alone is said by `settle_quiet`,
`settle_store` and `settle_loadsBegin`. -/
theorem followUpsLeaveTheRestAlone : Obligations.FollowUpsLeaveTheRestAlone := by
  refine ⟨fun s t hs h => ?_, fun s => ?_⟩
  · unfold step at h
    split at h
    · cases h; exact hs
    · rename_i c rest _
      exact nextHas_of_eq (exec_settled c (s := { s with pending := rest }) hs) h
  · have hquiet := s.settle_quiet
    simp only [State.quiet, Prod.mk.injEq] at hquiet
    obtain ⟨hpending, hnow, hmem, hbudget, hserial, hbinA, hbinB, houtput, hreject, hsensors, hscans, hkey⟩ := hquiet
    obtain ⟨-, hpool, -⟩ := (State.store_eq_iff _ _).1 s.settle_store
    obtain ⟨hports, hartworks, hprinter, himages⟩ := s.settle_loadsBegin
    exact ⟨s.settle_settled, State.settle_of_settled, hports, hmem, hpool, hartworks, hbudget, hserial, hnow, hpending, hsensors,
      hkey, hscans, hbinA, hbinB, houtput, hreject, hprinter, himages⟩

end Sys2Proof.Machine
end

