-- ==== Sys2Proof/Proofs/Claims.lean ====
section
/-! Claims and offers of blanks (R43 to R47): which job is served first and which lane it takes; MEDIA in PROBING (R55, R72, R74). -/

namespace Sys2Proof.Machine

/-! ## The lowest index -/

theorem find_laneIds (p : LaneId → Bool) : laneIds.find? p = Fin.find? p :=
  (Fin.find?_eq_find?_finRange (p := p)).symm

theorem find_tableIds (p : TableId → Bool) : tableIds.find? p = Fin.find? p :=
  (Fin.find?_eq_find?_finRange (p := p)).symm

/-- The entry at a location is the lowest one whose disc stands there (R54). -/
theorem State.discIndexAt_eq_some {s : State} {loc : Location} {i : TableId} :
    s.discIndexAt loc = some i ↔
      (∃ d, s.discs[i] = some d ∧ d.location = loc) ∧ ∀ k < i, ∀ x, s.discs[k] = some x → x.location ≠ loc := by
  unfold State.discIndexAt
  rw [find_tableIds]
  refine Fin.find?_eq_some_iff.trans (and_congr ?_ (forall₂_congr fun k _ => ?_))
  · cases s.discs[i] <;> simp
  · cases s.discs[k] <;> simp

/-! ## What a claim asks for (R43) -/

/-- The job is live and wants another lane. -/
def State.JobWants (s : State) (e : Handle × Job) : Prop :=
  s.jobs[e.1.index] = ⟨e.1.generation, some e.2⟩ ∧ e.2.state = .active ∧ e.2.good + e.2.inFlight < e.2.copies ∧
    e.2.lanesHeld < e.2.laneLimit

/-- The blank in the lane's tray is of the class of the job's image, with room for it. -/
def State.TrayFits (s : State) (j : Job) (n : LaneId) : Prop :=
  ∃ d, s.discAt (.tray n) = some d ∧ d.cls.isSome ∧ d.cls = s.images[j.image].cls ∧ s.images[j.image].segments ≤ d.capacity

/-- The lane holds no job and carries no quarantine mark. -/
def State.LaneFree (s : State) (n : LaneId) : Prop := s.lanes[n].job = none ∧ s.lanes[n].quarantine = false

/-- A SPARE lane that the job can take. -/
def State.SpareFor (s : State) (j : Job) (n : LaneId) : Prop := s.lanes[n].state = .spare ∧ s.LaneFree n ∧ s.TrayFits j n

/-- An IDLE lane that the job can take. -/
def State.IdleFor (s : State) (j : Job) (n : LaneId) : Prop :=
  s.lanes[n].state = .idle ∧ s.LaneFree n ∧ ∃ cls id, s.images[j.image].cls = some cls ∧ s.lanes[n].identity = some id ∧
    (cls = .l → id.burnsL = true) ∧ (cls = .m → id.burnsM = true) ∧ ∃ which, s.binRecord which = ⟨cls, true, false⟩

/-- The job wants a lane, and there is one that it can take. -/
def State.Eligible (s : State) (e : Handle × Job) : Prop := s.JobWants e ∧ ∃ n, s.SpareFor e.2 n ∨ s.IdleFor e.2 n

/-- The job, given up by `h`'s, takes the blank in the lane's tray (R47). -/
def State.Takes (s : State) (n : LaneId) (h : Handle) (e : Handle × Job) : Prop :=
  e.1 ≠ h ∧ s.JobWants e ∧ s.lanes[n].quarantine = false ∧ s.TrayFits e.2 n

/-- Of those that are able, the job of the client first in turn after the rotation pointer, and of its jobs the one of lowest rank
(R44 step 1). -/
def State.FirstInTurn (s : State) (able : Handle × Job → Prop) (e : Handle × Job) : Prop :=
  able e ∧ ∀ x, able x → x = e ∨ (e.2.owner - (s.rotation + 1)).val < (x.2.owner - (s.rotation + 1)).val ∨
    (e.2.owner = x.2.owner ∧ e.2.rank < x.2.rank)

theorem State.jobWants_iff {s : State} {e : Handle × Job} : s.JobWants e ↔ e ∈ s.liveJobs ∧ e.2.wantsLane = true := by
  rw [State.mem_liveJobs, State.JobWants]
  simp only [Job.wantsLane, Bool.and_eq_true, decide_eq_true_eq, and_assoc]

theorem blankFits_iff {d : Disc} {v : ImageSlot} :
    blankFits d v = true ↔ d.cls.isSome ∧ d.cls = v.cls ∧ v.segments ≤ d.capacity := by
  simp only [blankFits, Bool.and_eq_true, decide_eq_true_eq, and_assoc]

theorem State.trayFits_iff {s : State} {j : Job} {n : LaneId} :
    s.TrayFits j n ↔ ∃ d, s.discAt (.tray n) = some d ∧ blankFits d s.images[j.image] = true := by
  simp only [State.TrayFits, blankFits_iff]

theorem State.spareFree_iff {s : State} {j : Job} {n : LaneId} : s.spareFree s.images[j.image] n = true ↔ s.SpareFor j n := by
  rw [State.SpareFor, State.LaneFree, State.trayFits_iff]
  unfold State.spareFree
  cases s.discAt (.tray n) <;> simp [-Fin.getElem_fin, and_assoc]

theorem BinRecord.serves_iff {v : BinRecord} {cls : MediaClass} : v.serves cls = true ↔ v = ⟨cls, true, false⟩ := by
  obtain ⟨c, present, fault⟩ := v
  simp only [BinRecord.serves, Bool.and_eq_true, decide_eq_true_eq, Bool.not_eq_true', BinRecord.mk.injEq, and_assoc]

theorem State.binUsable_iff {s : State} {cls : MediaClass} :
    s.binUsable cls = true ↔ ∃ which, s.binRecord which = ⟨cls, true, false⟩ := by
  simp only [State.binUsable, Bool.or_eq_true, BinRecord.serves_iff]
  constructor
  · rintro (ha | hb)
    · exact ⟨.a, ha⟩
    · exact ⟨.b, hb⟩
  · rintro ⟨which, hserves⟩
    cases which with
    | a => exact .inl hserves
    | b => exact .inr hserves

theorem Identity.lists_iff {id : Identity} {cls : MediaClass} :
    id.lists cls = true ↔ (cls = .l → id.burnsL = true) ∧ (cls = .m → id.burnsM = true) := by
  cases cls <;> simp [Identity.lists]

theorem State.idleFree_iff {s : State} {j : Job} {n : LaneId} : s.idleFree s.images[j.image] n = true ↔ s.IdleFor j n := by
  unfold State.idleFree State.IdleFor State.LaneFree
  cases s.images[j.image].cls <;> cases s.lanes[n].identity <;>
    simp [-Fin.getElem_fin, Identity.lists_iff, State.binUsable_iff, and_assoc]

/-! ## The lane a claim takes (R44 step 2) -/

theorem State.laneFor_spare {s : State} {j : Job} {n : LaneId} (h : s.SpareFor j n) (hleast : ∀ m, s.SpareFor j m → n ≤ m) :
    s.laneFor j = some n := by
  have hfind : laneIds.find? (s.spareFree s.images[j.image]) = some n := by
    rw [find_laneIds, Fin.find?_eq_some_iff]
    refine ⟨State.spareFree_iff.2 h, fun m hm => ?_⟩
    rw [← Bool.not_eq_true, State.spareFree_iff]
    exact fun hspare => absurd (hleast m hspare) (Fin.not_le.2 hm)
  rw [State.laneFor, hfind]

theorem State.laneFor_noSpare {s : State} {j : Job} (h : ∀ m, ¬s.SpareFor j m) :
    s.laneFor j = laneIds.find? (s.idleFree s.images[j.image]) := by
  have hfind : laneIds.find? (s.spareFree s.images[j.image]) = none := by
    rw [find_laneIds, Fin.find?_eq_none_iff]
    intro m
    rw [← Bool.not_eq_true, State.spareFree_iff]
    exact h m
  rw [State.laneFor, hfind]

theorem State.laneFor_idle {s : State} {j : Job} {n : LaneId} (hspare : ∀ m, ¬s.SpareFor j m) (h : s.IdleFor j n)
    (hleast : ∀ m, s.IdleFor j m → n ≤ m) : s.laneFor j = some n := by
  rw [State.laneFor_noSpare hspare, find_laneIds, Fin.find?_eq_some_iff]
  refine ⟨State.idleFree_iff.2 h, fun m hm => ?_⟩
  rw [← Bool.not_eq_true, State.idleFree_iff]
  exact fun hidle => absurd (hleast m hidle) (Fin.not_le.2 hm)

theorem State.laneFor_isSome {s : State} {j : Job} : (s.laneFor j).isSome = true ↔ ∃ n, s.SpareFor j n ∨ s.IdleFor j n := by
  by_cases hspare : ∃ n, s.SpareFor j n
  · obtain ⟨n, hn⟩ := hspare
    refine iff_of_true ?_ ⟨n, .inl hn⟩
    unfold State.laneFor
    split
    · rfl
    · rename_i hnone
      rw [find_laneIds, Fin.find?_eq_none_iff] at hnone
      rw [← State.spareFree_iff, hnone n] at hn
      cases hn
  · have hnone := not_exists.1 hspare
    rw [State.laneFor_noSpare hnone, find_laneIds, Fin.isSome_find?_iff]
    simp only [State.idleFree_iff, hnone, false_or]

/-! ## The job that is served (R44 step 1) -/

/-- The choice falls on the first in turn of those that will do. -/
theorem State.chooseJob_first {s : State} {able : Handle × Job → Prop} {ok : Handle × Job → Bool} {e : Handle × Job}
    (hok : ∀ x, able x ↔ x ∈ s.liveJobs ∧ ok x = true) (h : s.FirstInTurn able e) : s.chooseJob ok = some e := by
  obtain ⟨hable, hfirst⟩ := h
  obtain ⟨hlive, hdoes⟩ := (hok e).1 hable
  cases hc : s.chooseJob ok with
  | none =>
    rw [(State.chooseJob_none s ok).1 hc e hlive] at hdoes
    cases hdoes
  | some x =>
    obtain ⟨hxlive, hxdoes, hbefore⟩ := State.chooseJob_some hc
    rcases hfirst x ((hok x).2 ⟨hxlive, hxdoes⟩) with rfl | hturn | ⟨howner, hrank⟩
    · rfl
    · rcases hbefore e hlive hdoes with hback | ⟨howner, -⟩
      · exact absurd hturn (Nat.lt_asymm hback)
      · rw [howner] at hturn
        exact absurd hturn (Nat.lt_irrefl _)
    · rcases hbefore e hlive hdoes with hback | ⟨-, hback⟩
      · rw [howner] at hback
        exact absurd hback (Nat.lt_irrefl _)
      · exact absurd hrank (Nat.not_lt.2 hback)

theorem State.chooseJob_nobody {s : State} {able : Handle × Job → Prop} {ok : Handle × Job → Bool}
    (hok : ∀ x, able x ↔ x ∈ s.liveJobs ∧ ok x = true) (h : ∀ x, ¬able x) : s.chooseJob ok = none :=
  (State.chooseJob_none s ok).2 fun e he => Bool.eq_false_iff.2 fun hdoes => h e ((hok e).2 ⟨he, hdoes⟩)

theorem State.eligible_iff (s : State) (e : Handle × Job) :
    s.Eligible e ↔ e ∈ s.liveJobs ∧ (e.2.wantsLane && (s.laneFor e.2).isSome) = true := by
  rw [State.Eligible, State.jobWants_iff, Bool.and_eq_true, State.laneFor_isSome, and_assoc]

theorem State.takes_iff {s : State} {n : LaneId} (h : Handle) {d : Disc} (hd : s.discAt (.tray n) = some d)
    (hmark : s.lanes[n].quarantine = false) (e : Handle × Job) : s.Takes n h e ↔
      e ∈ s.liveJobs ∧ (decide (e.1 ≠ h) && e.2.wantsLane && blankFits d s.images[e.2.image]) = true := by
  have hfits : s.TrayFits e.2 n ↔ blankFits d s.images[e.2.image] = true := by
    rw [State.trayFits_iff, hd]
    simp only [Option.some.injEq, exists_eq_left']
  rw [State.Takes, State.jobWants_iff, hfits]
  simp only [hmark, Bool.and_eq_true, decide_eq_true_eq, true_and]
  exact ⟨fun ⟨hne, ⟨hlive, hwants⟩, hd⟩ => ⟨hlive, ⟨hne, hwants⟩, hd⟩, fun ⟨hlive, ⟨hne, hwants⟩, hd⟩ => ⟨hne, ⟨hlive, hwants⟩, hd⟩⟩

theorem State.offerTaker_first {s : State} {n : LaneId} {h : Handle} {e : Handle × Job} (hdisc : (s.discAt (.tray n)).isSome)
    (hfirst : s.FirstInTurn (s.Takes n h) e) : s.offerTaker n h = some e := by
  obtain ⟨d, hd⟩ := Option.isSome_iff_exists.1 hdisc
  obtain ⟨-, -, hmark, -⟩ := hfirst.1
  unfold State.offerTaker
  rw [hd]
  dsimp only
  rw [hmark, if_neg Bool.false_ne_true]
  exact State.chooseJob_first (State.takes_iff h hd hmark) hfirst

theorem State.offerTaker_nobody {s : State} {n : LaneId} {h : Handle} (hdisc : (s.discAt (.tray n)).isSome)
    (hnone : ∀ e, ¬s.Takes n h e) : s.offerTaker n h = none := by
  obtain ⟨d, hd⟩ := Option.isSome_iff_exists.1 hdisc
  unfold State.offerTaker
  rw [hd]
  dsimp only
  split
  · rfl
  · rename_i hmark
    exact State.chooseJob_nobody (State.takes_iff h hd (Bool.eq_false_iff.2 hmark)) hnone

/-! ## Claims and offers (R44, R45, R47) -/

/-- The job's record with another lane held and another disc in flight (R45). -/
def State.jobGains (s : State) (h : Handle) (j : Job) : State :=
  s.setJobEntry h.index ⟨h.generation, some { j with lanesHeld := j.lanesHeld + 1, inFlight := j.inFlight + 1 }⟩

/-- The job's record with one lane and one disc in flight less (R47). -/
def State.jobGivesUp (s : State) (h : Handle) (j : Job) : State :=
  s.setJobEntry h.index ⟨h.generation, some { j with lanesHeld := j.lanesHeld - 1, inFlight := j.inFlight - 1 }⟩

theorem State.claimOne_eq {s : State} {h : Handle} {j : Job} {n : LaneId} (hfirst : s.FirstInTurn s.Eligible (h, j))
    (hlane : s.laneFor j = some n) : s.claimOne = some ((s.setRotation j.owner).claim h j n) := by
  rw [State.claimOne, State.chooseJob_first s.eligible_iff hfirst]
  dsimp only
  rw [hlane]
  rfl

theorem State.claimOne_nobody {s : State} (h : ∀ e, ¬s.Eligible e) : s.claimOne = none := by
  rw [State.claimOne, State.chooseJob_nobody s.eligible_iff h]

theorem State.claimAttempt_nobody {s : State} (h : s.claimOne = none) : s.claimAttempt = s := by
  rw [State.claimAttempt, State.claimRounds, h]

theorem State.claim_spare {s : State} {h : Handle} {j : Job} {n : LaneId} (hj : s.jobOf h = some j)
    (hn : s.lanes[n].state = .spare) : s.claim h j n =
      ((((s.jobGains h j).modLane n fun l => { l with job := some h }).modDiscAt (.tray n) fun d =>
        { d with job := some h, phase := .ready }).enterFeedWait n) := by
  unfold State.claim
  rw [State.modJob_eq hj]
  exact if_pos hn

theorem State.claim_idle {s : State} {h : Handle} {j : Job} {n : LaneId} (hj : s.jobOf h = some j)
    (hn : s.lanes[n].state = .idle) : s.claim h j n =
      ((s.jobGains h j).modLane n fun l => { l with job := some h, state := .awaitDisc }).queueRequest .feed (some n)
        s.images[j.image].cls := by
  unfold State.claim
  rw [State.modJob_eq hj]
  dsimp only
  rw [if_neg (by rw [hn]; decide), State.modLane_modLane]
  rfl

/-- Two handles that name live jobs of one table differ in their index. -/
theorem State.index_ne_of_jobOf {s : State} {h h' : Handle} {j j' : Job} (hj : s.jobOf h = some j) (hj' : s.jobOf h' = some j')
    (hne : h' ≠ h) : h'.index ≠ h.index := by
  intro hindex
  obtain ⟨i, g⟩ := h
  obtain ⟨i', g'⟩ := h'
  obtain rfl : i' = i := hindex
  have hgen : (⟨g, some j⟩ : JobEntry) = ⟨g', some j'⟩ := (State.jobOf_eq_some.1 hj).symm.trans (State.jobOf_eq_some.1 hj')
  injection hgen with hgen
  exact hne (hgen ▸ rfl)

theorem State.jobOf_setJobEntry_other (s : State) {h : Handle} {k : TableId} (e : JobEntry) (hk : h.index ≠ k) :
    (s.setJobEntry k e).jobOf h = s.jobOf h := by
  unfold State.jobOf
  rw [State.setJobEntry_other _ _ _ _ hk]

theorem State.offerBlank_taken {s : State} {n : LaneId} {h h' : Handle} {old j' : Job} (hold : s.jobOf h = some old)
    (hdisc : (s.discAt (.tray n)).isSome) (hfirst : s.FirstInTurn (s.Takes n h) (h', j')) : s.offerBlank n h =
      ((((((((s.jobGivesUp h old).jobGains h' j').modDiscAt (.tray n) fun d => { d with job := some h', phase := .ready }).modLane n
        fun l => { l with job := some h' }).setRotation j'.owner).enterFeedWait n).drainCheck h).oweClaim) := by
  obtain ⟨hne, ⟨hlive, -⟩, -⟩ := hfirst.1
  have hj' := State.jobOf_eq_some.2 hlive
  have hother : (s.jobGivesUp h old).jobOf h' = some j' :=
    (s.jobOf_setJobEntry_other _ (State.index_ne_of_jobOf hold hj' hne)).trans hj'
  unfold State.offerBlank
  rw [State.offerTaker_first hdisc hfirst, State.modJob_eq hold]
  have hgains := State.modJob_eq hother fun j => { j with lanesHeld := j.lanesHeld + 1, inFlight := j.inFlight + 1 }
  exact congrArg (fun t : State => State.oweClaim (((((t.modDiscAt (.tray n) fun d =>
    { d with job := some h', phase := .ready }).modLane n fun l => { l with job := some h' }).setRotation j'.owner).enterFeedWait
      n).drainCheck h)) hgains

theorem State.offerBlank_spare {s : State} {n : LaneId} {h : Handle} {old : Job} (hold : s.jobOf h = some old)
    (hdisc : (s.discAt (.tray n)).isSome) (hnone : ∀ e, ¬s.Takes n h e) : s.offerBlank n h =
      ((((s.jobGivesUp h old).modDiscAt (.tray n) fun d => { d with job := none, phase := .spare }).modLane n fun l =>
        { l with job := none, state := .spare }).drainCheck h).oweClaim := by
  unfold State.offerBlank
  rw [State.offerTaker_nobody hdisc hnone, State.modJob_eq hold]
  rfl

/-! ## MEDIA (R55, R69, R72, R74) -/

theorem State.modLane_congr {s : State} {n : LaneId} {f g : Lane → Lane} (h : f s.lanes[n] = g s.lanes[n]) :
    s.modLane n f = s.modLane n g := by
  unfold State.modLane; rw [h]

theorem execMedia_unrecorded {n : LaneId} {report : MediaReport} {s : State} (hstate : s.lanes[n].state = .probing)
    (hdisc : s.discAt (.tray n) = none) (hok : mediaOk report = true) :
    exec (.media n report) s = .next ((s.probeUnrecorded n report).settle) := by
  dsimp only [exec, execMedia]
  rw [if_pos hok, if_pos hstate, hdisc]
  rfl

theorem execMedia_fed {n : LaneId} {report : MediaReport} {s : State} (hstate : s.lanes[n].state = .probing)
    (hdisc : (s.discAt (.tray n)).isSome) (hok : mediaOk report = true) :
    exec (.media n report) s = .next ((s.probeFed n report).settle) := by
  dsimp only [exec, execMedia]
  rw [if_pos hok, if_pos hstate, if_pos hdisc]

/-- A probe that finds a disc without a record is told of, and owes nothing. -/
theorem execMedia_foundUnrecorded {n : LaneId} {report : MediaReport} {s t : State} {v : Notice}
    (hstate : s.lanes[n].state = .probing) (hdisc : s.discAt (.tray n) = none) (hok : mediaOk report = true)
    (hprobe : s.probeUnrecorded n report = t.raise .lane v) (ht : t.due = s.due) (hs : s.settled) :
    exec (.media n report) s = .next (t.raise .lane v) := by
  rw [execMedia_unrecorded hstate hdisc hok, hprobe,
    State.settle_of_settled (State.settled_of_due ((t.raise_due _ _).trans ht) hs)]

/-- An empty tray outside a start-up: the lane is IDLE (R72; log 32). -/
theorem State.probeUnrecorded_absent {s : State} {n : LaneId} (hstart : s.lanes[n].startUp = false) :
    s.probeUnrecorded n .absent =
      (s.modLane n fun l => { l with state := .idle, purpose := none, timer := none }).oweClaim := by
  unfold State.probeUnrecorded State.enterIdle
  rw [hstart]
  dsimp only
  rw [State.modLane_modLane]
  refine congrArg State.oweClaim (State.modLane_congr ?_)
  dsimp only
  rw [← hstart]

theorem State.probeFed_blank {s : State} {n : LaneId} {h : Handle} {j : Job} (hjob : s.lanes[n].job = some h)
    (hj : s.jobOf h = some j) (cls : MediaClass) (capacity : BitVec 24) (speeds : List Byte) :
    s.probeFed n (.blank cls capacity speeds) =
      (s.modLane n fun l => { l with blankSpeeds := speeds.map (·.toNat), timer := none }).probeBlank n h j cls capacity.toNat := by
  unfold State.probeFed
  dsimp only
  rw [hjob]
  dsimp only
  rw [hj]

/-- A blank found in the tray of a fed disc's lane goes by its class, its size and the job's state (R55, R74). -/
theorem execMedia_fedBlank {n : LaneId} {h : Handle} {j : Job} {cls : MediaClass} {capacity : BitVec 24} {speeds : List Byte}
    {s : State} (hstate : s.lanes[n].state = .probing) (hdisc : (s.discAt (.tray n)).isSome) (hjob : s.lanes[n].job = some h)
    (hj : s.jobOf h = some j) (hok : mediaOk (.blank cls capacity speeds) = true) :
    exec (.media n (.blank cls capacity speeds)) s =
      .next (((s.modLane n fun l => { l with blankSpeeds := speeds.map (·.toNat), timer := none }).probeBlank n h j cls
        capacity.toNat).settle) := by
  rw [execMedia_fed hstate hdisc hok, State.probeFed_blank hjob hj]

theorem State.probeBlank_fits {s : State} {j : Job} {cls : MediaClass} {capacity : Nat} (hcls : s.images[j.image].cls = some cls)
    (hroom : s.images[j.image].segments ≤ capacity) (n : LaneId) (h : Handle) :
    s.probeBlank n h j cls capacity =
      let probed := s.modDiscAt (.tray n) fun d => { d with cls := some cls, capacity := capacity }
      if j.state = .draining then probed.offerBlank n h
      else (probed.modDiscAt (.tray n) fun d => { d with phase := .ready }).enterFeedWait n := by
  unfold State.probeBlank
  exact (if_neg (not_not.2 hcls)).trans (if_neg (Nat.not_lt.2 hroom))

theorem State.probeBlank_wrongClass {s : State} {j : Job} {cls : MediaClass} (hcls : s.images[j.image].cls ≠ some cls)
    (n : LaneId) (h : Handle) (capacity : Nat) : s.probeBlank n h j cls capacity =
      ((s.modDiscAt (.tray n) fun d => { d with cls := some cls, capacity := capacity }).modDiscAt (.tray n) fun d =>
        d.fail .wrongMedia).enterDone n := by
  unfold State.probeBlank
  exact if_pos hcls

theorem State.probeBlank_tooSmall {s : State} {j : Job} {cls : MediaClass} {capacity : Nat}
    (hcls : s.images[j.image].cls = some cls) (hsmall : capacity < s.images[j.image].segments) (n : LaneId) (h : Handle) :
    s.probeBlank n h j cls capacity =
      ((s.modDiscAt (.tray n) fun d => { d with cls := some cls, capacity := capacity }).modDiscAt (.tray n) fun d =>
        d.fail .tooSmall).enterDone n := by
  unfold State.probeBlank
  exact (if_neg (not_not.2 hcls)).trans (if_pos hsmall)

/-- Settles O33: MEDIA by what stands in the tray; claims by `claimOne_eq`, `laneFor_spare` and `laneFor_idle`; a blank given up by
`offerBlank_taken` and `offerBlank_spare`. -/
theorem probeAnswersSortTheTray : Obligations.ProbeAnswersSortTheTray := by
  refine ⟨fun n s hstate hdisc => ?_, fun n s hstate hdisc => ?_, fun n report s => ?_, fun s => ?_⟩
  · refine ⟨fun id hstart hid => ?_, fun hstart => ?_, fun cls size => ?_, fun cls capacity speeds hs hok => ?_, ?_⟩
    · rw [execMedia_unrecorded hstate hdisc rfl, State.probeUnrecorded, hstart, hid]
    · rw [execMedia_unrecorded hstate hdisc rfl, State.probeUnrecorded_absent hstart]
    · exact execMedia_foundUnrecorded hstate hdisc rfl rfl rfl
    · exact execMedia_foundUnrecorded hstate hdisc hok rfl rfl hs
    · exact execMedia_foundUnrecorded hstate hdisc rfl rfl rfl
  · refine ⟨fun report hreport => ?_, execMedia_fed hstate hdisc rfl, fun h j cls capacity speeds hjob hj hok => ?_⟩
    · rcases hreport with rfl | ⟨cls, size, rfl⟩
      · exact execMedia_fed hstate hdisc rfl
      · exact execMedia_fed hstate hdisc rfl
    · rw [execMedia_fedBlank hstate hdisc hjob hj hok]
      refine ⟨fun hcls hroom => ?_, fun hcls => ?_, fun hcls hsmall => ?_⟩
      · rw [State.probeBlank_fits (s := s.modLane n _) hcls hroom]
        dsimp only
        split <;> rfl
      · rw [State.probeBlank_wrongClass (s := s.modLane n _) hcls]
      · rw [State.probeBlank_tooSmall (s := s.modLane n _) hcls hsmall]
  · refine ⟨fun hok hstate => ?_, fun hbad => ?_⟩ <;> dsimp only [exec, execMedia]
    · rw [if_pos hok, if_neg hstate]
    · rw [hbad]; rfl
  · refine ⟨fun hnone => ?_, s.claimAttempt_done, fun h j n hfirst hspare hleast => ?_,
      fun h j n hfirst hnospare hidle hleast => ?_, fun n h old hold hdisc => ?_⟩
    · have hclaim := State.claimOne_nobody hnone
      exact ⟨hclaim, State.claimAttempt_nobody hclaim⟩
    · obtain ⟨⟨hlive, -⟩, -⟩ := hfirst.1
      rw [State.claimOne_eq hfirst (State.laneFor_spare hspare hleast)]
      exact congrArg some (State.claim_spare (State.jobOf_eq_some.2 hlive) hspare.1)
    · obtain ⟨⟨hlive, -⟩, -⟩ := hfirst.1
      rw [State.claimOne_eq hfirst (State.laneFor_idle hnospare hidle hleast)]
      exact congrArg some (State.claim_idle (State.jobOf_eq_some.2 hlive) hidle.1)
    · exact ⟨fun h' j' hfirst => State.offerBlank_taken hold hdisc hfirst, fun hnone => State.offerBlank_spare hold hdisc hnone⟩

end Sys2Proof.Machine
end

