-- ==== Sys2Proof/Proofs/JobEnds.lean ====
section
/-! The end of a job (R27, R42), the drain check (R40, R41), and the closing of a disc record (R62 to R64). -/

namespace Sys2Proof.Machine

/-! ## The job a handle names -/

theorem State.jobOf_congr {s t : State} (h : t.jobs = s.jobs) (k : Handle) : t.jobOf k = s.jobOf k := by
  unfold State.jobOf; rw [h]

@[simp] theorem State.jobOf_setJobEntry_live (s : State) (h : Handle) (j : Job) :
    (s.setJobEntry h.index ⟨h.generation, some j⟩).jobOf h = some j :=
  State.jobOf_eq_some.2 (s.setJobEntry_same _ _)

/-- A change of a live job is seen through its own handle only. -/
theorem State.jobOf_modJob (s : State) (h k : Handle) (f : Job → Job) :
    (s.modJob k f).jobOf h = if h = k then (s.jobOf h).map f else s.jobOf h := by
  by_cases heq : h = k
  · subst heq
    rw [if_pos rfl]
    cases hh : s.jobOf h with
    | none => rw [State.modJob, hh]; exact hh
    | some j => rw [State.modJob_eq hh]; exact s.jobOf_setJobEntry_live h (f j)
  · rw [if_neg heq]
    cases hk : s.jobOf k with
    | none => rw [State.modJob, hk]
    | some j =>
      rw [State.modJob_eq hk]
      by_cases hindex : h.index = k.index
      · obtain ⟨i, g⟩ := h
        obtain ⟨i', g'⟩ := k
        obtain rfl : i = i' := hindex
        have hdead (t : State) (x : Job) (ht : t.jobs[i] = ⟨g', some x⟩) : t.jobOf ⟨i, g⟩ = none :=
          State.jobOf_eq_none.2 (.inr (by rw [ht]; exact fun hgen => heq (congrArg (Handle.mk i) hgen.symm)))
        rw [hdead _ _ (s.setJobEntry_same _ _), hdead s j (State.jobOf_eq_some.1 hk)]
      · exact s.jobOf_setJobEntry_other _ hindex

/-! ## The end of a job (R27, R42) -/

/-- A job that ends is not live any more. -/
@[simp] theorem State.jobOf_endJob (s : State) (h : Handle) (result : JobResult) : (s.endJob h result).jobOf h = none := by
  cases hj : s.jobOf h with
  | none => rwa [State.endJob, hj]
  | some j =>
    refine State.jobOf_eq_none.2 (.inl ?_)
    rw [State.endJob_jobs hj]
    simp

/-- The end of a job frees its entry and raises its generation. -/
theorem State.endJob_ownEntry {s : State} {h : Handle} {j : Job} (hj : s.jobOf h = some j) (result : JobResult) :
    (s.endJob h result).jobs[h.index] = ⟨h.generation + 1, none⟩ := by
  rw [State.endJob_jobs hj]
  simp

/-- The ranks above that of a job that ends fall by 1. -/
theorem State.endJob_otherEntry {s : State} {h : Handle} {j : Job} (hj : s.jobOf h = some j) (result : JobResult) {k : TableId}
    (hk : k ≠ h.index) : (s.endJob h result).jobs[k] =
      { s.jobs[k] with job := s.jobs[k].job.map fun x => if j.rank < x.rank then { x with rank := x.rank - 1 } else x } := by
  have hkeep : (s.jobs.set h.index ⟨h.generation + 1, none⟩)[k] = s.jobs[k] :=
    Vector.getElem_set_ne _ _ fun hik => hk (Fin.ext hik.symm)
  rw [State.endJob_jobs hj]
  simp only [Fin.getElem_fin, Vector.getElem_map] at hkeep ⊢
  rw [hkeep]

/-- The end of a job: the notice, the table, the slots' references, and nothing else. -/
theorem State.endJob_eq {s : State} {h : Handle} {j : Job} (hj : s.jobOf h = some j) (result : JobResult) :
    s.endJob h result = { s.notify j.owner (.jobEnded h result j.good j.failed j.spoiled) with
      jobs := (s.endJob h result).jobs
      images := (s.releaseImage j.image).images
      artworks := (match j.artwork with
        | none => s
        | some a => s.releaseArtwork a).artworks } := by
  unfold State.endJob
  rw [hj]
  dsimp only
  cases j.artwork <;> rfl

theorem State.endJob_images {s : State} {h : Handle} {j : Job} (hj : s.jobOf h = some j) (result : JobResult) (i : ImageId) :
    (s.endJob h result).images[i] =
      if i = j.image then { s.images[i] with refcount := s.images[i].refcount - 1 } else s.images[i] := by
  rw [State.endJob_eq hj]
  change (s.releaseImage j.image).images[i] = _
  split
  · rename_i hi; subst hi; exact s.modImage_same _ _
  · rename_i hi; exact s.modImage_other _ _ _ hi

theorem State.endJob_artworks {s : State} {h : Handle} {j : Job} (hj : s.jobOf h = some j) (result : JobResult) (i : ArtworkId) :
    (s.endJob h result).artworks[i] =
      if j.artwork = some i then { s.artworks[i] with refcount := s.artworks[i].refcount - 1 } else s.artworks[i] := by
  rw [State.endJob_eq hj]
  dsimp only
  cases j.artwork with
  | none => rfl
  | some a =>
    dsimp only
    split
    · rename_i hi; cases hi; exact s.modArtwork_same _ _
    · rename_i hi; exact s.modArtwork_other _ _ _ fun hia => hi (hia ▸ rfl)

@[simp] theorem State.endJob_lanes (s : State) (h : Handle) (result : JobResult) : (s.endJob h result).lanes = s.lanes := by
  cases hj : s.jobOf h with
  | none => rw [State.endJob, hj]
  | some j => rw [State.endJob_eq hj]; rfl

/-! ## The drain check (R40 step 3) -/

theorem State.drainCheck_eq {s : State} {h : Handle} {j : Job} (hj : s.jobOf h = some j) :
    s.drainCheck h = if j.state = .draining ∧ j.inFlight = 0 then s.endJob h (drainResult j.endReason) else s := by
  rw [State.drainCheck, hj]
  simp only [Bool.and_eq_true, decide_eq_true_eq]

/-- The result of a drain, by the end reason; a draining job has one (R35, R42). -/
theorem drainResult_eq {j : Job} {ended : JobResult} (hstate : j.state = .draining)
    (hended : match j.endReason with
      | some .cancelled => ended = .cancelled
      | some .killed => ended = .killed
      | some .failLimit => ended = .failed
      | none => j.state ≠ .draining) : drainResult j.endReason = ended := by
  cases hreason : j.endReason with
  | none => rw [hreason] at hended; exact absurd hstate hended
  | some reason => rw [hreason] at hended; cases reason <;> exact hended.symm

@[simp] theorem State.drainCheck_lanes (s : State) (h : Handle) : (s.drainCheck h).lanes = s.lanes := by
  unfold State.drainCheck; (repeat' split) <;> simp

/-! ## A disc record closes (R40, R41, R62 to R64) -/

/-- Which count rises with a closing (R40). -/
theorem Job.count_eq (j : Job) (fate : Option Fate) (reason : Option FailReason) :
    let less : Job := { j with inFlight := j.inFlight - 1 }
    j.count fate reason =
      if fate = some .output then { less with good := j.good + 1 }
      else if fate = some .reject ∧ (reason = some .wrongMedia ∨ reason = some .tooSmall) then
        { less with spoiled := min 65535 (j.spoiled + 1) }
      else { less with failed := min 65535 (j.failed + 1) } := by
  unfold Job.count
  dsimp only
  split
  · rfl
  · rw [if_neg (by decide)]; rfl
  · rw [if_neg (by decide)]; rfl
  · rename_i hout hmedia hsmall
    rw [if_neg hout, if_neg]
    rintro ⟨rfl, rfl | rfl⟩
    · exact hmedia rfl rfl
    · exact hsmall rfl rfl

theorem Job.count_state (j : Job) (fate : Option Fate) (reason : Option FailReason) :
    (j.count fate reason).state = j.state ∧ (j.count fate reason).endReason = j.endReason := by
  unfold Job.count; dsimp only; split <;> exact ⟨rfl, rfl⟩

/-- A record without a live job closes without a notice (R63). -/
theorem State.closeDisc_jobless {s : State} {i : TableId} {d : Disc} (hd : s.discs[i] = some d)
    (hjob : ∀ h, d.job = some h → s.jobOf h = none) (fate : Option Fate) (why : Option FailReason) :
    s.closeDisc i fate why = s.setDisc i none := by
  unfold State.closeDisc
  rw [hd]
  dsimp only
  split
  · rfl
  · rename_i h hh
    have hdead : (s.setDisc i none).jobOf h = none := hjob h hh
    rw [hdead]

/-- A record of a live job closes: its notice, then the Dispatcher's counts and checks (R40, R62). -/
theorem State.closeDisc_counted {s : State} {i : TableId} {d : Disc} {h : Handle} {j : Job} (hd : s.discs[i] = some d)
    (hjob : d.job = some h) (hj : s.jobOf h = some j) (fate : Option Fate) (why : Option FailReason) :
    let closed : Disc := { d with fate := fate, reason := if why = none then d.reason else why }
    s.closeDisc i fate why =
      ((((s.setDisc i none).notify j.owner (.disc h closed)).setJobEntry h.index
        ⟨h.generation, some (j.count fate closed.reason)⟩).closingChecks h) := by
  have hfreed : (s.setDisc i none).jobOf h = some j := hj
  have htold (v : Notice) : ((s.setDisc i none).notify j.owner v).jobOf h = some j := hj
  have hreason : (if why.isSome then why else d.reason) = if why = none then d.reason else why := by cases why <;> rfl
  unfold State.closeDisc
  rw [hd]
  dsimp only
  rw [hjob]
  dsimp only
  rw [hfreed]
  dsimp only
  rw [hreason, State.reportClosing, State.modJob_eq (htold _)]

/-- The checks after a closing (R40, R41). -/
theorem State.closingChecks_eq {s : State} {h : Handle} {j : Job} (hj : s.jobOf h = some j) :
    s.closingChecks h = State.oweClaim (
      if j.state = .draining then s.drainCheck h
      else if j.good = j.copies then s.endJob h .done
      else if j.failLimit ≠ 0 ∧ j.failLimit ≤ j.failed then s.drainJob h .failLimit
      else s) := by
  unfold State.closingChecks
  rw [hj]
  simp only [Bool.and_eq_true, decide_eq_true_eq]

end Sys2Proof.Machine
end

