-- ==== Sys2Proof/Proofs/Drains.lean ====
section
/-! A drain from its beginning (R35 to R38): what it does to the job and to the job's lanes. -/

namespace Sys2Proof.Machine

/-! ## The job of a drain stays DRAINING with its reason -/

/-- The handle names no live job, or one that drains for the reason. -/
def State.DrainsFor (s : State) (h : Handle) (reason : EndReason) : Prop :=
  ∀ j, s.jobOf h = some j → j.state = .draining ∧ j.endReason = some reason

section
variable {s t : State} {h : Handle} {reason : EndReason}

theorem State.DrainsFor.of_jobs (hs : s.DrainsFor h reason) (hjobs : t.jobs = s.jobs) : t.DrainsFor h reason :=
  fun j hj => hs j (State.jobOf_congr hjobs h ▸ hj)

/-- A change of a job's counts changes neither its state nor its reason. -/
theorem State.DrainsFor.modJob (hs : s.DrainsFor h reason) (k : Handle) {f : Job → Job}
    (hf : ∀ j, (f j).state = j.state ∧ (f j).endReason = j.endReason) : (s.modJob k f).DrainsFor h reason := by
  intro j hj
  rw [State.jobOf_modJob] at hj
  split at hj
  · obtain ⟨old, hold, rfl⟩ := Option.map_eq_some_iff.1 hj
    obtain ⟨hstate, hend⟩ := hf old
    rw [hstate, hend]
    exact hs old hold
  · exact hs j hj

theorem State.DrainsFor.endJob (result : JobResult) : (s.endJob h result).DrainsFor h reason := by
  intro j hj
  rw [State.jobOf_endJob] at hj
  cases hj

theorem State.DrainsFor.drainCheck (hs : s.DrainsFor h reason) : (s.drainCheck h).DrainsFor h reason := by
  unfold State.drainCheck
  split
  · exact hs
  · split
    · exact .endJob _
    · exact hs

theorem State.DrainsFor.offerBlank (hs : s.DrainsFor h reason) (n : LaneId) : (s.offerBlank n h).DrainsFor h reason := by
  have hgone := hs.modJob h (f := fun j => { j with lanesHeld := j.lanesHeld - 1, inFlight := j.inFlight - 1 })
    fun _ => ⟨rfl, rfl⟩
  unfold State.offerBlank
  dsimp only
  split
  · rename_i h' j' _
    refine (State.DrainsFor.drainCheck (.of_jobs (hgone.modJob h' (f := fun j =>
      { j with lanesHeld := j.lanesHeld + 1, inFlight := j.inFlight + 1 }) fun _ => ⟨rfl, rfl⟩) ?_)).of_jobs (State.oweClaim_jobs _)
    simp
  · refine (State.DrainsFor.drainCheck (hgone.of_jobs ?_)).of_jobs (State.oweClaim_jobs _)
    simp

theorem State.DrainsFor.laneLeavesJob (hs : s.DrainsFor h reason) (n : LaneId) : (s.laneLeavesJob n).DrainsFor h reason := by
  unfold State.laneLeavesJob
  dsimp only
  split
  · exact hs.of_jobs rfl
  · rename_i k _
    exact (hs.modJob k (f := fun j => { j with lanesHeld := j.lanesHeld - 1 }) fun _ => ⟨rfl, rfl⟩).of_jobs rfl

theorem State.DrainsFor.withdrawClaim (hs : s.DrainsFor h reason) (n : LaneId) : (s.withdrawClaim h n).DrainsFor h reason := by
  unfold State.withdrawClaim
  split
  · exact hs
  · split
    · exact hs
    · rename_i r _ _
      have hdropped : (s.dropRequest r.age).DrainsFor h reason := hs.of_jobs rfl
      have hless := hdropped.modJob h (f := fun j => { j with inFlight := j.inFlight - 1 }) fun _ => ⟨rfl, rfl⟩
      exact (hless.laneLeavesJob n).of_jobs (State.enterIdle_jobs _ n)

theorem State.DrainsFor.drainLane (hs : s.DrainsFor h reason) (n : LaneId) : (s.drainLane h n).DrainsFor h reason := by
  unfold State.drainLane
  split
  · split
    · exact hs.withdrawClaim n
    · exact State.DrainsFor.offerBlank (hs.of_jobs (s.leaveStartQueue_jobs n)) n
    · exact hs
  · exact hs

theorem State.DrainsFor.killLane (hs : s.DrainsFor h reason) (n : LaneId) : (s.killLane h n).DrainsFor h reason := by
  unfold State.killLane
  split
  · split
    · exact hs.of_jobs (by simp)
    · exact hs.of_jobs (by simp [State.leaveVerifyQueue_jobs])
    · exact hs.of_jobs (by simp [State.leaveVerifyQueue_jobs])
    · exact hs.of_jobs rfl
    · exact hs.drainLane n
  · exact hs

theorem State.DrainsFor.forLanes {f : State → LaneId → State} (hf : ∀ t n, t.DrainsFor h reason → (f t n).DrainsFor h reason)
    (l : List LaneId) (hs : s.DrainsFor h reason) : (State.forLanes f l s).DrainsFor h reason := by
  induction l generalizing s with
  | nil => exact hs
  | cons n rest ih => exact ih (hf s n hs)

theorem State.drainLanes_drainsFor (s : State) (h : Handle) (reason : EndReason) : (s.drainLanes h reason).DrainsFor h reason := by
  have hbegun : (s.modJob h fun j => { j with state := .draining, endReason := some reason }).DrainsFor h reason := by
    intro j hj
    rw [State.jobOf_modJob, if_pos rfl] at hj
    obtain ⟨old, -, rfl⟩ := Option.map_eq_some_iff.1 hj
    exact ⟨rfl, rfl⟩
  unfold State.drainLanes
  split
  · exact (hbegun.forLanes (fun t n ht => ht.killLane n) _).of_jobs (State.killAtPrinter_jobs _ _)
  · exact hbegun.forLanes (fun t n ht => ht.drainLane n) _

end

/-! ## The job's lanes (R36, R38) -/

/-- If the lane works for the job, it does not wait for a start. -/
def Lane.DrainedOf (h : Handle) (l : Lane) : Prop := l.job = some h → l.state ≠ .feedWait

/-- If the lane works for the job, it does not burn, wait for a verify or verify either. -/
def Lane.KilledOf (h : Handle) (l : Lane) : Prop :=
  l.job = some h → l.state ≠ .feedWait ∧ l.state ≠ .burning ∧ l.state ≠ .verifyWait ∧ l.state ≠ .verifying

theorem State.leaveStartQueue_lanes (s : State) (n : LaneId) : (s.leaveStartQueue n).lanes = s.lanes := by
  unfold State.leaveStartQueue; split <;> rfl

theorem State.queueUnload_lanes (s : State) (n : LaneId) : (s.queueUnload n).lanes = s.lanes := by
  unfold State.queueUnload; split <;> rfl

theorem State.enterDone_lane (s : State) (n m : LaneId) :
    (s.enterDone n).lanes[m] = if m = n then { s.lanes[n] with state := .done, timer := none } else s.lanes[m] := by
  rw [State.enterDone, State.queueUnload_lanes, State.modLane_lane]

theorem State.sendAbort_otherLane (s : State) {n m : LaneId} (hm : m ≠ n) : (s.sendAbort n).lanes[m] = s.lanes[m] :=
  (s.sendDrive n .abort).modLane_other n m _ hm

/-- The lane of a disc that is killed is DONE; the others are as they were (R38). -/
theorem State.killDisc_lane (s : State) (n m : LaneId) :
    (s.killDisc n).lanes[m] = if m = n then { s.lanes[n] with state := .done, timer := none } else s.lanes[m] := by
  rw [State.killDisc, State.enterDone_lane, State.modDiscAt_lanes]

/-- The job that takes the blank is not the one that gives it up. -/
theorem State.offerTaker_ne {s : State} {n : LaneId} {h : Handle} {e : Handle × Job} (htaker : s.offerTaker n h = some e) :
    e.1 ≠ h := by
  unfold State.offerTaker at htaker
  split at htaker
  · cases htaker
  · split at htaker
    · cases htaker
    · obtain ⟨-, hok, -⟩ := State.chooseJob_some htaker
      simp only [Bool.and_eq_true, decide_eq_true_eq] at hok
      obtain ⟨⟨hne, -⟩, -⟩ := hok
      exact hne

/-- A blank given up: its lane works for another job or none; the other lanes are as they were (R47). -/
theorem State.offerBlank_lanes (s : State) (n : LaneId) (h : Handle) :
    (s.offerBlank n h).lanes[n].job ≠ some h ∧ ∀ m, m ≠ n → (s.offerBlank n h).lanes[m] = s.lanes[m] := by
  unfold State.offerBlank
  dsimp only
  split
  · rename_i h' j' htaker
    have hne := State.offerTaker_ne htaker
    simp only [State.oweClaim_lanes, State.drainCheck_lanes, State.enterFeedWait, State.joinStartQueue, State.oweStart_lanes,
      State.setStartQueue_lanes, State.setRotation_lanes, State.modLane_lane, State.modDiscAt_lanes, State.modJob_lanes, if_true]
    exact ⟨fun hjob => hne (Option.some.inj hjob), fun m hm => by rw [if_neg hm, if_neg hm]⟩
  · simp only [State.oweClaim_lanes, State.drainCheck_lanes, State.modLane_lane, State.modDiscAt_lanes, State.modJob_lanes, if_true]
    exact ⟨nofun, fun m hm => if_neg hm⟩

/-- A lane that leaves its job changes in this alone (R45). -/
theorem State.laneLeavesJob_lane (s : State) (n m : LaneId) :
    (s.laneLeavesJob n).lanes[m] = if m = n then { s.lanes[n] with job := none } else s.lanes[m] := by
  unfold State.laneLeavesJob
  cases s.lanes[n].job with
  | none => exact s.modLane_lane n m _
  | some k => dsimp only; rw [State.modLane_lane, State.modJob_lanes]

/-- A claim withdrawn: its lane is as it was, or works for no job; the other lanes are as they were (R36). -/
theorem State.withdrawClaim_lanes (s : State) (h : Handle) (n : LaneId) :
    ((s.withdrawClaim h n).lanes[n] = s.lanes[n] ∨ (s.withdrawClaim h n).lanes[n].job = none) ∧
      ∀ m, m ≠ n → (s.withdrawClaim h n).lanes[m] = s.lanes[m] := by
  unfold State.withdrawClaim
  split
  · exact ⟨.inl rfl, fun _ _ => rfl⟩
  · split
    · exact ⟨.inl rfl, fun _ _ => rfl⟩
    · simp only [State.enterIdle, State.oweClaim_lanes, State.modLane_lane, State.laneLeavesJob_lane, State.modJob_lanes, State.dropRequest_lanes,
        if_true]
      exact ⟨.inr trivial, fun m hm => by rw [if_neg hm, if_neg hm]⟩

/-- The handling of a lane of a draining job: it does not wait for a start any more, and keeps its state if it still works for the
job; the other lanes are as they were. -/
theorem State.drainLane_lanes (s : State) (h : Handle) (n : LaneId) :
    (s.drainLane h n).lanes[n].DrainedOf h ∧
      ((s.drainLane h n).lanes[n].job = some h → (s.drainLane h n).lanes[n] = s.lanes[n]) ∧
      ∀ m, m ≠ n → (s.drainLane h n).lanes[m] = s.lanes[m] := by
  unfold State.drainLane
  split
  · split
    · rename_i hawait
      obtain ⟨hown, hothers⟩ := s.withdrawClaim_lanes h n
      refine ⟨fun hjob => ?_, fun hjob => ?_, hothers⟩
      · rcases hown with hsame | hnone
        · rw [hsame, hawait]; decide
        · rw [hnone] at hjob; cases hjob
      · rcases hown with hsame | hnone
        · exact hsame
        · rw [hnone] at hjob; cases hjob
    · obtain ⟨hown, hothers⟩ := (s.leaveStartQueue n).offerBlank_lanes n h
      refine ⟨fun hjob => absurd hjob hown, fun hjob => absurd hjob hown, fun m hm => ?_⟩
      rw [hothers m hm, State.leaveStartQueue_lanes]
    · rename_i hfeed
      exact ⟨fun _ => hfeed, fun _ => rfl, fun _ _ => rfl⟩
  · rename_i hjob
    exact ⟨fun hown => absurd hown hjob, fun _ => rfl, fun _ _ => rfl⟩

/-- A lane sent to DONE, the others left. -/
theorem State.killDisc_lanes (s t : State) (h : Handle) (n : LaneId) (hlanes : ∀ m, m ≠ n → t.lanes[m] = s.lanes[m]) :
    (t.killDisc n).lanes[n].KilledOf h ∧ ∀ m, m ≠ n → (t.killDisc n).lanes[m] = s.lanes[m] := by
  refine ⟨fun _ => ?_, fun m hm => ?_⟩
  · have hdone : (t.killDisc n).lanes[n].state = .done := by rw [State.killDisc_lane, if_pos rfl]
    simp only [hdone, ne_eq, reduceCtorEq, not_false_eq_true, and_self]
  · rw [State.killDisc_lane, if_neg hm, hlanes m hm]

/-- The handling of a lane of a killed job (R38). -/
theorem State.killLane_lanes (s : State) (h : Handle) (n : LaneId) :
    (s.killLane h n).lanes[n].KilledOf h ∧ ∀ m, m ≠ n → (s.killLane h n).lanes[m] = s.lanes[m] := by
  unfold State.killLane
  split
  · split
    · exact State.killDisc_lanes s _ h n fun m hm => s.sendAbort_otherLane hm
    · exact State.killDisc_lanes s _ h n fun m _ => by rw [State.leaveVerifyQueue_lanes]
    · exact State.killDisc_lanes s _ h n fun m hm => by
        rw [State.leaveVerifyQueue_lanes, s.sendAbort_otherLane hm]
    · rename_i hdone
      refine ⟨fun _ => ?_, fun _ _ => rfl⟩
      have hstays : s.oweSelect.lanes[n].state = .done := hdone
      simp only [hstays, ne_eq, reduceCtorEq, not_false_eq_true, and_self]
    · rename_i hburning hwait hverifying _
      obtain ⟨hdrained, hsame, hothers⟩ := s.drainLane_lanes h n
      refine ⟨fun hjob => ⟨hdrained hjob, ?_⟩, hothers⟩
      rw [hsame hjob]
      exact ⟨hburning, hwait, hverifying⟩
  · rename_i hjob
    exact ⟨fun hown => absurd hown hjob, fun _ _ => rfl⟩

/-- A handling that puts its own lane right and leaves the others puts every lane right of the lanes it is applied to. -/
theorem State.forLanes_lane {f : State → LaneId → State} {right : Lane → Prop}
    (hf : ∀ t n, right (f t n).lanes[n] ∧ ∀ m, m ≠ n → (f t n).lanes[m] = t.lanes[m]) (l : List LaneId) (s : State) (n : LaneId)
    (hn : n ∈ l ∨ right s.lanes[n]) : right (State.forLanes f l s).lanes[n] := by
  induction l generalizing s with
  | nil => exact hn.resolve_left List.not_mem_nil
  | cons k rest ih =>
    obtain ⟨hown, hothers⟩ := hf s k
    refine ih (f s k) ?_
    by_cases hk : n = k
    · subst hk; exact .inr hown
    · rcases hn with hmem | hright
      · exact .inl ((List.mem_cons.1 hmem).resolve_left hk)
      · rw [hothers n hk]; exact .inr hright

theorem State.killAtPrinter_lanes (s : State) (h : Handle) : (s.killAtPrinter h).lanes = s.lanes := by
  unfold State.killAtPrinter
  split
  · exact State.modDiscAt_lanes _ _ _
  · rfl

theorem State.drainLanes_killed (s : State) (h : Handle) (n : LaneId) : (s.drainLanes h .killed).lanes[n].KilledOf h := by
  unfold State.drainLanes
  dsimp only
  rw [State.killAtPrinter_lanes]
  exact State.forLanes_lane (fun t m => t.killLane_lanes h m) _ _ n (.inl (mem_laneIds n))

theorem State.drainLanes_drained (s : State) (h : Handle) (reason : EndReason) (n : LaneId) :
    (s.drainLanes h reason).lanes[n].DrainedOf h := by
  have hdrained (t : State) : (State.forLanes (fun t n => t.drainLane h n) laneIds t).lanes[n].DrainedOf h :=
    State.forLanes_lane (fun t m => ⟨(t.drainLane_lanes h m).1, (t.drainLane_lanes h m).2.2⟩) _ t n (.inl (mem_laneIds n))
  cases reason with
  | cancelled => unfold State.drainLanes; exact hdrained _
  | killed => exact fun hjob => (s.drainLanes_killed h n hjob).1
  | failLimit => unfold State.drainLanes; exact hdrained _

/-! ## The drain (R35, R37, R41) -/

/-- Once the lanes have been handled, a drain ends the job, if nothing is in flight, or tells its owner. -/
theorem State.drainJob_eq {s : State} {h : Handle} {reason : EndReason} {j : Job} (hj : (s.drainLanes h reason).jobOf h = some j) :
    s.drainJob h reason =
      if j.inFlight = 0 then (s.drainLanes h reason).endJob h (drainResult (some reason))
      else (s.drainLanes h reason).notify j.owner (.jobDraining h reason) := by
  obtain ⟨hstate, hreason⟩ := s.drainLanes_drainsFor h reason j hj
  unfold State.drainJob
  dsimp only
  rw [hj]
  dsimp only
  split
  · rename_i hnothing
    rw [State.drainCheck_eq hj, if_pos ⟨hstate, hnothing⟩, hreason]
  · rfl

theorem State.drainJob_lanes (s : State) (h : Handle) (reason : EndReason) :
    (s.drainJob h reason).lanes = (s.drainLanes h reason).lanes := by
  unfold State.drainJob
  dsimp only
  split
  · rfl
  · split
    · exact State.drainCheck_lanes _ _
    · rfl

theorem State.drainJob_drainsFor (s : State) (h : Handle) (reason : EndReason) : (s.drainJob h reason).DrainsFor h reason := by
  have hlanes := s.drainLanes_drainsFor h reason
  unfold State.drainJob
  dsimp only
  split
  · exact hlanes
  · split
    · exact hlanes.drainCheck
    · exact hlanes.of_jobs rfl

/-- Settles O26: a drain by `drainJob_eq` and the lemmas on its lanes, the end of a job by `endJob_eq`, a closing by
`closeDisc_counted` and `closingChecks_eq`. -/
theorem drainFreesTheWaitingLanes : Obligations.DrainFreesTheWaitingLanes := by
  refine ⟨fun h reason s _ => ?_, fun h result j s hj => ?_, fun h j ended s hj hended => ⟨?_, ?_⟩⟩
  · rw [State.drainJob_lanes]
    refine ⟨s.drainJob_drainsFor h reason, s.drainLanes_drained h reason, ?_, fun j hj => ?_⟩
    · rintro rfl n hjob
      exact (s.drainLanes_killed h n hjob).2
    · rw [State.drainJob_eq hj]
      cases reason <;> rfl
  · refine ⟨State.endJob_ownEntry hj result, fun k hk => State.endJob_otherEntry hj result hk, State.endJob_images hj result,
      State.endJob_artworks hj result, ?_⟩
    rw [State.endJob_eq hj]
  · rw [State.drainCheck_eq hj]
    split
    · rename_i hdone; rw [drainResult_eq hdone.1 hended]
    · rfl
  · intro loc i d fate why hd hloc hfirst
    have hat : s.closeDiscAt loc fate why = s.closeDisc i fate why := by
      rw [State.closeDiscAt, State.discIndexAt_eq_some.2 ⟨⟨d, hd, hloc⟩, hfirst⟩]
    rw [hat]
    refine ⟨fun hdead => State.closeDisc_jobless hd hdead fate why, fun hjob => ?_⟩
    rw [State.closeDisc_counted hd hjob hj]
    dsimp only
    rw [State.closingChecks_eq (State.jobOf_setJobEntry_live _ _ _), State.drainCheck_eq (State.jobOf_setJobEntry_live _ _ _)]
    obtain ⟨hstate, hreason⟩ := j.count_state fate (if why = none then d.reason else why)
    rw [hstate, hreason]
    by_cases hdraining : j.state = .draining
    · rw [if_pos hdraining, if_pos hdraining, drainResult_eq hdraining hended, Job.count_eq]
      simp only [hdraining, true_and]
    · rw [if_neg hdraining, if_neg hdraining, Job.count_eq]

end Sys2Proof.Machine
end

