-- ==== Sys2Proof/Proofs/FaultBegins.lean ====
section
/-! A lane fault (R86): the lane, the disc in its tray, the queues it stands in, its SOURCE load, and an unload that was under way. -/

namespace Sys2Proof.Machine

/-! ## Discs by their location (R54) -/

/-- A change that moves no disc leaves each location's entry. -/
theorem State.discIndexAt_modDiscAt (s : State) (loc loc' : Location) {f : Disc → Disc}
    (hf : ∀ d, (f d).location = d.location) : (s.modDiscAt loc f).discIndexAt loc' = s.discIndexAt loc' := by
  unfold State.modDiscAt
  split
  · rfl
  · rename_i i _
    unfold State.discIndexAt
    congr 1
    funext k
    by_cases hk : k = i
    · subst hk
      rw [State.setDisc_same]
      cases s.discs[k] with
      | none => rfl
      | some d => simp only [Option.map_some, hf]
    · rw [State.setDisc_other _ _ _ _ hk]

theorem State.discAt_modDiscAt_same (s : State) (loc : Location) {f : Disc → Disc} (hf : ∀ d, (f d).location = d.location) :
    (s.modDiscAt loc f).discAt loc = (s.discAt loc).map f := by
  unfold State.discAt
  rw [State.discIndexAt_modDiscAt s loc loc hf]
  cases hi : s.discIndexAt loc with
  | none => rfl
  | some i =>
    rw [State.modDiscAt, hi]
    exact s.setDisc_same i _

theorem State.discAt_modDiscAt_other (s : State) {loc loc' : Location} (hloc : loc' ≠ loc) {f : Disc → Disc}
    (hf : ∀ d, (f d).location = d.location) : (s.modDiscAt loc f).discAt loc' = s.discAt loc' := by
  unfold State.discAt
  rw [State.discIndexAt_modDiscAt s loc loc' hf]
  cases hk : s.discIndexAt loc' with
  | none => rfl
  | some k =>
    unfold State.modDiscAt
    cases hi : s.discIndexAt loc with
    | none => rfl
    | some i =>
      obtain ⟨⟨d, hd, hdloc⟩, -⟩ := State.discIndexAt_eq_some.1 hi
      obtain ⟨⟨d', hd', hdloc'⟩, -⟩ := State.discIndexAt_eq_some.1 hk
      have hki : k ≠ i := by
        rintro rfl
        rw [hd] at hd'
        cases hd'
        exact hloc (hdloc'.symm.trans hdloc)
      exact s.setDisc_other i k _ hki

/-! ## The disc in the tray (R61, R86 step 3, R88) -/

/-- The disc in the lane's tray, if it has not failed yet. -/
def State.hurtDisc (s : State) (n : LaneId) : Option Disc := (s.discAt (.tray n)).filter fun d => decide (d.phase ≠ .failed)

/-- What a lane fault makes of the disc in the tray. -/
def Disc.faulted (d : Disc) : Disc :=
  if d.phase = .failed then d
  else { d with phase := .failed, reason := some .laneFault, destination := d.destination.map fun _ => .reject }

theorem State.hurtDisc_none {s : State} {n : LaneId} (hd : s.discAt (.tray n) = none) : s.hurtDisc n = none := by
  rw [State.hurtDisc, hd]; rfl

theorem State.hurtDisc_some {s : State} {n : LaneId} {d : Disc} (hd : s.discAt (.tray n) = some d) :
    s.hurtDisc n = if d.phase = .failed then none else some d := by
  rw [State.hurtDisc, hd]
  by_cases hphase : d.phase = .failed <;> simp [hphase]

theorem State.unfailedSerial_eq (s : State) (n : LaneId) : s.unfailedSerial n = (s.hurtDisc n).map (·.serial) := by
  unfold State.unfailedSerial
  cases hd : s.discAt (.tray n) with
  | none => rw [State.hurtDisc_none hd]; rfl
  | some d => rw [State.hurtDisc_some hd]; dsimp only; split <;> rfl

theorem State.failTrayDisc_eq (s : State) (n : LaneId) : s.failTrayDisc n =
    if (s.hurtDisc n).isSome then
      ((s.modDiscAt (.tray n) fun d =>
        { d.fail .laneFault with destination := d.destination.map fun _ => .reject }).chargeLane n).oweSelect
    else s := by
  unfold State.failTrayDisc
  cases hd : s.discAt (.tray n) with
  | none => rw [State.hurtDisc_none hd]; rfl
  | some d => rw [State.hurtDisc_some hd]; dsimp only; split <;> rfl

theorem Disc.fail_location (d : Disc) (reason : FailReason) : (d.fail reason).location = d.location := by
  unfold Disc.fail; split <;> rfl

theorem State.failTrayDisc_discAt (s : State) (n : LaneId) :
    (s.failTrayDisc n).discAt (.tray n) = (s.discAt (.tray n)).map Disc.faulted := by
  rw [State.failTrayDisc_eq]
  cases hd : s.discAt (.tray n) with
  | none => rw [State.hurtDisc_none hd]; exact hd
  | some d =>
    rw [State.hurtDisc_some hd]
    by_cases hphase : d.phase = .failed
    · simp only [hphase, if_true, Option.isSome_none, Bool.false_eq_true, if_false, hd, Option.map_some, Disc.faulted]
    · have hfailed := s.discAt_modDiscAt_same (.tray n)
        (f := fun d => { d.fail .laneFault with destination := d.destination.map fun _ => .reject })
        fun d => d.fail_location .laneFault
      rw [hd] at hfailed
      simp only [hphase, if_false, Option.isSome_some, if_true]
      refine hfailed.trans ?_
      simp only [Option.map_some, Disc.faulted, Disc.fail, hphase, if_false]

/-! ## What a failed SOURCE load leaves alone (R10, R86) -/

/-- The messages, the lanes, the discs, the requests, the arm, the start queue and computation, and the read channel. -/
def State.besidesLoad (s : State) :=
  (s.out, s.lanes, s.discs, s.requests, s.nextAge, s.arm, s.startQueue, s.channel, s.due.start)

theorem State.of_besidesLoad {s t : State} (h : t.besidesLoad = s.besidesLoad) :
    t.out = s.out ∧ t.lanes = s.lanes ∧ t.discs = s.discs ∧ t.requests = s.requests ∧ t.nextAge = s.nextAge ∧ t.arm = s.arm ∧
      t.startQueue = s.startQueue ∧ t.channel = s.channel ∧ t.due.start = s.due.start := by
  simpa only [State.besidesLoad, Prod.mk.injEq] using h

@[simp] theorem State.releaseAll_besidesLoad (l : List VerifyEntry) (s : State) :
    (State.releaseAll l s).besidesLoad = s.besidesLoad := by
  induction l generalizing s with
  | nil => rfl
  | cons e rest ih => rw [State.releaseAll, ih, State.releaseChannel]; split <;> rfl

@[simp] theorem State.leaveVerifyQueue_besidesLoad (s : State) (leaves : VerifyEntry → Bool) :
    (s.leaveVerifyQueue leaves).besidesLoad = s.besidesLoad :=
  State.releaseAll_besidesLoad _ _

@[simp] theorem State.endJob_besidesLoad (s : State) (h : Handle) (result : JobResult) :
    (s.endJob h result).besidesLoad = s.besidesLoad := by
  cases hj : s.jobOf h with
  | none => rw [State.endJob, hj]
  | some j => rw [State.endJob_eq hj]; rfl

@[simp] theorem State.failJobsOf_besidesLoad (i : ImageId) (l : List TableId) (s : State) :
    (State.failJobsOf i l s).besidesLoad = s.besidesLoad := by
  induction l generalizing s with
  | nil => rfl
  | cons k rest ih => unfold State.failJobsOf; rw [ih]; (repeat' split) <;> simp

/-- A lane in FAULT is not told of the end of its load. -/
theorem State.loadSourceEnds_fault {s : State} {v : ImageSlot} {n : LaneId} (hsource : v.source = some (.lane n))
    (hfault : s.lanes[n].state = .fault) (early : Bool) : s.loadSourceEnds v early = s := by
  rw [State.loadSourceEnds_lane s hsource, State.sourceLaneEnds, hfault]

@[simp] theorem State.notifyOpt_besidesLoad (s : State) (p : Option Port) (v : Notice) :
    (s.notifyOpt p v).besidesLoad = s.besidesLoad := by
  cases p <;> rfl

theorem State.failImageLoad_besidesLoad {s : State} {i : ImageId} {n : LaneId} (hsource : s.images[i].source = some (.lane n))
    (hfault : s.lanes[n].state = .fault) : (s.failImageLoad i).besidesLoad = s.besidesLoad := by
  have hlanes : (s.leaveVerifyQueue (VerifyEntry.ofSlot i)).lanes[n].state = .fault := by
    rw [State.leaveVerifyQueue_lanes, hfault]
  have hfree (t : State) : (t.freeImage i).besidesLoad = t.besidesLoad := rfl
  unfold State.failImageLoad
  dsimp only
  split
  · rw [State.notifyOpt_besidesLoad, hfree, State.failJobsOf_besidesLoad, State.loadSourceEnds_fault hsource hlanes,
      State.leaveVerifyQueue_besidesLoad]
  · rfl

/-- No entry joins the verify queue when a load fails. -/
theorem State.failImageLoad_verifyQueue (s : State) (i : ImageId) :
    ∀ e ∈ (s.failImageLoad i).verifyQueue, e ∈ s.verifyQueue := by
  by_cases h : s.images[i].state = .loadWait ∨ s.images[i].state = .loading
  · obtain ⟨-, -, hfreed, -⟩ := (s.loadWithdrawn i).freeImage_notifyOpt i s.images[i].owner (.image i .failed)
    obtain ⟨-, -, hjobs, -⟩ := State.of_besidesJobs (t := s.loadWithdrawn i) (State.failJobsOf_besidesJobs i tableIds _)
    obtain ⟨hsource, -⟩ := (s.leaveVerifyQueue (VerifyEntry.ofSlot i)).loadSourceEnds_leaves s.images[i] true
    intro e he
    rw [State.failImageLoad_eq h, hfreed, hjobs, hsource, State.leaveVerifyQueue_eq] at he
    exact List.mem_of_mem_filter he
  · have hsame : s.failImageLoad i = s := if_neg (by simpa only [Bool.or_eq_true, decide_eq_true_eq] using h)
    rw [hsame]
    exact fun e he => he

/-! ## The queues the lane stands in (R86 steps 4 to 6) -/

/-- The lane stands in neither queue, and a transfer for it is not wanted any more. -/
def State.OutOfQueues (s : State) (n : LaneId) : Prop :=
  n ∉ s.startQueue ∧ (∀ e ∈ s.verifyQueue, e.ofLane n = false) ∧
    ∀ t, s.channel = some t → t.recipient.isLane n = true → t.wanted = false

theorem State.OutOfQueues.of_eq {s t : State} {n : LaneId} (h : s.OutOfQueues n) (hstart : t.startQueue = s.startQueue)
    (hverify : ∀ e ∈ t.verifyQueue, e ∈ s.verifyQueue) (hchannel : t.channel = s.channel) : t.OutOfQueues n := by
  obtain ⟨hnotStart, hnotVerify, hnotWanted⟩ := h
  exact ⟨hstart ▸ hnotStart, fun e he => hnotVerify e (hverify e he), hchannel ▸ hnotWanted⟩

/-- The lane has left the start queue and the verify queue, its chunk is dropped, and a start computation is owed if it burned. -/
def State.leftQueues (s : State) (n : LaneId) (stood : LaneState) : State :=
  let a := ((s.leaveStartQueue n).leaveVerifyQueue (VerifyEntry.ofLane n)).dropLaneChunk n
  if stood = .burning then a.oweStart else a

theorem State.leaveStartQueue_startQueue (s : State) (n : LaneId) :
    (s.leaveStartQueue n).startQueue = s.startQueue.filter fun m => decide (m ≠ n) := by
  unfold State.leaveStartQueue
  split
  · rfl
  · rename_i hn
    refine (List.filter_eq_self.2 fun m hm => ?_).symm
    have hmn : m ≠ n := fun heq => hn (List.contains_iff_mem.2 (heq ▸ hm))
    exact decide_eq_true hmn

theorem State.leaveStartQueue_eq (s : State) (n : LaneId) : s.leaveStartQueue n =
    { s with startQueue := (s.leaveStartQueue n).startQueue, due := (s.leaveStartQueue n).due } := by
  unfold State.leaveStartQueue; split <;> rfl

/-- Leaving the queues changes the queues, the read channel, the CRC channels and what is owed. -/
theorem State.leftQueues_eq (s : State) (n : LaneId) (stood : LaneState) : s.leftQueues n stood =
    { s with
      startQueue := s.startQueue.filter fun m => decide (m ≠ n)
      verifyQueue := s.verifyQueue.filter fun e => !e.ofLane n
      channel := s.channel.map fun t => if t.recipient.isLane n then { t with wanted := false } else t
      crc := (s.leftQueues n stood).crc, due := (s.leftQueues n stood).due } := by
  have ha : ((s.leaveStartQueue n).leaveVerifyQueue (VerifyEntry.ofLane n)).dropLaneChunk n =
      { s with
        startQueue := s.startQueue.filter fun m => decide (m ≠ n)
        verifyQueue := s.verifyQueue.filter fun e => !e.ofLane n
        channel := s.channel.map fun t => if t.recipient.isLane n then { t with wanted := false } else t
        crc := ((s.leaveStartQueue n).leaveVerifyQueue (VerifyEntry.ofLane n)).crc
        due := ((s.leaveStartQueue n).leaveVerifyQueue (VerifyEntry.ofLane n)).due } := by
    rw [State.dropLaneChunk, State.leaveVerifyQueue_eq, State.leaveStartQueue_eq, State.leaveStartQueue_startQueue]
    rfl
  unfold State.leftQueues
  dsimp only
  rw [ha]
  split <;> rfl

theorem State.leftQueues_outOfQueues (s : State) (n : LaneId) (stood : LaneState) : (s.leftQueues n stood).OutOfQueues n := by
  rw [State.leftQueues_eq]
  refine ⟨fun hn => ?_, fun e he => ?_, fun t ht hlane => ?_⟩
  · simpa using (List.mem_filter.1 hn).2
  · simpa using (List.mem_filter.1 he).2
  · obtain ⟨x, -, rfl⟩ := Option.map_eq_some_iff.1 ht
    split at hlane
    · rename_i hx; rw [if_pos hx]
    · rename_i hx; exact absurd hlane hx

/-- The SOURCE load of the lane has failed too. -/
def State.loadStopped (s : State) (n : LaneId) : State :=
  match s.sourceSlotOf n with
  | none => s
  | some i => s.failImageLoad i

theorem State.loadStopped_besidesLoad {s : State} {n : LaneId} (hfault : s.lanes[n].state = .fault) :
    (s.loadStopped n).besidesLoad = s.besidesLoad := by
  unfold State.loadStopped
  split
  · rfl
  · rename_i i hi; exact State.failImageLoad_besidesLoad (State.sourceSlotOf_some hi) hfault

theorem State.loadStopped_outOfQueues {s : State} {n : LaneId} (hfault : s.lanes[n].state = .fault) (h : s.OutOfQueues n) :
    (s.loadStopped n).OutOfQueues n := by
  obtain ⟨-, -, -, -, -, -, hstart, hchannel, -⟩ := State.of_besidesLoad (State.loadStopped_besidesLoad hfault)
  refine h.of_eq hstart ?_ hchannel
  unfold State.loadStopped
  split
  · exact fun e he => he
  · rename_i i _; exact s.failImageLoad_verifyQueue i

theorem State.faultQueues_eq (s : State) (n : LaneId) (stood : LaneState) :
    s.faultQueues n stood =
      if (((s.leftQueues n stood).loadStopped n).discAt (.tray n)).isSome then ((s.leftQueues n stood).loadStopped n).queueUnload n
      else (s.leftQueues n stood).loadStopped n := rfl

/-- The UNLOAD is queued, unless a request names the lane (R81). -/
theorem State.queueUnload_eq (s : State) (n : LaneId) : s.queueUnload n =
    { s with
      requests := if s.hasRequest n = false then s.requests ++ [⟨.unload, some n, some n, none, s.nextAge, false, none⟩]
        else s.requests
      nextAge := (s.queueUnload n).nextAge, due := { s.due with select := true } } := by
  unfold State.queueUnload
  split
  · rename_i hsome; rw [hsome]; rfl
  · rename_i hnone; rw [Bool.not_eq_true] at hnone; rw [hnone]; rfl

/-- Steps 4 to 6 of a lane fault but for the UNLOAD. -/
theorem State.faultQueues_split (s : State) (n : LaneId) (stood : LaneState) : s.faultQueues n stood =
    { (s.leftQueues n stood).loadStopped n with
      requests := (s.faultQueues n stood).requests, nextAge := (s.faultQueues n stood).nextAge
      due := { ((s.leftQueues n stood).loadStopped n).due with select := (s.faultQueues n stood).due.select } } := by
  rw [State.faultQueues_eq]
  split
  · rw [State.queueUnload_eq]
  · rfl

theorem State.leftQueues_loadStopped {s : State} {n : LaneId} (hfault : s.lanes[n].state = .fault) (stood : LaneState) :
    let t := (s.leftQueues n stood).loadStopped n
    t.out = s.out ∧ t.lanes = s.lanes ∧ t.discs = s.discs ∧ t.requests = s.requests ∧ t.nextAge = s.nextAge ∧ t.arm = s.arm ∧
      t.due.start = (s.leftQueues n stood).due.start := by
  have hkept : (s.leftQueues n stood).out = s.out ∧ (s.leftQueues n stood).lanes = s.lanes ∧
      (s.leftQueues n stood).discs = s.discs ∧ (s.leftQueues n stood).requests = s.requests ∧
      (s.leftQueues n stood).nextAge = s.nextAge ∧ (s.leftQueues n stood).arm = s.arm := by
    rw [State.leftQueues_eq]; exact ⟨rfl, rfl, rfl, rfl, rfl, rfl⟩
  obtain ⟨hout, hlanes, hdiscs, hrequests, hage, harm⟩ := hkept
  have hleft : (s.leftQueues n stood).lanes[n].state = .fault := by rw [hlanes]; exact hfault
  obtain ⟨hout', hlanes', hdiscs', hrequests', hage', harm', -, -, hstart⟩ :=
    State.of_besidesLoad (State.loadStopped_besidesLoad hleft)
  exact ⟨hout'.trans hout, hlanes'.trans hlanes, hdiscs'.trans hdiscs, hrequests'.trans hrequests, hage'.trans hage,
    harm'.trans harm, hstart⟩

theorem State.discAt_congr {s t : State} (h : t.discs = s.discs) (loc : Location) : t.discAt loc = s.discAt loc := by
  unfold State.discAt State.discIndexAt; rw [h]

theorem State.faultQueues_requests {s : State} {n : LaneId} (hfault : s.lanes[n].state = .fault) (stood : LaneState) :
    (s.faultQueues n stood).requests = if (s.discAt (.tray n)).isSome ∧ s.hasRequest n = false then
      s.requests ++ [⟨.unload, some n, some n, none, s.nextAge, false, none⟩] else s.requests := by
  obtain ⟨-, -, hdiscs, hrequests, hage, -⟩ := State.leftQueues_loadStopped hfault stood
  have hasRequest : ((s.leftQueues n stood).loadStopped n).hasRequest n = s.hasRequest n := by
    unfold State.hasRequest; rw [hrequests]
  rw [State.faultQueues_eq, State.discAt_congr hdiscs]
  split
  · rename_i hdisc
    rw [State.queueUnload_eq]
    dsimp only
    rw [hasRequest, hrequests, hage]
    simp only [hdisc, true_and]
  · rename_i hdisc
    rw [if_neg fun h => hdisc h.1]
    exact hrequests

/-! ## The fault but for its claim (R86) -/

/-- The lane record after a fault, its disc having failed with it or not (R86, R88). -/
def Lane.faulted (l : Lane) (hurt : Bool) : Lane :=
  { l with
    state := .fault, timer := none, faultMove := none, unanswered := none, heldBack := none
    failCount := if hurt then min 3 (l.failCount + 1) else l.failCount
    quarantine := l.quarantine || (hurt && decide (2 ≤ l.failCount)) }

/-- ABORT is sent and the lane is in FAULT. -/
def State.faultStruck (s : State) (n : LaneId) : State :=
  (s.emit (.drive n [8])).modLane n fun l =>
    { l with state := .fault, timer := none, faultMove := none, unanswered := none, heldBack := none }

/-- A lane fault but for what it does to the claim. -/
def State.faultBegun (s : State) (n : LaneId) (cause : LaneCause) : State :=
  (((s.faultStruck n).failTrayDisc n).faultQueues n s.lanes[n].state).raise .lane
    (.laneFault n cause ((s.hurtDisc n).map (·.serial)))

theorem State.laneFault_eq (s : State) (n : LaneId) (cause : LaneCause) :
    s.laneFault n cause = (s.faultBegun n cause).faultClaim n s.lanes[n].state s.lanes[n].purpose := by
  unfold State.laneFault State.sendAbort
  rw [State.modLane_modLane, State.unfailedSerial_eq]
  rfl

theorem State.failTrayDisc_frame (s : State) (n : LaneId) : s.failTrayDisc n =
    { s with discs := (s.failTrayDisc n).discs, lanes := (s.failTrayDisc n).lanes, due := (s.failTrayDisc n).due } := by
  rw [State.failTrayDisc_eq]
  split
  · rw [State.modDiscAt_eq]; rfl
  · rfl

theorem State.failTrayDisc_lane (s : State) (n m : LaneId) :
    ((s.faultStruck n).failTrayDisc n).lanes[m] =
      if m = n then s.lanes[n].faulted (s.hurtDisc n).isSome else s.lanes[m] := by
  have hstruck (k : LaneId) : (s.faultStruck n).lanes[k] = if k = n then
      { s.lanes[n] with state := .fault, timer := none, faultMove := none, unanswered := none, heldBack := none }
      else s.lanes[k] := (s.emit (.drive n [8])).modLane_lane n k _
  have hhurt : (s.faultStruck n).hurtDisc n = s.hurtDisc n := rfl
  rw [State.failTrayDisc_eq, hhurt]
  cases (s.hurtDisc n).isSome with
  | false =>
    rw [if_neg Bool.false_ne_true, hstruck]
    split
    · simp only [Lane.faulted, Bool.false_eq_true, if_false, Bool.false_and, Bool.or_false]
    · rfl
  | true =>
    rw [if_pos rfl]
    simp only [State.oweSelect_lanes, State.chargeLane, State.modLane_lane, State.modDiscAt_lanes, hstruck, if_true]
    split
    · simp only [Lane.faulted, if_true, Bool.true_and, Nat.succ_le_succ_iff]
    · rfl

theorem State.failTrayDisc_fault (s : State) (n : LaneId) : ((s.faultStruck n).failTrayDisc n).lanes[n].state = .fault := by
  rw [State.failTrayDisc_lane, if_pos rfl]; rfl

theorem State.faultBegun_lane (s : State) (n : LaneId) (cause : LaneCause) (m : LaneId) :
    (s.faultBegun n cause).lanes[m] = if m = n then s.lanes[n].faulted (s.hurtDisc n).isSome else s.lanes[m] := by
  obtain ⟨-, hlanes, -⟩ := State.leftQueues_loadStopped (s.failTrayDisc_fault n) s.lanes[n].state
  have hbegun : (s.faultBegun n cause).lanes = ((s.faultStruck n).failTrayDisc n).lanes := by
    rw [State.faultBegun, State.raise_ports_only, State.faultQueues_split]
    exact hlanes
  rw [hbegun, State.failTrayDisc_lane]

theorem State.faultBegun_out (s : State) (n : LaneId) (cause : LaneCause) :
    (s.faultBegun n cause).out = s.out ++ [.drive n [8]] := by
  obtain ⟨hout, -⟩ := State.leftQueues_loadStopped (s.failTrayDisc_fault n) s.lanes[n].state
  rw [State.faultBegun, State.raise_ports_only, State.faultQueues_split]
  refine hout.trans ?_
  rw [State.failTrayDisc_frame]
  rfl

theorem State.faultBegun_discAt (s : State) (n : LaneId) (cause : LaneCause) :
    (s.faultBegun n cause).discAt (.tray n) = (s.discAt (.tray n)).map Disc.faulted := by
  obtain ⟨-, -, hdiscs, -⟩ := State.leftQueues_loadStopped (s.failTrayDisc_fault n) s.lanes[n].state
  have hbegun : (s.faultBegun n cause).discs = ((s.faultStruck n).failTrayDisc n).discs := by
    rw [State.faultBegun, State.raise_ports_only, State.faultQueues_split]
    exact hdiscs
  rw [State.discAt_congr hbegun, State.failTrayDisc_discAt]
  rfl

theorem State.faultBegun_requests (s : State) (n : LaneId) (cause : LaneCause) :
    (s.faultBegun n cause).requests = if (s.discAt (.tray n)).isSome ∧ s.hasRequest n = false then
      s.requests ++ [⟨.unload, some n, some n, none, s.nextAge, false, none⟩] else s.requests := by
  have hdisc : (((s.faultStruck n).failTrayDisc n).discAt (.tray n)).isSome = (s.discAt (.tray n)).isSome := by
    rw [State.failTrayDisc_discAt, Option.isSome_map]; rfl
  have hrequests : ((s.faultStruck n).failTrayDisc n).requests = s.requests := by rw [State.failTrayDisc_frame]; rfl
  have hage : ((s.faultStruck n).failTrayDisc n).nextAge = s.nextAge := by rw [State.failTrayDisc_frame]; rfl
  have hasRequest : ((s.faultStruck n).failTrayDisc n).hasRequest n = s.hasRequest n := by
    unfold State.hasRequest; rw [hrequests]
  have hqueues := State.faultQueues_requests (s.failTrayDisc_fault n) s.lanes[n].state
  rw [hdisc, hasRequest, hrequests, hage] at hqueues
  rw [State.faultBegun, State.raise_ports_only]
  exact hqueues

theorem State.faultBegun_outOfQueues (s : State) (n : LaneId) (cause : LaneCause) : (s.faultBegun n cause).OutOfQueues n := by
  have hleft : (((s.faultStruck n).failTrayDisc n).leftQueues n s.lanes[n].state).lanes[n].state = .fault := by
    rw [State.leftQueues_eq]; exact s.failTrayDisc_fault n
  have hout := State.loadStopped_outOfQueues hleft (State.leftQueues_outOfQueues _ n _)
  rw [State.faultBegun, State.raise_ports_only, State.faultQueues_split]
  exact hout

theorem State.faultBegun_start (s : State) (n : LaneId) (cause : LaneCause) (hburning : s.lanes[n].state = .burning) :
    (s.faultBegun n cause).due.start = true := by
  obtain ⟨-, -, -, -, -, -, hstart⟩ := State.leftQueues_loadStopped (s.failTrayDisc_fault n) s.lanes[n].state
  rw [State.faultBegun, State.raise_ports_only, State.faultQueues_split]
  refine hstart.trans ?_
  rw [hburning]
  rfl

/-! ## The notice and the SOURCE load (R86, R94, R10) -/

/-- Who is told, and how, depends on the ports and the clock alone (R185). -/
theorem State.raise_ports_congr {s t : State} (hports : t.ports = s.ports) (hnow : t.now = s.now) (g : Group) (v : Notice) :
    (t.raise g v).ports = (s.raise g v).ports := by
  suffices h : ∀ (l : List Port) (s t : State), t.ports = s.ports → t.now = s.now →
      (State.raiseTo g v l t).ports = (State.raiseTo g v l s).ports from h portIds s t hports hnow
  intro l
  induction l with
  | nil => intro s t hports _; exact hports
  | cons p rest ih =>
    intro s t hports hnow
    have hnotify : (t.notify p v).ports = (s.notify p v).ports := by
      unfold State.notify State.modPort; rw [hports, hnow]
    unfold State.raiseTo
    rw [hports]
    split
    · exact ih _ _ hnotify hnow
    · exact ih _ _ hports hnow

theorem State.sourceSlotOf_congr {s t : State} (h : t.images = s.images) (n : LaneId) : t.sourceSlotOf n = s.sourceSlotOf n := by
  unfold State.sourceSlotOf; rw [h]

theorem State.liveJobs_congr {s t : State} (h : t.jobs = s.jobs) : t.liveJobs = s.liveJobs := by
  unfold State.liveJobs; rw [h]

/-- The state in which the SOURCE load of a faulted lane fails. -/
def State.faultLoads (s : State) (n : LaneId) : State := ((s.faultStruck n).failTrayDisc n).leftQueues n s.lanes[n].state

theorem State.faultLoads_frame (s : State) (n : LaneId) :
    (s.faultLoads n).ports = s.ports ∧ (s.faultLoads n).now = s.now ∧ (s.faultLoads n).images = s.images := by
  rw [State.faultLoads, State.leftQueues_eq, State.failTrayDisc_frame]
  exact ⟨rfl, rfl, rfl⟩

theorem State.faultBegun_ports {s : State} {n : LaneId} (hslot : s.sourceSlotOf n = none) (cause : LaneCause) :
    (s.faultBegun n cause).ports = (s.raise .lane (.laneFault n cause ((s.hurtDisc n).map (·.serial)))).ports := by
  obtain ⟨hports, hnow, himages⟩ := s.faultLoads_frame n
  have hnoLoad : (s.faultLoads n).loadStopped n = s.faultLoads n := by
    rw [State.loadStopped, State.sourceSlotOf_congr himages, hslot]
  unfold State.faultBegun
  refine State.raise_ports_congr ?_ ?_ _ _
  · rw [State.faultQueues_split]
    exact (congrArg State.ports hnoLoad).trans hports
  · rw [State.faultQueues_split]
    exact (congrArg State.now hnoLoad).trans hnow

theorem State.faultBegun_load {s : State} {n : LaneId} {i : ImageId} (hslot : s.sourceSlotOf n = some i)
    (hloading : s.images[i].state = .loadWait ∨ s.images[i].state = .loading) (cause : LaneCause) :
    (s.faultBegun n cause).images[i] = ImageSlot.freed ∧ ∀ e ∈ (s.faultBegun n cause).liveJobs, e.2.image ≠ i := by
  obtain ⟨-, -, himages⟩ := s.faultLoads_frame n
  have hload : (s.faultLoads n).loadStopped n = (s.faultLoads n).failImageLoad i := by
    rw [State.loadStopped, State.sourceSlotOf_congr himages, hslot]
  obtain ⟨hfreed, -, -, hjobs, -⟩ := failedImageLoadReleasesEverything i (s.faultLoads n) (by rw [himages]; exact hloading)
  rw [← hload] at hfreed hjobs
  rw [State.faultBegun, State.raise_ports_only, State.faultQueues_split]
  exact ⟨hfreed, hjobs⟩

/-! ## What the fault does to the claim (R87): no claim, no disc on its way to the lane -/

theorem State.faultClaim_rest (s : State) (n : LaneId) {stood : LaneState} {purpose : Option TrayPurpose}
    (hawait : stood ≠ .awaitDisc)
    (hmoving : ¬((stood = .opening ∨ stood = .opened) ∧ (purpose = some .pick ∨ purpose = some .place))) :
    s.faultClaim n stood purpose = s := by
  unfold State.faultClaim
  split
  · exact absurd rfl hawait
  · exact absurd ⟨.inl rfl, .inl rfl⟩ hmoving
  · exact absurd ⟨.inr rfl, .inl rfl⟩ hmoving
  · exact absurd ⟨.inl rfl, .inr rfl⟩ hmoving
  · exact absurd ⟨.inr rfl, .inr rfl⟩ hmoving
  · rfl

theorem State.modLane_oweArm_lane (s : State) (n m : LaneId) (f : Lane → Lane) :
    (s.modLane n f).oweArm.lanes[m] = if m = n then f s.lanes[n] else s.lanes[m] :=
  s.modLane_lane n m f

/-- A lane whose UNLOAD was opening its tray, or had it open: the arm is called, or the tray is opened again (R87). -/
theorem State.faultClaim_unload (s : State) (n : LaneId) {stood : LaneState} (hstood : stood = .opening ∨ stood = .opened) :
    let t := s.faultClaim n stood (some .pick)
    t = { s with lanes := t.lanes, out := t.out, due := { s.due with arm := t.due.arm } } ∧ ∀ m, m ≠ n → t.lanes[m] = s.lanes[m] := by
  rcases hstood with rfl | rfl <;> dsimp only [State.faultClaim]
  · unfold State.faultUnload State.sendTray State.startTimer
    split
    · exact ⟨rfl, fun m hm => (s.modLane_oweArm_lane n m _).trans (if_neg hm)⟩
    · split
      · refine ⟨rfl, fun m hm => ?_⟩
        rw [State.modLane_other _ _ _ _ hm, State.modLane_other _ _ _ _ hm, State.modLane_other _ _ _ _ hm]
      · refine ⟨rfl, fun m hm => ?_⟩
        rw [State.modLane_other _ _ _ _ hm, State.modLane_other _ _ _ _ hm, State.modLane_other _ _ _ _ hm]
        rfl
  · exact ⟨rfl, fun m hm => (s.modLane_oweArm_lane n m _).trans (if_neg hm)⟩

/-- A lane that holds no claim and feeds no disc: at most its own record, what is sent and the arm's step change. -/
theorem State.faultClaim_noClaim (s : State) (n : LaneId) {stood : LaneState} {purpose : Option TrayPurpose}
    (h : ¬(stood = .awaitDisc ∨ (stood = .opening ∨ stood = .opened) ∧ purpose = some .place)) :
    let t := s.faultClaim n stood purpose
    t = { s with lanes := t.lanes, out := t.out, due := { s.due with arm := t.due.arm } } ∧ ∀ m, m ≠ n → t.lanes[m] = s.lanes[m] := by
  obtain ⟨hawait, hplace⟩ := not_or.1 h
  by_cases hpick : (stood = .opening ∨ stood = .opened) ∧ purpose = some .pick
  · obtain ⟨hstood, rfl⟩ := hpick
    exact s.faultClaim_unload n hstood
  · have hrest : ¬((stood = .opening ∨ stood = .opened) ∧ (purpose = some .pick ∨ purpose = some .place)) :=
      fun ⟨hstood, hpurpose⟩ => hpurpose.elim (fun hp => hpick ⟨hstood, hp⟩) fun hp => hplace ⟨hstood, hp⟩
    dsimp only
    rw [s.faultClaim_rest n hawait hrest]
    exact ⟨rfl, fun _ _ => rfl⟩

/-- The tray is open, or found open: the arm is called. -/
theorem State.faultClaim_open (s : State) (n : LaneId) {stood : LaneState}
    (h : stood = .opened ∨ stood = .opening ∧ s.lanes[n].report = some .opened) (hpurpose : s.lanes[n].purpose = some .pick)
    (htimer : s.lanes[n].timer = none) (hheld : s.lanes[n].heldBack = none) :
    let t := s.faultClaim n stood (some .pick)
    t.lanes[n] = { s.lanes[n] with faultMove := some .unloadOpen } ∧ t.out = s.out ∧ t.due.arm = true := by
  rcases h with rfl | ⟨rfl, hreport⟩ <;> dsimp only [State.faultClaim]
  · exact ⟨(s.modLane_oweArm_lane n n _).trans (if_pos rfl), rfl, rfl⟩
  · rw [State.faultUnload, if_pos hreport]
    refine ⟨((s.modLane_oweArm_lane n n _).trans (if_pos rfl)).trans ?_, rfl, rfl⟩
    rw [← hpurpose, ← htimer, ← hheld]

/-- The tray is opened again, its drive asked anew. -/
theorem State.faultClaim_opening (s : State) (n : LaneId) (hreport : s.lanes[n].report ≠ some .opened)
    (hpurpose : s.lanes[n].purpose = some .pick) (hanswered : s.lanes[n].unanswered = none) :
    let t := s.faultClaim n .opening (some .pick)
    t.lanes[n] = { s.lanes[n] with
        faultMove := some .unloadOpening, timer := some ⟨8000, 0⟩, unanswered := some .openTray } ∧
      t.out = s.out ++ [.drive n [1]] := by
  dsimp only [State.faultClaim]
  rw [State.faultUnload, if_neg hreport, State.sendTray, hanswered, State.startTimer]
  simp only [Option.isSome_none, Bool.false_eq_true, if_false, State.modLane_modLane]
  refine ⟨((s.sendDrive n .trayOpen).modLane_same _ _).trans ?_, rfl⟩
  rw [State.sendDrive_lanes, ← hpurpose]
  rfl

end Sys2Proof.Machine
end

