-- ==== Sys2Proof/Proofs/FaultClaims.lean ====
section
/-! A lane fault (R86, R87): the claim of its lane and the disc on its way to it, and the fault as one event. -/

namespace Sys2Proof.Machine

/-! ## What no claim's end touches -/

/-- The lane's state, the queues it could stand in, and the disc in its tray. -/
def State.faultView (s : State) (n : LaneId) :=
  (s.lanes[n].state, s.startQueue, s.verifyQueue, s.channel, s.discAt (.tray n))

theorem State.of_faultView {s t : State} {n : LaneId} (h : t.faultView n = s.faultView n) :
    t.lanes[n].state = s.lanes[n].state ∧ t.startQueue = s.startQueue ∧ t.verifyQueue = s.verifyQueue ∧ t.channel = s.channel ∧
      t.discAt (.tray n) = s.discAt (.tray n) := by
  simpa only [State.faultView, Prod.mk.injEq] using h

@[simp] theorem State.modLane_faultView (s : State) (n : LaneId) {f : Lane → Lane} (hf : ∀ l, (f l).state = l.state) :
    (s.modLane n f).faultView n = s.faultView n := by
  have hstate : (s.modLane n f).lanes[n].state = s.lanes[n].state := by rw [State.modLane_same, hf]
  unfold State.faultView
  rw [hstate]
  rfl

@[simp] theorem State.oweArm_faultView (s : State) (n : LaneId) : s.oweArm.faultView n = s.faultView n := rfl
@[simp] theorem State.oweClaim_faultView (s : State) (n : LaneId) : s.oweClaim.faultView n = s.faultView n := rfl
@[simp] theorem State.sendDrive_faultView (s : State) (n m : LaneId) (v : DriveMessage) :
    (s.sendDrive m v).faultView n = s.faultView n := rfl
@[simp] theorem State.dropRequest_faultView (s : State) (n : LaneId) (age : Nat) :
    (s.dropRequest age).faultView n = s.faultView n := rfl
@[simp] theorem State.modRequest_faultView (s : State) (n : LaneId) (age : Nat) (f : Request → Request) :
    (s.modRequest age f).faultView n = s.faultView n := rfl

@[simp] theorem State.modJob_faultView (s : State) (h : Handle) (f : Job → Job) (n : LaneId) :
    (s.modJob h f).faultView n = s.faultView n := by
  unfold State.modJob; split <;> rfl

@[simp] theorem State.laneLeavesJob_faultView (s : State) (n : LaneId) : (s.laneLeavesJob n).faultView n = s.faultView n := by
  unfold State.laneLeavesJob
  cases s.lanes[n].job <;> simp

@[simp] theorem State.drainCheck_faultView (s : State) (h : Handle) (n : LaneId) : (s.drainCheck h).faultView n = s.faultView n := by
  cases hj : s.jobOf h with
  | none => rw [State.drainCheck, hj]
  | some j =>
    rw [State.drainCheck_eq hj]
    split
    · rw [State.endJob_eq hj]; rfl
    · rfl

@[simp] theorem State.claimEnds_faultView (s : State) (n : LaneId) : (s.claimEnds n).faultView n = s.faultView n := by
  unfold State.claimEnds
  dsimp only
  (repeat' split) <;> simp

@[simp] theorem State.sendTray_faultView (s : State) (n : LaneId) (v : TrayCommand) :
    (s.sendTray n v).faultView n = s.faultView n := by
  unfold State.sendTray
  split <;> simp

@[simp] theorem State.faultUnload_faultView (s : State) (n : LaneId) : (s.faultUnload n).faultView n = s.faultView n := by
  unfold State.faultUnload State.startTimer
  split <;> simp

@[simp] theorem State.divertFeed_faultView (s : State) (n : LaneId) (r : Request) : (s.divertFeed n r).faultView n = s.faultView n := by
  have hdisc : (s.modDiscAt .arm fun d => { d.fail .laneFault with destination := some .reject }).faultView n =
      s.faultView n := by
    have htray := s.discAt_modDiscAt_other (loc := .arm) (loc' := .tray n) nofun
      (f := fun d => { d.fail .laneFault with destination := some .reject }) fun d => d.fail_location .laneFault
    unfold State.faultView
    rw [htray, State.modDiscAt_eq]
  unfold State.divertFeed
  simp [hdisc]

theorem State.faultClaim_faultView (s : State) (n : LaneId) (stood : LaneState) (purpose : Option TrayPurpose) :
    (s.faultClaim n stood purpose).faultView n = s.faultView n := by
  unfold State.faultClaim
  (repeat' split) <;> simp

/-! ## A lane that holds a claim, with nothing in its tray and in no queue -/

/-- A lane of which no queue and no transfer knows has nothing to leave. -/
theorem State.leftQueues_nothing {s : State} {n : LaneId} {stood : LaneState} (hstart : n ∉ s.startQueue)
    (hverify : ∀ e ∈ s.verifyQueue, e.ofLane n = false) (hchannel : ∀ t, s.channel = some t → t.recipient.isLane n = false)
    (hstood : stood ≠ .burning) : s.leftQueues n stood = s := by
  have hleave : s.leaveStartQueue n = s := by
    rw [State.leaveStartQueue, if_neg fun hn => hstart (List.contains_iff_mem.1 hn)]
  have hnone : s.verifyQueue.filter (VerifyEntry.ofLane n) = [] :=
    List.filter_eq_nil_iff.2 fun e he => by rw [hverify e he]; exact Bool.false_ne_true
  have hall : (s.verifyQueue.filter fun e => !e.ofLane n) = s.verifyQueue :=
    List.filter_eq_self.2 fun e he => by rw [hverify e he]; rfl
  have hqueue : s.leaveVerifyQueue (VerifyEntry.ofLane n) = s := by
    rw [State.leaveVerifyQueue, hnone, hall]; rfl
  have hchunk : s.dropLaneChunk n = s := by
    have hsame : (s.channel.map fun t => if t.recipient.isLane n then { t with wanted := false } else t) = s.channel := by
      cases ht : s.channel with
      | none => rfl
      | some t => simp only [Option.map_some, hchannel t ht, Bool.false_eq_true, if_false]
    rw [State.dropLaneChunk, State.disown, hsame]; rfl
  rw [State.leftQueues, hleave, hqueue, hchunk]
  exact if_neg hstood

/-- Such a lane faults: ABORT, the record, the notice. -/
theorem State.faultBegun_nothing {s : State} {n : LaneId} (hstart : n ∉ s.startQueue)
    (hverify : ∀ e ∈ s.verifyQueue, e.ofLane n = false) (hchannel : ∀ t, s.channel = some t → t.recipient.isLane n = false)
    (hslot : s.sourceSlotOf n = none) (hdisc : s.discAt (.tray n) = none) (hstood : s.lanes[n].state ≠ .burning)
    (cause : LaneCause) : s.faultBegun n cause = (s.faultStruck n).raise .lane (.laneFault n cause none) := by
  have hstruck : (s.faultStruck n).failTrayDisc n = s.faultStruck n := by
    have hnoDisc : (s.faultStruck n).discAt (.tray n) = none := hdisc
    rw [State.failTrayDisc, hnoDisc]
  have hleft : (s.faultStruck n).leftQueues n s.lanes[n].state = s.faultStruck n :=
    State.leftQueues_nothing hstart hverify hchannel hstood
  have hload : (s.faultStruck n).loadStopped n = s.faultStruck n := by
    have hnoSlot : (s.faultStruck n).sourceSlotOf n = none := hslot
    rw [State.loadStopped, hnoSlot]
  have hqueues : (s.faultStruck n).faultQueues n s.lanes[n].state = s.faultStruck n := by
    have hnoDisc : (s.faultStruck n).discAt (.tray n) = none := hdisc
    rw [State.faultQueues_eq, hleft, hload, hnoDisc]; rfl
  rw [State.faultBegun, hstruck, hqueues, State.hurtDisc_none hdisc]
  rfl

theorem State.setJobEntry_setJobEntry (s : State) (i : TableId) (e e' : JobEntry) :
    (s.setJobEntry i e).setJobEntry i e' = s.setJobEntry i e' := by
  simp [State.setJobEntry]

/-- A lane of a live job leaves it (R45). -/
theorem State.laneLeavesJob_live {s : State} {n : LaneId} {h : Handle} {j : Job} (hjob : s.lanes[n].job = some h)
    (hj : s.jobOf h = some j) : s.laneLeavesJob n =
      (s.setJobEntry h.index ⟨h.generation, some { j with lanesHeld := j.lanesHeld - 1 }⟩).modLane n
        fun l => { l with job := none } := by
  rw [State.laneLeavesJob, hjob]
  dsimp only
  rw [State.modJob_eq hj]

/-- The FEED of a claim that ends keeps its place without its lane while the arm serves it, or is withdrawn (R48, R139). -/
def State.feedLoses (s : State) (r : Request) : State :=
  s.setRequests (if r.taken = true ∧ s.arm.request = some r.age then
      s.requests.map fun x => if x.age = r.age then { x with lane := none } else x
    else s.requests.filter fun x => decide (x.age ≠ r.age))

/-- A claim of a live job ends (R48). -/
theorem State.claimEnds_live {s : State} {n : LaneId} {h : Handle} {j : Job} {r : Request} (hfeed : s.laneRequest .feed n = some r)
    (hjob : s.lanes[n].job = some h) (hj : s.jobOf h = some j) : s.claimEnds n =
      ((((s.feedLoses r).setJobEntry h.index
        ⟨h.generation, some { j with inFlight := j.inFlight - 1, lanesHeld := j.lanesHeld - 1 }⟩).modLane n
          fun l => { l with job := none }).drainCheck h).oweClaim := by
  have hrequests : (if r.taken && decide (s.arm.request = some r.age) then s.modRequest r.age fun r => { r with lane := none }
      else s.dropRequest r.age) = s.feedLoses r := by
    unfold State.feedLoses
    simp only [Bool.and_eq_true, decide_eq_true_eq]
    split <;> rfl
  have hj' : (s.feedLoses r).jobOf h = some j := hj
  have hjob' (e : JobEntry) : ((s.feedLoses r).setJobEntry h.index e).lanes[n].job = some h := hjob
  unfold State.claimEnds
  rw [hfeed, hjob]
  dsimp only
  rw [hrequests, State.modJob_eq hj', State.laneLeavesJob_live (hjob' _) (State.jobOf_setJobEntry_live _ _ _),
    State.setJobEntry_setJobEntry]

/-- What a fault does to a lane whose FEED is on its way (R87). -/
theorem State.faultClaim_feeding {s : State} {n : LaneId} {stood : LaneState} {purpose : Option TrayPurpose} {r : Request}
    (hfeed : s.laneRequest .feed n = some r) (hstood : stood = .opening ∨ stood = .opened) (hpurpose : purpose = some .place) :
    s.faultClaim n stood purpose =
      if r.disc = none then s.claimEnds n else if s.placingAt n then s else s.divertFeed n r := by
  have hplaced : s.faultClaim n stood purpose = match r.disc with
      | none => s.claimEnds n
      | some _ => if s.placingAt n then s else s.divertFeed n r := by
    subst hpurpose
    rcases hstood with rfl | rfl <;> dsimp only [State.faultClaim] <;> rw [hfeed] <;> rfl
  rw [hplaced]
  cases r.disc with
  | none => rfl
  | some serial => rfl

theorem State.faultBegun_ownLane (s : State) (n : LaneId) (cause : LaneCause) :
    (s.faultBegun n cause).lanes[n] = s.lanes[n].faulted (s.hurtDisc n).isSome := by
  rw [State.faultBegun_lane, if_pos rfl]

/-- A fault leaves its lane in FAULT and in no queue (R86). -/
theorem State.laneFault_lane (s : State) (n : LaneId) (cause : LaneCause) :
    (s.laneFault n cause).lanes[n].state = .fault ∧ (s.laneFault n cause).OutOfQueues n := by
  obtain ⟨hstate, hstart, hverify, hchannel, -⟩ := State.of_faultView
    ((s.faultBegun n cause).faultClaim_faultView n s.lanes[n].state s.lanes[n].purpose)
  rw [← State.laneFault_eq] at hstate hstart hverify hchannel
  refine ⟨?_, (s.faultBegun_outOfQueues n cause).of_eq hstart (fun e he => hverify ▸ he) hchannel⟩
  rw [hstate, State.faultBegun_ownLane]
  rfl

/-- A fault fails the disc in the lane's tray (R86 step 3). -/
theorem State.laneFault_discAt (s : State) (n : LaneId) (cause : LaneCause) :
    (s.laneFault n cause).discAt (.tray n) = (s.discAt (.tray n)).map Disc.faulted := by
  obtain ⟨-, -, -, -, hdisc⟩ := State.of_faultView
    ((s.faultBegun n cause).faultClaim_faultView n s.lanes[n].state s.lanes[n].purpose)
  rw [State.laneFault_eq, hdisc, State.faultBegun_discAt]

/-- A fault of a lane that holds no claim and feeds no disc: its parts that `faultBegun` decides. -/
theorem State.laneFault_noClaim {s : State} {n : LaneId}
    (h : ¬(s.lanes[n].state = .awaitDisc ∨
      (s.lanes[n].state = .opening ∨ s.lanes[n].state = .opened) ∧ s.lanes[n].purpose = some .place)) (cause : LaneCause) :
    let t := s.laneFault n cause
    let u := s.faultBegun n cause
    t.requests = u.requests ∧ t.ports = u.ports ∧ t.images = u.images ∧ t.jobs = u.jobs ∧ t.due.start = u.due.start ∧
      ∀ m, m ≠ n → t.lanes[m] = s.lanes[m] := by
  dsimp only
  rw [State.laneFault_eq]
  obtain ⟨hframe, hothers⟩ := (s.faultBegun n cause).faultClaim_noClaim n h
  refine ⟨(congrArg State.requests hframe :), (congrArg State.ports hframe :), (congrArg State.images hframe :),
    (congrArg State.jobs hframe :), (congrArg (·.due.start) hframe :), fun m hm => ?_⟩
  rw [hothers m hm, State.faultBegun_lane, if_neg hm]

/-- The lane record and the messages after a fault of a lane that was not unloading (R86). -/
theorem State.laneFault_resting {s : State} {n : LaneId}
    (h : ¬(s.lanes[n].state = .awaitDisc ∨
      (s.lanes[n].state = .opening ∨ s.lanes[n].state = .opened) ∧ s.lanes[n].purpose = some .place))
    (hpick : ¬((s.lanes[n].state = .opening ∨ s.lanes[n].state = .opened) ∧ s.lanes[n].purpose = some .pick))
    (cause : LaneCause) : (s.laneFault n cause).lanes[n] = s.lanes[n].faulted (s.hurtDisc n).isSome ∧
      (s.laneFault n cause).out = s.out ++ [.drive n [8]] := by
  obtain ⟨hawait, hplace⟩ := not_or.1 h
  have hrest := (s.faultBegun n cause).faultClaim_rest n hawait fun ⟨hstood, hpurpose⟩ =>
    hpurpose.elim (fun hp => hpick ⟨hstood, hp⟩) fun hp => hplace ⟨hstood, hp⟩
  rw [State.laneFault_eq, hrest]
  exact ⟨s.faultBegun_ownLane n cause, s.faultBegun_out n cause⟩

/-- An unload whose tray was open, or is found open (R87). -/
theorem State.laneFault_open {s : State} {n : LaneId} (hpurpose : s.lanes[n].purpose = some .pick)
    (h : s.lanes[n].state = .opened ∨ s.lanes[n].state = .opening ∧ s.lanes[n].report = some .opened) (cause : LaneCause) :
    (s.laneFault n cause).lanes[n] = { s.lanes[n].faulted (s.hurtDisc n).isSome with faultMove := some .unloadOpen } ∧
      (s.laneFault n cause).out = s.out ++ [.drive n [8]] ∧ (s.laneFault n cause).due.arm = true := by
  have hlane := s.faultBegun_ownLane n cause
  obtain ⟨hown, hout, harm⟩ := (s.faultBegun n cause).faultClaim_open n (stood := s.lanes[n].state)
    (by rw [hlane]; exact h) (by rw [hlane]; exact hpurpose) (by rw [hlane]; rfl) (by rw [hlane]; rfl)
  rw [State.laneFault_eq, hpurpose]
  exact ⟨hlane ▸ hown, hout.trans (s.faultBegun_out n cause), harm⟩

/-- An unload whose tray was opening opens it again (R87). -/
theorem State.laneFault_opening {s : State} {n : LaneId} (hpurpose : s.lanes[n].purpose = some .pick)
    (hstate : s.lanes[n].state = .opening) (hreport : s.lanes[n].report ≠ some .opened) (cause : LaneCause) :
    (s.laneFault n cause).lanes[n] = { s.lanes[n].faulted (s.hurtDisc n).isSome with
        faultMove := some .unloadOpening, timer := some ⟨8000, 0⟩, unanswered := some .openTray } ∧
      (s.laneFault n cause).out = s.out ++ [.drive n [8], .drive n [1]] := by
  have hlane := s.faultBegun_ownLane n cause
  obtain ⟨hown, hout⟩ := (s.faultBegun n cause).faultClaim_opening n
    (by rw [hlane]; exact hreport) (by rw [hlane]; exact hpurpose) (by rw [hlane]; rfl)
  rw [State.laneFault_eq, hpurpose, hstate]
  refine ⟨hlane ▸ hown, hout.trans ?_⟩
  rw [State.faultBegun_out, List.append_assoc]
  rfl

/-! ## The lane of a FEED -/

/-- ABORT, the record and the notice, for a lane with nothing in its tray (R86). -/
def State.faultTold (s : State) (n : LaneId) (cause : LaneCause) : State :=
  (s.faultStruck n).raise .lane (.laneFault n cause none)

theorem State.faultTold_frame (s : State) (n : LaneId) (cause : LaneCause) :
    (s.faultTold n cause).jobs = s.jobs ∧ (s.faultTold n cause).requests = s.requests ∧ (s.faultTold n cause).arm = s.arm ∧
      (s.faultTold n cause).lanes[n].job = s.lanes[n].job := by
  rw [State.faultTold, State.raise_ports_only]
  refine ⟨rfl, rfl, rfl, ?_⟩
  have hlane := (s.emit (.drive n [8])).modLane_same n fun l =>
    { l with state := .fault, timer := none, faultMove := none, unanswered := none, heldBack := none }
  exact (congrArg Lane.job hlane :)

section
variable {s : State} {n : LaneId} {h : Handle} {j : Job} {r : Request} (cause : LaneCause)

theorem State.faultTold_feedLoses (s : State) (n : LaneId) (r : Request) (cause : LaneCause) :
    (s.faultTold n cause).feedLoses r =
      if r.taken = true ∧ s.arm.request = some r.age then
        (s.faultTold n cause).setRequests (s.requests.map fun x => if x.age = r.age then { x with lane := none } else x)
      else (s.faultTold n cause).setRequests (s.requests.filter fun x => decide (x.age ≠ r.age)) := by
  obtain ⟨-, hrequests, harm, -⟩ := s.faultTold_frame n cause
  rw [State.feedLoses, hrequests, harm]
  split <;> rfl

theorem State.faultTold_laneRequest (s : State) (n : LaneId) (cause : LaneCause) (kind : RequestKind) :
    (s.faultTold n cause).laneRequest kind n = s.laneRequest kind n := by
  obtain ⟨-, hrequests, -⟩ := s.faultTold_frame n cause
  unfold State.laneRequest
  rw [hrequests]

theorem State.faultTold_claimEnds (hfeed : s.laneRequest .feed n = some r) (hjob : s.lanes[n].job = some h)
    (hj : s.jobOf h = some j) : (s.faultTold n cause).claimEnds n =
      (((((s.faultTold n cause).feedLoses r).setJobEntry h.index
        ⟨h.generation, some { j with inFlight := j.inFlight - 1, lanesHeld := j.lanesHeld - 1 }⟩).modLane n
          fun l => { l with job := none }).drainCheck h).oweClaim := by
  obtain ⟨hjobs, -, -, hlaneJob⟩ := s.faultTold_frame n cause
  exact State.claimEnds_live ((s.faultTold_laneRequest n cause .feed).trans hfeed) (hlaneJob.trans hjob)
    ((State.jobOf_congr hjobs h).trans hj)

/-- The disc on the arm is diverted to the reject bin (R87, third row; log 11). -/
theorem State.faultTold_divertFeed (hjob : s.lanes[n].job = some h) (hj : s.jobOf h = some j) :
    (s.faultTold n cause).divertFeed n r =
      (((((s.faultTold n cause).modDiscAt .arm fun d => { d.fail .laneFault with destination := some .reject }).setJobEntry
        h.index ⟨h.generation, some { j with lanesHeld := j.lanesHeld - 1 }⟩).modLane n fun l => { l with job := none }).setRequests
          (s.requests.map fun x => if x.age = r.age then { x with lane := none } else x)).oweArm := by
  obtain ⟨hjobs, hrequests, -, hlaneJob⟩ := s.faultTold_frame n cause
  have hjob' : ((s.faultTold n cause).modDiscAt .arm fun d =>
      { d.fail .laneFault with destination := some .reject }).lanes[n].job = some h := by
    rw [State.modDiscAt_lanes]; exact hlaneJob.trans hjob
  have hj' : ((s.faultTold n cause).modDiscAt .arm fun d =>
      { d.fail .laneFault with destination := some .reject }).jobOf h = some j := by
    rw [State.modDiscAt_eq]; exact (State.jobOf_congr hjobs h).trans hj
  have hkept (t : State) (e : JobEntry) (f : Lane → Lane) (ht : t.requests = s.requests) :
      ((t.setJobEntry h.index e).modLane n f).modRequest r.age (fun r => { r with lane := none }) =
        ((t.setJobEntry h.index e).modLane n f).setRequests
          (s.requests.map fun x => if x.age = r.age then { x with lane := none } else x) := by
    rw [← ht]; rfl
  rw [State.divertFeed, State.laneLeavesJob_live hjob' hj', hkept _ _ _ (by rw [State.modDiscAt_requests]; exact hrequests)]

end

/-- Settles O39: what holds of every fault by `laneFault_lane` and `laneFault_discAt`, a lane without a claim by `laneFault_noClaim`,
`laneFault_resting`, `laneFault_open` and `laneFault_opening`, a lane with one by `faultBegun_nothing` and `faultClaim_feeding`. -/
theorem laneFaultTakesTheLaneOut : Obligations.LaneFaultTakesTheLaneOut := by
  refine ⟨fun n cause s => ?_, fun n cause s => ?_, ?_⟩
  · obtain ⟨hstate, hstart, hverify, hchannel⟩ := s.laneFault_lane n cause
    have hquiet := s.laneFault_quiet n cause
    simp only [State.quiet, Prod.mk.injEq] at hquiet
    obtain ⟨-, -, hmem, hbudget, -⟩ := hquiet
    refine ⟨hstate, hstart, hverify, hchannel, fun d hd hphase => ⟨d.faulted, ?_, ?_⟩, hmem, hbudget⟩
    · rw [State.laneFault_discAt, hd]; rfl
    · rw [Disc.faulted, if_neg hphase]
      exact ⟨rfl, rfl, rfl⟩
  · intro t l hurt after moving hno
    obtain ⟨hrequests, hports, himages, hjobs, hstart, hothers⟩ := State.laneFault_noClaim hno cause
    refine ⟨s.laneFault_discAt n cause, hrequests.trans (s.faultBegun_requests n cause), hothers,
      fun hburning => hstart.trans (s.faultBegun_start n cause hburning),
      fun hpick => State.laneFault_resting hno hpick cause, fun hpurpose hopen => State.laneFault_open hpurpose hopen cause,
      fun hpurpose hstate hreport => State.laneFault_opening hpurpose hstate hreport cause,
      fun hslot => hports.trans (State.faultBegun_ports hslot cause), fun i hslot hloading => ?_⟩
    obtain ⟨hfreed, hlive⟩ := State.faultBegun_load hslot hloading cause
    have hslots : t.images[i] = (s.faultBegun n cause).images[i] := congrArg (·[i]) himages
    exact ⟨hslots.trans hfreed, State.liveJobs_congr hjobs ▸ hlive⟩
  · intro n cause h j r s hstart hverify hchannel hslot hdisc hjob hj hfeed placing running faulted withoutLane leaves
    have begun (hstood : s.lanes[n].state ≠ .burning) : s.laneFault n cause =
        (s.faultTold n cause).faultClaim n s.lanes[n].state s.lanes[n].purpose := by
      rw [State.laneFault_eq, State.faultBegun_nothing hstart hverify hchannel hslot hdisc hstood]; rfl
    have hclaim := State.faultTold_claimEnds cause hfeed hjob hj
    rw [State.faultTold_feedLoses] at hclaim
    have fed (hplacing : placing) : s.laneFault n cause = if r.disc = none then (s.faultTold n cause).claimEnds n
        else if (s.faultTold n cause).placingAt n then s.faultTold n cause else (s.faultTold n cause).divertFeed n r := by
      obtain ⟨hstood, hpurpose⟩ := hplacing
      have hnotBurning : s.lanes[n].state ≠ .burning := by rcases hstood with hs | hs <;> rw [hs] <;> decide
      rw [begun hnotBurning, State.faultClaim_feeding ((s.faultTold_laneRequest n cause .feed).trans hfeed) hstood hpurpose]
    have hplacingAt : (s.faultTold n cause).placingAt n = true ↔ running := by
      obtain ⟨-, -, harm, -⟩ := s.faultTold_frame n cause
      rw [State.placingAt, harm, Bool.and_eq_true, decide_eq_true_eq, decide_eq_true_eq]
    refine ⟨fun hends => ?_, fun hplacing hpicked hrunning => ?_, fun hplacing hpicked hwaits => ?_⟩
    · rcases hends with hawait | ⟨hplacing, hnotPicked⟩
      · have hnotBurning : s.lanes[n].state ≠ .burning := by rw [hawait]; decide
        rw [begun hnotBurning, hawait]
        exact hclaim
      · rw [fed hplacing, if_pos hnotPicked]
        exact hclaim
    · rw [fed hplacing, if_neg hpicked, if_pos (hplacingAt.2 hrunning)]
      rfl
    · rw [fed hplacing, if_neg hpicked, if_neg fun hp => hwaits (hplacingAt.1 hp)]
      exact State.faultTold_divertFeed cause hjob hj

end Sys2Proof.Machine
end

