-- ==== Sys2Proof/Proofs/QuietParts.lean ====
section
/-! Which commands write the quiet parts of the state (R53, R103, R144, R149, R153): the frames of Laws/Frames.lean carried on to the
meanings of the client commands, then the commands taken one by one. -/

namespace Sys2Proof.Machine

/-! ## The client commands that leave every quiet part alone -/

@[simp] theorem loadImage_quiet (p : Port) (r : CommandRecord) (s : State) : (loadImage p r s).2.quiet = s.quiet := by
  unfold loadImage onImage; dsimp only; (repeat' split) <;> simp

@[simp] theorem loadFromDisc_quiet (p : Port) (r : CommandRecord) (s : State) : (loadFromDisc p r s).2.quiet = s.quiet := by
  unfold loadFromDisc onImage; dsimp only; (repeat' split) <;> simp

@[simp] theorem deleteImage_quiet (p : Port) (r : CommandRecord) (s : State) : (deleteImage p r s).2.quiet = s.quiet := by
  unfold deleteImage onImage; dsimp only; (repeat' split) <;> simp

@[simp] theorem protectImage_quiet (p : Port) (r : CommandRecord) (s : State) : (protectImage p r s).2.quiet = s.quiet := by
  unfold protectImage onImage; dsimp only; (repeat' split) <;> simp

@[simp] theorem unprotectImage_quiet (p : Port) (r : CommandRecord) (s : State) : (unprotectImage p r s).2.quiet = s.quiet := by
  unfold unprotectImage onImage; dsimp only; (repeat' split) <;> simp

@[simp] theorem markNoExport_quiet (p : Port) (r : CommandRecord) (s : State) : (markNoExport p r s).2.quiet = s.quiet := by
  unfold markNoExport onImage; dsimp only; (repeat' split) <;> simp

@[simp] theorem exportImage_quiet (p : Port) (r : CommandRecord) (s : State) : (exportImage p r s).2.quiet = s.quiet := by
  unfold exportImage onImage; dsimp only; (repeat' split) <;> simp

@[simp] theorem loadArtwork_quiet (p : Port) (r : CommandRecord) (s : State) : (loadArtwork p r s).2.quiet = s.quiet := by
  unfold loadArtwork onArtwork; dsimp only; (repeat' split) <;> simp

@[simp] theorem deleteArtwork_quiet (p : Port) (r : CommandRecord) (s : State) : (deleteArtwork p r s).2.quiet = s.quiet := by
  unfold deleteArtwork onArtwork; dsimp only; (repeat' split) <;> simp

@[simp] theorem submitJob_quiet (p : Port) (r : CommandRecord) (s : State) : (submitJob p r s).2.quiet = s.quiet := by
  unfold submitJob; dsimp only; (repeat' split) <;> simp

@[simp] theorem pauseJob_quiet (p : Port) (r : CommandRecord) (s : State) : (pauseJob p r s).2.quiet = s.quiet := by
  unfold pauseJob onJob; dsimp only; (repeat' split) <;> simp

@[simp] theorem resumeJob_quiet (p : Port) (r : CommandRecord) (s : State) : (resumeJob p r s).2.quiet = s.quiet := by
  unfold resumeJob onJob; dsimp only; (repeat' split) <;> simp

@[simp] theorem cancelJob_quiet (p : Port) (r : CommandRecord) (s : State) : (cancelJob p r s).2.quiet = s.quiet := by
  unfold cancelJob onJob; dsimp only; (repeat' split) <;> simp

@[simp] theorem killJob_quiet (p : Port) (r : CommandRecord) (s : State) : (killJob p r s).2.quiet = s.quiet := by
  unfold killJob onJob; dsimp only; (repeat' split) <;> simp

@[simp] theorem openTray_quiet (r : CommandRecord) (s : State) : (openTray r s).2.quiet = s.quiet := by
  unfold openTray onLane; dsimp only; (repeat' split) <;> simp

@[simp] theorem closeTray_quiet (r : CommandRecord) (s : State) : (closeTray r s).2.quiet = s.quiet := by
  unfold closeTray onLane; dsimp only; (repeat' split) <;> simp

@[simp] theorem laneOnline_quiet (r : CommandRecord) (s : State) : (laneOnline r s).2.quiet = s.quiet := by
  unfold laneOnline onLane; dsimp only; (repeat' split) <;> simp

@[simp] theorem laneOffline_quiet (r : CommandRecord) (s : State) : (laneOffline r s).2.quiet = s.quiet := by
  unfold laneOffline onLane; dsimp only; (repeat' split) <;> simp

@[simp] theorem clearLane_quiet (r : CommandRecord) (s : State) : (clearLane r s).2.quiet = s.quiet := by
  unfold clearLane onLane; dsimp only; (repeat' split) <;> simp

@[simp] theorem clearArmFault_quiet (r : CommandRecord) (s : State) : (clearArmFault r s).2.quiet = s.quiet := by
  unfold clearArmFault; (repeat' split) <;> simp

@[simp] theorem clearPrinterFault_quiet (r : CommandRecord) (s : State) : (clearPrinterFault r s).2.quiet = s.quiet := by
  unfold clearPrinterFault; split <;> simp

@[simp] theorem towerReset_quiet (loadsFirst : Bool) (r : CommandRecord) (s : State) :
    (towerReset loadsFirst r s).2.quiet = s.quiet := by
  unfold towerReset towerResetEffect; (repeat' split) <;> simp

/-! ## What a command spares -/

/-- The state without image memory (its writers are O55's) and without the quiet parts that the command writes. -/
def State.unwritten (c : Instr) (s : State) : State :=
  let withoutBins : State := { s with mem := [], binA := ⟨.m, false, false⟩, binB := ⟨.m, false, false⟩ }
  match c with
  | .setFeedBudget _ => { s with mem := [], budget := 0 }
  | .setBinClass _ => withoutBins
  | .clearBinFault _ => withoutBins
  | .armStepDone => { withoutBins with serial := 0 }
  | .sensorScan _ _ =>
    { withoutBins with
      sensors := Vector.replicate 14 ⟨false, 0⟩, scans := 0, key := .lock, outputFull := false, rejectFull := false }
  | _ => { s with mem := [] }

section
variable (c : Instr) (s : State)

@[simp] theorem State.unwritten_pending : (s.unwritten c).pending = s.pending := by
  unfold State.unwritten; split <;> rfl

@[simp] theorem State.unwritten_now : (s.unwritten c).now = s.now := by
  unfold State.unwritten; split <;> rfl

theorem State.unwritten_budget (h : ∀ p, c ≠ .setFeedBudget p) : (s.unwritten c).budget = s.budget := by
  cases c with
  | setFeedBudget p => exact absurd rfl (h p)
  | _ => rfl

theorem State.unwritten_serial (h : c ≠ .armStepDone) : (s.unwritten c).serial = s.serial := by
  cases c with
  | armStepDone => exact absurd rfl h
  | _ => rfl

theorem State.unwritten_sensed (h : ∀ readings order, c ≠ .sensorScan readings order) :
    (s.unwritten c).sensors = s.sensors ∧ (s.unwritten c).key = s.key ∧ (s.unwritten c).scans = s.scans ∧
      (s.unwritten c).outputFull = s.outputFull ∧ (s.unwritten c).rejectFull = s.rejectFull := by
  cases c with
  | sensorScan readings order => exact absurd rfl (h readings order)
  | _ => exact ⟨rfl, rfl, rfl, rfl, rfl⟩

theorem State.unwritten_bins (hscan : ∀ readings order, c ≠ .sensorScan readings order) (hstep : c ≠ .armStepDone)
    (hclass : ∀ p, c ≠ .setBinClass p) (hclear : ∀ p, c ≠ .clearBinFault p) :
    (s.unwritten c).binA = s.binA ∧ (s.unwritten c).binB = s.binB := by
  cases c with
  | sensorScan readings order => exact absurd rfl (hscan readings order)
  | armStepDone => exact absurd rfl hstep
  | setBinClass p => exact absurd rfl (hclass p)
  | clearBinFault p => exact absurd rfl (hclear p)
  | _ => exact ⟨rfl, rfl⟩

end

/-- From `s` to `t` no quiet part changes but image memory and those that the command writes. -/
def State.Spares (c : Instr) (s t : State) : Prop := (t.unwritten c).quiet = (s.unwritten c).quiet

section
variable {c : Instr} {s t u : State}

theorem State.Spares.of_quiet (h : t.quiet = s.quiet) : s.Spares c t := by
  simp only [State.quiet, Prod.mk.injEq] at h
  obtain ⟨hpending, hnow, -, hbudget, hserial, hbinA, hbinB, houtput, hreject, hsensors, hscans, hkey⟩ := h
  unfold State.Spares State.unwritten
  split <;>
    simp only [State.quiet, hpending, hnow, hbudget, hserial, hbinA, hbinB, houtput, hreject, hsensors, hscans, hkey]

theorem State.Spares.trans (h : s.Spares c t) (h' : t.Spares c u) : s.Spares c u := Eq.trans h' h

/-- What follows on a change touches no quiet part. -/
theorem State.Spares.quiet (h : s.Spares c t) (hu : u.quiet = t.quiet) : s.Spares c u := h.trans (.of_quiet hu)

end

/-- Image memory is not looked at. -/
theorem State.setMem_spares (c : Instr) (s : State) (m : Memory) : s.Spares c (s.setMem m) := by
  unfold State.Spares State.unwritten
  split <;> rfl

/-- A meaning that spares what its command does not write spares it when its command is taken. -/
theorem State.takeCommand_spares (c : Instr) (s : State) (p : Port) (code : Nat) (meaning : CommandRecord → State → Reply × State)
    (h : ∀ r (u : State), u.Spares c (meaning r u).2) : s.Spares c (s.takeCommand p code meaning) := by
  unfold State.takeCommand
  split
  · exact ((State.Spares.of_quiet (State.modPort_quiet s p _)).trans (h _ _)).quiet (State.settle_quiet _)
  · split
    · exact .of_quiet rfl
    · exact ((h _ s).quiet (State.settle_quiet _)).quiet (State.modPort_quiet _ p _)

theorem State.takeCommand_quiet_spares (c : Instr) (s : State) (p : Port) (code : Nat)
    (meaning : CommandRecord → State → Reply × State) (h : ∀ r (u : State), (meaning r u).2.quiet = u.quiet) :
    s.Spares c (s.takeCommand p code meaning) :=
  s.takeCommand_spares c p code meaning fun r u => .of_quiet (h r u)

/-! ## The commands that write a quiet part -/

/-- SET-FEED-BUDGET writes the budget (R103). -/
theorem setFeedBudget_spares (p : Port) (r : CommandRecord) (s : State) : s.Spares (.setFeedBudget p) (setFeedBudget r s).2 := by
  unfold setFeedBudget
  split <;> rfl

/-- SET-BIN-CLASS writes a bin (R145). -/
theorem setBinClass_spares (p : Port) (r : CommandRecord) (s : State) : s.Spares (.setBinClass p) (setBinClass r s).2 := by
  unfold setBinClass
  split
  · rename_i which cls _ _
    split
    · rfl
    · cases which <;> rfl
  · rfl

/-- CLEAR-BIN-FAULT writes a bin (R146). -/
theorem clearBinFault_spares (p : Port) (r : CommandRecord) (s : State) :
    s.Spares (.clearBinFault p) (clearBinFault r s).2 := by
  unfold clearBinFault
  split
  · rfl
  · rename_i which _
    split
    · cases which <;> rfl
    · rfl

/-! ### ARM_STEP_DONE: a PICK takes a serial, a third failed attempt faults its bin -/

theorem State.modBin_spares_armStepDone (s : State) (which : Bin) (f : BinRecord → BinRecord) :
    s.Spares .armStepDone (s.modBin which f) := by
  cases which <;> rfl

/-- The record that a PICK at a bin creates takes the serial (R53). -/
theorem State.createDisc_spares (s : State) (r : Request) : s.Spares .armStepDone (s.createDisc r) := by
  unfold State.createDisc
  split
  · exact .of_quiet rfl
  · refine State.Spares.quiet ?_ (State.armContinue_quiet _)
    rfl

theorem State.binFaults_spares (s : State) (which : Bin) : s.Spares .armStepDone (s.binFaults which) :=
  (s.modBin_spares_armStepDone which fun v => { v with fault := true }).quiet (by simp [State.binFaults])

theorem State.pickDone_spares (s : State) : s.Spares .armStepDone s.pickDone := by
  unfold State.pickDone State.pickedAtBin
  split
  · split
    · split
      · exact s.binFaults_spares _
      · exact .of_quiet s.armContinue_quiet
    · split
      · exact .of_quiet s.armContinue_quiet
      · exact s.createDisc_spares _
    · exact .of_quiet (State.armContinue_quiet _)
  · exact .of_quiet (s.pickedAt_quiet _)
  · exact .of_quiet (s.pickedAt_quiet _)
  · exact .of_quiet s.armContinue_quiet

theorem State.placeDone_spares (s : State) : s.Spares .armStepDone s.placeDone := by
  unfold State.placeDone State.putBack
  dsimp only
  split
  · split
    · exact (State.Spares.of_quiet (s.modArm_quiet _)).trans (State.binFaults_spares _ _)
    · exact .of_quiet (State.armContinue_quiet _)
  · exact .of_quiet (s.placedInTray_quiet _)
  · exact .of_quiet s.placedOnPrinter_quiet
  · exact .of_quiet (s.placedInBin_quiet _)
  · exact .of_quiet (s.placedInBin_quiet _)
  · exact .of_quiet s.armContinue_quiet

theorem execArmStepDone_spares (s : State) : nextHas (s.Spares .armStepDone) (execArmStepDone s) := by
  unfold execArmStepDone
  split
  · exact .of_quiet rfl
  · exact .of_quiet (by split <;> simp)
  · exact .of_quiet (by simp)
  · exact (s.endStep.pickDone_spares).quiet (State.settle_quiet _)
  · exact (s.endStep.placeDone_spares).quiet (State.settle_quiet _)

/-! ### SENSOR_SCAN: the sensors, the key, the full flags and the present bits of the bins -/

section
variable (readings : BitVec 32) (order : List Sensor)

theorem State.modSensor_spares (s : State) (v : Sensor) (f : SensorRecord → SensorRecord) :
    s.Spares (.sensorScan readings order) (s.modSensor v f) := rfl

theorem State.countReadings_spares (l : List Sensor) (s : State) :
    s.Spares (.sensorScan readings order) (State.countReadings readings l s) := by
  induction l generalizing s with
  | nil => exact .of_quiet rfl
  | cons v rest ih => exact (s.modSensor_spares readings order v _).trans (ih _)

theorem State.binPresence_spares (s : State) (which : Bin) (on : Bool) :
    s.Spares (.sensorScan readings order) (s.binPresence which on) := by
  have written : s.Spares (.sensorScan readings order) (s.modBin which fun v => { v with present := on }) := by
    cases which <;> rfl
  exact written.quiet (by unfold State.binPresence; split <;> simp)

theorem State.outputChange_spares (s : State) (on : Bool) : s.Spares (.sensorScan readings order) (s.outputChange on) := by
  have written : s.Spares (.sensorScan readings order) (s.setOutputFull on) := rfl
  exact written.quiet (by unfold State.outputChange; split <;> simp)

theorem State.rejectChange_spares (s : State) (on : Bool) : s.Spares (.sensorScan readings order) (s.rejectChange on) := by
  have written : s.Spares (.sensorScan readings order) (s.setRejectFull on) := rfl
  exact written.quiet (by unfold State.rejectChange; split <;> simp)

theorem State.deriveKey_spares (s : State) : s.Spares (.sensorScan readings order) s.deriveKey := by
  unfold State.deriveKey
  dsimp only
  split
  · rfl
  · have written : s.Spares (.sensorScan readings order) (s.setKey (keyOf (s.sensor .keyLock) (s.sensor .keyService))) := rfl
    exact written.quiet (State.raise_quiet _ _ _)

theorem State.consume_spares (s : State) (startUp : Bool) (before : Nat) (v : Sensor) (on : Bool) :
    s.Spares (.sensorScan readings order) (s.consume startUp before v on) := by
  cases v with
  | binAPresent => exact s.binPresence_spares readings order .a on
  | binBPresent => exact s.binPresence_spares readings order .b on
  | outputFull => exact s.outputChange_spares readings order on
  | rejectFull => exact s.rejectChange_spares readings order on
  | keyLock | keyService =>
    dsimp only [State.consume]
    split
    · rfl
    · exact s.deriveKey_spares readings order
  | doorClosed => exact .of_quiet (by dsimp only [State.consume, State.doorChange]; split <;> simp)
  | gripOne | gripTwo => exact .of_quiet (s.gripChange_quiet before)
  | armHome | lidClosed | printerTrayHome => exact .of_quiet (by dsimp only [State.consume]; split <;> simp)
  | blackPresent => exact .of_quiet (s.blackChange_quiet on)
  | colourPresent => exact .of_quiet (s.colourChange_quiet on)

theorem State.changeEvents_spares (startUp : Bool) (l : List Sensor) (s : State) :
    s.Spares (.sensorScan readings order) (State.changeEvents startUp readings l s) := by
  induction l generalizing s with
  | nil => rfl
  | cons v rest ih =>
    refine State.Spares.trans (State.Spares.quiet ?_ (State.settle_quiet _)) (ih _)
    exact (s.modSensor_spares readings order v _).trans (State.consume_spares readings order _ _ _ _ _)

theorem execSensorScan_spares (s : State) :
    nextHas (s.Spares (.sensorScan readings order)) (execSensorScan readings order s) := by
  have counted : s.Spares (.sensorScan readings order)
      (State.countReadings readings allSensors (s.setScans (min 3 (s.scans + 1)))) :=
    State.countReadings_spares readings order allSensors (s.setScans _)
  have changed := counted.trans (State.changeEvents_spares readings order (decide (s.scans < 3))
    (s.changedSensors readings order) _)
  unfold execSensorScan
  rw [nextHas_next]
  split
  · exact changed.trans (State.deriveKey_spares readings order _)
  · exact changed

end

/-! ### The commands that write image memory write no other quiet part -/

theorem execImageStagingWrite_spares (p : Port) (count : Nat) (s : State) :
    nextHas (s.Spares (.imageStagingWrite p count)) (execImageStagingWrite p count s) := by
  have stored (m : Memory) (k : Fin 2) (v : CrcChannel) (f : PortRecord → PortRecord) :
      s.Spares (.imageStagingWrite p count) (((s.setMem m).setCrc k v).modPort p f) := (s.setMem_spares _ m).quiet rfl
  unfold execImageStagingWrite
  split
  · rename_i i _
    dsimp only
    split
    · exact .of_quiet rfl
    · split
      · split
        · rw [nextHas_next]
          split
          · exact ((stored _ _ _ _).quiet (State.finishImageLoad_quiet _ i)).quiet (State.settle_quiet _)
          · exact (stored _ _ _ _).quiet (State.settle_quiet _)
        · exact True.intro
      · exact .of_quiet rfl
  · exact .of_quiet rfl

theorem execArtworkStagingWrite_spares (p : Port) (count : Nat) (s : State) :
    nextHas (s.Spares (.artworkStagingWrite p count)) (execArtworkStagingWrite p count s) := by
  have stored (m : Memory) (i : ArtworkId) (f : ArtworkSlot → ArtworkSlot) (g : PortRecord → PortRecord) :
      s.Spares (.artworkStagingWrite p count) (((s.setMem m).modArtwork i f).modPort p g) := (s.setMem_spares _ m).quiet rfl
  unfold execArtworkStagingWrite
  split
  · rename_i i _
    dsimp only
    split
    · split
      · rw [nextHas_next]
        split
        · exact (stored _ _ _ _).quiet (State.finishArtworkLoad_quiet _ p i)
        · exact stored _ _ _ _
      · exact True.intro
    · exact .of_quiet rfl
  · exact .of_quiet rfl

theorem State.sourceArrives_spares (c : Instr) (s : State) (n : LaneId) (k : Fin 2) (i : ImageId) (next : Nat)
    (outstanding : List Nat) (digested index : Nat) (data : List Byte) :
    s.Spares c (s.sourceArrives n k i next outstanding digested index data) := by
  have stored (m m' : Memory) (f : ImageSlot → ImageSlot) (v : CrcChannel) :
      s.Spares c (((((s.setMem m).setMem m').modImage i f).restartTimer n).setCrc k v) :=
    ((s.setMem_spares c m).trans (State.setMem_spares c _ m')).quiet rfl
  unfold State.sourceArrives
  dsimp only
  split <;> split
  · exact ((stored _ _ _ _).quiet (State.sendDrive_quiet _ n _)).quiet (State.finishImageLoad_quiet _ i)
  · exact (stored _ _ _ _).quiet (State.finishImageLoad_quiet _ i)
  · exact (stored _ _ _ _).quiet (State.sendDrive_quiet _ n _)
  · exact stored _ _ _ _

theorem execReadData_spares (n : LaneId) (index : BitVec 24) (data : List Byte) (s : State) :
    nextHas (s.Spares (.readData n index data)) (execReadData n index data s) := by
  unfold execReadData
  (repeat' split) <;> first
    | exact True.intro
    | exact .of_quiet rfl
    | exact (s.sourceArrives_spares _ n _ _ _ _ _ _ _).quiet (State.settle_quiet _)
    | exact .of_quiet (by simp)

/-! ## The commands -/

/-- Every command but the reset spares the quiet parts that it does not write. -/
theorem exec_spares (c : Instr) (s : State) (h : c ≠ .powerOnReset) : nextHas (s.Spares c) (exec c s) := by
  cases c with
  | powerOnReset => exact absurd rfl h
  | linkReset p =>
    dsimp only [exec, execLinkReset]
    rw [nextHas_next]
    split
    · exact .of_quiet rfl
    · exact .of_quiet (by simp)
  | linkResetRelease p => exact .of_quiet (s.modPort_quiet p _)
  | putCommands p records => dsimp only [exec, execPutCommands]; split <;> exact .of_quiet (by simp)
  | takeNotices p n => dsimp only [exec, execTakeNotices]; split <;> exact .of_quiet (by simp)
  | bulkWrite p bytes => dsimp only [exec, execBulkWrite]; split <;> exact .of_quiet (by simp)
  | bulkRead p n => dsimp only [exec, execBulkRead]; (repeat' split) <;> exact .of_quiet (by simp)
  | linkStatus p => exact .of_quiet (s.answer_quiet p _)
  | unknownTransaction p => exact .of_quiet (s.answer_quiet p _)
  | replyReturn p => dsimp only [exec, execReplyReturn]; (repeat' split) <;> exact .of_quiet (by simp)
  | badCommand p => dsimp only [exec, execBadCommand]; (repeat' split) <;> exact .of_quiet (by simp)
  | loadImage p => exact s.takeCommand_quiet_spares _ p _ _ (loadImage_quiet p)
  | loadFromDisc p => exact s.takeCommand_quiet_spares _ p _ _ (loadFromDisc_quiet p)
  | deleteImage p => exact s.takeCommand_quiet_spares _ p _ _ (deleteImage_quiet p)
  | protectImage p => exact s.takeCommand_quiet_spares _ p _ _ (protectImage_quiet p)
  | unprotectImage p => exact s.takeCommand_quiet_spares _ p _ _ (unprotectImage_quiet p)
  | markNoExport p => exact s.takeCommand_quiet_spares _ p _ _ (markNoExport_quiet p)
  | exportImage p => exact s.takeCommand_quiet_spares _ p _ _ (exportImage_quiet p)
  | loadArtwork p => exact s.takeCommand_quiet_spares _ p _ _ (loadArtwork_quiet p)
  | deleteArtwork p => exact s.takeCommand_quiet_spares _ p _ _ (deleteArtwork_quiet p)
  | submitJob p => exact s.takeCommand_quiet_spares _ p _ _ (submitJob_quiet p)
  | pauseJob p => exact s.takeCommand_quiet_spares _ p _ _ (pauseJob_quiet p)
  | resumeJob p => exact s.takeCommand_quiet_spares _ p _ _ (resumeJob_quiet p)
  | cancelJob p => exact s.takeCommand_quiet_spares _ p _ _ (cancelJob_quiet p)
  | killJob p => exact s.takeCommand_quiet_spares _ p _ _ (killJob_quiet p)
  | openTray p => exact s.takeCommand_quiet_spares _ p _ _ openTray_quiet
  | closeTray p => exact s.takeCommand_quiet_spares _ p _ _ closeTray_quiet
  | laneOnline p => exact s.takeCommand_quiet_spares _ p _ _ laneOnline_quiet
  | laneOffline p => exact s.takeCommand_quiet_spares _ p _ _ laneOffline_quiet
  | clearLane p => exact s.takeCommand_quiet_spares _ p _ _ clearLane_quiet
  | setFeedBudget p => exact s.takeCommand_spares _ p _ _ (setFeedBudget_spares p)
  | setBinClass p => exact s.takeCommand_spares _ p _ _ (setBinClass_spares p)
  | clearBinFault p => exact s.takeCommand_spares _ p _ _ (clearBinFault_spares p)
  | clearArmFault p => exact s.takeCommand_quiet_spares _ p _ _ clearArmFault_quiet
  | clearPrinterFault p => exact s.takeCommand_quiet_spares _ p _ _ clearPrinterFault_quiet
  | setPrintParams p => exact s.takeCommand_quiet_spares _ p _ _ fun _ _ => rfl
  | setInkCapacity p => exact s.takeCommand_quiet_spares _ p _ _ fun _ _ => rfl
  | setNoticeMask p => exact s.takeCommand_quiet_spares _ p _ _ fun _ _ => rfl
  | setAttention p =>
    have taken := s.takeCommand_quiet_spares (.setAttention p) p 49 (setAttention p) fun _ _ => rfl
    dsimp only [exec, execSetAttention]
    split
    · exact taken.quiet (State.modPort_quiet _ _ _)
    · exact taken
  | towerReset p loadsFirst => exact s.takeCommand_quiet_spares _ p _ _ (towerReset_quiet loadsFirst)
  | attentionHoldExpiry p => exact .of_quiet (s.modPort_quiet p _)
  | imageStagingWrite p count => exact execImageStagingWrite_spares p count s
  | artworkStagingWrite p count => exact execArtworkStagingWrite_spares p count s
  | ident n buffer burnsL burnsM =>
    dsimp only [exec, execIdent]
    split
    · rw [nextHas_next]
      (repeat' split) <;> exact .of_quiet (by simp)
    · exact .of_quiet (by simp)
  | trayState n pos => exact .of_quiet (by simp)
  | media n report => dsimp only [exec, execMedia]; (repeat' split) <;> exact .of_quiet (by simp)
  | credit n freed committed => dsimp only [exec, execCredit]; (repeat' split) <;> exact .of_quiet (by simp)
  | bufferEmpty n => dsimp only [exec, execBufferEmpty]; split <;> exact .of_quiet (by simp)
  | writeRecovered n => dsimp only [exec, execWriteRecovered]; split <;> exact .of_quiet (by simp)
  | writeError n => dsimp only [exec, execWriteError]; split <;> exact .of_quiet (by simp)
  | finalizeDone n => dsimp only [exec, execFinalizeDone]; (repeat' split) <;> exact .of_quiet (by simp)
  | readData n index data => exact execReadData_spares n index data s
  | readFail n index => dsimp only [exec, execReadFail]; (repeat' split) <;> exact .of_quiet (by simp)
  | error n code => exact .of_quiet (by simp)
  | driveMalformedMessage n => exact .of_quiet (by simp)
  | laneTimerExpiry n => dsimp only [exec, execLaneTimerExpiry]; (repeat' split) <;> exact .of_quiet (by simp)
  | transferCompletion =>
    dsimp only [exec, execTransferCompletion]
    (repeat' split) <;> first
      | exact True.intro
      | exact .of_quiet (by simp)
  | armStepDone => exact execArmStepDone_spares s
  | armDriverFault => dsimp only [exec, execArmDriverFault]; split <;> exact .of_quiet (by simp)
  | armStepTimeout => dsimp only [exec, execArmStepTimeout]; split <;> exact .of_quiet (by simp)
  | sensorScan readings order => exact execSensorScan_spares readings order s
  | trayDone disc => dsimp only [exec, execTrayDone]; (repeat' split) <;> exact .of_quiet (by simp)
  | bandDone band => dsimp only [exec, execBandDone]; (repeat' split) <;> exact .of_quiet (by simp)
  | temp reading => dsimp only [exec, execTemp]; (repeat' split) <;> exact .of_quiet (by simp)
  | printerError code => exact .of_quiet (by simp)
  | printerMalformedReport => exact .of_quiet (by simp)
  | printerTimeout => dsimp only [exec, execPrinterTimeout]; split <;> exact .of_quiet (by simp)
  | bandWaitExpiry => dsimp only [exec, execBandWaitExpiry]; split <;> exact .of_quiet (by simp)

/-- Settles O59: a command spares the quiet parts that it does not write (`exec_spares`), and `State.unwritten` keeps the part asked
about; the reset keeps the waiting queue. -/
theorem quietPartsHaveTheirWriters : Obligations.QuietPartsHaveTheirWriters := by
  intro c s t h
  by_cases hreset : c = .powerOnReset
  · subst hreset
    cases h
    exact ⟨rfl, fun hne => absurd rfl hne⟩
  have hspares : s.Spares c t := nextHas_of_eq (exec_spares c s hreset) h
  simp only [State.Spares, State.quiet, Prod.mk.injEq, State.unwritten_pending, State.unwritten_now] at hspares
  obtain ⟨hpending, hnow, -, hbudget, hserial, hbinA, hbinB, houtput, hreject, hsensors, hscans, hkey⟩ := hspares
  refine ⟨hpending, fun _ => ⟨hnow, fun hc => ?_, fun hc => ?_, fun hscan => ?_⟩⟩
  · rwa [t.unwritten_budget c hc, s.unwritten_budget c hc] at hbudget
  · rwa [t.unwritten_serial c hc, s.unwritten_serial c hc] at hserial
  · have sensed (u : State) := u.unwritten_sensed c hscan
    simp only [sensed] at hsensors hkey hscans houtput hreject
    refine ⟨hsensors, hkey, hscans, houtput, hreject, fun hstep hclass hclear => ?_⟩
    have kept (u : State) := u.unwritten_bins c hscan hstep hclass hclear
    simp only [kept] at hbinA hbinB
    exact ⟨hbinA, hbinB⟩

end Sys2Proof.Machine
end

