-- ==== Sys2Proof/Proofs/ArmPicks.lean ====
section
/-! The end of a PICK (R53, R133, R134, R136, R137): the record that one at a bin creates, the attempts that fail, and what one at a
tray or at the printer takes away. -/

namespace Sys2Proof.Machine

/-! ## The end of the step -/

theorem exec_armStepDone_pick {s : State} (h : s.arm.step = some .pick) : exec .armStepDone s = .next s.endStep.pickDone.settle := by
  rw [exec, execArmStepDone, h]

theorem exec_armStepDone_place {s : State} (h : s.arm.step = some .place) :
    exec .armStepDone s = .next s.endStep.placeDone.settle := by
  rw [exec, execArmStepDone, h]

theorem State.pickDone_atBin {s : State} {which : Bin} (h : s.arm.position = .known (.bin which)) :
    s.pickDone = s.pickedAtBin which := by
  rw [State.pickDone, h]

theorem State.pickDone_atTray {s : State} {n : LaneId} (h : s.arm.position = .known (.tray n)) :
    s.pickDone = s.pickedAt (.tray n) := by
  rw [State.pickDone, h]

theorem State.pickDone_atPrinter {s : State} (h : s.arm.position = .known .printer) : s.pickDone = s.pickedAt .printer := by
  rw [State.pickDone, h]

theorem State.placeDone_atBin {s : State} {which : Bin} (h : s.arm.position = .known (.bin which)) :
    s.placeDone = s.putBack which := by
  rw [State.placeDone, h]

/-! ## A PICK at a bin that leaves one disc (R53) -/

theorem State.pickedAtBin_one {s : State} {r : Request} (hgrip : s.gripCount = 1) (hserved : s.served = some r) (which : Bin) :
    s.pickedAtBin which = s.createDisc r := by
  simp only [State.pickedAtBin, hgrip, hserved]

/-- The record of a FEED whose lane still holds its claim (R53). -/
theorem State.createDisc_claimed {s : State} {r : Request} {n : LaneId} {h : Handle} {i : TableId} (horigin : r.origin = some n)
    (hlane : r.lane = some n) (hjob : s.lanes[n].job = some h) (hfree : (tableIds.find? fun i => s.discs[i].isNone) = some i) :
    s.createDisc r =
      ((((s.setDisc i (some (createdDisc s.serial n (some h)))).setSerial (nextSerial s.serial)).modRequest r.age
        fun x => { x with disc := some s.serial }).modArm fun v => { v with sourceBin := none }).armContinue := by
  unfold State.createDisc
  rw [hfree, horigin, hlane]
  dsimp only [Option.getD_some, Option.bind_some]
  rw [hjob]

/-! ## The attempts at a bin that fail (R133, R134, R139) -/

theorem State.pickedAtBin_retries {s : State} (hgrip : s.gripCount = 0) (hattempts : s.arm.attempts < 3) (which : Bin) :
    s.pickedAtBin which = s.armContinue := by
  simp only [State.pickedAtBin, hgrip, Nat.not_le.2 hattempts, if_false]

theorem State.pickedAtBin_gives_up {s : State} (hgrip : s.gripCount = 0) (hattempts : 3 ≤ s.arm.attempts) (which : Bin) :
    s.pickedAtBin which = s.binFaults which := by
  simp only [State.pickedAtBin, hgrip, hattempts, if_true]

theorem State.pickedAtBin_two {s : State} (hgrip : s.gripCount = 2) (which : Bin) :
    s.pickedAtBin which = (s.modArm fun v => { v with returning := true }).armContinue := by
  simp only [State.pickedAtBin, hgrip]

/-- A LANE or TOWER notice and a change of the arm do not depend on each other (R185). -/
theorem State.raise_modArm (s : State) (f : Arm → Arm) (g : Group) (v : Notice) :
    (s.modArm f).raise g v = (s.raise g v).modArm f := by
  rw [State.raise_ports_only, s.raise_ports_only, State.raise_ports_congr (s := s) (t := s.modArm f) rfl rfl]
  rfl

/-- A bin that faults sets the FEED aside, which clears `returning` anyway. -/
theorem State.binFaults_returning (s : State) (which : Bin) (v : Bool) :
    (s.modArm fun a => { a with returning := v }).binFaults which = s.binFaults which := by
  have hbin : (s.modArm fun a => { a with returning := v }).modBin which (fun x => { x with fault := true }) =
      (s.modBin which fun x => { x with fault := true }).modArm fun a => { a with returning := v } := by
    cases which <;> rfl
  rw [State.binFaults, hbin, State.raise_modArm]
  rfl

theorem State.putBack_retries {s : State} (h : s.arm.attempts < 3) (which : Bin) :
    s.putBack which = (s.modArm fun v => { v with returning := false }).armContinue := by
  rw [State.putBack, if_neg (Nat.not_le.2 h)]

theorem State.putBack_gives_up {s : State} (h : 3 ≤ s.arm.attempts) (which : Bin) : s.putBack which = s.binFaults which := by
  rw [State.putBack, if_pos h, State.binFaults_returning]

/-- A step that is due with the door closed is issued (R129). -/
theorem State.issueStep_closed {s : State} (h : s.sensor .doorClosed = true) (v : ArmStep) :
    s.issueStep v = (s.emit (.arm v)).modArm fun a => { a with step := some v, timer := some ⟨stepLimit v, 0⟩ } := by
  rw [State.issueStep, if_pos h]
  rfl

/-- A step that is due with the door open leaves the arm HELD (R129). -/
theorem State.issueStep_open {s : State} (h : s.sensor .doorClosed = false) (v : ArmStep) :
    s.issueStep v = s.modArm fun a => { a with state := .held, resume := some a.state } := by
  rw [State.issueStep, h]
  rfl

theorem State.issueBinPick_closed {s : State} (h : s.sensor .doorClosed = true) :
    s.issueBinPick = (s.issueStep .pick).modArm fun a => { a with attempts := a.attempts + 1 } := by
  rw [State.issueBinPick, if_pos h]

theorem State.issueBinPick_open {s : State} (h : s.sensor .doorClosed = false) : s.issueBinPick = s.issueStep .pick := by
  rw [State.issueBinPick, h]
  rfl

/-- The arm serves a FEED at its source bin with no step running, and the FEED has no disc. -/
structure State.FeedsAt (s : State) (which : Bin) (r : Request) : Prop where
  serving : s.arm.state = .serving
  idle : s.arm.step = none
  position : s.arm.position = .known (.bin which)
  served : s.served = some r
  kind : r.kind = .feed
  noDisc : r.disc = none
  source : s.arm.sourceBin = some which

section
variable {s : State} {which : Bin} {r : Request} (h : s.FeedsAt which r)
include h

theorem State.FeedsAt.continues : s.armContinue =
    if s.arm.returning then (if (s.binRecord which).present then s.issueStep .place else s)
    else if (s.binRecord which).present && !(s.binRecord which).fault then s.issueBinPick
    else s.setAside :=
  s.armContinue_atBin which r h.serving h.idle h.position h.served h.kind h.noDisc h.source

/-- PICK is due at a bin that can be picked from: it is issued and counts as an attempt, or leaves the arm HELD (R129, R133). -/
theorem State.FeedsAt.picks (hs : s.settled) (hreturning : s.arm.returning = false) (hpresent : (s.binRecord which).present = true)
    (hfault : (s.binRecord which).fault = false) :
    (s.sensor .doorClosed = true → s.armContinue.settle = (s.emit (.arm .pick)).modArm fun a =>
      { a with step := some .pick, timer := some ⟨3000, 0⟩, attempts := a.attempts + 1 }) ∧
    (s.sensor .doorClosed = false →
      s.armContinue.settle = s.modArm fun a => { a with state := .held, resume := some .serving }) := by
  have hpick : s.armContinue = s.issueBinPick := by simp [h.continues, hreturning, hpresent, hfault]
  refine ⟨fun hdoor => ?_, fun hdoor => ?_⟩
  · rw [hpick, State.issueBinPick_closed hdoor, State.issueStep_closed hdoor]
    exact State.settle_of_settled hs
  · rw [hpick, State.issueBinPick_open hdoor, State.issueStep_open hdoor, ← h.serving]
    exact State.settle_of_settled hs

/-- The bin has gone: the FEED is set aside (R139). -/
theorem State.FeedsAt.setsAside (hreturning : s.arm.returning = false) (hpresent : (s.binRecord which).present = false) :
    s.armContinue.settle = s.setAside.settle := by
  simp [h.continues, hreturning, hpresent]

/-- The discs of a double pick go back while the bin is present, or the arm becomes HELD; they wait for a bin that has gone (R134). -/
theorem State.FeedsAt.putsBack (hs : s.settled) (hreturning : s.arm.returning = true) :
    ((s.binRecord which).present = true → s.sensor .doorClosed = true → s.armContinue.settle =
      (s.emit (.arm .place)).modArm fun a => { a with step := some .place, timer := some ⟨3000, 0⟩ }) ∧
    ((s.binRecord which).present = true → s.sensor .doorClosed = false →
      s.armContinue.settle = s.modArm fun a => { a with state := .held, resume := some .serving }) ∧
    ((s.binRecord which).present = false → s.armContinue.settle = s) := by
  have hplace : s.armContinue = if (s.binRecord which).present then s.issueStep .place else s := by
    rw [h.continues, if_pos hreturning]
  refine ⟨fun hpresent hdoor => ?_, fun hpresent hdoor => ?_, fun hpresent => ?_⟩
  · rw [hplace, if_pos hpresent, State.issueStep_closed hdoor]
    exact State.settle_of_settled hs
  · rw [hplace, if_pos hpresent, State.issueStep_open hdoor, ← h.serving]
    exact State.settle_of_settled hs
  · rw [hplace, hpresent]
    exact State.settle_of_settled hs

end

/-! ## A PICK at a tray or at the printer (R136, R137) -/

/-- The request that the arm serves has the age that the arm holds (R126). -/
theorem State.request_of_served {s : State} {r : Request} (h : s.served = some r) : s.arm.request = some r.age := by
  obtain ⟨age, hage, hfind⟩ := Option.bind_eq_some_iff.1 h
  have hrage : r.age = age := by simpa using List.find?_some hfind
  rw [hage, hrage]

/-- The record at a place moves to the arm, and the request served leaves the queue and the arm. -/
def State.takenFrom (s : State) (loc : Location) (age : Nat) : State :=
  ((s.modDiscAt loc fun d => { d with location := .arm }).dropRequest age).modArm fun v => { v with request := none }

theorem State.takenFrom_lanes (s : State) (loc : Location) (age : Nat) : (s.takenFrom loc age).lanes = s.lanes :=
  State.modDiscAt_lanes _ _ _

section
variable {s : State} {r : Request} (h : s.served = some r)
include h

theorem State.takenFrom_served (loc : Location) :
    ((s.modDiscAt loc fun d => { d with location := .arm }).dropRequest r.age).modArm
      (fun v => { v with request := if v.request = some r.age then none else v.request }) = s.takenFrom loc r.age := by
  have harm : (s.modDiscAt loc fun d => { d with location := .arm }).arm.request = some r.age := by
    rw [State.modDiscAt_eq]; exact State.request_of_served h
  unfold State.takenFrom State.modArm State.dropRequest State.setRequests
  simp only [harm, if_true]

theorem State.pickedUp_tray (n : LaneId) :
    s.pickedUp (.tray n) s.arm.request = (s.takenFrom (.tray n) r.age).lanePicked n := by
  rw [← State.takenFrom_served h, State.request_of_served h]
  rfl

theorem State.pickedUp_printer : s.pickedUp .printer s.arm.request = (s.takenFrom .printer r.age).printerCleared := by
  rw [← State.takenFrom_served h, State.request_of_served h]
  rfl

end

/-- The lane of an UNLOAD closes its empty tray (R81). -/
theorem State.lanePicked_opened {s : State} {n : LaneId} (h : s.lanes[n].state = .opened) :
    s.lanePicked n = (s.laneLeavesJob n).enterClosing n (some .pick) := by
  rw [State.lanePicked, h]

/-- The fault unload closes the empty tray (R87). -/
theorem State.lanePicked_fault {s : State} {n : LaneId} (h : s.lanes[n].state = .fault) :
    s.lanePicked n = ((s.laneLeavesJob n).sendTray n .closeTray).modLane n fun l =>
      { l with faultMove := some .unloadClosing, timer := some ⟨8000, 0⟩ } := by
  rw [State.lanePicked, h]
  exact State.modLane_modLane _ n _ _

/-- What the grip count says after a PICK away from the bins, where `told` is the state in which the record has moved (R136, R137). -/
theorem exec_pickedAt {s told : State} {loc : Location} (hstep : s.arm.step = some .pick)
    (hplace : s.endStep.pickDone = s.endStep.pickedAt loc) (htold : s.endStep.pickedUp loc s.arm.request = told) :
    (s.gripCount = 1 → exec .armStepDone s = .next told.armContinue.settle) ∧
    (s.gripCount = 0 → exec .armStepDone s = .next (s.endStep.armFaults .pick (some .pick)).settle) ∧
    (s.gripCount = 2 → exec .armStepDone s = .next (told.armFaults .pick (some .pick)).settle) := by
  have hcount : s.endStep.gripCount = s.gripCount := rfl
  have hrequest : s.endStep.arm.request = s.arm.request := rfl
  rw [exec_armStepDone_pick hstep, hplace]
  refine ⟨fun hgrip => ?_, fun hgrip => ?_, fun hgrip => ?_⟩ <;>
    simp only [State.pickedAt, hcount, hgrip, hrequest, htold]

/-! ## The obligation -/

/-- Settles O45: one disc by `createDisc_claimed`, the failed attempts by `FeedsAt.picks`, `FeedsAt.setsAside`, `FeedsAt.putsBack` and
`binFaults`, a tray and the printer by `exec_pickedAt` with `pickedUp_tray` and `pickedUp_printer`. -/
theorem pickAtABinCreatesTheRecord : Obligations.PickAtABinCreatesTheRecord := by
  refine ⟨?_, ?_, ?_⟩
  · intro which r n h i s hstep hposition hgrip hserved horigin hlane hjob hfree
    rw [exec_armStepDone_pick hstep, State.pickDone_atBin (s := s.endStep) hposition,
      State.pickedAtBin_one (s := s.endStep) hgrip hserved, State.createDisc_claimed (s := s.endStep) horigin hlane hjob hfree]
    rfl
  · intro which r s hs hserving hposition hserved hkind hdisc hsource bin stopped held issued aside faulted becomes
    have feeds : s.endStep.FeedsAt which r := ⟨hserving, rfl, hposition, hserved, hkind, hdisc, hsource⟩
    have feedsWith (v : Bool) : (s.endStep.modArm fun a => { a with returning := v }).FeedsAt which r :=
      ⟨hserving, rfl, hposition, hserved, hkind, hdisc, hsource⟩
    refine ⟨fun hstep hreturning => ?_, fun hstep _ => ?_⟩
    · have hdone : exec .armStepDone s = .next (s.endStep.pickedAtBin which).settle := by
        rw [exec_armStepDone_pick hstep, State.pickDone_atBin (s := s.endStep) hposition]
      refine ⟨fun hgrip hattempts => ?_, fun hgrip hattempts => ?_, fun hgrip => ?_⟩
      · rw [State.pickedAtBin_retries (s := s.endStep) hgrip hattempts] at hdone
        refine ⟨fun hpresent hfault hdoor => ?_, fun hpresent hfault hdoor => ?_, fun hpresent => ?_⟩
        · exact hdone.trans (congrArg _ ((feeds.picks hs hreturning hpresent hfault).1 hdoor))
        · exact hdone.trans (congrArg _ ((feeds.picks hs hreturning hpresent hfault).2 hdoor))
        · exact hdone.trans (congrArg _ (feeds.setsAside hreturning hpresent))
      · rw [State.pickedAtBin_gives_up (s := s.endStep) hgrip hattempts] at hdone
        exact hdone
      · rw [State.pickedAtBin_two (s := s.endStep) hgrip] at hdone
        obtain ⟨hplaces, hholds, hwaits⟩ := (feedsWith true).putsBack hs rfl
        exact ⟨fun hpresent hdoor => hdone.trans (congrArg _ (hplaces hpresent hdoor)),
          fun hpresent hdoor => hdone.trans (congrArg _ (hholds hpresent hdoor)),
          fun hpresent => hdone.trans (congrArg _ (hwaits hpresent))⟩
    · have hdone : exec .armStepDone s = .next (s.endStep.putBack which).settle := by
        rw [exec_armStepDone_place hstep, State.placeDone_atBin (s := s.endStep) hposition]
      refine ⟨fun hattempts => ?_, fun hattempts => ?_⟩
      · rw [State.putBack_retries (s := s.endStep) hattempts] at hdone
        refine ⟨fun hpresent hfault hdoor => ?_, fun hpresent hfault hdoor => ?_, fun hpresent => ?_⟩
        · exact hdone.trans (congrArg _ (((feedsWith false).picks hs rfl hpresent hfault).1 hdoor))
        · exact hdone.trans (congrArg _ (((feedsWith false).picks hs rfl hpresent hfault).2 hdoor))
        · exact hdone.trans (congrArg _ ((feedsWith false).setsAside rfl hpresent))
      · rw [State.putBack_gives_up (s := s.endStep) hattempts] at hdone
        exact hdone
  · intro r s hstep hserved stopped gone picked
    have taken := State.pickedUp_tray (s := s.endStep) hserved
    refine ⟨fun n hposition => ?_, fun hposition => ?_⟩
    · have hdone := State.pickDone_atTray (s := s.endStep) hposition
      have hlane : (s.endStep.takenFrom (.tray n) r.age).lanes[n].state = s.lanes[n].state := by
        rw [State.takenFrom_lanes]; rfl
      refine ⟨fun hstate => exec_pickedAt hstep hdone ?_, fun hstate => exec_pickedAt hstep hdone ?_⟩
      · exact (taken n).trans (State.lanePicked_opened (hlane.trans hstate))
      · exact (taken n).trans (State.lanePicked_fault (hlane.trans hstate))
    · exact exec_pickedAt hstep (State.pickDone_atPrinter (s := s.endStep) hposition)
        (State.pickedUp_printer (s := s.endStep) hserved)

end Sys2Proof.Machine
end

