-- ==== Sys2Proof/Proofs/LaneCommands.lean ====
section
/-! The millisecond of the time base (log 2), the tray commands that a drive is sent (R68), the operator's commands on lanes (R82, R90
to R93) and IDENT (R71). -/

namespace Sys2Proof.Machine

/-- Settles O2: with no command waiting the step is `State.tick`. -/
theorem idleStepIsOneMillisecond : Obligations.IdleStepIsOneMillisecond := by
  intro s hpending
  have hstep : step s = .next s.tick := by unfold step; rw [hpending]
  exact hstep.trans rfl

/-! ## Tray commands (R68) -/

theorem State.modLane_emit (s : State) (n : LaneId) (f : Lane → Lane) (o : Output) :
    (s.modLane n f).emit o = (s.emit o).modLane n f := rfl

/-- The first byte of the message that carries a tray command (Formats). -/
def TrayCommand.code : TrayCommand → Byte
  | .openTray => 1
  | .closeTray => 2

/-- A drive that has answered its last tray command is sent the next one. -/
theorem State.sendTray_answered {s : State} {n : LaneId} (h : s.lanes[n].unanswered = none) (v : TrayCommand) :
    s.sendTray n v = (s.emit (.drive n [v.code])).modLane n fun l => { l with unanswered := some v } := by
  unfold State.sendTray
  rw [h]
  cases v <;> rfl

theorem State.enterOpening_answered {s : State} {n : LaneId} (h : s.lanes[n].unanswered = none) (v : TrayPurpose) :
    s.enterOpening n v = (s.emit (.drive n [1])).modLane n fun l =>
      { l with state := .opening, purpose := some v, timer := some ⟨8000, 0⟩, unanswered := some .openTray } := by
  rw [State.enterOpening, State.sendTray_answered h, State.startTimer, State.modLane_modLane, State.modLane_modLane]
  rfl

theorem State.enterClosing_answered {s : State} {n : LaneId} (h : s.lanes[n].unanswered = none) (v : Option TrayPurpose) :
    s.enterClosing n v = (s.emit (.drive n [2])).modLane n fun l =>
      { l with state := .closing, purpose := v, timer := some ⟨8000, 0⟩, unanswered := some .closeTray } := by
  rw [State.enterClosing, State.sendTray_answered h, State.startTimer, State.modLane_modLane, State.modLane_modLane]
  rfl

/-! ## OPEN-TRAY and CLOSE-TRAY (R90, R91) -/

theorem onLane_lane {r : CommandRecord} {n : LaneId} (h : laneParam r = some n) (s : State) (f : LaneId → Reply × State) :
    onLane r s f = f n := by
  rw [onLane, h]

theorem openTray_resting {r : CommandRecord} {n : LaneId} {s : State} (hn : laneParam r = some n)
    (hstate : s.lanes[n].state = .idle ∨ s.lanes[n].state = .master ∨ s.lanes[n].state = .foreign) :
    openTray r s = accept ((s.modLane n fun l => { l with master := none }).enterOpening n .operator) := by
  rw [openTray, onLane_lane hn]
  rcases hstate with h | h | h <;> rw [h]

theorem closeTray_opened {r : CommandRecord} {n : LaneId} {s : State} (hn : laneParam r = some n)
    (hstate : s.lanes[n].state = .opened) (hpurpose : s.lanes[n].purpose = some .operator) :
    closeTray r s = accept (s.enterClosing n (some .operator)) := by
  rw [closeTray, onLane_lane hn]
  exact if_pos (by rw [hstate, hpurpose]; rfl)

/-- Settles O27: the two commands are accepted, and the tray command is sent at once, since the last one is answered. -/
theorem trayCommandsMoveTheTray : Obligations.TrayCommandsMoveTheTray := by
  intro p r n s hs hn hanswered
  refine ⟨fun hwaits hstate => ?_, fun hwaits hstate hpurpose => ?_⟩
  · have hopens : (s.modLane n fun l => { l with master := none }).enterOpening n .operator =
        (s.emit (.drive n [1])).modLane n fun l =>
          { l with
            state := .opening, purpose := some .operator, master := none, timer := some ⟨8000, 0⟩
            unanswered := some .openTray } := by
      rw [State.enterOpening_answered (by rw [State.modLane_same]; exact hanswered), State.modLane_emit, State.modLane_modLane]
    have hm := openTray_resting hn hstate
    rw [hopens] at hm
    exact congrArg _ (State.takeCommand_accepted_settled (by exact hs) hwaits hm)
  · have hm := closeTray_opened hn hstate hpurpose
    rw [State.enterClosing_answered hanswered] at hm
    exact congrArg _ (State.takeCommand_accepted_settled (by exact hs) hwaits hm)

/-! ## LANE-ONLINE, LANE-OFFLINE, CLEAR-LANE (R82, R92, R93) -/

theorem laneOnline_offline {r : CommandRecord} {n : LaneId} {s : State} (hn : laneParam r = some n)
    (hstate : s.lanes[n].state = .offline) : laneOnline r s = accept (s.bringOnline n) := by
  rw [laneOnline, onLane_lane hn, hstate]

theorem laneOffline_idle {r : CommandRecord} {n : LaneId} {s : State} (hn : laneParam r = some n)
    (hstate : s.lanes[n].state = .idle) : laneOffline r s = accept (s.takeOffline n) := by
  rw [laneOffline, onLane_lane hn, hstate]

theorem clearLane_spare {r : CommandRecord} {n : LaneId} {s : State} (hn : laneParam r = some n)
    (hstate : s.lanes[n].state = .spare) : clearLane r s = accept (s.enterDone n) := by
  rw [clearLane, onLane_lane hn, if_pos hstate]

theorem clearLane_other {r : CommandRecord} {n : LaneId} {s : State} (hn : laneParam r = some n)
    (hstate : s.lanes[n].state ≠ .spare) : clearLane r s = refuse .wrongState s := by
  rw [clearLane, onLane_lane hn, if_neg hstate]

/-- A lane with an identity whose drive has answered is brought online by its start-up close (R92). -/
theorem State.bringOnline_identified {s : State} {n : LaneId} (hid : s.lanes[n].identity.isSome)
    (hanswered : s.lanes[n].unanswered = none) :
    s.bringOnline n = (s.emit (.drive n [2])).modLane n fun l =>
      { l with
        state := .closing, held := false, quarantine := false, failCount := 0, startUp := true, purpose := none
        timer := some ⟨8000, 0⟩, unanswered := some .closeTray, heldBack := none, faultMove := none } := by
  have hnone : s.lanes[n].identity.isNone = false := by rw [Option.isNone_eq_false_iff]; exact hid
  simp only [State.bringOnline, hid, hnone, Bool.and_false, Bool.false_eq_true, if_false, if_true]
  rw [State.enterClosing_answered (by rw [State.modLane_same]; exact hanswered), State.modLane_emit, State.modLane_modLane]

/-- A lane that no request names becomes DONE with its UNLOAD queued (R81). -/
theorem State.enterDone_new {s : State} {n : LaneId} (h : s.hasRequest n = false) :
    s.enterDone n = (((s.modLane n fun l => { l with state := .done, timer := none }).setRequests
      (s.requests ++ [⟨.unload, some n, some n, none, s.nextAge, false, none⟩])).passAge).oweSelect :=
  State.queueUnload_new _ h

/-- Settles O28: each command's effect on the lane that it names (`bringOnline_identified`, `takeOffline`, `enterDone_new`). -/
theorem laneCommandsChangeTheLane : Obligations.LaneCommandsChangeTheLane := by
  intro p r n s hs hn
  refine ⟨fun hwaits hstate hid hanswered => ?_, fun hwaits hstate => ?_, fun hwaits hstate hnew => ?_, fun hwaits hstate => ?_⟩
  · have hm := laneOnline_offline hn hstate
    rw [State.bringOnline_identified hid hanswered] at hm
    exact congrArg _ (State.takeCommand_accepted_settled (by exact hs) hwaits hm)
  · exact congrArg _ (State.takeCommand_accepted_settled (by exact hs) hwaits (laneOffline_idle hn hstate))
  · have hm := clearLane_spare hn hstate
    rw [State.enterDone_new hnew] at hm
    exact congrArg _ (State.takeCommand_accepted hwaits hm)
  · exact congrArg _ (State.takeCommand_refused hs hwaits (clearLane_other hn hstate))

/-! ## IDENT (R69, R71, R86) -/

/-- The start-up close of a lane that IDENT finds OFFLINE and not held (R71). -/
theorem State.identified_startsUp (s : State) (n : LaneId) (id : Identity) :
    ((s.modLane n fun l => { l with identity := some id }).modLane n fun l =>
      { l with startUp := true, unanswered := none, heldBack := none }).enterClosing n none =
    (s.emit (.drive n [2])).modLane n fun v =>
      { v with
        state := .closing, identity := some id, startUp := true, purpose := none
        timer := some ⟨8000, 0⟩, unanswered := some .closeTray, heldBack := none } := by
  rw [State.modLane_modLane, State.enterClosing_answered (by rw [State.modLane_same]), State.modLane_emit,
    State.modLane_modLane]

/-- An ERROR faults a lane outside OFFLINE and FAULT (R69). -/
theorem State.laneError_faults {s : State} {n : LaneId} (hoffline : s.lanes[n].state ≠ .offline)
    (hfault : s.lanes[n].state ≠ .fault) (code : Byte) : s.laneError n code = s.laneFault n (.error code) := by
  unfold State.laneError
  split
  · contradiction
  · contradiction
  · rfl

/-- Settles O31: IDENT by the lane's state; a malformed one is an ERROR (`laneError_faults`). -/
theorem identStartsTheLane : Obligations.IdentStartsTheLane := by
  intro n buffer l m s
  have hexec : exec (.ident n buffer l m) s = execIdent n buffer l m s := rfl
  rw [hexec, execIdent]
  refine ⟨fun hok hoffline hheld => ?_, fun hok hstays => ?_, fun hok hoffline hfault => ?_, fun hbad hoffline hfault => ?_⟩
  · simp only [hok, hoffline, hheld, if_true, Bool.false_eq_true, if_false, State.identified_startsUp]
  · rcases hstays with ⟨hoffline, hheld⟩ | hfault
    · simp only [hok, hoffline, hheld, if_true]
    · simp only [hok, hfault, if_true]
  · rw [if_pos hok]
    dsimp only
    split
    · contradiction
    · contradiction
    · rfl
  · rw [if_neg (by rw [hbad]; decide), State.laneError_faults hoffline hfault]

end Sys2Proof.Machine
end

