-- ==== Sys2Proof/Proofs/Burning.lean ====
section
/-! A lane that burns (R77 to R79): CREDIT, the burn events, FINALIZE_DONE; and the errors and timeouts of a lane (R69, R85 to R87). -/

namespace Sys2Proof.Machine

/-! ## CREDIT (R77) -/

/-- What a CREDIT counts: the credits, the segments committed, and the timer anew (R77). -/
def State.credited (s : State) (n : LaneId) (buffer limit freed committed : Nat) : State :=
  s.modLane n fun l =>
    { l with credits := min buffer (l.credits + freed), committed := max l.committed committed, timer := some ⟨limit, 0⟩ }

theorem State.finalize_eq (s : State) (n : LaneId) :
    s.finalize n = (((s.emit (.drive n [6])).modLane n fun l =>
      { l with state := .finalizing, timer := some ⟨180000, 0⟩ }).modDiscAt (.tray n)
        fun d => { d with phase := .finalizing }).oweStart := by
  rw [State.finalize, State.startTimer, ← State.modLane_modDiscAt, State.modLane_modLane]
  rfl

theorem State.takeCredit_eq {s : State} {n : LaneId} {id : Identity} {t : Timer} (hid : s.lanes[n].identity = some id)
    (ht : s.lanes[n].timer = some t) (freed committed : Nat) :
    s.takeCredit n freed committed =
      if s.laneSegments n ≤ max s.lanes[n].committed committed then (s.credited n id.buffer t.limit freed committed).finalize n
      else if s.lanes[n].credits = 0 && decide (0 < min id.buffer (s.lanes[n].credits + freed)) then
        (s.credited n id.buffer t.limit freed committed).oweGrant
      else s.credited n id.buffer t.limit freed committed := by
  have hcounted : (s.modLane n fun l =>
      { l with
        credits := min ((s.lanes[n].identity.map (·.buffer)).getD 0) (s.lanes[n].credits + freed)
        committed := max s.lanes[n].committed committed }).restartTimer n = s.credited n id.buffer t.limit freed committed := by
    rw [State.restartTimer_running _ (t := t) (by rw [State.modLane_same]; exact ht), State.modLane_modLane]
    exact State.modLane_congr (by rw [hid]; rfl)
  unfold State.takeCredit
  dsimp only
  rw [hcounted, hid]
  rfl

/-- A CREDIT in BURNING whose total is not above the sent count is taken (R77, R194). -/
theorem execCredit_burning {n : LaneId} {freed : BitVec 16} {committed : BitVec 24} {s : State}
    (hsent : committed.toNat ≤ s.lanes[n].sent) (hstate : s.lanes[n].state = .burning) :
    exec (.credit n freed committed) s = .next ((s.takeCredit n freed.toNat committed.toNat).settle) := by
  dsimp only [exec, execCredit]
  rw [if_neg (by omega), if_pos hstate]

/-- Settles O34: a CREDIT by what it counts and whether it is the last (`takeCredit_eq`). -/
theorem creditCountsSegments : Obligations.CreditCountsSegments := by
  intro n freed committed id t s hstate hid ht
  have hcredit := State.takeCredit_eq hid ht freed.toNat committed.toNat
  refine ⟨fun hs hsent hmore hsome => ?_, fun hsent hmore hzero hpos => ?_, fun hsent hlast => ?_, fun hmalformed => ?_⟩
  · rw [execCredit_burning hsent hstate, hcredit, if_neg (by omega), if_neg (by rw [Bool.and_eq_true, decide_eq_true_eq]; omega)]
    exact congrArg _ (State.settle_of_settled (by exact hs))
  · rw [execCredit_burning hsent hstate, hcredit, if_neg (by omega), if_pos (by rw [hzero, Nat.zero_add]; simpa using hpos)]
    rfl
  · rw [execCredit_burning hsent hstate, hcredit, if_pos hlast, State.finalize_eq]
    rfl
  · dsimp only [exec, execCredit]
    rw [if_pos hmalformed]

/-! ## BUFFER-EMPTY, WRITE-RECOVERED, WRITE-ERROR (R78) -/

/-- A change of the disc in the tray with the running timer restarted. -/
theorem State.modDiscAt_restartTimer {s : State} {n : LaneId} {t : Timer} (ht : s.lanes[n].timer = some t) (f : Disc → Disc) :
    (s.modDiscAt (.tray n) f).restartTimer n =
      (s.modDiscAt (.tray n) f).modLane n fun l => { l with timer := some ⟨t.limit, 0⟩ } :=
  State.restartTimer_running _ (by rw [State.modDiscAt_lanes]; exact ht)

/-- A chunk in flight for the lane is no longer wanted (R76, R110). -/
theorem State.dropLaneChunk_eq (s : State) (n : LaneId) :
    s.dropLaneChunk n = s.setChannel (s.channel.map fun t =>
      match t.recipient with
      | .lane m _ _ => if m = n then ⟨t.recipient, false⟩ else t
      | _ => t) := by
  unfold State.dropLaneChunk State.disown
  congr 2
  funext ⟨recipient, wanted⟩
  cases recipient <;> simp [TransferTo.isLane]

/-- The lane is DONE with one failure more and its UNLOAD queued (R78, R88). -/
theorem State.enterDone_charged {s : State} {n : LaneId} (h : s.hasRequest n = false) :
    (s.enterDone n).chargeLane n =
      (((s.modLane n fun l =>
        { l with
          state := .done, timer := none, failCount := min 3 (l.failCount + 1)
          quarantine := l.quarantine || decide (3 ≤ l.failCount + 1) }).setRequests
        (s.requests ++ [⟨.unload, some n, some n, none, s.nextAge, false, none⟩])).passAge).oweSelect := by
  have hswap (u : State) (requests : List Request) (f : Lane → Lane) :
      (((u.setRequests requests).passAge).oweSelect).modLane n f =
        (((u.modLane n f).setRequests requests).passAge).oweSelect := rfl
  rw [State.enterDone_new h, State.chargeLane, hswap, State.modLane_modLane]

/-- WRITE-ERROR in BURNING, on the state whose disc has failed: ABORT, the chunk dropped, DONE with the failure charged (R78). -/
theorem State.abortedBurn {s : State} {n : LaneId} (h : s.hasRequest n = false) :
    ((((s.sendAbort n).dropLaneChunk n).enterDone n).chargeLane n) =
      (((((s.emit (.drive n [8])).setChannel (s.channel.map fun t =>
        match t.recipient with
        | .lane m _ _ => if m = n then ⟨t.recipient, false⟩ else t
        | _ => t)).modLane n fun l =>
          { l with
            state := .done, timer := none, unanswered := none, heldBack := none, failCount := min 3 (l.failCount + 1)
            quarantine := l.quarantine || decide (2 ≤ l.failCount) }).setRequests
        (s.requests ++ [⟨.unload, some n, some n, none, s.nextAge, false, none⟩])).passAge).oweSelect := by
  have hswap (u : State) (f : Lane → Lane) (v : Option Transfer) : (u.modLane n f).setChannel v = (u.setChannel v).modLane n f := rfl
  rw [State.enterDone_charged (by exact h), State.dropLaneChunk_eq, State.sendAbort, hswap, State.modLane_modLane]
  simp only [Nat.reduceLeDiff]
  rfl

/-- Settles O35: the disc's record and the timer; and the end of a burn by WRITE-ERROR (`abortedBurn`). -/
theorem burnEventsMarkTheDisc : Obligations.BurnEventsMarkTheDisc := by
  refine ⟨fun n s => ⟨fun t j hstate ht hj => ?_, fun t hstate ht => ?_, fun hstate => ⟨?_, ?_⟩⟩, fun n s hstate hnew => ?_⟩
  · dsimp only [exec, execBufferEmpty]
    rw [if_pos hstate, State.modDiscAt_restartTimer ht, State.laneTolerance, hj]
    rfl
  · dsimp only [exec, execWriteRecovered]
    rw [if_pos hstate, State.modDiscAt_restartTimer ht]
  · dsimp only [exec, execBufferEmpty]
    rw [if_neg hstate]
  · dsimp only [exec, execWriteRecovered]
    rw [if_neg hstate]
  · have hrequests (f : Disc → Disc) : (s.modDiscAt (.tray n) f).hasRequest n = false := by
      rw [State.hasRequest, State.modDiscAt_requests]; exact hnew
    dsimp only [exec, execWriteError]
    rw [if_pos hstate, State.abortedBurn (hrequests _), State.modDiscAt_requests, State.modDiscAt_nextAge]
    rw [State.modDiscAt_eq] <;> rfl

/-! ## FINALIZE-DONE (R79) -/

theorem verifyRequired_iff (d : Disc) (j : Job) : verifyRequired d (some j) = true ↔ d.forced = true ∨ j.verify ≠ .none := by
  simp [verifyRequired]

/-- Settles O36: the disc's way by its job's end reason and by whether it needs a verify. -/
theorem finalizeDoneRoutesTheDisc : Obligations.FinalizeDoneRoutesTheDisc := by
  intro n d j s hstate hd hj
  dsimp only [exec, execFinalizeDone]
  rw [if_pos hstate, hd]
  dsimp only [State.finalized]
  rw [hj]
  have hkilled : (((some j).map Job.isKilled).getD false = true) = (j.endReason = some .killed) := by simp [Job.isKilled]
  simp only [hkilled, verifyRequired_iff]
  (repeat' split) <;> rfl

/-! ## Errors and timeouts (R69, R85 to R87) -/

/-- Elsewhere than in FAULT an expired timer faults the lane with the state that timed out (R85, R86). -/
theorem execLaneTimerExpiry_faults {n : LaneId} {s : State} (ht : s.lanes[n].timer.isSome) (hfault : s.lanes[n].state ≠ .fault) :
    exec (.laneTimerExpiry n) s = .next ((s.laneFault n (.timeout s.lanes[n].state)).settle) := by
  dsimp only [exec, execLaneTimerExpiry]
  rw [if_neg (by rw [Option.isNone_iff_eq_none]; exact Option.isSome_iff_ne_none.1 ht), if_neg hfault]

theorem execLaneTimerExpiry_fault {n : LaneId} {s : State} (ht : s.lanes[n].timer.isSome) (hfault : s.lanes[n].state = .fault) :
    exec (.laneTimerExpiry n) s = .next ((s.faultTimeout n).settle) := by
  dsimp only [exec, execLaneTimerExpiry]
  rw [if_neg (by rw [Option.isNone_iff_eq_none]; exact Option.isSome_iff_ne_none.1 ht), if_pos hfault]

/-- In OFFLINE, and in FAULT but for the opening of a fault unload, an ERROR changes nothing (R69). -/
theorem State.laneError_ignored {s : State} {n : LaneId}
    (h : s.lanes[n].state = .offline ∨ s.lanes[n].state = .fault ∧ s.lanes[n].faultMove ≠ some .unloadOpening) (code : Byte) :
    s.laneError n code = s := by
  unfold State.laneError
  rcases h with hoffline | ⟨hfault, hmove⟩
  · rw [hoffline]
  · rw [hfault]
    exact if_neg hmove

/-- While a fault unload opens its tray an ERROR ends it STUCK (R87). -/
theorem State.laneError_stuck {s : State} {n : LaneId} (hfault : s.lanes[n].state = .fault)
    (hmove : s.lanes[n].faultMove = some .unloadOpening) (code : Byte) : s.laneError n code = s.stuck n := by
  unfold State.laneError
  rw [hfault]
  exact if_pos hmove

theorem State.faultTimeout_stuck {s : State} {n : LaneId} (hmove : s.lanes[n].faultMove = some .unloadOpening) :
    s.faultTimeout n = s.stuck n := by
  rw [State.faultTimeout, hmove]

/-- An expiry in FAULT, but for the opening of a fault unload, gives the move up; a tray open for the PICK stays so (R87, R90, R91). -/
theorem State.faultTimeout_givesUp {s : State} {n : LaneId} (hmove : s.lanes[n].faultMove ≠ some .unloadOpening) :
    s.faultTimeout n = s.modLane n fun l =>
      if l.faultMove = some .unloadOpen then { l with timer := none }
      else { l with timer := none, faultMove := none, heldBack := none } := by
  unfold State.faultTimeout
  split
  · contradiction
  · rename_i hopen
    exact State.modLane_congr (if_pos hopen).symm
  · rename_i hopen
    exact State.modLane_congr (if_neg hopen).symm

/-- The lane's fault unload is given up: its UNLOAD leaves the queue and the arm, if it serves it, is released (R87, R139). -/
def State.unloadDropped (s : State) (n : LaneId) (r : Request) : State :=
  let dropped := (s.modLane n fun l => { l with timer := none, faultMove := none, heldBack := none }).setRequests
    (s.requests.filter fun x => decide (x.age ≠ r.age))
  if s.arm.request = some r.age then (dropped.modArm fun a => { a with request := none }).oweArm else dropped

theorem State.unloadDropped_job (s : State) (n : LaneId) (r : Request) : (s.unloadDropped n r).lanes[n].job = s.lanes[n].job := by
  unfold State.unloadDropped
  dsimp only
  split <;> simp only [State.oweArm_lanes, State.modArm_lanes, State.setRequests_lanes, State.modLane_same]

/-- What the fault unload of a lane that an UNLOAD names leaves when it ends STUCK (R63, R87). -/
theorem State.stuck_eq {s : State} {n : LaneId} {r : Request} (hr : s.laneRequest .unload n = some r) :
    s.stuck n = ((match s.lanes[n].job with
      | none => s.unloadDropped n r
      | some h => (s.unloadDropped n r).modJob h fun j => { j with lanesHeld := j.lanesHeld - 1 }).modLane n
        fun l => { l with job := none }).closeDiscAt (.tray n) none (some .stuck) := by
  have hfound : (s.modLane n fun l => { l with timer := none, faultMove := none, heldBack := none }).laneRequest .unload n = some r :=
    hr
  have hstuck : s.stuck n = ((s.unloadDropped n r).laneLeavesJob n).closeDiscAt (.tray n) none (some .stuck) := by
    unfold State.stuck
    dsimp only
    rw [hfound]
    rfl
  rw [hstuck, State.laneLeavesJob, State.unloadDropped_job] <;> rfl

/-- Settles O38: outside OFFLINE and FAULT by `laneError_faults`, in FAULT by `laneError_stuck` and `faultTimeout_givesUp`. -/
theorem errorsAndTimeoutsFaultTheLane : Obligations.ErrorsAndTimeoutsFaultTheLane := by
  have herror (n : LaneId) (code : Byte) (s : State) : exec (.error n code) s = .next ((s.laneError n code).settle) := rfl
  have hmalformed (n : LaneId) (s : State) : exec (.driveMalformedMessage n) s = .next ((s.laneError n 255).settle) := rfl
  refine ⟨fun n code s hoffline hfault => ?_, fun n code s => ⟨fun hs h => ?_, fun ht => ?_, fun hs hfault ht hmove => ?_⟩,
    fun n code r s hfault hmove hr => ?_⟩
  · rw [herror, hmalformed, State.laneError_faults hoffline hfault, State.laneError_faults hoffline hfault]
    exact ⟨rfl, rfl, fun ht => execLaneTimerExpiry_faults ht hfault⟩
  · rw [herror, hmalformed, State.laneError_ignored h, State.laneError_ignored h, State.settle_of_settled hs]
    exact ⟨rfl, rfl⟩
  · dsimp only [exec, execLaneTimerExpiry]
    rw [ht]
    rfl
  · rw [execLaneTimerExpiry_fault ht hfault, State.faultTimeout_givesUp hmove]
    exact congrArg _ (State.settle_of_settled (by exact hs))
  · have hstuck := State.stuck_eq hr
    dsimp only
    rw [herror, hmalformed, State.laneError_stuck hfault hmove, State.laneError_stuck hfault hmove, hstuck]
    refine ⟨rfl, rfl, fun ht => ?_⟩
    rw [execLaneTimerExpiry_fault ht hfault, State.faultTimeout_stuck hmove, hstuck]
    rfl

end Sys2Proof.Machine
end

