-- ==== Sys2Proof/Proofs/TrayReports.lean ====
section
/-! TRAY_STATE (R68, R70): what a report records, the tray command it releases, and the move it makes in each state of the lane. -/

namespace Sys2Proof.Machine

/-! ## The report and the tray command held back (R68, log 9) -/

/-- What a report leaves of a tray command that waits for its answer or is held back: nothing when it answers it (R68). -/
def afterReport (pos : TrayPosition) (c : Option TrayCommand) : Option TrayCommand :=
  if c = some .openTray ∧ pos = .opened ∨ c = some .closeTray ∧ pos = .closed then none else c

theorem filter_answer (pos : TrayPosition) (c : Option TrayCommand) :
    (c.filter fun v => decide (v.answer ≠ pos)) = afterReport pos c := by
  cases c with
  | none => simp [afterReport]
  | some v => cases v <;> cases pos <;> rfl

theorem Lane.reported_eq (l : Lane) (pos : TrayPosition) : l.reported pos =
    { l with report := some pos, unanswered := afterReport pos l.unanswered, heldBack := afterReport pos l.heldBack } := by
  rw [Lane.reported, filter_answer, filter_answer]

/-- The tray command held back is sent when no other one is unanswered (R68). -/
theorem State.releaseTray_eq (s : State) (n : LaneId) :
    s.releaseTray n = match s.lanes[n].unanswered, s.lanes[n].heldBack with
      | none, some v => (s.emit (.drive n [v.code])).modLane n fun l => { l with unanswered := some v, heldBack := none }
      | _, _ => s := by
  unfold State.releaseTray
  cases hanswered : s.lanes[n].unanswered with
  | some _ => rfl
  | none =>
    cases s.lanes[n].heldBack with
    | none => rfl
    | some v =>
      dsimp only
      rw [State.sendTray_answered (by rw [State.modLane_same]; exact hanswered), State.modLane_emit, State.modLane_modLane]

theorem State.releaseTray_nothing {s : State} {n : LaneId} (h : s.lanes[n].heldBack = none) : s.releaseTray n = s := by
  unfold State.releaseTray
  split
  · rename_i hsome
    rw [h] at hsome
    cases hsome
  · rfl

theorem State.releaseTray_settled {s : State} (hs : s.settled) (n : LaneId) : (s.releaseTray n).settled := by
  rw [State.releaseTray_eq]
  split <;> exact hs

/-! ## The report acts (R70) -/

/-- The state once the report is recorded. -/
def State.reportTaken (s : State) (n : LaneId) (pos : TrayPosition) : State := s.modLane n fun l => l.reported pos

theorem State.reportTaken_lane (s : State) (n : LaneId) (pos : TrayPosition) :
    (s.reportTaken n pos).lanes[n] = s.lanes[n].reported pos := s.modLane_same n _

/-- What the report does besides is one change of the lane. -/
theorem State.reportTaken_modLane (s : State) (n : LaneId) (pos : TrayPosition) (f : Lane → Lane) :
    (s.reportTaken n pos).modLane n f = s.modLane n fun l => f (l.reported pos) := s.modLane_modLane n _ f

theorem exec_trayState {n : LaneId} {pos : TrayPosition} {s u : State} (h : (s.reportTaken n pos).trayMoves n pos = u) :
    exec (.trayState n pos) s = .next ((u.releaseTray n).settle) := by
  rw [← h]
  rfl

/-- Likewise when the report owes nothing. -/
theorem exec_trayState_settled {n : LaneId} {pos : TrayPosition} {s u : State} (hu : u.settled)
    (h : (s.reportTaken n pos).trayMoves n pos = u) : exec (.trayState n pos) s = .next (u.releaseTray n) := by
  rw [exec_trayState h, State.settle_of_settled (State.releaseTray_settled hu n)]

section
variable {s : State} {n : LaneId} {pos : TrayPosition}

theorem State.trayMoves_opening (h : s.lanes[n].state = .opening) :
    (s.reportTaken n pos).trayMoves n pos = (s.reportTaken n pos).openingTray n pos := by
  have hstate : (s.reportTaken n pos).lanes[n].state = .opening := by rw [State.reportTaken_lane]; exact h
  rw [State.trayMoves, hstate]

theorem State.trayMoves_opened (h : s.lanes[n].state = .opened) :
    (s.reportTaken n pos).trayMoves n pos = (s.reportTaken n pos).openTrayReports n pos := by
  have hstate : (s.reportTaken n pos).lanes[n].state = .opened := by rw [State.reportTaken_lane]; exact h
  rw [State.trayMoves, hstate]

theorem State.trayMoves_closing (h : s.lanes[n].state = .closing) :
    (s.reportTaken n pos).trayMoves n pos = (s.reportTaken n pos).closingTray n pos := by
  have hstate : (s.reportTaken n pos).lanes[n].state = .closing := by rw [State.reportTaken_lane]; exact h
  rw [State.trayMoves, hstate]

theorem State.trayMoves_fault (h : s.lanes[n].state = .fault) :
    (s.reportTaken n pos).trayMoves n pos = (s.reportTaken n pos).faultTray n pos := by
  have hstate : (s.reportTaken n pos).lanes[n].state = .fault := by rw [State.reportTaken_lane]; exact h
  rw [State.trayMoves, hstate]

theorem State.trayMoves_resting (h : s.lanes[n].state = .idle ∨ s.lanes[n].state = .master ∨ s.lanes[n].state = .foreign) :
    (s.reportTaken n pos).trayMoves n pos = (s.reportTaken n pos).restingTray n pos := by
  have hstate : (s.reportTaken n pos).lanes[n].state = s.lanes[n].state := by rw [State.reportTaken_lane]; rfl
  rw [State.trayMoves, hstate]
  rcases h with h | h | h <;> rw [h]

/-- A lane whose tray holds a disc, or waits for one, is to hold its tray closed (R70). -/
theorem State.trayMoves_closedStates (h : s.lanes[n].state ∈ [LaneState.awaitDisc, .probing, .feedWait, .burning, .finalizing,
      .verifyWait, .verifying, .done, .spare, .sourceWait, .sourceRead]) (hpos : pos ≠ .closed) :
    (s.reportTaken n pos).trayMoves n pos = (s.reportTaken n pos).laneFault n .tray := by
  have hstate : (s.reportTaken n pos).lanes[n].state = s.lanes[n].state := by rw [State.reportTaken_lane]; rfl
  rw [State.trayMoves, hstate]
  simp only [List.mem_cons, List.not_mem_nil, or_false] at h
  rcases h with h | h | h | h | h | h | h | h | h | h | h <;> rw [h] <;> exact if_neg hpos

theorem State.reportTaken_purpose : (s.reportTaken n pos).lanes[n].purpose = s.lanes[n].purpose := by
  rw [State.reportTaken_lane]; rfl

theorem State.reportTaken_faultMove : (s.reportTaken n pos).lanes[n].faultMove = s.lanes[n].faultMove := by
  rw [State.reportTaken_lane]; rfl

theorem State.reportTaken_quarantine : (s.reportTaken n pos).lanes[n].quarantine = s.lanes[n].quarantine := by
  rw [State.reportTaken_lane]; rfl

end

/-! ## Moves that end (R70, R71, R74, R81) -/

/-- PROBE is sent and the lane is PROBING (R71, R74). -/
theorem State.enterProbing_eq (s : State) (n : LaneId) : s.enterProbing n =
    (s.emit (.drive n [3])).modLane n fun l => { l with state := .probing, purpose := none, timer := some ⟨20000, 0⟩ } := by
  rw [State.enterProbing, State.startTimer, State.modLane_modLane]
  rfl

section
variable {s : State} {n : LaneId}

/-- OPEN ends an opening that has a purpose (R70, R73, R81, R90). -/
theorem State.trayOpens {v : TrayPurpose} (hstate : s.lanes[n].state = .opening) (hpurpose : s.lanes[n].purpose = some v) :
    (s.reportTaken n .opened).trayMoves n .opened =
      (s.modLane n fun l => { l.reported .opened with state := .opened, timer := none }).oweArm := by
  rw [State.trayMoves_opening hstate]
  unfold State.openingTray
  rw [State.reportTaken_purpose, hpurpose]
  dsimp only
  rw [State.stopTimer, State.modLane_modLane, State.reportTaken_modLane]

/-- CLOSED ends a closing for another purpose than PICK with a PROBE (R70, R71, R74, R91). -/
theorem State.trayCloses (hstate : s.lanes[n].state = .closing) (hpurpose : s.lanes[n].purpose ≠ some .pick) :
    (s.reportTaken n .closed).trayMoves n .closed = (s.emit (.drive n [3])).modLane n fun l =>
      { l.reported .closed with state := .probing, purpose := none, timer := some ⟨20000, 0⟩ } := by
  have hprobes : (s.reportTaken n .closed).closingTray n .closed = (s.reportTaken n .closed).enterProbing n := by
    unfold State.closingTray
    rw [State.reportTaken_purpose]
    split
    · contradiction
    · rfl
    · contradiction
    · contradiction
  rw [State.trayMoves_closing hstate, hprobes, State.enterProbing_eq, State.reportTaken, State.modLane_emit,
    State.modLane_modLane]

/-- CLOSED ends the closing after a PICK; a lane that is held or has no identity becomes OFFLINE (R81; log 22). -/
theorem State.trayCloses_afterPick (hstate : s.lanes[n].state = .closing) (hpurpose : s.lanes[n].purpose = some .pick)
    (hquarantine : s.lanes[n].quarantine = false) :
    (s.reportTaken n .closed).trayMoves n .closed =
      if s.lanes[n].held = true ∨ s.lanes[n].identity = none then
        s.modLane n fun l => { l.reported .closed with state := .offline, purpose := none, timer := none }
      else (s.modLane n fun l => { l.reported .closed with state := .idle, purpose := none, timer := none }).oweClaim := by
  have hout : ((s.reportTaken n .closed).lanes[n].held || (s.reportTaken n .closed).lanes[n].identity.isNone) = true ↔
      s.lanes[n].held = true ∨ s.lanes[n].identity = none := by
    rw [State.reportTaken_lane, Bool.or_eq_true, Option.isNone_iff_eq_none]
    rfl
  rw [State.trayMoves_closing hstate]
  unfold State.closingTray
  rw [State.reportTaken_purpose, hpurpose]
  dsimp only
  rw [State.closedAfterPick, State.reportTaken_quarantine, hquarantine, if_neg Bool.false_ne_true, State.enterIdle,
    State.reportTaken_modLane, State.reportTaken_modLane]
  simp only [hout]

/-- CLOSED on a tray that opens or is open for the operator is the operator's, and probes (R70). -/
theorem State.trayClosedByOperator (hstate : s.lanes[n].state = .opening ∨ s.lanes[n].state = .opened)
    (hpurpose : s.lanes[n].purpose = some .operator) :
    (s.reportTaken n .closed).trayMoves n .closed = (s.emit (.drive n [3])).modLane n fun l =>
      { l.reported .closed with state := .probing, purpose := none, timer := some ⟨20000, 0⟩, heldBack := none } := by
  have hcloses : (s.reportTaken n .closed).trayMoves n .closed = (s.reportTaken n .closed).closedByOperator n := by
    rcases hstate with h | h
    · rw [State.trayMoves_opening h]
      unfold State.openingTray
      rw [State.reportTaken_purpose, hpurpose]
    · rw [State.trayMoves_opened h]
      unfold State.openTrayReports
      rw [State.reportTaken_purpose, hpurpose]
  rw [hcloses, State.closedByOperator, State.reportTaken_modLane, State.enterProbing_eq, State.modLane_emit,
    State.modLane_modLane]

/-- OPEN on a resting lane is the operator's (R70). -/
theorem State.trayOpenedByOperator
    (hstate : s.lanes[n].state = .idle ∨ s.lanes[n].state = .master ∨ s.lanes[n].state = .foreign) :
    (s.reportTaken n .opened).trayMoves n .opened = s.modLane n fun l =>
      { l.reported .opened with state := .opened, purpose := some .operator, master := none } := by
  rw [State.trayMoves_resting hstate]
  unfold State.restingTray
  dsimp only
  rw [State.reportTaken_modLane]

/-- MOVING during a move, or on a resting lane, is recorded only (R70). -/
theorem State.trayMoves_moving (hstate : s.lanes[n].state ∈ [LaneState.opening, .closing, .idle, .master, .foreign]) :
    (s.reportTaken n .moving).trayMoves n .moving = s.reportTaken n .moving := by
  simp only [List.mem_cons, List.not_mem_nil, or_false] at hstate
  rcases hstate with h | h | h
  · rw [State.trayMoves_opening h]; rfl
  · rw [State.trayMoves_closing h]; rfl
  · rw [State.trayMoves_resting h]; rfl

/-- A position that the lane does not hold its tray at faults it (R70). -/
theorem State.trayMoves_faults {pos : TrayPosition}
    (h : s.lanes[n].state = .opening ∧ (s.lanes[n].purpose = some .place ∨ s.lanes[n].purpose = some .pick) ∧ pos = .closed ∨
      s.lanes[n].state = .opened ∧ (s.lanes[n].purpose = some .place ∨ s.lanes[n].purpose = some .pick) ∧ pos ≠ .opened ∨
      s.lanes[n].state = .closing ∧ pos = .opened ∨
      s.lanes[n].state ∈ [LaneState.awaitDisc, .probing, .feedWait, .burning, .finalizing, .verifyWait, .verifying, .done,
        .spare, .sourceWait, .sourceRead] ∧ pos ≠ .closed) :
    (s.reportTaken n pos).trayMoves n pos = (s.reportTaken n pos).laneFault n .tray := by
  rcases h with ⟨hstate, hpurpose, rfl⟩ | ⟨hstate, hpurpose, hpos⟩ | ⟨hstate, rfl⟩ | ⟨hstate, hpos⟩
  · rw [State.trayMoves_opening hstate]
    unfold State.openingTray
    rw [State.reportTaken_purpose]
    rcases hpurpose with h | h <;> rw [h]
  · rw [State.trayMoves_opened hstate]
    unfold State.openTrayReports
    rw [State.reportTaken_purpose]
    cases pos with
    | opened => contradiction
    | closed | moving => rcases hpurpose with h | h <;> rw [h]
  · rw [State.trayMoves_closing hstate]; rfl
  · exact State.trayMoves_closedStates hstate hpos

/-! ## The moves of a lane in FAULT (R87, R90, R91) -/

/-- While another position is awaited a report is recorded only. -/
theorem State.faultTray_awaits {pos : TrayPosition} (hstate : s.lanes[n].state = .fault)
    (h : (s.lanes[n].faultMove = some .unloadOpening ∨ s.lanes[n].faultMove = some .operatorOpening) ∧ pos ≠ .opened ∨
      (s.lanes[n].faultMove = some .unloadClosing ∨ s.lanes[n].faultMove = some .operatorClosing) ∧ pos ≠ .closed) :
    (s.reportTaken n pos).trayMoves n pos = s.reportTaken n pos := by
  rw [State.trayMoves_fault hstate]
  unfold State.faultTray
  rw [State.reportTaken_faultMove]
  cases pos with
  | opened =>
    rcases h with ⟨_, hpos⟩ | ⟨hmove | hmove, _⟩
    · contradiction
    · rw [hmove]
    · rw [hmove]
  | closed =>
    rcases h with ⟨hmove | hmove, _⟩ | ⟨_, hpos⟩
    · rw [hmove]
    · rw [hmove]
    · contradiction
  | moving => rcases h with ⟨hmove | hmove, _⟩ | ⟨hmove | hmove, _⟩ <;> rw [hmove]

/-- The tray of a fault unload is open: the arm is called (R87). -/
theorem State.faultTray_unloadOpens (hstate : s.lanes[n].state = .fault) (hmove : s.lanes[n].faultMove = some .unloadOpening) :
    (s.reportTaken n .opened).trayMoves n .opened =
      (s.modLane n fun l => { l.reported .opened with faultMove := some .unloadOpen, timer := none }).oweArm := by
  rw [State.trayMoves_fault hstate]
  unfold State.faultTray
  rw [State.reportTaken_faultMove, hmove]
  dsimp only
  rw [State.stopTimer, State.modLane_modLane, State.reportTaken_modLane]

/-- The tray of a fault unload is closed again (R87). -/
theorem State.faultTray_unloadCloses (hstate : s.lanes[n].state = .fault) (hmove : s.lanes[n].faultMove = some .unloadClosing)
    (hquarantine : s.lanes[n].quarantine = false) :
    (s.reportTaken n .closed).trayMoves n .closed =
      s.modLane n fun l => { l.reported .closed with faultMove := none, purpose := none, timer := none } := by
  rw [State.trayMoves_fault hstate]
  unfold State.faultTray
  rw [State.reportTaken_faultMove, hmove]
  dsimp only
  rw [State.reportTaken_quarantine, hquarantine, if_neg Bool.false_ne_true, State.stopTimer, State.modLane_modLane,
    State.reportTaken_modLane]

/-- The operator's move has ended (R90, R91). -/
theorem State.faultTray_operatorEnds {pos : TrayPosition} (hstate : s.lanes[n].state = .fault)
    (h : s.lanes[n].faultMove = some .operatorOpening ∧ pos = .opened ∨
      s.lanes[n].faultMove = some .operatorClosing ∧ pos = .closed) :
    (s.reportTaken n pos).trayMoves n pos = s.modLane n fun l => { l.reported pos with faultMove := none, timer := none } := by
  rw [State.trayMoves_fault hstate]
  unfold State.faultTray
  rw [State.reportTaken_faultMove]
  rcases h with ⟨hmove, rfl⟩ | ⟨hmove, rfl⟩ <;> rw [hmove] <;> dsimp only <;>
    rw [State.stopTimer, State.modLane_modLane, State.reportTaken_modLane]

end

/-- Settles O32: the report acts by the lane's state, and then releases the command held back (`releaseTray_eq`). -/
theorem trayReportsMoveTheLane : Obligations.TrayReportsMoveTheLane := by
  intro n s ends seen sent
  have hseen : seen = fun pos l => l.reported pos := by
    funext pos l
    exact (l.reported_eq pos).symm
  have hsent : sent = fun u => u.releaseTray n := by
    funext u
    rw [State.releaseTray_eq]
    dsimp only [sent]
    cases u.lanes[n].unanswered with
    | some _ => rfl
    | none =>
      cases u.lanes[n].heldBack with
      | none => rfl
      | some v => cases v <;> rfl
  rw [hseen, hsent]
  refine ⟨fun v hstate hpurpose => exec_trayState (State.trayOpens hstate hpurpose),
    fun hs hstate hpurpose => exec_trayState_settled (by exact hs) (State.trayCloses hstate hpurpose),
    fun hstate hpurpose hquarantine => exec_trayState (State.trayCloses_afterPick hstate hpurpose hquarantine),
    fun hs hstate hpurpose => ?_,
    fun hs hstate => exec_trayState_settled (by exact hs) (State.trayOpenedByOperator hstate),
    fun hs hstate => exec_trayState_settled (by exact hs) (State.trayMoves_moving hstate),
    fun pos h => exec_trayState (State.trayMoves_faults h),
    fun hstate => ⟨fun pos hs h => exec_trayState_settled (by exact hs) (State.faultTray_awaits hstate h),
      fun hmove => exec_trayState (State.faultTray_unloadOpens hstate hmove),
      fun hs hmove hquarantine =>
        exec_trayState_settled (by exact hs) (State.faultTray_unloadCloses hstate hmove hquarantine),
      fun pos hs h => exec_trayState_settled (by exact hs) (State.faultTray_operatorEnds hstate h)⟩⟩
  rw [exec_trayState_settled (by exact hs) (State.trayClosedByOperator hstate hpurpose),
    State.releaseTray_nothing (by rw [State.modLane_same])]

end Sys2Proof.Machine
end

