-- ==== Sys2Proof/Proofs/Starts.lean ====
section
/-! The start of burns (R75, R96 to R101): the candidate speeds, the start speed, a start, the start computation, and that starts keep
the burning lanes within the budget. -/

namespace Sys2Proof.Machine

/-! ## Speeds (R99, R100) -/

/-- The speeds inside the range, or else the highest below it, or else the lowest above it (R99). -/
theorem mem_candidateSpeeds (speeds : List Nat) (lo hi v : Nat) :
    v ∈ candidateSpeeds speeds lo hi ↔ v ∈ speeds ∧
      (lo ≤ v ∧ v ≤ hi ∨ (∀ w ∈ speeds, ¬(lo ≤ w ∧ w ≤ hi)) ∧
        (v < lo ∧ (∀ w ∈ speeds, w < lo → w ≤ v) ∨
          (∀ w ∈ speeds, lo ≤ w) ∧ hi < v ∧ ∀ w ∈ speeds, hi < w → v ≤ w)) := by
  unfold candidateSpeeds
  split
  · rename_i hinside
    have houtside : ∀ w ∈ speeds, ¬(lo ≤ w ∧ w ≤ hi) := by simpa [List.filter_eq_nil_iff] using hinside
    split
    · rename_i m hbelow
      obtain ⟨hm, hmax⟩ := ((maxOf_spec _).1 m).1 hbelow
      simp only [List.mem_filter, decide_eq_true_eq, and_imp] at hm hmax
      rw [List.mem_singleton]
      refine ⟨?_, fun ⟨hv, hcase⟩ => ?_⟩
      · rintro rfl
        exact ⟨hm.1, .inr ⟨houtside, .inl ⟨hm.2, hmax⟩⟩⟩
      · rcases hcase with hin | ⟨-, ⟨hlt, hle⟩ | ⟨hnone, -⟩⟩
        · exact absurd hin (houtside v hv)
        · exact Nat.le_antisymm (hmax v hv hlt) (hle m hm.1 hm.2)
        · have := hnone m hm.1; omega
    · rename_i hbelow
      have hnone : ∀ w ∈ speeds, lo ≤ w := by
        simpa [List.filter_eq_nil_iff] using (maxOf_spec _).2.1 hbelow
      split
      · rename_i m habove
        obtain ⟨hm, hmin⟩ := ((minOf_spec _).1 m).1 habove
        simp only [List.mem_filter, decide_eq_true_eq, and_imp] at hm hmin
        rw [List.mem_singleton]
        refine ⟨?_, fun ⟨hv, hcase⟩ => ?_⟩
        · rintro rfl
          exact ⟨hm.1, .inr ⟨houtside, .inr ⟨hnone, hm.2, hmin⟩⟩⟩
        · rcases hcase with hin | ⟨-, ⟨hlt, -⟩ | ⟨-, hlt, hle⟩⟩
          · exact absurd hin (houtside v hv)
          · have := hnone v hv; omega
          · exact Nat.le_antisymm (hle m hm.1 hm.2) (hmin v hv hlt)
      · rename_i habove
        have hbound : ∀ w ∈ speeds, w ≤ hi := by
          simpa [List.filter_eq_nil_iff] using (minOf_spec _).2.1 habove
        refine ⟨fun hv => absurd hv List.not_mem_nil, fun ⟨hv, _⟩ => ?_⟩
        exact absurd ⟨hnone v hv, hbound v hv⟩ (houtside v hv)
  · rename_i hinside
    obtain ⟨w, hw⟩ := List.exists_mem_of_ne_nil _ hinside
    simp only [List.mem_filter, Bool.and_eq_true, decide_eq_true_eq] at hw ⊢
    refine and_congr_right fun _ => ⟨.inl, fun hcase => ?_⟩
    rcases hcase with hin | ⟨houtside, -⟩
    · exact hin
    · exact absurd hw.2 (houtside w hw.1)

/-- A blank with speeds has a candidate: its highest speed below the range, if none is inside, else its lowest one (R99). -/
theorem candidateSpeeds_ne_nil {speeds : List Nat} (h : speeds ≠ []) (lo hi : Nat) : candidateSpeeds speeds lo hi ≠ [] := by
  obtain ⟨v, hv⟩ := List.exists_mem_of_ne_nil _ h
  unfold candidateSpeeds
  split
  · rename_i hinside
    split
    · exact List.cons_ne_nil _ _
    · rename_i hbelow
      split
      · exact List.cons_ne_nil _ _
      · rename_i habove
        simp only [List.filter_eq_nil_iff, Bool.and_eq_true, decide_eq_true_eq] at hinside
        have hlow := (maxOf_spec _).2.1 hbelow
        have hhigh := (minOf_spec _).2.1 habove
        simp only [List.filter_eq_nil_iff, decide_eq_true_eq] at hlow hhigh
        have := hinside v hv
        have := hlow v hv
        have := hhigh v hv
        omega
  · assumption

/-- The start speed is the highest candidate that fits (R100). -/
theorem startSpeed_eq_some (cls : MediaClass) (candidates : List Nat) (available : Int) (v : Nat) :
    startSpeed cls candidates available = some v ↔
      v ∈ candidates ∧ ((v * baseRate cls : Nat) : Int) ≤ available ∧
        ∀ w ∈ candidates, ((w * baseRate cls : Nat) : Int) ≤ available → w ≤ v := by
  rw [startSpeed, (maxOf_spec _).1]
  simp only [List.mem_filter, decide_eq_true_eq, and_imp, and_assoc]
  rfl

theorem startSpeed_eq_none (cls : MediaClass) (candidates : List Nat) (available : Int) :
    startSpeed cls candidates available = none ↔ ∀ w ∈ candidates, available < ((w * baseRate cls : Nat) : Int) := by
  rw [startSpeed, (maxOf_spec _).2]
  simp only [List.filter_eq_nil_iff, decide_eq_true_eq, not_le]
  rfl

/-! ## A start and the start computation (R75, R100) -/

theorem State.startLane_eq {s : State} {n : LaneId} {id : Identity} (hid : s.lanes[n].identity = some id) (speed : Nat) :
    s.startLane n speed =
      (((s.emit (.drive n (4 :: BitVec.ofNat 8 speed :: leBytes 3 (s.laneSegments n)))).modLane n fun l =>
        { l with
          state := .burning, granted := 0, sent := 0, committed := 0, credits := id.buffer
          timer := some ⟨10000, 0⟩ }).modDiscAt (.tray n) fun d =>
            { d with phase := .burning, speed := some speed }).oweGrant := by
  unfold State.startLane
  refine congrArg (fun t : State => (t.modDiscAt _ _).oweGrant) (State.modLane_congr ?_)
  have hsent : (s.sendDrive n (.startWrite speed (s.laneSegments n))).lanes[n].identity = some id := hid
  rw [hsent]
  rfl

theorem State.laneStartSpeed_eq {s : State} {n : LaneId} {d : Disc} {cls : MediaClass} {j : Job}
    (hd : s.discAt (.tray n) = some d) (hcls : d.cls = some cls) (hj : s.jobOfOpt s.lanes[n].job = some j) :
    s.laneStartSpeed n = startSpeed cls (candidateSpeeds s.lanes[n].blankSpeeds j.speedMin j.speedMax)
      ((s.budget : Int) - 4096 - s.burningSum) := by
  unfold State.laneStartSpeed
  rw [hd, Option.bind_some, hcls, hj]
  rfl

theorem State.startComputation_stops {s : State} {n : LaneId} {rest : List LaneId} (hqueue : s.startQueue = n :: rest)
    (h : s.laneStartSpeed n = none) : s.startComputation = s := by
  rw [State.startComputation, hqueue, State.startScan, h]

theorem State.startLane_startQueue (s : State) (n : LaneId) (speed : Nat) : (s.startLane n speed).startQueue = s.startQueue := by
  rw [State.startLane, State.oweGrant_startQueue, State.modDiscAt_eq]
  rfl

/-- The head of the queue is started, and the computation goes on (R100). -/
theorem State.startComputation_starts {s : State} {n : LaneId} {rest : List LaneId} {v : Nat} (hqueue : s.startQueue = n :: rest)
    (h : s.laneStartSpeed n = some v) : s.startComputation = ((s.setStartQueue rest).startLane n v).startComputation := by
  have hscan : s.startComputation = State.startScan rest ((s.setStartQueue rest).startLane n v) := by
    rw [State.startComputation, hqueue, State.startScan, h]
  rw [hscan, State.startComputation, State.startLane_startQueue, State.setStartQueue_startQueue]

/-! ## Starts keep to the budget (R96, R100) -/

theorem State.burningSum_eq (s : State) : s.burningSum = ∑ n : LaneId, s.laneDemand n := by
  simp [State.burningSum, laneIds, Fin.sum_univ_eight]

/-- The burning sum rises by at most the demand of the one lane whose demand changes. -/
theorem State.burningSum_le {s t : State} {n : LaneId} {demand : Nat} (hother : ∀ m, m ≠ n → t.laneDemand m = s.laneDemand m)
    (hn : t.laneDemand n ≤ demand) : t.burningSum ≤ s.burningSum + demand := by
  have hrest : ∑ m ∈ Finset.univ.erase n, t.laneDemand m = ∑ m ∈ Finset.univ.erase n, s.laneDemand m :=
    Finset.sum_congr rfl fun m hm => hother m (Finset.ne_of_mem_erase hm)
  rw [State.burningSum_eq, State.burningSum_eq, ← Finset.add_sum_erase _ _ (Finset.mem_univ n),
    ← Finset.add_sum_erase _ s.laneDemand (Finset.mem_univ n), hrest]
  omega

/-- The disc in a tray after a start: that of the lane started burns at the speed, the others are as before. -/
theorem State.startLane_discAt (s : State) (n m : LaneId) (speed : Nat) :
    (s.startLane n speed).discAt (.tray m) =
      if m = n then (s.discAt (.tray n)).map fun d => { d with phase := .burning, speed := some speed } else s.discAt (.tray m) := by
  split
  · rename_i h
    subst h
    exact State.discAt_modDiscAt_same _ _ fun _ => rfl
  · rename_i h
    exact State.discAt_modDiscAt_other _ (fun heq => h (Location.tray.inj heq)) fun _ => rfl

theorem State.startLane_lane (s : State) {n m : LaneId} (speed : Nat) (h : m ≠ n) :
    (s.startLane n speed).lanes[m] = s.lanes[m] := by
  rw [State.startLane, State.oweGrant_lanes, State.modDiscAt_lanes, State.modLane_other _ _ _ _ h]
  rfl

theorem State.startLane_demand_other (s : State) {n m : LaneId} (speed : Nat) (h : m ≠ n) :
    (s.startLane n speed).laneDemand m = s.laneDemand m := by
  rw [State.laneDemand, State.startLane_lane s speed h, State.startLane_discAt, if_neg h]
  rfl

/-- The lane started demands at most what its disc asks for at the speed (R97). -/
theorem State.startLane_demand {s : State} {n : LaneId} {d : Disc} {cls : MediaClass} (hd : s.discAt (.tray n) = some d)
    (hcls : d.cls = some cls) (speed : Nat) : (s.startLane n speed).laneDemand n ≤ demandOf cls speed := by
  unfold State.laneDemand
  rw [State.startLane_discAt, if_pos rfl, hd, Option.map_some]
  dsimp only
  rw [hcls]
  split
  · exact le_rfl
  · exact Nat.zero_le _

/-- A lane that can start has a disc of some class in its tray, whose demand at the start speed fits the available rate (R100). -/
theorem State.laneStartSpeed_fits {s : State} {n : LaneId} {v : Nat} (h : s.laneStartSpeed n = some v) :
    ∃ d cls, s.discAt (.tray n) = some d ∧ d.cls = some cls ∧ 4096 + s.burningSum + demandOf cls v ≤ s.budget := by
  unfold State.laneStartSpeed at h
  split at h
  · rename_i cls j hcls _
    obtain ⟨d, hd, hdcls⟩ := Option.bind_eq_some_iff.1 hcls
    obtain ⟨-, hfits, -⟩ := (startSpeed_eq_some _ _ _ _).1 h
    simp only [State.availableRate, printReserve] at hfits
    refine ⟨d, cls, hd, hdcls, ?_⟩
    unfold demandOf
    omega
  · cases h

theorem State.startLane_budget (s : State) (n : LaneId) (speed : Nat) : (s.startLane n speed).budget = s.budget := by
  rw [State.startLane, State.oweGrant_budget, State.modDiscAt_eq]
  rfl

/-- One start keeps the burning lanes within the budget. -/
theorem State.startLane_fits {s : State} {n : LaneId} {v : Nat} (h : s.laneStartSpeed n = some v) (rest : List LaneId) :
    4096 + ((s.setStartQueue rest).startLane n v).burningSum ≤ ((s.setStartQueue rest).startLane n v).budget := by
  obtain ⟨d, cls, hd, hcls, hfits⟩ := State.laneStartSpeed_fits h
  have hsum : ((s.setStartQueue rest).startLane n v).burningSum ≤ (s.setStartQueue rest).burningSum + demandOf cls v :=
    State.burningSum_le (fun m hm => State.startLane_demand_other _ v hm) (State.startLane_demand (by exact hd) hcls v)
  have hsame : (s.setStartQueue rest).burningSum = s.burningSum := rfl
  rw [State.startLane_budget, State.setStartQueue_budget]
  omega

theorem State.startScan_fits (l : List LaneId) {s : State} (h : 4096 + s.burningSum ≤ s.budget) :
    4096 + (State.startScan l s).burningSum ≤ (State.startScan l s).budget := by
  induction l generalizing s with
  | nil => exact h
  | cons n rest ih =>
    unfold State.startScan
    split
    · exact h
    · rename_i v hv
      exact ih (State.startLane_fits hv rest)

theorem State.startComputation_budget (s : State) : s.startComputation.budget = s.budget := by
  have h := s.startComputation_quiet
  simp only [State.quiet, Prod.mk.injEq] at h
  obtain ⟨-, -, -, hbudget, -⟩ := h
  exact hbudget

/-- Settles O41: the candidates, the start speed and a start by their equations; the scan by its head; the budget by `startScan_fits`. -/
theorem startsFitTheBudget : Obligations.StartsFitTheBudget := by
  refine ⟨fun speeds lo hi v => ⟨mem_candidateSpeeds speeds lo hi v, fun h => candidateSpeeds_ne_nil h lo hi⟩,
    fun cls candidates available => ⟨startSpeed_eq_some cls candidates available, startSpeed_eq_none cls candidates available⟩,
    fun n speed id s hid => State.startLane_eq hid speed, fun s => ⟨fun hqueue => ?_, ?_⟩,
    fun s h => ⟨State.startScan_fits _ h, s.startComputation_budget⟩⟩
  · rw [State.startComputation, hqueue, State.startScan]
  · intro n rest d cls j hqueue hd hcls hj speed
    have hspeed : s.laneStartSpeed n = speed := State.laneStartSpeed_eq hd hcls hj
    exact ⟨fun h => State.startComputation_stops hqueue (hspeed.trans h),
      fun v h => State.startComputation_starts hqueue (hspeed.trans h)⟩

end Sys2Proof.Machine
end

