-- ==== Sys2Proof/Proofs/Ranges.lean ====
section
/-! The ranges of the port, setting and lane records and the consistency of the arm (R67, R96, R126, R157, R177): one lemma for each
operation that writes a record, in the order of the definitions. An operation that writes none leaves `State.RangesKept` as it is, by
definition. -/

namespace Sys2Proof.Machine

/-! ## What is kept -/

/-- No step runs, and the arm is where one may run (R127). -/
def Arm.mayStep (a : Arm) : Prop := (a.state = .homing ∨ a.state = .serving) ∧ a.step = none

/-- The fields of the arm that say where it stands and what it does (R126). -/
def Arm.motion (a : Arm) := (a.state, a.resume, a.step, a.timer, a.fault)

/-- Each record of `s` keeps to its range if those of `s₀` do; with `free` the arm may take a step, too. -/
structure State.RangesKept (s₀ : State) (free : Bool) (s : State) : Prop where
  ports : s₀.portsInRange → s.portsInRange
  settings : s₀.settingsInRange → s.settingsInRange
  lanes : s₀.lanesInRange → s.lanesInRange
  arm : s₀.arm.consistent = true → s.arm.consistent = true ∧ (free = true → s.arm.mayStep)

theorem State.RangesKept.refl (s : State) : s.RangesKept false s := ⟨id, id, id, fun h => ⟨h, nofun⟩⟩

/-- A lane's range: the failures counted, and the credits while it burns (R67, R77). -/
theorem Lane.inRange_iff (l : Lane) : l.inRange = true ↔
    l.failCount ≤ 3 ∧ (l.state = .burning → l.credits ≤ (l.identity.map (·.buffer)).getD 0) := by
  by_cases h : l.state = .burning <;> simp [Lane.inRange, h]

/-- The settings among the printer's fields (R157). -/
def Printer.settings (v : Printer) : Nat × Nat × Nat × Nat := (v.w0, v.k, v.tref, v.capacity)

theorem Printer.setBuffer_settings (v : Printer) (which : BufferId) (x : BandBuffer) :
    (v.setBuffer which x).settings = v.settings := by
  cases which <;> rfl

/-- The records that have ranges: ports, settings, lanes and the arm. -/
def State.records (s : State) := (s.ports, s.budget, s.printer.settings, s.lanes, s.arm)

namespace State.RangesKept

variable {s₀ s : State} {free : Bool}

/-- An arm that may take a step is kept like any other. -/
theorem weaken (h : s₀.RangesKept free s) : s₀.RangesKept false s :=
  ⟨h.ports, h.settings, h.lanes, fun h₀ => ⟨(h.arm h₀).1, nofun⟩⟩

/-- A change that writes none of the records. -/
theorem same {t : State} (h : s₀.RangesKept free s) (ht : t.records = s.records) : s₀.RangesKept free t := by
  simp only [State.records, Printer.settings, Prod.mk.injEq] at ht
  obtain ⟨hports, hbudget, ⟨hw0, hk, htref, hcapacity⟩, hlanes, harm⟩ := ht
  refine ⟨fun h₀ => ?_, fun h₀ => ?_, fun h₀ => ?_, fun h₀ => ?_⟩
  · rw [State.portsInRange, hports]; exact h.ports h₀
  · rw [State.settingsInRange, hbudget, hw0, hk, htref, hcapacity]; exact h.settings h₀
  · rw [State.lanesInRange, hlanes]; exact h.lanes h₀
  · rw [harm]; exact h.arm h₀

/-! ## Operations that write none of the records -/

theorem oweCrc (h : s₀.RangesKept free s) : s₀.RangesKept free s.oweCrc := .same h rfl
theorem oweClaim (h : s₀.RangesKept free s) : s₀.RangesKept free s.oweClaim := .same h rfl
theorem oweStart (h : s₀.RangesKept free s) : s₀.RangesKept free s.oweStart := .same h rfl
theorem oweArm (h : s₀.RangesKept free s) : s₀.RangesKept free s.oweArm := .same h rfl
theorem oweSelect (h : s₀.RangesKept free s) : s₀.RangesKept free s.oweSelect := .same h rfl
theorem oweGrant (h : s₀.RangesKept free s) : s₀.RangesKept free s.oweGrant := .same h rfl
theorem setDue (h : s₀.RangesKept free s) {v : Due} : s₀.RangesKept free (s.setDue v) := .same h rfl
theorem emit (h : s₀.RangesKept free s) {o : Output} : s₀.RangesKept free (s.emit o) := .same h rfl
theorem answer (h : s₀.RangesKept free s) {p : Port} {v : List Byte} : s₀.RangesKept free (s.answer p v) := .same h rfl
theorem sendDrive (h : s₀.RangesKept free s) {n : LaneId} {v : DriveMessage} : s₀.RangesKept free (s.sendDrive n v) := .same h rfl
theorem sendPrinter (h : s₀.RangesKept free s) {v : PrinterMessage} : s₀.RangesKept free (s.sendPrinter v) := .same h rfl
theorem setMem (h : s₀.RangesKept free s) {v : List Host.Cell} : s₀.RangesKept free (s.setMem v) := .same h rfl
theorem setPool (h : s₀.RangesKept free s) {v : List Extent} : s₀.RangesKept free (s.setPool v) := .same h rfl
theorem setRotation (h : s₀.RangesKept free s) {v : Port} : s₀.RangesKept free (s.setRotation v) := .same h rfl
theorem setSerial (h : s₀.RangesKept free s) {v : Word32} : s₀.RangesKept free (s.setSerial v) := .same h rfl
theorem setChannel (h : s₀.RangesKept free s) {v : Option Transfer} : s₀.RangesKept free (s.setChannel v) := .same h rfl
theorem setStartQueue (h : s₀.RangesKept free s) {v : List LaneId} : s₀.RangesKept free (s.setStartQueue v) := .same h rfl
theorem setVerifyQueue (h : s₀.RangesKept free s) {v : List VerifyEntry} : s₀.RangesKept free (s.setVerifyQueue v) := .same h rfl
theorem setCrc (h : s₀.RangesKept free s) {k : Fin 2} {v : CrcChannel} : s₀.RangesKept free (s.setCrc k v) := .same h rfl
theorem setDisc (h : s₀.RangesKept free s) {i : TableId} {v : Option Disc} : s₀.RangesKept free (s.setDisc i v) := .same h rfl
theorem setJobEntry (h : s₀.RangesKept free s) {i : TableId} {v : JobEntry} : s₀.RangesKept free (s.setJobEntry i v) := .same h rfl
theorem setOutputFull (h : s₀.RangesKept free s) {v : Bool} : s₀.RangesKept free (s.setOutputFull v) := .same h rfl
theorem setRejectFull (h : s₀.RangesKept free s) {v : Bool} : s₀.RangesKept free (s.setRejectFull v) := .same h rfl
theorem setScans (h : s₀.RangesKept free s) {v : Nat} : s₀.RangesKept free (s.setScans v) := .same h rfl
theorem setKey (h : s₀.RangesKept free s) {v : KeyPosition} : s₀.RangesKept free (s.setKey v) := .same h rfl

theorem modImage (h : s₀.RangesKept free s) {i : ImageId} {f : ImageSlot → ImageSlot} : s₀.RangesKept free (s.modImage i f) :=
  .same h rfl

theorem modArtwork (h : s₀.RangesKept free s) {i : ArtworkId} {f : ArtworkSlot → ArtworkSlot} :
    s₀.RangesKept free (s.modArtwork i f) := .same h rfl

theorem modSensor (h : s₀.RangesKept free s) {v : Sensor} {f : SensorRecord → SensorRecord} :
    s₀.RangesKept free (s.modSensor v f) := .same h rfl

theorem queueRequest (h : s₀.RangesKept free s) {kind : RequestKind} {n : Option LaneId} {cls : Option MediaClass} :
    s₀.RangesKept free (s.queueRequest kind n cls) := .same h rfl

theorem dropRequest (h : s₀.RangesKept free s) {age : Nat} : s₀.RangesKept free (s.dropRequest age) := .same h rfl

theorem modRequest (h : s₀.RangesKept free s) {age : Nat} {f : Request → Request} : s₀.RangesKept free (s.modRequest age f) :=
  .same h rfl

theorem joinStartQueue (h : s₀.RangesKept free s) {n : LaneId} : s₀.RangesKept free (s.joinStartQueue n) := .same h rfl

theorem joinVerifyQueue (h : s₀.RangesKept free s) {w : VerifyWork} : s₀.RangesKept free (s.joinVerifyQueue w) := .same h rfl

theorem disown (h : s₀.RangesKept free s) {p : TransferTo → Bool} : s₀.RangesKept free (s.disown p) := .same h rfl

theorem dropLaneChunk (h : s₀.RangesKept free s) {n : LaneId} : s₀.RangesKept free (s.dropLaneChunk n) := .same h rfl

theorem returnPages (h : s₀.RangesKept free s) {v : List Extent} : s₀.RangesKept free (s.returnPages v) := .same h rfl
theorem freeImage (h : s₀.RangesKept free s) {i : ImageId} : s₀.RangesKept free (s.freeImage i) := .same h rfl
theorem freeArtwork (h : s₀.RangesKept free s) {i : ArtworkId} : s₀.RangesKept free (s.freeArtwork i) := .same h rfl
theorem releaseImage (h : s₀.RangesKept free s) {i : ImageId} : s₀.RangesKept free (s.releaseImage i) := .same h rfl
theorem releaseArtwork (h : s₀.RangesKept free s) {i : ArtworkId} : s₀.RangesKept free (s.releaseArtwork i) := .same h rfl
theorem lowerRanks (h : s₀.RangesKept free s) {rank : Nat} : s₀.RangesKept free (s.lowerRanks rank) := .same h rfl
theorem loadBegins (h : s₀.RangesKept free s) {i : ImageId} : s₀.RangesKept free (s.loadBegins i) := .same h rfl

/-! ## Changes of one record -/

theorem modPort (h : s₀.RangesKept free s) {p : Port} {f : PortRecord → PortRecord}
    (hf : s.ports[p].inRange = true → (f s.ports[p]).inRange = true) : s₀.RangesKept free (s.modPort p f) := by
  refine ⟨fun h₀ q => ?_, h.settings, h.lanes, h.arm⟩
  by_cases hq : q = p
  · subst hq
    rw [State.modPort_same]
    exact hf (h.ports h₀ q)
  · rw [State.modPort_other _ _ _ _ hq]
    exact h.ports h₀ q

/-- A change of a port record that writes none of the fields with a range. -/
theorem leavesPort (h : s₀.RangesKept free s) {p : Port} {f : PortRecord → PortRecord}
    (hf : ∀ r, (f r).inRange = r.inRange) : s₀.RangesKept free (s.modPort p f) :=
  h.modPort fun hr => (hf _).trans hr

theorem modLane (h : s₀.RangesKept free s) {n : LaneId} {f : Lane → Lane}
    (hf : s.lanes[n].inRange = true → (f s.lanes[n]).inRange = true) : s₀.RangesKept free (s.modLane n f) := by
  refine ⟨h.ports, h.settings, fun h₀ m => ?_, h.arm⟩
  rw [State.modLane_lane]
  split
  · exact hf (h.lanes h₀ n)
  · exact h.lanes h₀ m

/-- A change of a lane that writes none of the fields with a range. -/
theorem leavesLane (h : s₀.RangesKept free s) {n : LaneId} {f : Lane → Lane}
    (hf : ∀ l, (f l).inRange = l.inRange) : s₀.RangesKept free (s.modLane n f) :=
  h.modLane fun hl => (hf _).trans hl

/-- A change by which a lane does not burn. -/
theorem stopsLane (h : s₀.RangesKept free s) {n : LaneId} {f : Lane → Lane}
    (hf : ∀ l, (f l).state ≠ .burning ∧ (f l).failCount = l.failCount) : s₀.RangesKept free (s.modLane n f) := by
  obtain ⟨hstate, hcount⟩ := hf s.lanes[n]
  refine h.modLane fun hl => ?_
  rw [Lane.inRange_iff] at hl ⊢
  exact ⟨hcount.trans_le hl.1, fun hburns => absurd hburns hstate⟩

/-- A change of the printer but for its settings. -/
theorem modPrinter (h : s₀.RangesKept free s) {f : Printer → Printer}
    (hf : ∀ v, (f v).settings = v.settings) : s₀.RangesKept free (s.modPrinter f) :=
  .same h (by rw [State.records, State.modPrinter_printer, hf]; rfl)

/-- A change of the arm by which it neither moves nor changes state. -/
theorem leavesArm (h : s₀.RangesKept free s) {f : Arm → Arm} (hf : ∀ a, (f a).motion = a.motion) :
    s₀.RangesKept free (s.modArm f) := by
  have hmotion := hf s.arm
  simp only [Arm.motion, Prod.mk.injEq] at hmotion
  obtain ⟨hstate, hresume, hstep, htimer, hfault⟩ := hmotion
  refine ⟨h.ports, h.settings, h.lanes, fun h₀ => ?_⟩
  rw [State.modArm_arm, Arm.consistent, Arm.mayStep, hstate, hresume, hstep, htimer, hfault]
  exact h.arm h₀

/-! ## Tables, queues and messages -/

theorem modJob (h : s₀.RangesKept free s) {k : Handle} {f : Job → Job} : s₀.RangesKept free (s.modJob k f) := by
  unfold State.modJob; split <;> exact .same h rfl

theorem modDiscAt (h : s₀.RangesKept free s) {loc : Location} {f : Disc → Disc} : s₀.RangesKept free (s.modDiscAt loc f) := by
  unfold State.modDiscAt; split <;> exact .same h rfl

theorem modBin (h : s₀.RangesKept free s) {which : Bin} {f : BinRecord → BinRecord} : s₀.RangesKept free (s.modBin which f) := by
  cases which <;> exact .same h rfl

/-- A port's queue holds 32 notices, and its lost count stops at 65,535 (R183). -/
theorem notify (h : s₀.RangesKept free s) {p : Port} {v : Notice} : s₀.RangesKept free (s.notify p v) := by
  refine h.modPort fun hr => ?_
  unfold PortRecord.join
  split
  · simp only [PortRecord.inRange, List.length_append, List.length_singleton, Bool.and_eq_true, decide_eq_true_eq] at hr ⊢
    omega
  · simp only [PortRecord.inRange, Bool.and_eq_true, decide_eq_true_eq] at hr ⊢
    omega

theorem notifyOpt (h : s₀.RangesKept free s) {p : Option Port} {v : Notice} : s₀.RangesKept free (s.notifyOpt p v) := by
  cases p with
  | none => exact h
  | some q => exact h.notify

theorem raise (h : s₀.RangesKept free s) {g : Group} {v : Notice} : s₀.RangesKept free (s.raise g v) := by
  have hlist : ∀ (l : List Port) (u : State), s₀.RangesKept free u → s₀.RangesKept free (State.raiseTo g v l u) := by
    intro l
    induction l with
    | nil => exact fun u hu => hu
    | cons p rest ih =>
      intro u hu
      refine ih _ ?_
      split
      · exact hu.notify
      · exact hu
  exact hlist portIds s h

theorem startTimer (h : s₀.RangesKept free s) {n : LaneId} {limit : Nat} : s₀.RangesKept free (s.startTimer n limit) :=
  .leavesLane h fun _ => by rfl

theorem stopTimer (h : s₀.RangesKept free s) {n : LaneId} : s₀.RangesKept free (s.stopTimer n) := .leavesLane h fun _ => by rfl

theorem restartTimer (h : s₀.RangesKept free s) {n : LaneId} : s₀.RangesKept free (s.restartTimer n) :=
  .leavesLane h fun _ => by rfl

theorem queueUnload (h : s₀.RangesKept free s) {n : LaneId} : s₀.RangesKept free (s.queueUnload n) := by
  unfold State.queueUnload; split <;> exact .same h rfl

theorem leaveStartQueue (h : s₀.RangesKept free s) {n : LaneId} : s₀.RangesKept free (s.leaveStartQueue n) := by
  unfold State.leaveStartQueue; split <;> exact .same h rfl

theorem leaveVerifyQueue (h : s₀.RangesKept free s) {p : VerifyEntry → Bool} : s₀.RangesKept free (s.leaveVerifyQueue p) := by
  rw [State.leaveVerifyQueue, State.releaseAll_eq]
  exact .same h rfl

theorem laneLeavesJob (h : s₀.RangesKept free s) {n : LaneId} : s₀.RangesKept free (s.laneLeavesJob n) := by
  unfold State.laneLeavesJob
  split
  · exact .leavesLane h fun _ => by rfl
  · exact .leavesLane h.modJob fun _ => by rfl

/-! ## Lanes -/

theorem sendTray (h : s₀.RangesKept free s) {n : LaneId} {v : TrayCommand} : s₀.RangesKept free (s.sendTray n v) := by
  unfold State.sendTray
  split
  · exact .leavesLane h fun _ => by rfl
  · exact .leavesLane h.sendDrive fun _ => by rfl

theorem releaseTray (h : s₀.RangesKept free s) {n : LaneId} : s₀.RangesKept free (s.releaseTray n) := by
  unfold State.releaseTray
  split
  · exact .sendTray (.leavesLane h fun _ => by rfl)
  · exact h

theorem sendAbort (h : s₀.RangesKept free s) {n : LaneId} : s₀.RangesKept free (s.sendAbort n) :=
  .leavesLane h.sendDrive fun _ => by rfl

theorem enterOpening (h : s₀.RangesKept free s) {n : LaneId} {v : TrayPurpose} : s₀.RangesKept free (s.enterOpening n v) :=
  .startTimer (.stopsLane h.sendTray fun _ => by exact ⟨nofun, rfl⟩)

theorem enterClosing (h : s₀.RangesKept free s) {n : LaneId} {v : Option TrayPurpose} :
    s₀.RangesKept free (s.enterClosing n v) :=
  .startTimer (.stopsLane h.sendTray fun _ => by exact ⟨nofun, rfl⟩)

theorem enterProbing (h : s₀.RangesKept free s) {n : LaneId} : s₀.RangesKept free (s.enterProbing n) :=
  .startTimer (.stopsLane h.sendDrive fun _ => by exact ⟨nofun, rfl⟩)

theorem enterDone (h : s₀.RangesKept free s) {n : LaneId} : s₀.RangesKept free (s.enterDone n) :=
  .queueUnload (.stopsLane h fun _ => by exact ⟨nofun, rfl⟩)

theorem enterFeedWait (h : s₀.RangesKept free s) {n : LaneId} : s₀.RangesKept free (s.enterFeedWait n) :=
  .joinStartQueue (.stopsLane h fun _ => by exact ⟨nofun, rfl⟩)

theorem enterIdle (h : s₀.RangesKept free s) {n : LaneId} : s₀.RangesKept free (s.enterIdle n) :=
  .oweClaim (.stopsLane h fun _ => by exact ⟨nofun, rfl⟩)

/-- The fail count stops at 3 (R88). -/
theorem chargeLane (h : s₀.RangesKept free s) {n : LaneId} : s₀.RangesKept free (s.chargeLane n) := by
  refine h.modLane fun hl => ?_
  rw [Lane.inRange_iff] at hl ⊢
  exact ⟨Nat.min_le_left _ _, hl.2⟩

theorem quarantineLane (h : s₀.RangesKept free s) {n : LaneId} : s₀.RangesKept free (s.quarantineLane n) :=
  .raise (.stopsLane h fun _ => by exact ⟨nofun, rfl⟩)

/-! ## Streams and the printer's tray -/

theorem closeStream (h : s₀.RangesKept free s) {p : Port} : s₀.RangesKept free (s.closeStream p) := by
  refine h.modPort fun hr => ?_
  simp only [PortRecord.inRange, Bool.and_eq_true, decide_eq_true_eq, List.length_nil] at hr ⊢
  omega

theorem enterTrayOut (h : s₀.RangesKept free s) : s₀.RangesKept free s.enterTrayOut := .same h rfl

theorem unprintedReturn (h : s₀.RangesKept free s) : s₀.RangesKept free s.unprintedReturn := .enterTrayOut h.modDiscAt

/-! ## Jobs (R27, R36 to R47) -/

theorem endJob (h : s₀.RangesKept free s) {k : Handle} {result : JobResult} : s₀.RangesKept free (s.endJob k result) := by
  unfold State.endJob
  split
  · exact h
  · dsimp only
    split
    · exact .releaseImage (.lowerRanks (.setJobEntry h.notify))
    · exact .releaseArtwork (.releaseImage (.lowerRanks (.setJobEntry h.notify)))

theorem drainCheck (h : s₀.RangesKept free s) {k : Handle} : s₀.RangesKept free (s.drainCheck k) := by
  unfold State.drainCheck
  split
  · exact h
  · split
    · exact h.endJob
    · exact h

theorem claim (h : s₀.RangesKept free s) {k : Handle} {j : Job} {n : LaneId} : s₀.RangesKept free (s.claim k j n) := by
  unfold State.claim
  dsimp only
  split
  · exact .enterFeedWait (.modDiscAt (.leavesLane h.modJob fun _ => by rfl))
  · exact .queueRequest (.stopsLane (.leavesLane h.modJob fun _ => by rfl) fun _ => by exact ⟨nofun, rfl⟩)

theorem claimAttempt (h : s₀.RangesKept free s) : s₀.RangesKept free s.claimAttempt := by
  have hrounds : ∀ (k : Nat) (u : State), s₀.RangesKept free u → s₀.RangesKept free (State.claimRounds k u) := by
    intro k
    induction k with
    | zero => exact fun u hu => hu
    | succ k ih =>
      intro u hu
      unfold State.claimRounds
      split
      · exact hu
      · rename_i t ht
        refine ih t ?_
        unfold State.claimOne at ht
        split at ht
        · cases ht
        · obtain ⟨n, -, rfl⟩ := Option.map_eq_some_iff.1 ht
          exact .claim hu.setRotation
  exact hrounds 8 s h

theorem offerBlank (h : s₀.RangesKept free s) {n : LaneId} {k : Handle} : s₀.RangesKept free (s.offerBlank n k) := by
  unfold State.offerBlank
  dsimp only
  refine .oweClaim (.drainCheck ?_)
  split
  · exact .enterFeedWait (.setRotation (.leavesLane (.modDiscAt (.modJob h.modJob)) fun _ => by rfl))
  · exact .stopsLane (.modDiscAt h.modJob) fun _ => by exact ⟨nofun, rfl⟩

theorem withdrawClaim (h : s₀.RangesKept free s) {k : Handle} {n : LaneId} : s₀.RangesKept free (s.withdrawClaim k n) := by
  unfold State.withdrawClaim
  split
  · exact h
  · split
    · exact h
    · exact .enterIdle (.laneLeavesJob (.modJob h.dropRequest))

theorem drainLane (h : s₀.RangesKept free s) {k : Handle} {n : LaneId} : s₀.RangesKept free (s.drainLane k n) := by
  unfold State.drainLane
  split
  · split
    · exact h.withdrawClaim
    · exact .offerBlank h.leaveStartQueue
    · exact h
  · exact h

theorem killDisc (h : s₀.RangesKept free s) {n : LaneId} : s₀.RangesKept free (s.killDisc n) := .enterDone h.modDiscAt

theorem killLane (h : s₀.RangesKept free s) {k : Handle} {n : LaneId} : s₀.RangesKept free (s.killLane k n) := by
  unfold State.killLane
  split
  · split
    · exact .oweStart (.killDisc (.dropLaneChunk h.sendAbort))
    · exact .killDisc h.leaveVerifyQueue
    · exact .killDisc (.leaveVerifyQueue h.sendAbort)
    · exact h.oweSelect
    · exact h.drainLane
  · exact h

theorem forLanes {f : State → LaneId → State} (hf : ∀ u n, s₀.RangesKept free u → s₀.RangesKept free (f u n)) (l : List LaneId)
    {s : State} (h : s₀.RangesKept free s) : s₀.RangesKept free (State.forLanes f l s) := by
  induction l generalizing s with
  | nil => exact h
  | cons n rest ih => exact ih (hf _ n h)

theorem killAtPrinter (h : s₀.RangesKept free s) {k : Handle} : s₀.RangesKept free (s.killAtPrinter k) := by
  unfold State.killAtPrinter
  split
  · exact h.unprintedReturn
  · exact h

theorem drainLanes (h : s₀.RangesKept free s) {k : Handle} {reason : EndReason} : s₀.RangesKept free (s.drainLanes k reason) := by
  have drained := forLanes (fun u n hu => hu.drainLane (k := k) (n := n)) laneIds
    (h.modJob (k := k) (f := fun j => { j with state := .draining, endReason := some reason }))
  cases reason with
  | killed => exact .killAtPrinter (forLanes (fun u n hu => hu.killLane) laneIds h.modJob)
  | cancelled | failLimit => exact drained

theorem drainJob (h : s₀.RangesKept free s) {k : Handle} {reason : EndReason} : s₀.RangesKept free (s.drainJob k reason) := by
  unfold State.drainJob
  dsimp only
  split
  · exact h.drainLanes
  · split
    · exact .drainCheck h.drainLanes
    · exact .notify h.drainLanes

/-! ## Disc records that close (R40, R62 to R64) -/

theorem reportClosing (h : s₀.RangesKept free s) {k : Handle} {fate : Option Fate} {reason : Option FailReason} :
    s₀.RangesKept free (s.reportClosing k fate reason) := by
  have hcounted := h.modJob (k := k) (f := fun j => j.count fate reason)
  unfold State.reportClosing State.closingChecks
  dsimp only
  refine .oweClaim ?_
  split
  · exact hcounted
  · split
    · exact hcounted.drainCheck
    · split
      · exact hcounted.endJob
      · split
        · exact hcounted.drainJob
        · exact hcounted

theorem closeDiscAt (h : s₀.RangesKept free s) {loc : Location} {fate : Option Fate} {why : Option FailReason} :
    s₀.RangesKept free (s.closeDiscAt loc fate why) := by
  unfold State.closeDiscAt
  split
  · exact h
  · unfold State.closeDisc
    split
    · exact h
    · dsimp only
      split
      · exact h.setDisc
      · split
        · exact h.setDisc
        · exact .reportClosing (.notify h.setDisc)

/-! ## Loads (R4 to R10, R18 to R24, R29) -/

theorem acceptImageLoad (h : s₀.RangesKept free s) {i : ImageId} {p : Port} {source : LoadSource} {cls : MediaClass} {size : Nat}
    {noExport : Bool} : s₀.RangesKept free (s.acceptImageLoad i p source cls size noExport) := by
  unfold State.acceptImageLoad
  dsimp only
  split
  · exact .modImage (.setPool (.notifyOpt h.returnPages))
  · exact .modImage h.setPool

theorem imageReady (h : s₀.RangesKept free s) {i : ImageId} : s₀.RangesKept free (s.imageReady i) := by
  have hranks : ∀ (l : List Nat) (u : State), s₀.RangesKept free u → s₀.RangesKept free (State.activateRanks i l u) := by
    intro l
    induction l with
    | nil => exact fun u hu => hu
    | cons r rest ih =>
      intro u hu
      unfold State.activateRanks
      split
      · exact ih _ hu
      · exact ih _ (.oweClaim (.notify hu.modJob))
  exact hranks _ s h

theorem sourceLaneEnds (h : s₀.RangesKept free s) {n : LaneId} {early : Bool} : s₀.RangesKept free (s.sourceLaneEnds n early) := by
  unfold State.sourceLaneEnds
  split
  · exact .stopsLane h fun _ => by exact ⟨nofun, rfl⟩
  · split
    · exact .stopsLane h.sendAbort fun _ => by exact ⟨nofun, rfl⟩
    · exact .stopsLane h fun _ => by exact ⟨nofun, rfl⟩
  · exact h

theorem loadSourceEnds (h : s₀.RangesKept free s) {v : ImageSlot} {early : Bool} : s₀.RangesKept free (s.loadSourceEnds v early) := by
  unfold State.loadSourceEnds
  split
  · exact h
  · split
    · exact h
    · exact h.closeStream
  · exact h.sourceLaneEnds

theorem finishImageLoad (h : s₀.RangesKept free s) {i : ImageId} : s₀.RangesKept free (s.finishImageLoad i) :=
  .imageReady (.notifyOpt (.loadSourceEnds (.leaveVerifyQueue h.modImage)))

theorem failJobsOf (i : ImageId) (l : List TableId) {s : State} (h : s₀.RangesKept free s) :
    s₀.RangesKept free (State.failJobsOf i l s) := by
  induction l generalizing s with
  | nil => exact h
  | cons k rest ih =>
    refine ih ?_
    split
    · exact h
    · split
      · exact h.endJob
      · exact h

theorem failImageLoad (h : s₀.RangesKept free s) {i : ImageId} : s₀.RangesKept free (s.failImageLoad i) := by
  unfold State.failImageLoad
  dsimp only
  split
  · exact .notifyOpt (.freeImage (failJobsOf i tableIds (.loadSourceEnds h.leaveVerifyQueue)))
  · exact h

theorem failArtworkLoad (h : s₀.RangesKept free s) {i : ArtworkId} : s₀.RangesKept free (s.failArtworkLoad i) := by
  unfold State.failArtworkLoad
  dsimp only
  split
  · split
    · exact .notifyOpt h.freeArtwork
    · exact .notifyOpt (.freeArtwork h.closeStream)
  · exact h

theorem endOutbound (h : s₀.RangesKept free s) {p : Port} : s₀.RangesKept free (s.endOutbound p) := by
  unfold State.endOutbound
  split
  · dsimp only
    split
    · split
      · exact .disown h.closeStream
      · exact .releaseImage h.closeStream
    · exact .releaseImage h.closeStream
  · exact h

theorem failImageLoads (l : List ImageId) {s : State} (h : s₀.RangesKept free s) :
    s₀.RangesKept free (State.failImageLoads l s) := by
  induction l generalizing s with
  | nil => exact h
  | cons i rest ih => exact ih h.failImageLoad

theorem failArtworkLoads (l : List ArtworkId) {s : State} (h : s₀.RangesKept free s) :
    s₀.RangesKept free (State.failArtworkLoads l s) := by
  induction l generalizing s with
  | nil => exact h
  | cons i rest ih => exact ih h.failArtworkLoad

theorem endOutbounds (l : List Port) {s : State} (h : s₀.RangesKept free s) : s₀.RangesKept free (State.endOutbounds l s) := by
  induction l generalizing s with
  | nil => exact h
  | cons p rest ih => exact ih h.endOutbound

theorem finishArtworkLoad (h : s₀.RangesKept free s) {p : Port} {i : ArtworkId} : s₀.RangesKept free (s.finishArtworkLoad p i) :=
  .notifyOpt (.closeStream h.modArtwork)

end State.RangesKept

end Sys2Proof.Machine
end

