-- ==== Sys2Proof/Proofs/RangesLanes.lean ====
section
/-! The ranges of the records, kept by the operations of the lanes, the Verify Engine, the Feed Arbiter and the printer. -/

namespace Sys2Proof.Machine

namespace State.RangesKept

variable {s₀ s : State} {free : Bool}

/-! ## Lane faults (R86, R87) -/

theorem claimEnds (h : s₀.RangesKept free s) {n : LaneId} : s₀.RangesKept free (s.claimEnds n) := by
  have hrequest : s₀.RangesKept free (match s.laneRequest .feed n with
      | none => s
      | some r =>
        if r.taken && decide (s.arm.request = some r.age) then s.modRequest r.age fun r => { r with lane := none }
        else s.dropRequest r.age) := by
    split
    · exact h
    · split
      · exact h.modRequest
      · exact h.dropRequest
  unfold State.claimEnds
  dsimp only
  split
  · exact hrequest
  · exact .oweClaim (.drainCheck (.laneLeavesJob (.modJob hrequest)))

theorem divertFeed (h : s₀.RangesKept free s) {n : LaneId} {r : Request} : s₀.RangesKept free (s.divertFeed n r) :=
  .oweArm (.modRequest (.laneLeavesJob h.modDiscAt))

theorem faultUnload (h : s₀.RangesKept free s) {n : LaneId} : s₀.RangesKept free (s.faultUnload n) := by
  unfold State.faultUnload
  split
  · exact .oweArm (.leavesLane h fun _ => by rfl)
  · exact .startTimer (.leavesLane h.sendTray fun _ => by rfl)

theorem faultClaim (h : s₀.RangesKept free s) {n : LaneId} {stood : LaneState} {purpose : Option TrayPurpose} :
    s₀.RangesKept free (s.faultClaim n stood purpose) := by
  have hplacing : s₀.RangesKept free (match s.laneRequest .feed n with
      | none => s
      | some r =>
        match r.disc with
        | none => s.claimEnds n
        | some _ => if s.placingAt n then s else s.divertFeed n r) := by
    split
    · exact h
    · split
      · exact h.claimEnds
      · split
        · exact h
        · exact h.divertFeed
  unfold State.faultClaim
  split
  · exact h.claimEnds
  · exact h.faultUnload
  · exact .oweArm (.leavesLane h fun _ => by rfl)
  · exact hplacing
  · exact hplacing
  · exact h

theorem failTrayDisc (h : s₀.RangesKept free s) {n : LaneId} : s₀.RangesKept free (s.failTrayDisc n) := by
  unfold State.failTrayDisc
  split
  · exact h
  · split
    · exact h
    · exact .oweSelect (.chargeLane h.modDiscAt)

theorem failSourceOf (h : s₀.RangesKept free s) {n : LaneId} : s₀.RangesKept free (match s.sourceSlotOf n with
    | none => s
    | some i => s.failImageLoad i) := by
  split
  · exact h
  · exact h.failImageLoad

theorem unloadsDisc (h : s₀.RangesKept free s) {n : LaneId} :
    s₀.RangesKept free (if (s.discAt (.tray n)).isSome then s.queueUnload n else s) := by
  split
  · exact h.queueUnload
  · exact h

theorem faultQueues (h : s₀.RangesKept free s) {n : LaneId} {stood : LaneState} : s₀.RangesKept free (s.faultQueues n stood) := by
  have hqueues : s₀.RangesKept free (((s.leaveStartQueue n).leaveVerifyQueue (VerifyEntry.ofLane n)).dropLaneChunk n) :=
    .dropLaneChunk (.leaveVerifyQueue h.leaveStartQueue)
  unfold State.faultQueues
  refine unloadsDisc (failSourceOf ?_)
  split
  · exact hqueues.oweStart
  · exact hqueues

/-- A lane fault keeps the records if its first part does: ABORT and the entry of FAULT. -/
theorem laneFault_of_begun {n : LaneId} {cause : LaneCause}
    (h : s₀.RangesKept free ((s.sendAbort n).modLane n fun l => { l with state := .fault, timer := none, faultMove := none })) :
    s₀.RangesKept free (s.laneFault n cause) :=
  .faultClaim (.raise (.faultQueues h.failTrayDisc))

theorem laneFault (h : s₀.RangesKept free s) {n : LaneId} {cause : LaneCause} : s₀.RangesKept free (s.laneFault n cause) :=
  .laneFault_of_begun (.stopsLane h.sendAbort fun _ => by exact ⟨nofun, rfl⟩)

/-- The identity that a lane at work takes before it faults does not matter to its credits, since it burns no more (R71, R86). -/
theorem restartFault (h : s₀.RangesKept free s) {n : LaneId} {v : Option Identity} {cause : LaneCause} :
    s₀.RangesKept free ((s.modLane n fun l => { l with identity := v }).laneFault n cause) := by
  refine .laneFault_of_begun ?_
  have hcollapsed : (((s.modLane n fun l => { l with identity := v }).sendAbort n).modLane n fun l =>
        { l with state := .fault, timer := none, faultMove := none }) =
      (s.sendDrive n .abort).modLane n fun l =>
        { l with identity := v, unanswered := none, heldBack := none, state := .fault, timer := none, faultMove := none } := by
    have hsent (f : Lane → Lane) : (s.modLane n f).sendDrive n .abort = (s.sendDrive n .abort).modLane n f := rfl
    rw [State.sendAbort, hsent, State.modLane_modLane, State.modLane_modLane]
  rw [hcollapsed]
  exact .stopsLane h.sendDrive fun _ => by exact ⟨nofun, rfl⟩

theorem stuck (h : s₀.RangesKept free s) {n : LaneId} : s₀.RangesKept free (s.stuck n) := by
  have hstopped : s₀.RangesKept free (s.modLane n fun l => { l with timer := none, faultMove := none, heldBack := none }) :=
    .leavesLane h fun _ => by rfl
  unfold State.stuck
  refine .closeDiscAt (.laneLeavesJob ?_)
  split
  · exact hstopped
  · dsimp only
    split
    · exact .oweArm (.leavesArm hstopped.dropRequest fun _ => by rfl)
    · exact hstopped.dropRequest

theorem laneError (h : s₀.RangesKept free s) {n : LaneId} {code : Byte} : s₀.RangesKept free (s.laneError n code) := by
  unfold State.laneError
  split
  · exact h
  · split
    · exact h.stuck
    · exact h
  · exact h.laneFault

/-! ## What the Media Handler tells a lane -/

theorem placedAfterFault (h : s₀.RangesKept free s) {n : LaneId} : s₀.RangesKept free (s.placedAfterFault n) :=
  .enterDone (.failTrayDisc (.leavesLane h.failSourceOf fun _ => by rfl))

theorem lanePlaced (h : s₀.RangesKept free s) {n : LaneId} : s₀.RangesKept free (s.lanePlaced n) := by
  unfold State.lanePlaced
  split
  · exact h.enterClosing
  · exact .queueUnload h.failTrayDisc
  · exact h.placedAfterFault

theorem lanePicked (h : s₀.RangesKept free s) {n : LaneId} : s₀.RangesKept free (s.lanePicked n) := by
  unfold State.lanePicked
  dsimp only
  split
  · exact .enterClosing h.laneLeavesJob
  · exact .startTimer (.leavesLane (.sendTray h.laneLeavesJob) fun _ => by rfl)
  · exact h.laneLeavesJob

theorem feedDiscGone (h : s₀.RangesKept free s) {n : LaneId} : s₀.RangesKept free (s.feedDiscGone n) := by
  unfold State.feedDiscGone
  split
  · exact .enterClosing h.laneLeavesJob
  · exact .leavesLane h.laneLeavesJob fun _ => by rfl
  · exact h.laneLeavesJob

theorem loseArmDisc (h : s₀.RangesKept free s) : s₀.RangesKept free s.loseArmDisc := by
  unfold State.loseArmDisc
  split
  · exact h
  · refine .closeDiscAt ?_
    split
    · exact h
    · dsimp only
      split
      · exact .leavesArm h.dropRequest fun _ => by rfl
      · exact .feedDiscGone (.leavesArm h.dropRequest fun _ => by rfl)

/-! ## The Verify Engine (R114 to R122) -/

theorem sendReads {n : LaneId} (l : List Nat) {s : State} (h : s₀.RangesKept free s) :
    s₀.RangesKept free (State.sendReads n l s) := by
  induction l generalizing s with
  | nil => exact h
  | cons i rest ih => exact ih h.sendDrive

theorem startWork (h : s₀.RangesKept free s) {k : Fin 2} {w : VerifyWork} : s₀.RangesKept free (s.startWork k w) := by
  cases w with
  | verify n serial => exact sendReads _ (.startTimer (.modDiscAt (.stopsLane h.setCrc fun _ => by exact ⟨nofun, rfl⟩)))
  | source n slot => exact sendReads _ (.startTimer (.loadBegins (.stopsLane h.setCrc fun _ => by exact ⟨nofun, rfl⟩)))
  | bulk p slot => exact .loadBegins h.setCrc

theorem crcRounds (k : Nat) {s : State} (h : s₀.RangesKept free s) : s₀.RangesKept free (State.crcRounds k s) := by
  induction k generalizing s with
  | zero => exact h
  | succ k ih =>
    unfold State.crcRounds
    split
    · exact h
    · split
      · exact h
      · exact ih (.startWork h.setVerifyQueue)

theorem crcGrants (h : s₀.RangesKept free s) : s₀.RangesKept free s.crcGrants := crcRounds 2 h

/-- A change by which a lane counts no failure and burns with the credits that it has. -/
theorem clearsCount (h : s₀.RangesKept free s) {n : LaneId} {f : Lane → Lane}
    (hf : ∀ l, (f l).failCount = 0 ∧ ((f l).state, (f l).credits, (f l).identity) = (l.state, l.credits, l.identity)) :
    s₀.RangesKept free (s.modLane n f) := by
  obtain ⟨hcount, hsame⟩ := hf s.lanes[n]
  simp only [Prod.mk.injEq] at hsame
  obtain ⟨hstate, hcredits, hidentity⟩ := hsame
  refine h.modLane fun hl => ?_
  rw [Lane.inRange_iff] at hl ⊢
  rw [hcount, hstate, hcredits, hidentity]
  exact ⟨Nat.zero_le 3, hl.2⟩

theorem verifyFails (h : s₀.RangesKept free s) {n : LaneId} {result : VerifyResult} {reason : FailReason} :
    s₀.RangesKept free (s.verifyFails n result reason) :=
  .leaveVerifyQueue (.chargeLane (.enterDone (.sendAbort h.modDiscAt)))

theorem verifyPasses (h : s₀.RangesKept free s) {n : LaneId} : s₀.RangesKept free (s.verifyPasses n) :=
  .leaveVerifyQueue (.clearsCount (.enterDone h.modDiscAt) fun _ => by exact ⟨rfl, rfl⟩)

/-! ## The Feed Arbiter (R75, R100, R108, R109) -/

/-- A started lane has as many credits as its drive's buffer has segments (R75). -/
theorem startLane (h : s₀.RangesKept free s) {n : LaneId} {speed : Nat} : s₀.RangesKept free (s.startLane n speed) := by
  refine .oweGrant (.modDiscAt (.modLane h.sendDrive fun hl => ?_))
  rw [Lane.inRange_iff] at hl ⊢
  exact ⟨hl.1, fun _ => le_rfl⟩

theorem startScan (l : List LaneId) {s : State} (h : s₀.RangesKept free s) : s₀.RangesKept free (State.startScan l s) := by
  induction l generalizing s with
  | nil => exact h
  | cons n rest ih =>
    unfold State.startScan
    split
    · exact h
    · exact ih (.startLane h.setStartQueue)

theorem startComputation (h : s₀.RangesKept free s) : s₀.RangesKept free s.startComputation := startScan s.startQueue h

theorem grantTo (h : s₀.RangesKept free s) {r : Requester} : s₀.RangesKept free (s.grantTo r) := by
  unfold State.grantTo
  split
  · split
    · exact h
    · refine .modLane h.setChannel fun hl => ?_
      rw [Lane.inRange_iff] at hl ⊢
      exact ⟨hl.1, fun hburns => (Nat.sub_le _ 1).trans (hl.2 hburns)⟩
  · exact .modPrinter h.setChannel fun _ => by rfl
  · exact h.setChannel

theorem chooseGrant (h : s₀.RangesKept free s) : s₀.RangesKept free s.chooseGrant := by
  unfold State.chooseGrant
  split
  · exact h
  · split
    · exact h
    · exact h.grantTo

/-! ## The Label Print Controller (R159 to R172) -/

theorem raiseFetch (h : s₀.RangesKept free s) : s₀.RangesKept free s.raiseFetch := by
  unfold State.raiseFetch
  split
  · split
    · exact h
    · dsimp only
      split
      · exact .oweGrant (.modPrinter h fun _ => by rfl)
      · split
        · split
          · exact h
          · exact .oweGrant (.modPrinter h fun v => v.setBuffer_settings _ _)
        · exact h
  · exact h

theorem printerFaults (h : s₀.RangesKept free s) {cause : PrinterCause} : s₀.RangesKept free (s.printerFaults cause) :=
  .raise (.modDiscAt (.disown (.modPrinter h.sendPrinter fun _ => by rfl)))

theorem startBand (h : s₀.RangesKept free s) {which : BufferId} : s₀.RangesKept free (s.startBand which) := by
  unfold State.startBand
  exact .modPrinter h.sendPrinter fun v => v.setBuffer_settings _ _

theorem tryStartBand (h : s₀.RangesKept free s) : s₀.RangesKept free s.tryStartBand := by
  unfold State.tryStartBand
  dsimp only
  split
  · split
    · exact .modPrinter h fun _ => by rfl
    · exact .oweGrant (.modPrinter h fun _ => by rfl)
  · split
    · exact h.printerFaults
    · split
      · exact .raise (.modPrinter h fun _ => by rfl)
      · exact h.startBand

theorem enterTrayIn (h : s₀.RangesKept free s) : s₀.RangesKept free s.enterTrayIn :=
  .raiseFetch (.modPrinter h.sendPrinter fun _ => by rfl)

theorem inkCheck (h : s₀.RangesKept free s) : s₀.RangesKept free s.inkCheck := by
  unfold State.inkCheck
  split
  · exact h.enterTrayIn
  · split
    · exact h.unprintedReturn
    · exact .raise (.modPrinter h fun _ => by rfl)

theorem lowInkBlack (h : s₀.RangesKept free s) : s₀.RangesKept free s.lowInkBlack := by
  unfold State.lowInkBlack
  split
  · exact .raise (.modPrinter h fun _ => by rfl)
  · exact h

theorem lowInkColour (h : s₀.RangesKept free s) : s₀.RangesKept free s.lowInkColour := by
  unfold State.lowInkColour
  split
  · exact .raise (.modPrinter h fun _ => by rfl)
  · exact h

theorem completeLabel (h : s₀.RangesKept free s) : s₀.RangesKept free s.completeLabel :=
  .enterTrayOut (.modDiscAt (.lowInkColour (.lowInkBlack (.modPrinter h fun _ => by rfl))))

theorem endTrayOut (h : s₀.RangesKept free s) {disc : Bool} : s₀.RangesKept free (s.endTrayOut disc) := by
  unfold State.endTrayOut
  split
  · exact .queueRequest (.modDiscAt (.modPrinter h fun _ => by rfl))
  · split
    · exact h.printerFaults
    · exact .oweArm (.oweSelect (.modPrinter h fun _ => by rfl))

theorem printerCleared (h : s₀.RangesKept free s) : s₀.RangesKept free s.printerCleared :=
  .oweArm (.oweSelect (.modPrinter h fun _ => by rfl))

end State.RangesKept

end Sys2Proof.Machine
end

