-- ==== Sys2Proof/Proofs/RangesArm.lean ====
section
/-! The ranges of the records and the consistency of the arm, kept by the arm's operations and the follow-up computations: an operation
that issues a step, or ends in IDLE, begins with an arm that may take a step (R126 to R141). -/

namespace Sys2Proof.Machine

/-- The consistency of the arm, part by part (R126, R127, R129). -/
theorem Arm.consistent_iff (a : Arm) : a.consistent = true ↔
    a.step.isSome = a.timer.isSome ∧ (a.step = none ∨ a.state = .homing ∨ a.state = .serving) ∧
      (a.resume.isSome ↔ a.state = .held) ∧ (a.resume = none ∨ a.resume = some .homing ∨ a.resume = some .serving) ∧
      (a.fault.isSome ↔ a.state = .fault) := by
  have hheld (b : Bool) : b = decide (a.state = .held) ↔ (b = true ↔ a.state = .held) := by cases b <;> simp
  have hfault (b : Bool) : b = decide (a.state = .fault) ↔ (b = true ↔ a.state = .fault) := by cases b <;> simp
  simp only [Arm.consistent, Bool.and_eq_true, Bool.or_eq_true, beq_iff_eq, decide_eq_true_eq, Option.isNone_iff_eq_none,
    List.mem_cons, List.not_mem_nil, or_false, hheld, hfault, and_assoc, or_assoc]

/-- What a consistent arm without a step holds outside HELD and FAULT. -/
theorem Arm.fields_none {a : Arm} (hok : a.consistent = true) (hstep : a.step = none) (hheld : a.state ≠ .held)
    (hfine : a.state ≠ .fault) : a.timer = none ∧ a.resume = none ∧ a.fault = none := by
  obtain ⟨htimer, -, hresume, -, hfault⟩ := a.consistent_iff.1 hok
  rw [hstep] at htimer
  refine ⟨?_, ?_, ?_⟩
  · simpa using htimer.symm
  · simpa [hheld] using hresume
  · simpa [hfine] using hfault

/-- The fields of a consistent arm that may take a step. -/
theorem Arm.mayStep_fields {a : Arm} (hok : a.consistent = true) (hmay : a.mayStep) :
    a.step = none ∧ a.timer = none ∧ a.resume = none ∧ a.fault = none := by
  obtain ⟨hstate, hstep⟩ := hmay
  refine ⟨hstep, Arm.fields_none hok hstep ?_ ?_⟩ <;> rcases hstate with h | h <;> simp [h]

/-- A consistent arm runs no step outside HOMING and SERVING. -/
theorem Arm.step_none {a : Arm} (hok : a.consistent = true) (hhoming : a.state ≠ .homing) (hserving : a.state ≠ .serving) :
    a.step = none := by
  obtain ⟨-, hwhere, -⟩ := a.consistent_iff.1 hok
  simpa [hhoming, hserving] using hwhere

namespace State.RangesKept

variable {s₀ s : State} {free : Bool}

/-! ## Changes of the arm -/

/-- The arm changes, and stays consistent if it was. -/
theorem modArm {free' : Bool} (h : s₀.RangesKept free s) {f : Arm → Arm}
    (hf : s.arm.consistent = true → (free = true → s.arm.mayStep) →
      (f s.arm).consistent = true ∧ (free' = true → (f s.arm).mayStep)) : s₀.RangesKept free' (s.modArm f) :=
  ⟨h.ports, h.settings, h.lanes, fun h₀ => hf (h.arm h₀).1 (h.arm h₀).2⟩

/-- The arm may take a step. -/
theorem freed (h : s₀.RangesKept free s) (hmay : s.arm.mayStep) : s₀.RangesKept true s :=
  ⟨h.ports, h.settings, h.lanes, fun h₀ => ⟨(h.arm h₀).1, fun _ => hmay⟩⟩

/-- The running step ends (R127). -/
theorem endsStep (h : s₀.RangesKept free s) (hruns : s.arm.step ≠ none) {f : Arm → Arm}
    (hf : ∀ a, (f a).motion = (a.state, a.resume, none, none, a.fault)) :
    s₀.RangesKept true (s.modArm f) := by
  have hmotion := hf s.arm
  simp only [Arm.motion, Prod.mk.injEq] at hmotion
  obtain ⟨hstate, hresume, hstep, htimer, hfault⟩ := hmotion
  refine h.modArm fun hok _ => ?_
  obtain ⟨-, hwhere, hheld, hresumes, hfaulted⟩ := (Arm.consistent_iff _).1 hok
  refine ⟨(Arm.consistent_iff _).2 ?_, fun _ => ?_⟩
  · rw [hstate, hresume, hstep, htimer, hfault]
    exact ⟨rfl, .inl rfl, hheld, hresumes, hfaulted⟩
  · rw [Arm.mayStep, hstate, hstep]
    exact ⟨hwhere.resolve_left hruns, rfl⟩

/-- An arm that may take a step becomes IDLE (R132). -/
theorem idles (h : s₀.RangesKept true s) {f : Arm → Arm}
    (hf : ∀ a, (f a).motion = (.idle, a.resume, a.step, a.timer, a.fault)) :
    s₀.RangesKept false (s.modArm f) := by
  have hmotion := hf s.arm
  simp only [Arm.motion, Prod.mk.injEq] at hmotion
  obtain ⟨hstate, hresume, hstep, htimer, hfault⟩ := hmotion
  refine h.modArm fun hok hmay => ⟨(Arm.consistent_iff _).2 ?_, nofun⟩
  obtain ⟨hnoStep, hnoTimer, hnoResume, hnoFault⟩ := Arm.mayStep_fields hok (hmay rfl)
  simp [hstate, hresume, hstep, htimer, hfault, hnoStep, hnoTimer, hnoResume, hnoFault]

/-- An IDLE arm begins to serve (R132). -/
theorem serves (h : s₀.RangesKept free s) (hidle : s.arm.state = .idle) {f : Arm → Arm}
    (hf : ∀ a, (f a).motion = (.serving, a.resume, a.step, a.timer, a.fault)) :
    s₀.RangesKept true (s.modArm f) := by
  have hmotion := hf s.arm
  simp only [Arm.motion, Prod.mk.injEq] at hmotion
  obtain ⟨hstate, hresume, hstep, htimer, hfault⟩ := hmotion
  refine h.modArm fun hok _ => ?_
  have hnoStep := Arm.step_none hok (by simp [hidle]) (by simp [hidle])
  obtain ⟨hnoTimer, hnoResume, hnoFault⟩ := Arm.fields_none hok hnoStep (by simp [hidle]) (by simp [hidle])
  refine ⟨(Arm.consistent_iff _).2 ?_, fun _ => ?_⟩
  · simp [hstate, hresume, hstep, htimer, hfault, hnoStep, hnoTimer, hnoResume, hnoFault]
  · rw [Arm.mayStep, hstate, hstep]
    exact ⟨.inr rfl, hnoStep⟩

/-! ## Steps (R127, R129) -/

/-- A step that is due is issued, or the arm is HELD where it stands. -/
theorem issueStep (h : s₀.RangesKept true s) {v : ArmStep} : s₀.RangesKept false (s.issueStep v) := by
  unfold State.issueStep
  split
  · refine .modArm h.emit fun hok hmay => ⟨(Arm.consistent_iff _).2 ?_, nofun⟩
    obtain ⟨hstate, -⟩ := hmay rfl
    obtain ⟨-, -, hresume, hresumes, hfault⟩ := (Arm.consistent_iff _).1 hok
    exact ⟨rfl, .inr hstate, hresume, hresumes, hfault⟩
  · refine .modArm h fun hok hmay => ⟨(Arm.consistent_iff _).2 ?_, nofun⟩
    obtain ⟨hnoStep, hnoTimer, -, hnoFault⟩ := Arm.mayStep_fields hok (hmay rfl)
    obtain ⟨hstate, -⟩ := hmay rfl
    rcases hstate with hstate | hstate <;> simp [hstate, hnoStep, hnoTimer, hnoFault]

theorem issueBinPick (h : s₀.RangesKept true s) : s₀.RangesKept false s.issueBinPick := by
  unfold State.issueBinPick
  dsimp only
  split
  · exact .leavesArm h.issueStep fun _ => by rfl
  · exact h.issueStep

theorem goTo (h : s₀.RangesKept true s) {p : Position} {next : State → State} (hnext : s₀.RangesKept false (next s)) :
    s₀.RangesKept false (s.goTo p next) := by
  unfold State.goTo
  split
  · exact hnext
  · exact h.issueStep

theorem armToIdle (h : s₀.RangesKept true s) : s₀.RangesKept false s.armToIdle := .oweSelect (.idles h fun _ => by rfl)

theorem setAside (h : s₀.RangesKept true s) : s₀.RangesKept false s.setAside := .armToIdle (.leavesArm h fun _ => by rfl)

/-- The arm waits, or issues a step. -/
theorem waitsOr (h : s₀.RangesKept true s) {waits : Bool} {v : ArmStep} :
    s₀.RangesKept false (if waits then s else s.issueStep v) := by
  split
  · exact h.weaken
  · exact h.issueStep

/-- The arm issues a step, or waits. -/
theorem issuesIf (h : s₀.RangesKept true s) {c : Prop} [Decidable c] {v : ArmStep} :
    s₀.RangesKept false (if c then s.issueStep v else s) := by
  split
  · exact h.issueStep
  · exact h.weaken

/-! ## The arm's next step (R133 to R138) -/

theorem deliver (h : s₀.RangesKept true s) {d : Destination} : s₀.RangesKept false (s.deliver d) := by
  unfold State.deliver
  split
  · exact h.goTo h.waitsOr
  · exact h.goTo h.waitsOr
  · exact h.goTo h.issuesIf

theorem pickFromBin (h : s₀.RangesKept true s) {which : Bin} : s₀.RangesKept false (s.pickFromBin which) := by
  refine h.goTo ?_
  dsimp only
  split
  · exact h.issuesIf
  · split
    · exact h.issueBinPick
    · exact h.setAside

theorem deliverFeed (h : s₀.RangesKept true s) {r : Request} : s₀.RangesKept false (s.deliverFeed r) := by
  unfold State.deliverFeed
  split
  · exact h.armToIdle
  · split
    · exact h.deliver
    · exact h.deliver
    · exact h.goTo h.issuesIf

theorem armNext (h : s₀.RangesKept true s) : s₀.RangesKept false s.armNext := by
  unfold State.armNext
  split
  · split
    · exact h.pickFromBin
    · exact h.setAside
    · exact h.deliverFeed
    · exact h.goTo h.issuesIf
    · exact h.setAside
    · exact h.goTo h.issueStep
  · split
    · exact h.armToIdle
    · split
      · exact h.deliver
      · exact h.weaken

theorem armContinue (h : s₀.RangesKept free s) : s₀.RangesKept false s.armContinue := by
  unfold State.armContinue
  split
  · rename_i hserves
    simp only [Bool.and_eq_true, decide_eq_true_eq, Option.isNone_iff_eq_none] at hserves
    exact .armNext (h.freed ⟨.inr hserves.1, hserves.2⟩)
  · exact h.weaken

/-! ## Selection (R132) -/

theorem tellSelected (h : s₀.RangesKept free s) {r : Request} : s₀.RangesKept free (s.tellSelected r) := by
  unfold State.tellSelected
  split
  · exact h.enterOpening
  · rename_i n _ _
    have routed : s₀.RangesKept free (match s.discAt (.tray n) with
        | none => s
        | some d => s.modDiscAt (.tray n) fun x => { x with destination := s.routing d }) := by
      split
      · exact h
      · exact h.modDiscAt
    dsimp only
    split
    · exact routed.faultUnload
    · exact routed.enterOpening
  · exact h

theorem takeUp (h : s₀.RangesKept free s) (hidle : s.arm.state = .idle) {r : Request} : s₀.RangesKept false (s.takeUp r) := by
  unfold State.takeUp
  refine .armContinue (free := true) ?_
  split
  · exact .modRequest (.serves h hidle fun _ => by rfl)
  · exact .tellSelected (.modRequest (.serves h hidle fun _ => by rfl))

theorem select (h : s₀.RangesKept free s) : s₀.RangesKept false s.select := by
  unfold State.select
  split
  · rename_i hidle
    split
    · exact h.weaken
    · exact h.takeUp hidle
  · exact h.weaken

/-! ## Arm faults, homing, and a disc picked up (R128, R136, R137, R140) -/

theorem armFaults (h : s₀.RangesKept free s) {cause : ArmCause} {v : Option ArmStep} :
    s₀.RangesKept false (s.armFaults cause v) := by
  have hfaulted (f : Arm → Arm) (hf : ∀ a, (f a).motion = (.fault, none, none, none, some ⟨cause, v⟩)) :
      s₀.RangesKept false (s.modArm f) := by
    have hmotion := hf s.arm
    simp only [Arm.motion, Prod.mk.injEq] at hmotion
    obtain ⟨hstate, hresume, hstep, htimer, hfault⟩ := hmotion
    exact .modArm h fun _ _ => ⟨(Arm.consistent_iff _).2 (by simp [hstate, hresume, hstep, htimer, hfault]), nofun⟩
  unfold State.armFaults
  refine .raise ?_
  split
  · exact .loseArmDisc (hfaulted _ fun _ => rfl)
  · exact hfaulted _ fun _ => rfl

/-- Homing completes when its step has run (R128). -/
theorem homed (h : s₀.RangesKept free s) (hruns : s.arm.step ≠ none) : s₀.RangesKept false s.homed := by
  have hended : s₀.RangesKept true
      (s.modArm fun v => { v with step := none, timer := none, homeDone := false, position := .home }) :=
      .endsStep h hruns fun _ => by rfl
  unfold State.homed
  dsimp only
  split
  · split
    · exact .raise (.oweSelect (.idles hended fun _ => by rfl))
    · exact .oweSelect (.idles hended fun _ => by rfl)
  · exact hended.armFaults

theorem pickedUp (h : s₀.RangesKept free s) {loc : Location} {age : Option Nat} : s₀.RangesKept free (s.pickedUp loc age) := by
  have hleft : s₀.RangesKept free (match age with
      | none => s.modDiscAt loc fun d => { d with location := .arm }
      | some k => ((s.modDiscAt loc fun d => { d with location := .arm }).dropRequest k).modArm fun v =>
          { v with request := if v.request = some k then none else v.request }) := by
    cases age with
    | none => exact h.modDiscAt
    | some k => exact .leavesArm (.dropRequest h.modDiscAt) fun _ => by rfl
  cases loc with
  | tray n => exact hleft.lanePicked
  | printer => exact hleft.printerCleared
  | arm => exact hleft

theorem followPick (h : s₀.RangesKept free s) : s₀.RangesKept free s.followPick := by
  unfold State.followPick
  split
  · split
    · split
      · exact h.pickedUp
      · exact h
    · exact h
  · split
    · split
      · exact h.pickedUp
      · exact h
    · exact h
  · exact h

/-! ## The follow-up computations (log 12) -/

theorem whenOwed (h : s₀.RangesKept false s) {owed : Bool} {f : State → State} (hf : s₀.RangesKept false (f s)) :
    s₀.RangesKept false (s.when owed f) := by
  unfold State.when
  split
  · exact hf
  · exact h

theorem settleClaims (h : s₀.RangesKept false s) : s₀.RangesKept false s.settleClaims := by
  have hgrants := h.whenOwed (owed := s.due.crc) h.crcGrants
  exact hgrants.whenOwed hgrants.claimAttempt

theorem settleChannel (h : s₀.RangesKept false s) : s₀.RangesKept false s.settleChannel := by
  have hcontinues := h.whenOwed (owed := s.due.arm) h.armContinue
  have hselects := hcontinues.whenOwed (owed := (s.when s.due.arm State.armContinue).due.select) hcontinues.select
  exact .setDue (hselects.whenOwed hselects.chooseGrant)

theorem settle (h : s₀.RangesKept false s) : s₀.RangesKept false s.settle := by
  have hclaims := h.settleClaims
  exact .settleChannel (hclaims.whenOwed hclaims.startComputation)

theorem settlePart (h : s₀.RangesKept false s) : s₀.RangesKept false s.settlePart := .settleChannel h.settleClaims

end State.RangesKept

end Sys2Proof.Machine
end

