-- ==== Sys2Proof/Proofs/RangesLinks.lean ====
section
/-! The ranges of the records and the consistency of the arm, kept by the link transactions, by the taking of a command and by the
commands that write a setting (R103, R174 to R190). -/

namespace Sys2Proof.Machine

namespace State.RangesKept

variable {s₀ s : State} {free : Bool}

/-! ## Link transactions (R178 to R190) -/

theorem passNext (h : s₀.RangesKept free s) {p : Port} : s₀.RangesKept free (s.passNext p) := by
  refine h.modPort fun hr => ?_
  unfold PortRecord.pass
  split
  · rename_i hcommands
    simp only [PortRecord.inRange, hcommands, List.length_cons, Bool.and_eq_true, decide_eq_true_eq] at hr ⊢
    omega
  · exact hr

theorem clearOutstanding (h : s₀.RangesKept free s) {p : Port} : s₀.RangesKept free (s.clearOutstanding p) :=
  .passNext (.leavesPort h fun _ => by rfl)

/-- The commands accepted fit the queue of 16 (R179). -/
theorem putCommands (h : s₀.RangesKept free s) {p : Port} {records : List CommandRecord} :
    s₀.RangesKept free (s.modPort p fun r =>
      { r with commands := r.commands ++ records.take (s.ports[p].room records.length) }) := by
  refine h.modPort fun hr => ?_
  simp only [PortRecord.inRange, PortRecord.room, List.length_append, List.length_take, Bool.and_eq_true,
    decide_eq_true_eq] at hr ⊢
  omega

/-- The bytes accepted fit the staging area (R189). -/
theorem bulkWrite (h : s₀.RangesKept free s) {p : Port} {bytes : List Byte} {due : Nat} :
    s₀.RangesKept free (s.modPort p fun r =>
      { r with staging := r.staging ++ bytes.take (min bytes.length (min s.ports[p].stagingRoom due)) }) := by
  refine h.modPort fun hr => ?_
  simp only [PortRecord.inRange, PortRecord.stagingRoom, List.length_append, List.length_take, Bool.and_eq_true,
    decide_eq_true_eq] at hr ⊢
  omega

end State.RangesKept

/-- A clamped value is in its range. -/
theorem clampTo_mem {lo hi : Nat} (v : Nat) (h : lo ≤ hi) : lo ≤ clampTo lo hi v ∧ clampTo lo hi v ≤ hi := by
  unfold clampTo
  split
  · omega
  · split <;> omega

theorem PortRecord.testLine_inRange (r : PortRecord) (now : Nat) : (r.testLine now).inRange = r.inRange := by
  unfold PortRecord.testLine
  split
  · rfl
  · split <;> rfl

/-- The notices that are left, and a LOST notice that joins them, fit the queue of 32 (R183, R184). -/
theorem PortRecord.taken_inRange {r : PortRecord} (hr : r.inRange = true) (k now : Nat) :
    ((({ r with notices := r.notices.drop k }).queueLost now).updateLine now).inRange = true := by
  have hleft : ({ r with notices := r.notices.drop k } : PortRecord).inRange = true := by
    simp only [PortRecord.inRange, List.length_drop, Bool.and_eq_true, decide_eq_true_eq] at hr ⊢
    omega
  have hqueued : (({ r with notices := r.notices.drop k }).queueLost now).inRange = true := by
    unfold PortRecord.queueLost
    split
    · rename_i hroom
      simp only [PortRecord.inRange, List.length_append, List.length_singleton, Bool.and_eq_true, decide_eq_true_eq] at hleft hroom ⊢
      omega
    · exact hleft
  unfold PortRecord.updateLine
  split
  · exact hqueued
  · rwa [PortRecord.testLine_inRange]

namespace State.RangesKept

variable {s₀ s : State} {free : Bool}

theorem takeNotices (h : s₀.RangesKept free s) {p : Port} {k now : Nat} :
    s₀.RangesKept free (s.modPort p fun r => (({ r with notices := r.notices.drop k }).queueLost now).updateLine now) :=
  h.modPort fun hr => PortRecord.taken_inRange hr k now

theorem streamReceives (h : s₀.RangesKept free s) {v : Stream} {k : Nat} : s₀.RangesKept free (s.streamReceives v k) := by
  unfold State.streamReceives
  split
  · exact h.modImage
  · exact h.modArtwork
  · exact h
  · exact h

theorem readOutbound (h : s₀.RangesKept free s) {p : Port} {slot : ImageId} {position : Nat} {buffer : List Byte} {k : Nat} :
    s₀.RangesKept free (s.readOutbound p slot position buffer k) := by
  unfold State.readOutbound
  split
  · exact h
  · split
    · exact .closeStream h.releaseImage
    · dsimp only
      split
      · exact .oweGrant (.leavesPort h fun _ => by rfl)
      · exact .leavesPort h fun _ => by rfl

/-- A change of a port record that opens a stream, which empties the staging area (R189). -/
theorem opensStream (h : s₀.RangesKept free s) {p : Port} {v : Stream} :
    s₀.RangesKept free (s.modPort p fun r => { r with stream := v, staging := [] }) := by
  refine h.modPort fun hr => ?_
  simp only [PortRecord.inRange, Bool.and_eq_true, decide_eq_true_eq, List.length_nil] at hr ⊢
  omega

/-- Staged bytes are taken (R7, R21). -/
theorem takesStaged (h : s₀.RangesKept free s) {p : Port} {count : Nat} :
    s₀.RangesKept free (s.modPort p fun r => { r with staging := r.staging.drop count }) := by
  refine h.modPort fun hr => ?_
  simp only [PortRecord.inRange, Bool.and_eq_true, decide_eq_true_eq, List.length_drop] at hr ⊢
  omega

theorem testsLine (h : s₀.RangesKept free s) {p : Port} {now : Nat} :
    s₀.RangesKept free (s.modPort p fun r => r.testLine now) :=
  .leavesPort h fun r => r.testLine_inRange now

/-- A link-reset port record has the settings of power-on and the staging area of its stream (R190). -/
theorem linkReset (h : s₀.RangesKept free s) {p : Port} : s₀.RangesKept free (s.modPort p PortRecord.linkReset) := by
  refine h.modPort fun hr => ?_
  simp only [PortRecord.inRange, Bool.and_eq_true] at hr ⊢
  exact ⟨by simp [PortRecord.linkReset, PortRecord.afterReset], hr.2⟩

theorem resetStream (h : s₀.RangesKept free s) {p : Port} : s₀.RangesKept free (s.resetStream p) := by
  unfold State.resetStream
  split
  · exact h
  · exact h.failImageLoad
  · exact h.failArtworkLoad
  · exact h.endOutbound

/-! ## Taking a command (R180) -/

/-- A meaning that keeps the records keeps them when its command is taken. -/
theorem takeCommand (h : s₀.RangesKept false s) {p : Port} {code : Nat} {meaning : CommandRecord → State → Reply × State}
    (hmeaning : ∀ r u, s₀.RangesKept false u → s₀.RangesKept false (meaning r u).2) :
    s₀.RangesKept false (s.takeCommand p code meaning) := by
  unfold State.takeCommand
  split
  · exact .settle (hmeaning _ _ (.leavesPort h fun _ => by rfl))
  · split
    · exact h
    · exact .leavesPort (.settle (hmeaning _ _ h)) fun _ => by rfl

theorem onImage (h : s₀.RangesKept free s) {r : CommandRecord} {f : ImageId → Reply × State}
    (hf : ∀ i, s₀.RangesKept free (f i).2) : s₀.RangesKept free (onImage r s f).2 := by
  unfold Machine.onImage
  split
  · exact h
  · exact hf _

theorem onArtwork (h : s₀.RangesKept free s) {r : CommandRecord} {f : ArtworkId → Reply × State}
    (hf : ∀ i, s₀.RangesKept free (f i).2) : s₀.RangesKept free (onArtwork r s f).2 := by
  unfold Machine.onArtwork
  split
  · exact h
  · exact hf _

theorem onLane (h : s₀.RangesKept free s) {r : CommandRecord} {f : LaneId → Reply × State}
    (hf : ∀ n, s₀.RangesKept free (f n).2) : s₀.RangesKept free (onLane r s f).2 := by
  unfold Machine.onLane
  split
  · exact h
  · exact hf _

theorem onJob (h : s₀.RangesKept free s) {r : CommandRecord} {f : Handle → Job → Reply × State}
    (hf : ∀ k j, s₀.RangesKept free (f k j).2) : s₀.RangesKept free (onJob r s f).2 := by
  unfold Machine.onJob
  split
  · exact h
  · dsimp only
    split
    · exact h
    · exact hf _ _

/-! ## Settings (R103, R174, R175, R188) -/

theorem setAttention (h : s₀.RangesKept free s) {p : Port} {r : CommandRecord} :
    s₀.RangesKept free (setAttention p r s).2 := by
  have hthreshold := clampTo_mem (lo := 1) (hi := 32) (recordByte r 2) (by decide)
  have hhold := clampTo_mem (lo := 0) (hi := 1000) (recordField r 3 2) (by decide)
  dsimp only [Machine.setAttention, acceptWith]
  refine .modPort h fun hr => ?_
  simp only [PortRecord.inRange, Bool.and_eq_true, decide_eq_true_eq] at hr ⊢
  omega

theorem setFeedBudget (h : s₀.RangesKept free s) {r : CommandRecord} : s₀.RangesKept free (setFeedBudget r s).2 := by
  unfold Machine.setFeedBudget
  split
  · exact h
  · refine .oweStart ⟨h.ports, fun h₀ => ?_, h.lanes, h.arm⟩
    obtain ⟨-, -, hprinter⟩ := h.settings h₀
    have hbudget := clampTo_mem (lo := 32768) (hi := 262144) (recordField r 2 4) (by decide)
    exact ⟨hbudget.1, hbudget.2, hprinter⟩

theorem setPrintParams (h : s₀.RangesKept free s) {r : CommandRecord} : s₀.RangesKept free (setPrintParams r s).2 := by
  refine ⟨h.ports, fun h₀ => ?_, h.lanes, h.arm⟩
  obtain ⟨hlow, hhigh, -, -, -, -, -, hcapacity⟩ := h.settings h₀
  have hw0 := clampTo_mem (lo := 120) (hi := 260) (recordField r 2 2) (by decide)
  have hk := clampTo_mem (lo := 0) (hi := 15) (recordByte r 4) (by decide)
  have htref := clampTo_mem (lo := 40) (hi := 160) (recordByte r 5) (by decide)
  exact ⟨hlow, hhigh, hw0.1, hw0.2, hk.2, htref.1, htref.2, hcapacity⟩

theorem setInkCapacity (h : s₀.RangesKept free s) {r : CommandRecord} : s₀.RangesKept free (setInkCapacity r s).2 := by
  refine ⟨h.ports, fun h₀ => ?_, h.lanes, h.arm⟩
  obtain ⟨hlow, hhigh, hw0, hw0', hk, htref, htref', -⟩ := h.settings h₀
  exact ⟨hlow, hhigh, hw0, hw0', hk, htref, htref', clampTo_mem (recordField r 2 2) (by decide)⟩

end State.RangesKept

end Sys2Proof.Machine
end

