-- ==== Sys2Proof/Proofs/RangesEvents.lean ====
section
/-! The ranges of the records and the consistency of the arm, kept by the operations that the commands, the reports and the sensor scan
make, in the order of their definitions. -/

namespace Sys2Proof.Machine

namespace State.RangesKept

variable {s₀ s : State} {free : Bool}

/-! ## Image memory and jobs (R4 to R38) -/

theorem openImageLoad (h : s₀.RangesKept free s) {p : Port} {i : ImageId} {cls : MediaClass} {size : Nat} {noExport : Bool} :
    s₀.RangesKept free (s.openImageLoad p i cls size noExport) :=
  .joinVerifyQueue (.opensStream h.acceptImageLoad)

theorem openDiscLoad (h : s₀.RangesKept free s) {p : Port} {i : ImageId} {n : LaneId} {cls : MediaClass} {size : Nat}
    {noExport : Bool} : s₀.RangesKept free (s.openDiscLoad p i n cls size noExport) :=
  .joinVerifyQueue (.stopsLane h.acceptImageLoad fun _ => by exact ⟨nofun, rfl⟩)

theorem removeImage (h : s₀.RangesKept free s) {i : ImageId} : s₀.RangesKept free (s.removeImage i) := by
  unfold State.removeImage
  split
  · exact .notifyOpt h.freeImage
  · exact h.failImageLoad

theorem openOutbound (h : s₀.RangesKept free s) {p : Port} {i : ImageId} : s₀.RangesKept free (s.openOutbound p i) :=
  .oweGrant (.opensStream h.modImage)

theorem openArtworkLoad (h : s₀.RangesKept free s) {p : Port} {i : ArtworkId} {bands : Nat} :
    s₀.RangesKept free (s.openArtworkLoad p i bands) := by
  unfold State.openArtworkLoad
  dsimp only
  split
  · exact .opensStream (.modArtwork (.setPool (.notifyOpt h.returnPages)))
  · exact .opensStream (.modArtwork h.setPool)

theorem removeArtwork (h : s₀.RangesKept free s) {i : ArtworkId} : s₀.RangesKept free (s.removeArtwork i) := by
  unfold State.removeArtwork
  split
  · exact .notifyOpt h.freeArtwork
  · exact h.failArtworkLoad

theorem admitJob (h : s₀.RangesKept free s) {k : TableId} {j : Job} : s₀.RangesKept free (s.admitJob k j) := by
  have hadmitted : s₀.RangesKept free
      ((s.setJobEntry k { s.jobs[k] with job := some j }).modImage j.image fun v => { v with refcount := v.refcount + 1 }) :=
    .modImage h.setJobEntry
  unfold State.admitJob
  dsimp only
  split
  · split
    · exact hadmitted.oweClaim
    · exact .oweClaim hadmitted.modArtwork
  · split
    · exact hadmitted
    · exact hadmitted.modArtwork

theorem resume (h : s₀.RangesKept free s) {k : Handle} {j : Job} : s₀.RangesKept free (s.resume k j) := by
  unfold State.resume
  dsimp only
  split
  · exact .oweClaim (.notify h.modJob)
  · exact .notify h.modJob

theorem killJobs (l : List TableId) {s : State} (h : s₀.RangesKept free s) : s₀.RangesKept free (State.killJobs l s) := by
  induction l generalizing s with
  | nil => exact h
  | cons i rest ih =>
    refine ih ?_
    split
    · exact h
    · split
      · exact h
      · exact h.drainJob

theorem failEveryLoad (h : s₀.RangesKept free s) : s₀.RangesKept free s.failEveryLoad :=
  endOutbounds _ (failArtworkLoads _ (failImageLoads _ h))

theorem towerResetEffect (h : s₀.RangesKept false s) {loadsFirst : Bool} :
    s₀.RangesKept false (towerResetEffect loadsFirst s) := by
  refine .oweStart ?_
  split
  · exact killJobs _ h.failEveryLoad.settlePart
  · exact .failEveryLoad (.settlePart (killJobs _ h))

/-! ## Operator commands on lanes (R82, R90 to R93) -/

theorem openInFault (h : s₀.RangesKept free s) {n : LaneId} : s₀.RangesKept free (s.openInFault n) := by
  unfold State.openInFault
  split
  · exact h
  · exact .startTimer (.leavesLane h.sendTray fun _ => by rfl)

theorem closeInFault (h : s₀.RangesKept free s) {n : LaneId} : s₀.RangesKept free (s.closeInFault n) :=
  .startTimer (.leavesLane h.sendTray fun _ => by rfl)

theorem bringOnline (h : s₀.RangesKept free s) {n : LaneId} : s₀.RangesKept free (s.bringOnline n) := by
  unfold State.bringOnline
  dsimp only
  split
  · exact h
  · split
    · exact .enterClosing (.clearsCount h fun _ => by exact ⟨rfl, rfl⟩)
    · exact .stopsLane (.stopTimer (.clearsCount h fun _ => by exact ⟨rfl, rfl⟩)) fun _ => by exact ⟨nofun, rfl⟩

theorem takeOffline (h : s₀.RangesKept free s) {n : LaneId} : s₀.RangesKept free (s.takeOffline n) :=
  .stopsLane h fun _ => by exact ⟨nofun, rfl⟩

/-! ## Messages from the drives (R69 to R88) -/

theorem faultTray (h : s₀.RangesKept free s) {n : LaneId} {pos : TrayPosition} : s₀.RangesKept free (s.faultTray n pos) := by
  unfold State.faultTray
  split
  · exact .oweArm (.leavesLane h.stopTimer fun _ => by rfl)
  · dsimp only
    split
    · exact .quarantineLane (.leavesLane h.stopTimer fun _ => by rfl)
    · exact .leavesLane h.stopTimer fun _ => by rfl
  · exact .leavesLane h.stopTimer fun _ => by rfl
  · exact .leavesLane h.stopTimer fun _ => by rfl
  · exact h

theorem closedByOperator (h : s₀.RangesKept free s) {n : LaneId} : s₀.RangesKept free (s.closedByOperator n) :=
  .enterProbing (.leavesLane h fun _ => by rfl)

theorem openingTray (h : s₀.RangesKept free s) {n : LaneId} {pos : TrayPosition} : s₀.RangesKept free (s.openingTray n pos) := by
  unfold State.openingTray
  split
  · exact h.enterClosing
  · exact .oweArm (.stopsLane h.stopTimer fun _ => by exact ⟨nofun, rfl⟩)
  · exact h
  · exact h.closedByOperator
  · exact h.laneFault

theorem openTrayReports (h : s₀.RangesKept free s) {n : LaneId} {pos : TrayPosition} :
    s₀.RangesKept free (s.openTrayReports n pos) := by
  unfold State.openTrayReports
  split
  · exact h
  · exact h.closedByOperator
  · exact h
  · exact h.laneFault

theorem closedAfterPick (h : s₀.RangesKept free s) {n : LaneId} : s₀.RangesKept free (s.closedAfterPick n) := by
  unfold State.closedAfterPick
  split
  · exact h.quarantineLane
  · split
    · exact .stopsLane h fun _ => by exact ⟨nofun, rfl⟩
    · exact h.enterIdle

theorem closingTray (h : s₀.RangesKept free s) {n : LaneId} {pos : TrayPosition} : s₀.RangesKept free (s.closingTray n pos) := by
  unfold State.closingTray
  split
  · exact h.closedAfterPick
  · exact h.enterProbing
  · exact h
  · exact h.laneFault

theorem restingTray (h : s₀.RangesKept free s) {n : LaneId} {pos : TrayPosition} : s₀.RangesKept free (s.restingTray n pos) := by
  unfold State.restingTray
  split
  · exact .stopsLane h fun _ => by exact ⟨nofun, rfl⟩
  · exact h
  · exact h

theorem trayMoves (h : s₀.RangesKept free s) {n : LaneId} {pos : TrayPosition} : s₀.RangesKept free (s.trayMoves n pos) := by
  unfold State.trayMoves
  split
  · exact h
  · exact h.faultTray
  · exact h.openingTray
  · exact h.openTrayReports
  · exact h.closingTray
  · exact h.restingTray
  · exact h.restingTray
  · exact h.restingTray
  · split
    · exact h
    · exact h.laneFault

theorem probeBlank (h : s₀.RangesKept free s) {n : LaneId} {k : Handle} {j : Job} {cls : MediaClass} {capacity : Nat} :
    s₀.RangesKept free (s.probeBlank n k j cls capacity) := by
  unfold State.probeBlank
  dsimp only
  split
  · exact .enterDone (.modDiscAt h.modDiscAt)
  · split
    · exact .enterDone (.modDiscAt h.modDiscAt)
    · split
      · exact .offerBlank h.modDiscAt
      · exact .enterFeedWait (.modDiscAt h.modDiscAt)

theorem probeFed (h : s₀.RangesKept free s) {n : LaneId} {report : MediaReport} : s₀.RangesKept free (s.probeFed n report) := by
  unfold State.probeFed
  split
  · dsimp only
    split
    · exact .leavesLane h fun _ => by rfl
    · split
      · exact .leavesLane h fun _ => by rfl
      · exact .probeBlank (.leavesLane h fun _ => by rfl)
  · exact .enterDone h.modDiscAt
  · exact .enterDone h.modDiscAt
  · exact .enterIdle (.closeDiscAt h.laneLeavesJob)

theorem probeUnrecorded (h : s₀.RangesKept free s) {n : LaneId} {report : MediaReport} :
    s₀.RangesKept free (s.probeUnrecorded n report) := by
  have hprobed : s₀.RangesKept free (s.modLane n fun l => { l with timer := none, startUp := false }) :=
    .leavesLane h fun _ => by rfl
  unfold State.probeUnrecorded
  dsimp only
  split
  · refine .enterIdle ?_
    split
    · exact hprobed.raise
    · exact hprobed
  · exact .raise (.stopsLane hprobed fun _ => by exact ⟨nofun, rfl⟩)
  · exact .raise (.stopsLane hprobed fun _ => by exact ⟨nofun, rfl⟩)
  · exact .raise (.stopsLane hprobed fun _ => by exact ⟨nofun, rfl⟩)

theorem finalize (h : s₀.RangesKept free s) {n : LaneId} : s₀.RangesKept free (s.finalize n) :=
  .oweStart (.startTimer (.modDiscAt (.stopsLane h.sendDrive fun _ => by exact ⟨nofun, rfl⟩)))

/-- The credits rise no higher than the buffer size (R77). -/
theorem takeCredit (h : s₀.RangesKept free s) {n : LaneId} {freed committed : Nat} :
    s₀.RangesKept free (s.takeCredit n freed committed) := by
  have hcredited : s₀.RangesKept free ((s.modLane n fun l =>
      { l with
        credits := min ((s.lanes[n].identity.map (·.buffer)).getD 0) (s.lanes[n].credits + freed)
        committed := max s.lanes[n].committed committed }).restartTimer n) := by
    refine .restartTimer (h.modLane fun hl => ?_)
    rw [Lane.inRange_iff] at hl ⊢
    exact ⟨hl.1, fun _ => Nat.min_le_left _ _⟩
  unfold State.takeCredit
  dsimp only
  split
  · exact hcredited.finalize
  · split
    · exact hcredited.oweGrant
    · exact hcredited

theorem finalized (h : s₀.RangesKept free s) {n : LaneId} {d : Disc} : s₀.RangesKept free (s.finalized n d) := by
  unfold State.finalized
  dsimp only
  split
  · exact .enterDone h.modDiscAt
  · split
    · exact .joinVerifyQueue (.stopsLane h.modDiscAt fun _ => by exact ⟨nofun, rfl⟩)
    · exact .clearsCount (.enterDone h.modDiscAt) fun _ => by exact ⟨rfl, rfl⟩

theorem verifyMatches (h : s₀.RangesKept free s) {n : LaneId} {k : Fin 2} {set : VerifySet} {next : Nat}
    {outstanding : List Nat} {matched index : Nat} :
    s₀.RangesKept free (s.verifyMatches n k set next outstanding matched index) := by
  unfold State.verifyMatches
  dsimp only
  split
  · exact .sendDrive (.setCrc h.restartTimer)
  · split
    · exact .verifyPasses (.setCrc h.restartTimer)
    · exact .setCrc h.restartTimer

theorem sourceArrives (h : s₀.RangesKept free s) {n : LaneId} {k : Fin 2} {i : ImageId} {next : Nat} {outstanding : List Nat}
    {digested index : Nat} {data : List Byte} :
    s₀.RangesKept free (s.sourceArrives n k i next outstanding digested index data) := by
  have hwritten : s₀.RangesKept free (((((s.setMem (writeSlot s.mem s.images[i].pages (segmentBytes * index) data)).storeDigest
      s.images[i] index (crc32 data)).modImage i fun v => { v with received := v.received + data.length })).restartTimer n) :=
    .restartTimer (.modImage (.setMem h.setMem))
  unfold State.sourceArrives
  dsimp only
  split
  · refine .finishImageLoad ?_
    split
    · exact .sendDrive hwritten.setCrc
    · exact hwritten.setCrc
  · split
    · exact .sendDrive hwritten.setCrc
    · exact hwritten.setCrc

theorem faultTimeout (h : s₀.RangesKept free s) {n : LaneId} : s₀.RangesKept free (s.faultTimeout n) := by
  unfold State.faultTimeout
  split
  · exact h.stuck
  · exact h.stopTimer
  · exact .leavesLane h fun _ => by rfl

/-! ## The read channel (R109) -/

theorem quarterDone (h : s₀.RangesKept free s) {slot : ArtworkId} {band q : Nat} {which : BufferId} :
    s₀.RangesKept free (s.quarterDone slot band q which) := by
  unfold State.quarterDone
  dsimp only
  split
  · split
    · exact .tryStartBand (.modPrinter h fun v => v.setBuffer_settings _ _)
    · exact .modPrinter h fun v => v.setBuffer_settings _ _
  · exact .modPrinter h fun v => v.setBuffer_settings _ _

theorem chunkDone (h : s₀.RangesKept free s) {p : Port} {slot : ImageId} {k : Nat} :
    s₀.RangesKept free (s.chunkDone p slot k) := by
  unfold State.chunkDone
  split
  · exact .leavesPort h fun _ => by rfl
  · exact h

theorem deliverTransfer (h : s₀.RangesKept free s) {v : Transfer} : s₀.RangesKept free (s.deliverTransfer v) := by
  unfold State.deliverTransfer
  split
  · split
    · exact .leavesLane h.sendDrive fun _ => by rfl
    · exact h.quarterDone
    · exact h.chunkDone
  · split
    · exact h.releaseImage
    · exact h
    · exact h

/-! ## The printer (R158 to R173) -/

theorem bandEnds (h : s₀.RangesKept free s) {which : BufferId} : s₀.RangesKept free (s.bandEnds which) := by
  unfold State.bandEnds
  refine .raiseFetch ?_
  split
  · exact .completeLabel (.modPrinter h fun v => v.setBuffer_settings _ _)
  · exact .tryStartBand (.modPrinter h fun v => v.setBuffer_settings _ _)

theorem printerErrorTaken (h : s₀.RangesKept false s) {code : Byte} : s₀.RangesKept false (s.printerErrorTaken code) := by
  unfold State.printerErrorTaken
  split
  · exact .settle h.printerFaults
  · exact h

/-! ## The arm driver (R127 to R143) -/

/-- An arm in FAULT begins to home (R143). -/
theorem clearArmFault (h : s₀.RangesKept free s) {r : CommandRecord} : s₀.RangesKept false (clearArmFault r s).2 := by
  unfold Machine.clearArmFault
  split
  · exact h.weaken
  · rename_i hfault
    split
    · exact h.weaken
    · have hstate : s.arm.state = .fault := not_not.1 hfault
      refine .issueStep (.modArm h fun hok _ => ?_)
      have hnoStep := Arm.step_none hok (by simp [hstate]) (by simp [hstate])
      obtain ⟨htimer, -, hresume, -, -⟩ := (Arm.consistent_iff _).1 hok
      have hnoResume : s.arm.resume = none := by simpa [hstate] using hresume
      refine ⟨(Arm.consistent_iff _).2 ⟨htimer, .inl hnoStep, ?_, .inl hnoResume, ?_⟩, fun _ => ⟨.inl rfl, hnoStep⟩⟩
      · simp [hnoResume]
      · simp

theorem createDisc (h : s₀.RangesKept false s) {r : Request} : s₀.RangesKept false (s.createDisc r) := by
  unfold State.createDisc
  split
  · exact h
  · exact .armContinue (.leavesArm (.modRequest (.setSerial h.setDisc)) fun _ => by rfl)

theorem binFaults (h : s₀.RangesKept true s) {which : Bin} : s₀.RangesKept false (s.binFaults which) :=
  .setAside (.raise h.modBin)

theorem pickedAtBin (h : s₀.RangesKept true s) {which : Bin} : s₀.RangesKept false (s.pickedAtBin which) := by
  unfold State.pickedAtBin
  split
  · split
    · exact h.binFaults
    · exact h.armContinue
  · split
    · exact h.armContinue
    · exact h.weaken.createDisc
  · exact .armContinue (.leavesArm h fun _ => by rfl)

theorem pickedAt (h : s₀.RangesKept true s) {loc : Location} : s₀.RangesKept false (s.pickedAt loc) := by
  unfold State.pickedAt
  split
  · exact .armContinue h.pickedUp
  · exact h.armFaults
  · exact .armFaults h.pickedUp

theorem pickDone (h : s₀.RangesKept true s) : s₀.RangesKept false s.pickDone := by
  unfold State.pickDone
  split
  · exact h.pickedAtBin
  · exact h.pickedAt
  · exact h.pickedAt
  · exact h.armContinue

theorem putBack (h : s₀.RangesKept true s) {which : Bin} : s₀.RangesKept false (s.putBack which) := by
  unfold State.putBack
  dsimp only
  split
  · exact .binFaults (.leavesArm h fun _ => by rfl)
  · exact .armContinue (.leavesArm h fun _ => by rfl)

theorem dropServed (h : s₀.RangesKept free s) : s₀.RangesKept free s.dropServed := by
  unfold State.dropServed
  split
  · exact h
  · exact .leavesArm h.dropRequest fun _ => by rfl

theorem placedInTray (h : s₀.RangesKept true s) {n : LaneId} : s₀.RangesKept false (s.placedInTray n) :=
  .armToIdle (.lanePlaced (.dropServed h.modDiscAt))

theorem placedOnPrinter (h : s₀.RangesKept true s) : s₀.RangesKept false s.placedOnPrinter :=
  .armToIdle (.inkCheck h.modDiscAt)

theorem placedInBin (h : s₀.RangesKept true s) {fate : Fate} : s₀.RangesKept false (s.placedInBin fate) :=
  .armToIdle (.closeDiscAt h.dropServed)

theorem placeDone (h : s₀.RangesKept true s) : s₀.RangesKept false s.placeDone := by
  unfold State.placeDone
  split
  · exact h.putBack
  · exact h.placedInTray
  · exact h.placedOnPrinter
  · exact h.placedInBin
  · exact h.placedInBin
  · exact h.armContinue

theorem endStep (h : s₀.RangesKept free s) (hruns : s.arm.step ≠ none) : s₀.RangesKept true s.endStep :=
  .endsStep h hruns fun _ => by rfl

/-! ## The sensor scan (R148 to R155) -/

theorem binPresence (h : s₀.RangesKept free s) {which : Bin} {on : Bool} : s₀.RangesKept free (s.binPresence which on) := by
  unfold State.binPresence
  dsimp only
  split
  · exact .oweArm (.oweSelect (.oweClaim (.raise h.modBin)))
  · exact .raise h.modBin

theorem outputChange (h : s₀.RangesKept free s) {on : Bool} : s₀.RangesKept free (s.outputChange on) := by
  unfold State.outputChange
  dsimp only
  split
  · exact .raise h.setOutputFull
  · exact .oweArm (.oweSelect (.raise h.setOutputFull))

theorem rejectChange (h : s₀.RangesKept free s) {on : Bool} : s₀.RangesKept free (s.rejectChange on) := by
  unfold State.rejectChange
  dsimp only
  split
  · exact .raise h.setRejectFull
  · exact .oweArm (.oweSelect (.raise h.setRejectFull))

/-- A HELD arm returns to its resume state and may take a step (R129). -/
theorem released (h : s₀.RangesKept free s) (hheld : s.arm.state = .held) :
    s₀.RangesKept true (s.modArm fun v => { v with state := v.resume.getD .serving, resume := none }) := by
  refine h.modArm fun hok _ => ?_
  have hnoStep := Arm.step_none hok (by simp [hheld]) (by simp [hheld])
  obtain ⟨htimer, -, hresume, hresumes, hfault⟩ := (Arm.consistent_iff _).1 hok
  have hnoFault : s.arm.fault = none := by simpa [hheld] using hfault
  have hstate : s.arm.resume.getD .serving = .homing ∨ s.arm.resume.getD .serving = .serving := by
    rcases hresumes with hr | hr | hr <;> simp [hr]
  refine ⟨(Arm.consistent_iff _).2 ⟨htimer, .inl hnoStep, ?_, .inl rfl, ?_⟩, fun _ => ⟨hstate, hnoStep⟩⟩
  · rcases hstate with hr | hr <;> simp [hr]
  · rcases hstate with hr | hr <;> simp [hr, hnoFault]

theorem doorReleases (h : s₀.RangesKept false s) : s₀.RangesKept false s.doorReleases := by
  unfold State.doorReleases
  dsimp only
  by_cases hheld : s.arm.state = .held
  · rw [if_pos hheld, if_pos hheld]
    have hreleased := h.released hheld
    split
    · exact hreleased.issueStep
    · exact hreleased.armContinue
  · rw [if_neg hheld, if_neg hheld]
    split
    · rename_i hhoming
      simp only [Bool.and_eq_true, decide_eq_true_eq, Option.isNone_iff_eq_none] at hhoming
      exact .issueStep (h.freed ⟨.inl hhoming.1, hhoming.2⟩)
    · exact h

theorem doorChange (h : s₀.RangesKept false s) {on : Bool} : s₀.RangesKept false (s.doorChange on) := by
  unfold State.doorChange
  dsimp only
  split
  · exact .doorReleases h.raise
  · exact h.raise

theorem deriveKey (h : s₀.RangesKept free s) : s₀.RangesKept free s.deriveKey := by
  unfold State.deriveKey
  dsimp only
  split
  · exact h
  · exact .raise h.setKey

theorem gripChange (h : s₀.RangesKept false s) {before : Nat} : s₀.RangesKept false (s.gripChange before) := by
  unfold State.gripChange State.gripEmptied State.gripFilled
  split
  · split
    · exact h.loseArmDisc
    · split
      · exact h.armFaults
      · exact h
  · split
    · split
      · exact h.followPick
      · exact h
    · exact h

theorem homeReads (h : s₀.RangesKept false s) : s₀.RangesKept false s.homeReads := by
  unfold State.homeReads
  split
  · rename_i hawaited
    simp only [Bool.and_eq_true, decide_eq_true_eq] at hawaited
    exact h.homed (by simp [hawaited.1])
  · exact h

theorem lidOpens (h : s₀.RangesKept free s) : s₀.RangesKept free s.lidOpens := by
  unfold State.lidOpens
  split
  · exact h.printerFaults
  · exact h

theorem printerHomeReads (h : s₀.RangesKept free s) : s₀.RangesKept free s.printerHomeReads := by
  unfold State.printerHomeReads
  split
  · exact h.endTrayOut
  · exact h

theorem recheckInk (h : s₀.RangesKept free s) : s₀.RangesKept free s.recheckInk := by
  unfold State.recheckInk
  split
  · exact h.inkCheck
  · exact h

theorem blackChange (h : s₀.RangesKept free s) {on : Bool} : s₀.RangesKept free (s.blackChange on) := by
  unfold State.blackChange
  split
  · exact .recheckInk (.modPrinter h fun _ => by rfl)
  · exact .modPrinter h fun _ => by rfl

theorem colourChange (h : s₀.RangesKept free s) {on : Bool} : s₀.RangesKept free (s.colourChange on) := by
  unfold State.colourChange
  split
  · exact .recheckInk (.modPrinter h fun _ => by rfl)
  · exact .modPrinter h fun _ => by rfl

theorem consume (h : s₀.RangesKept false s) {startUp : Bool} {before : Nat} {v : Sensor} {on : Bool} :
    s₀.RangesKept false (s.consume startUp before v on) := by
  cases v with
  | binAPresent => exact h.binPresence
  | binBPresent => exact h.binPresence
  | outputFull => exact h.outputChange
  | rejectFull => exact h.rejectChange
  | doorClosed => exact h.doorChange
  | keyLock | keyService =>
    unfold State.consume
    dsimp only
    split
    · exact h
    · exact h.deriveKey
  | gripOne | gripTwo => exact h.gripChange
  | armHome =>
    unfold State.consume
    dsimp only
    split
    · exact h.homeReads
    · exact h
  | lidClosed =>
    unfold State.consume
    dsimp only
    split
    · exact h
    · exact h.lidOpens
  | printerTrayHome =>
    unfold State.consume
    dsimp only
    split
    · exact h.printerHomeReads
    · exact h
  | blackPresent => exact h.blackChange
  | colourPresent => exact h.colourChange

theorem countReadings {readings : BitVec 32} (l : List Sensor) {s : State} (h : s₀.RangesKept free s) :
    s₀.RangesKept free (State.countReadings readings l s) := by
  induction l generalizing s with
  | nil => exact h
  | cons v rest ih => exact ih h.modSensor

theorem changeEvents {startUp : Bool} {readings : BitVec 32} (l : List Sensor) {s : State} (h : s₀.RangesKept false s) :
    s₀.RangesKept false (State.changeEvents startUp readings l s) := by
  induction l generalizing s with
  | nil => exact h
  | cons v rest ih => exact ih (.settle (.consume h.modSensor))

end State.RangesKept

end Sys2Proof.Machine
end

