-- ==== Sys2Proof/Proofs/RangeSteps.lean ====
section
/-! Every command keeps the ranges of the records and the consistency of the arm (R67, R96, R126, R157, R177): the meanings of the
commands taken one by one, then the step. -/

namespace Sys2Proof.Machine

/-! ## Client commands by their meaning -/

namespace State.RangesKept

variable {s₀ s : State} {free : Bool}

theorem refused (h : s₀.RangesKept free s) {code : ResultCode} : s₀.RangesKept free (refuse code s).2 := h
theorem accepted (h : s₀.RangesKept free s) : s₀.RangesKept free (accept s).2 := h
theorem acceptedWith (h : s₀.RangesKept free s) {data : List Byte} : s₀.RangesKept free (acceptWith data s).2 := h

/-- A check refuses the command, or the rest of it is taken. -/
theorem refusedOr (h : s₀.RangesKept free s) {c : Prop} [Decidable c] {code : ResultCode} {rest : Reply × State}
    (hrest : s₀.RangesKept free rest.2) : s₀.RangesKept free (if c then refuse code s else rest).2 := by
  split
  · exact h.refused
  · exact hrest

/-- The command is taken, or a check refuses it. -/
theorem takenOr (h : s₀.RangesKept free s) {c : Prop} [Decidable c] {code : ResultCode} {taken : Reply × State}
    (htaken : s₀.RangesKept free taken.2) : s₀.RangesKept free (if c then taken else refuse code s).2 := by
  split
  · exact htaken
  · exact h.refused

theorem loadImage (h : s₀.RangesKept free s) {p : Port} {r : CommandRecord} : s₀.RangesKept free (loadImage p r s).2 := by
  refine h.onImage fun i => ?_
  split
  · exact h.refused
  · refine h.refusedOr (h.refusedOr ?_)
    split
    · exact h.refused
    · exact h.openImageLoad.accepted

theorem loadFromDisc (h : s₀.RangesKept free s) {p : Port} {r : CommandRecord} :
    s₀.RangesKept free (loadFromDisc p r s).2 := by
  refine h.onImage fun i => ?_
  split
  · exact h.refused
  · refine h.refusedOr ?_
    split
    · exact h.refused
    · refine h.refusedOr ?_
      split
      · exact h.refused
      · exact h.openDiscLoad.accepted

theorem deleteImage (h : s₀.RangesKept free s) {p : Port} {r : CommandRecord} :
    s₀.RangesKept free (deleteImage p r s).2 :=
  h.onImage fun _ => h.refusedOr (h.refusedOr (h.refusedOr (h.refusedOr h.removeImage.accepted)))

theorem protectImage (h : s₀.RangesKept free s) {p : Port} {r : CommandRecord} :
    s₀.RangesKept free (protectImage p r s).2 :=
  h.onImage fun _ => h.refusedOr (h.refusedOr (h.refusedOr h.modImage.accepted))

theorem unprotectImage (h : s₀.RangesKept free s) {p : Port} {r : CommandRecord} :
    s₀.RangesKept free (unprotectImage p r s).2 :=
  h.onImage fun _ => h.refusedOr (h.refusedOr (h.refusedOr h.modImage.accepted))

theorem markNoExport (h : s₀.RangesKept free s) {p : Port} {r : CommandRecord} :
    s₀.RangesKept free (markNoExport p r s).2 :=
  h.onImage fun _ => h.refusedOr (h.refusedOr h.modImage.accepted)

theorem exportImage (h : s₀.RangesKept free s) {p : Port} {r : CommandRecord} :
    s₀.RangesKept free (exportImage p r s).2 :=
  h.onImage fun _ => h.refusedOr (h.refusedOr (h.refusedOr h.openOutbound.accepted))

theorem loadArtwork (h : s₀.RangesKept free s) {p : Port} {r : CommandRecord} :
    s₀.RangesKept free (loadArtwork p r s).2 := by
  refine h.onArtwork fun i => h.refusedOr (h.refusedOr ?_)
  split
  · exact h.refused
  · exact h.openArtworkLoad.accepted

theorem deleteArtwork (h : s₀.RangesKept free s) {p : Port} {r : CommandRecord} :
    s₀.RangesKept free (deleteArtwork p r s).2 :=
  h.onArtwork fun _ => h.refusedOr (h.refusedOr (h.refusedOr h.removeArtwork.accepted))

theorem submitJob (h : s₀.RangesKept free s) {p : Port} {r : CommandRecord} : s₀.RangesKept free (submitJob p r s).2 := by
  refine h.refusedOr ?_
  split
  · split
    · exact h.refused
    · refine h.refusedOr (h.refusedOr (h.refusedOr ?_))
      split
      · exact h.refused
      · exact h.admitJob.acceptedWith
  · exact h.refused

theorem pauseJob (h : s₀.RangesKept free s) {p : Port} {r : CommandRecord} : s₀.RangesKept free (pauseJob p r s).2 := by
  refine h.onJob fun k j => h.refusedOr ?_
  split
  · exact .accepted (.notify h.modJob)
  · exact .accepted (.notify h.modJob)
  · exact h.accepted
  · exact h.refused

theorem resumeJob (h : s₀.RangesKept free s) {p : Port} {r : CommandRecord} : s₀.RangesKept free (resumeJob p r s).2 := by
  refine h.onJob fun k j => h.refusedOr ?_
  split
  · exact h.resume.accepted
  · exact h.accepted
  · exact h.accepted
  · exact h.refused

theorem cancelJob (h : s₀.RangesKept free s) {p : Port} {r : CommandRecord} : s₀.RangesKept free (cancelJob p r s).2 :=
  h.onJob fun _ _ => h.refusedOr (h.refusedOr h.drainJob.accepted)

theorem killJob (h : s₀.RangesKept free s) {p : Port} {r : CommandRecord} : s₀.RangesKept free (killJob p r s).2 := by
  refine h.onJob fun k j => h.refusedOr ?_
  split
  · exact h.accepted
  · exact h.drainJob.accepted

theorem openTray (h : s₀.RangesKept free s) {r : CommandRecord} : s₀.RangesKept free (openTray r s).2 := by
  have hopens (n : LaneId) : s₀.RangesKept free
      (accept ((s.modLane n fun l => { l with master := none }).enterOpening n .operator)).2 :=
    .accepted (.enterOpening (.leavesLane h fun _ => by rfl))
  refine h.onLane fun n => ?_
  split
  · exact hopens n
  · exact hopens n
  · exact hopens n
  · exact h.takenOr h.openInFault.accepted
  · exact h.refused

theorem closeTray (h : s₀.RangesKept free s) {r : CommandRecord} : s₀.RangesKept free (closeTray r s).2 := by
  refine h.onLane fun n => ?_
  dsimp only
  split
  · exact h.enterClosing.accepted
  · exact h.takenOr h.closeInFault.accepted

theorem laneOnline (h : s₀.RangesKept free s) {r : CommandRecord} : s₀.RangesKept free (laneOnline r s).2 := by
  refine h.onLane fun n => ?_
  split
  · exact h.bringOnline.accepted
  · exact h.takenOr h.bringOnline.accepted
  · exact h.refused

theorem laneOffline (h : s₀.RangesKept free s) {r : CommandRecord} : s₀.RangesKept free (laneOffline r s).2 := by
  refine h.onLane fun n => ?_
  split
  · exact h.takeOffline.accepted
  · exact h.takenOr h.takeOffline.accepted
  · exact h.refused

theorem clearLane (h : s₀.RangesKept free s) {r : CommandRecord} : s₀.RangesKept free (clearLane r s).2 :=
  h.onLane fun _ => h.takenOr h.enterDone.accepted

theorem setBinClass (h : s₀.RangesKept free s) {r : CommandRecord} : s₀.RangesKept free (setBinClass r s).2 := by
  unfold Machine.setBinClass
  split
  · exact h.refusedOr (.accepted (.oweSelect (.oweClaim h.modBin)))
  · exact h.refused

theorem clearBinFault (h : s₀.RangesKept free s) {r : CommandRecord} : s₀.RangesKept free (clearBinFault r s).2 := by
  unfold Machine.clearBinFault
  split
  · exact h.refused
  · split
    · exact .accepted (.oweSelect (.oweClaim h.modBin))
    · exact h.accepted

theorem clearPrinterFault (h : s₀.RangesKept free s) {r : CommandRecord} : s₀.RangesKept free (clearPrinterFault r s).2 :=
  h.refusedOr (.accepted (.enterTrayOut (.modPrinter h fun _ => by rfl)))

theorem setNoticeMask (h : s₀.RangesKept free s) {p : Port} {r : CommandRecord} : s₀.RangesKept free (setNoticeMask p r s).2 :=
  .acceptedWith (.leavesPort h fun _ => by rfl)

theorem towerReset (h : s₀.RangesKept false s) {loadsFirst : Bool} {r : CommandRecord} :
    s₀.RangesKept false (towerReset loadsFirst r s).2 :=
  h.takenOr h.towerResetEffect.accepted

end State.RangesKept

/-! ## Reports by their meaning -/

/-- An identity taken while the lane burns comes with a fault (R71, R86); elsewhere no credits are bounded by it. -/
theorem execIdent_rangesKept (n : LaneId) (buffer : BitVec 16) (burnsL burnsM : Bool) (s : State) :
    nextHas (s.RangesKept false) (execIdent n buffer burnsL burnsM s) := by
  have h := State.RangesKept.refl s
  unfold execIdent
  split
  · have hidle (hstate : s.lanes[n].state ≠ .burning) :
        s.RangesKept false (s.modLane n fun l => { l with identity := some ⟨buffer.toNat, burnsL, burnsM⟩ }) := by
      refine h.modLane fun hl => ?_
      rw [Lane.inRange_iff] at hl ⊢
      exact ⟨hl.1, fun hburns => absurd hburns hstate⟩
    rw [nextHas_next]
    split
    · rename_i hoffline
      split
      · exact hidle (by rw [hoffline]; decide)
      · exact .enterClosing (.leavesLane (hidle (by rw [hoffline]; decide)) fun _ => by rfl)
    · rename_i hfault
      exact hidle (by rw [hfault]; decide)
    · exact .settle h.restartFault
  · exact .settle h.laneError

theorem execReadData_rangesKept (n : LaneId) (index : BitVec 24) (data : List Byte) (s : State) :
    nextHas (s.RangesKept false) (execReadData n index data s) := by
  have h := State.RangesKept.refl s
  have herror : nextHas (s.RangesKept false) (.next (s.laneError n 255).settle) := .settle h.laneError
  unfold execReadData
  split
  · exact h
  · split
    · split
      · exact h
      · split
        · split
          · split
            · rw [nextHas_next]
              refine .settle ?_
              split
              · exact h.verifyMatches
              · exact h.verifyFails
            · exact True.intro
          · exact herror
        · exact h
    · split
      · exact h
      · split
        · split
          · split
            · exact .settle h.sourceArrives
            · exact True.intro
          · exact herror
        · exact h
    · exact h

theorem execReadFail_rangesKept (n : LaneId) (index : BitVec 24) (s : State) :
    nextHas (s.RangesKept false) (execReadFail n index s) := by
  have h := State.RangesKept.refl s
  unfold execReadFail
  split
  · exact h
  · split
    · rw [nextHas_next]
      split
      · exact .settle h.verifyFails
      · exact h
    · split
      · exact h
      · rw [nextHas_next]
        split
        · exact .settle h.failImageLoad
        · exact h
    · exact h

theorem execImageStagingWrite_rangesKept (p : Port) (count : Nat) (s : State) :
    nextHas (s.RangesKept false) (execImageStagingWrite p count s) := by
  have h := State.RangesKept.refl s
  unfold execImageStagingWrite
  split
  · dsimp only
    split
    · exact h
    · split
      · split
        · rw [nextHas_next]
          refine .settle ?_
          split
          · exact .finishImageLoad (.takesStaged (.setCrc h.setMem))
          · exact .takesStaged (.setCrc h.setMem)
        · exact True.intro
      · exact h
  · exact h

theorem execArtworkStagingWrite_rangesKept (p : Port) (count : Nat) (s : State) :
    nextHas (s.RangesKept false) (execArtworkStagingWrite p count s) := by
  have h := State.RangesKept.refl s
  unfold execArtworkStagingWrite
  split
  · dsimp only
    split
    · split
      · rw [nextHas_next]
        split
        · exact .finishArtworkLoad (.takesStaged (.modArtwork h.setMem))
        · exact .takesStaged (.modArtwork h.setMem)
      · exact True.intro
    · exact h
  · exact h

theorem execArmStepDone_rangesKept (s : State) : nextHas (s.RangesKept false) (execArmStepDone s) := by
  have h := State.RangesKept.refl s
  unfold execArmStepDone
  split
  · exact h
  · rename_i hstep
    rw [nextHas_next]
    refine .settle ?_
    split
    · exact h.homed (by simp [hstep])
    · exact .leavesArm h fun _ => by rfl
  · rename_i hstep
    exact .settle (.armContinue (.leavesArm (h.endStep (by simp [hstep])) fun _ => by rfl))
  · rename_i hstep
    exact .settle (h.endStep (by simp [hstep])).pickDone
  · rename_i hstep
    exact .settle (h.endStep (by simp [hstep])).placeDone

theorem execTemp_rangesKept (reading : Byte) (s : State) : nextHas (s.RangesKept false) (execTemp reading s) := by
  have hread : s.RangesKept false (s.modPrinter fun v => { v with head := reading.toNat }) := .modPrinter (.refl s) fun _ => by rfl
  unfold execTemp
  dsimp only
  split
  · rw [nextHas_next]
    split
    · exact .settle (.tryStartBand (.raise (.modPrinter hread fun _ => by rfl)))
    · exact .modPrinter hread fun _ => by rfl
  · exact hread

theorem execPowerOnReset_rangesKept (s : State) : nextHas (s.RangesKept false) (execPowerOnReset s) := by
  obtain ⟨-, -, -, -, -, hsettings, hlanes, harm, -⟩ := resetMeetsTheInvariants
  refine ⟨fun _ p => ?_, fun _ => hsettings, fun _ => hlanes, fun _ => ⟨harm, nofun⟩⟩
  have hport : (s.ports.map fun r => PortRecord.afterReset r.resetHeld)[p] = PortRecord.afterReset s.ports[p].resetHeld :=
    Vector.getElem_map _ p.isLt
  show PortRecord.inRange (s.ports.map fun r => PortRecord.afterReset r.resetHeld)[p] = true
  rw [hport]
  rfl

/-! ## The step -/

/-- Every command keeps the records. -/
theorem exec_rangesKept (c : Instr) (s : State) : nextHas (s.RangesKept false) (exec c s) := by
  have h := State.RangesKept.refl s
  cases c with
  | powerOnReset => exact execPowerOnReset_rangesKept s
  | linkReset p =>
    dsimp only [exec, execLinkReset]
    rw [nextHas_next]
    split
    · exact h
    · exact .settle (.resetStream h.linkReset)
  | linkResetRelease p => exact .leavesPort h fun _ => by rfl
  | putCommands p records =>
    dsimp only [exec, execPutCommands]
    split
    · exact h.answer
    · exact .answer (.passNext h.putCommands)
  | takeNotices p n =>
    dsimp only [exec, execTakeNotices]
    split
    · exact h.answer
    · exact .answer h.takeNotices
  | bulkWrite p bytes =>
    dsimp only [exec, execBulkWrite]
    split
    · exact h.answer
    · exact .answer (.streamReceives h.bulkWrite)
  | bulkRead p n =>
    dsimp only [exec, execBulkRead]
    split
    · exact h.answer
    · split
      · exact .answer (.settle h.readOutbound)
      · exact h.answer
  | linkStatus p => exact h.answer
  | unknownTransaction p => exact h.answer
  | replyReturn p =>
    dsimp only [exec, execReplyReturn]
    split
    · rw [nextHas_next]
      refine .clearOutstanding ?_
      split
      · exact .testsLine h.notify
      · exact h.notify
    · exact h
  | badCommand p =>
    dsimp only [exec, execBadCommand]
    split
    · split
      · exact h
      · exact .clearOutstanding h.notify
    · exact h
  | loadImage p => exact h.takeCommand fun _ _ hu => hu.loadImage
  | loadFromDisc p => exact h.takeCommand fun _ _ hu => hu.loadFromDisc
  | deleteImage p => exact h.takeCommand fun _ _ hu => hu.deleteImage
  | protectImage p => exact h.takeCommand fun _ _ hu => hu.protectImage
  | unprotectImage p => exact h.takeCommand fun _ _ hu => hu.unprotectImage
  | markNoExport p => exact h.takeCommand fun _ _ hu => hu.markNoExport
  | exportImage p => exact h.takeCommand fun _ _ hu => hu.exportImage
  | loadArtwork p => exact h.takeCommand fun _ _ hu => hu.loadArtwork
  | deleteArtwork p => exact h.takeCommand fun _ _ hu => hu.deleteArtwork
  | submitJob p => exact h.takeCommand fun _ _ hu => hu.submitJob
  | pauseJob p => exact h.takeCommand fun _ _ hu => hu.pauseJob
  | resumeJob p => exact h.takeCommand fun _ _ hu => hu.resumeJob
  | cancelJob p => exact h.takeCommand fun _ _ hu => hu.cancelJob
  | killJob p => exact h.takeCommand fun _ _ hu => hu.killJob
  | openTray p => exact h.takeCommand fun _ _ hu => hu.openTray
  | closeTray p => exact h.takeCommand fun _ _ hu => hu.closeTray
  | laneOnline p => exact h.takeCommand fun _ _ hu => hu.laneOnline
  | laneOffline p => exact h.takeCommand fun _ _ hu => hu.laneOffline
  | clearLane p => exact h.takeCommand fun _ _ hu => hu.clearLane
  | setFeedBudget p => exact h.takeCommand fun _ _ hu => hu.setFeedBudget
  | setBinClass p => exact h.takeCommand fun _ _ hu => hu.setBinClass
  | clearBinFault p => exact h.takeCommand fun _ _ hu => hu.clearBinFault
  | clearArmFault p => exact h.takeCommand fun _ _ hu => hu.clearArmFault
  | clearPrinterFault p => exact h.takeCommand fun _ _ hu => hu.clearPrinterFault
  | setPrintParams p => exact h.takeCommand fun _ _ hu => hu.setPrintParams
  | setInkCapacity p => exact h.takeCommand fun _ _ hu => hu.setInkCapacity
  | setNoticeMask p => exact h.takeCommand fun _ _ hu => hu.setNoticeMask
  | setAttention p =>
    have taken := h.takeCommand (p := p) (code := 49) (meaning := setAttention p) fun _ _ hu => hu.setAttention
    dsimp only [exec, execSetAttention]
    rw [nextHas_next]
    split
    · exact taken.testsLine
    · exact taken
  | towerReset p loadsFirst => exact h.takeCommand fun _ _ hu => hu.towerReset
  | attentionHoldExpiry p => exact .leavesPort h fun r => by split <;> rfl
  | imageStagingWrite p count => exact execImageStagingWrite_rangesKept p count s
  | artworkStagingWrite p count => exact execArtworkStagingWrite_rangesKept p count s
  | ident n buffer burnsL burnsM => exact execIdent_rangesKept n buffer burnsL burnsM s
  | trayState n pos => exact .settle (.releaseTray (.trayMoves (.leavesLane h fun _ => by rfl)))
  | media n report =>
    dsimp only [exec, execMedia]
    split
    · split
      · rw [nextHas_next]
        refine .settle ?_
        split
        · exact h.probeFed
        · exact h.probeUnrecorded
      · exact h
    · exact .settle h.laneError
  | credit n freed committed =>
    dsimp only [exec, execCredit]
    split
    · exact .settle h.laneError
    · split
      · exact .settle h.takeCredit
      · exact h
  | bufferEmpty n =>
    dsimp only [exec, execBufferEmpty]
    split
    · exact .restartTimer h.modDiscAt
    · exact h
  | writeRecovered n =>
    dsimp only [exec, execWriteRecovered]
    split
    · exact .restartTimer h.modDiscAt
    · exact h
  | writeError n =>
    dsimp only [exec, execWriteError]
    split
    · exact .settle (.oweStart (.chargeLane (.enterDone (.dropLaneChunk (.sendAbort h.modDiscAt)))))
    · exact h
  | finalizeDone n =>
    dsimp only [exec, execFinalizeDone]
    split
    · split
      · exact h
      · exact .settle h.finalized
    · exact h
  | readData n index data => exact execReadData_rangesKept n index data s
  | readFail n index => exact execReadFail_rangesKept n index s
  | error n code => exact .settle h.laneError
  | driveMalformedMessage n => exact .settle h.laneError
  | laneTimerExpiry n =>
    dsimp only [exec, execLaneTimerExpiry]
    split
    · exact h
    · split
      · exact .settle h.faultTimeout
      · exact .settle h.laneFault
  | transferCompletion =>
    dsimp only [exec, execTransferCompletion]
    split
    · exact h
    · split
      · exact True.intro
      · rw [nextHas_next]
        refine .settle (.oweGrant ?_)
        split
        · exact .raiseFetch (.deliverTransfer h.setChannel)
        · exact .deliverTransfer h.setChannel
  | armStepDone => exact execArmStepDone_rangesKept s
  | armDriverFault =>
    dsimp only [exec, execArmDriverFault]
    split
    · exact h
    · exact .settle h.armFaults
  | armStepTimeout =>
    dsimp only [exec, execArmStepTimeout]
    split
    · exact h
    · exact .settle h.armFaults
  | sensorScan readings order =>
    dsimp only [exec, execSensorScan]
    rw [nextHas_next]
    split
    · exact .deriveKey (.changeEvents _ (.countReadings _ h.setScans))
    · exact .changeEvents _ (.countReadings _ h.setScans)
  | trayDone disc =>
    dsimp only [exec, execTrayDone]
    split
    · exact .settle (.tryStartBand (.modPrinter h fun _ => by rfl))
    · rw [nextHas_next]
      refine .settle ?_
      split
      · exact h.endTrayOut
      · exact .modPrinter h fun _ => by rfl
    · exact h
  | bandDone band =>
    dsimp only [exec, execBandDone]
    split
    · split
      · exact h
      · exact .settle h.bandEnds
    · exact h
  | temp reading => exact execTemp_rangesKept reading s
  | printerError code => exact h.printerErrorTaken
  | printerMalformedReport => exact h.printerErrorTaken
  | printerTimeout =>
    dsimp only [exec, execPrinterTimeout]
    split
    · exact .settle h.printerFaults
    · exact h
  | bandWaitExpiry =>
    dsimp only [exec, execBandWaitExpiry]
    split
    · exact .modPrinter h.modDiscAt fun _ => by rfl
    · exact h

/-- A millisecond of the time base moves the timers alone (log 2). -/
theorem State.tick_rangesKept (s : State) : s.RangesKept false s.tick := by
  refine ⟨id, id, fun h₀ n => ?_, fun h₀ => ⟨?_, nofun⟩⟩
  · have hlane : s.tick.lanes[n] = { s.lanes[n] with timer := s.lanes[n].timer.map Timer.tick } := Vector.getElem_map _ n.isLt
    rw [hlane]
    exact h₀ n
  · rw [Arm.consistent_iff] at h₀ ⊢
    obtain ⟨htimer, hrest⟩ := h₀
    exact ⟨htimer.trans Option.isSome_map.symm, hrest⟩

/-- Every step keeps the records. -/
theorem step_rangesKept {s u : State} (h : step s = .next u) : s.RangesKept false u := by
  unfold step at h
  split at h
  · cases h
    exact s.tick_rangesKept
  · rename_i c rest _
    have hexec := nextHas_of_eq (exec_rangesKept c { s with pending := rest }) h
    exact ⟨hexec.ports, hexec.settings, hexec.lanes, hexec.arm⟩

/-- Settles O56: each command's meaning is a chain of operations that keep the ranges of the records, and lets the arm issue a step or
become IDLE only where it may take a step (`exec_rangesKept`). -/
theorem everyStepKeepsTheRecordsInRange : Obligations.EveryStepKeepsTheRecordsInRange := by
  refine ⟨⟨fun s u h₀ h => ?_, fun s u h₀ h => ?_, fun s u h₀ h => ?_⟩, fun s u h₀ h => ?_⟩
  · exact (step_rangesKept h).ports h₀
  · exact (step_rangesKept h).settings h₀
  · exact (step_rangesKept h).lanes h₀
  · exact ((step_rangesKept h).arm h₀).1

end Sys2Proof.Machine
end

