-- ==== Sys2Proof/Proofs/Settings.lean ====
section
/-! SET-FEED-BUDGET, SET-PRINT-PARAMS and SET-INK-CAPACITY (R103, R174, R175): each setting is clamped, and the REPLY carries what is
in force. -/

namespace Sys2Proof.Machine

/-- Clamping in the words of the statements, where the range is not empty. -/
theorem clampTo_eq_max_min {lo hi : Nat} (h : lo ≤ hi) (v : Nat) : clampTo lo hi v = max lo (min hi v) := by
  unfold clampTo
  split
  · omega
  · split <;> omega

/-- A command that is accepted with result data has its effect, with the follow-up computations owed, and its REPLY carries the data
(R181, R182). -/
theorem State.takeCommand_acceptedWith {s u : State} {p : Port} {r : CommandRecord} {code : Nat} {data : List Byte}
    {meaning : CommandRecord → State → Reply × State} (h : s.commandWaits p r code) (hm : meaning r s = acceptWith data u) :
    s.takeCommand p code meaning = u.settle.replied p ⟨.ok, data⟩ := by
  rw [State.takeCommand_waiting h, hm]
  rfl

/-- Likewise when the effect owes nothing. -/
theorem State.takeCommand_acceptedWith_settled {s u : State} {p : Port} {r : CommandRecord} {code : Nat} {data : List Byte}
    {meaning : CommandRecord → State → Reply × State} (hu : u.settled) (h : s.commandWaits p r code)
    (hm : meaning r s = acceptWith data u) : s.takeCommand p code meaning = u.replied p ⟨.ok, data⟩ := by
  rw [State.takeCommand_acceptedWith h hm, State.settle_of_settled hu]

theorem setFeedBudget_locked {s : State} (h : s.key = .lock) (r : CommandRecord) : setFeedBudget r s = refuse .keyLocked s :=
  if_pos h

/-- Outside LOCK the clamped budget is in force, and a start computation is owed (R103). -/
theorem setFeedBudget_unlocked {s : State} (h : s.key ≠ .lock) (r : CommandRecord) :
    setFeedBudget r s =
      let v := max 32768 (min 262144 (recordField r 2 4))
      acceptWith (leBytes 4 v) (s.setBudget v).oweStart := by
  rw [setFeedBudget, if_neg h, clampTo_eq_max_min (by decide)]

theorem setPrintParams_eq (r : CommandRecord) (s : State) :
    setPrintParams r s =
      let w0 := max 120 (min 260 (recordField r 2 2))
      let k := min 15 (recordByte r 4)
      let tref := max 40 (min 160 (recordByte r 5))
      acceptWith (leBytes 2 w0 ++ [BitVec.ofNat 8 k, BitVec.ofNat 8 tref])
        (s.modPrinter fun v => { v with w0 := w0, k := k, tref := tref }) := by
  rw [setPrintParams, clampTo_eq_max_min (by decide), clampTo_eq_max_min (by decide), clampTo_eq_max_min (by decide),
    Nat.zero_max]
  rfl

theorem setInkCapacity_eq (r : CommandRecord) (s : State) :
    setInkCapacity r s =
      let v := max 100 (min 60000 (recordField r 2 2))
      acceptWith (leBytes 2 v ++ inkBytes s.printer.levels) (s.modPrinter fun x => { x with capacity := v }) := by
  rw [setInkCapacity, clampTo_eq_max_min (by decide)]

/-- Settles O29: the key's check on SET-FEED-BUDGET, and the equation of each command; only the new budget owes a computation. -/
theorem settingsAreClamped : Obligations.SettingsAreClamped := by
  refine ⟨fun p r s hs hwaits => ?_, fun p r s hs => ⟨fun hwaits => ?_, fun hwaits => ?_⟩⟩
  · by_cases hkey : s.key = .lock
    · rw [if_pos hkey]
      exact congrArg _ (State.takeCommand_refused hs hwaits (setFeedBudget_locked hkey r))
    · rw [if_neg hkey]
      exact congrArg _ (State.takeCommand_acceptedWith hwaits (setFeedBudget_unlocked hkey r))
  · exact congrArg _ (State.takeCommand_acceptedWith_settled (by exact hs) hwaits (setPrintParams_eq r s))
  · exact congrArg _ (State.takeCommand_acceptedWith_settled (by exact hs) hwaits (setInkCapacity_eq r s))

end Sys2Proof.Machine
end

