-- ==== Sys2Proof/Proofs/CrcValues.lean ====
section
/-! The CRC-32 loses nothing (R116): each byte taken in keeps remainders apart. -/

namespace Sys2Proof.Machine

/-! ## CRC-32 (R116) -/

/-- The bit shifted out stands at the top of the shifted remainder: the polynomial sets it exactly when it was set. -/
theorem crcShift_top (r : Word32) : (crcShift r).getLsbD 31 = r.getLsbD 0 := by
  unfold crcShift
  split <;> simp_all

/-- A shift loses nothing of the remainder: the bit shifted out stands at the top, the others below it. -/
theorem crcShift_injective : Function.Injective crcShift := by
  intro r r' h
  have hbit : r.getLsbD 0 = r'.getLsbD 0 := by rw [← crcShift_top r, ← crcShift_top r', h]
  have hrest : r >>> 1 = r' >>> 1 := by
    unfold crcShift at h
    rw [hbit] at h
    split at h
    · exact (BitVec.xor_left_inj _).1 h
    · exact h
  refine BitVec.eq_of_getLsbD_eq fun i _ => ?_
  cases i with
  | zero => exact hbit
  | succ i => simpa [Nat.add_comm] using congrArg (·.getLsbD i) hrest

theorem crcShifts_injective (n : Nat) : Function.Injective (crcShifts n) := by
  induction n with
  | zero => exact fun _ _ h => h
  | succ n ih => exact ih.comp crcShift_injective

/-- A byte taken in loses nothing of the remainder before it. -/
theorem crcByte_injective (v : Byte) : Function.Injective fun r => crcByte r v :=
  fun _ _ h => (BitVec.xor_left_inj _).1 (crcShifts_injective 8 h)

/-- Two bytes leave two remainders. -/
theorem crcByte_byte_injective (r : Word32) : Function.Injective (crcByte r) := by
  intro a b h
  have hwide : a.zeroExtend 32 = b.zeroExtend 32 := (BitVec.xor_right_inj _).1 (crcShifts_injective 8 h)
  simpa using congrArg (BitVec.setWidth 8) hwide

theorem foldl_crcByte_injective (bytes : List Byte) : Function.Injective fun r => bytes.foldl crcByte r := by
  induction bytes with
  | nil => exact fun _ _ h => h
  | cons v rest ih => exact ih.comp (crcByte_injective v)

theorem crcFinish_injective : Function.Injective crcFinish := fun _ _ h => BitVec.not_inj.1 h

/-- Settles O43: the two remainders differ after the byte, and no byte after it brings them together. -/
theorem crcSeesEveryByte : Obligations.CrcSeesEveryByte := by
  intro before after a b hne h
  simp only [crc32, List.foldl_append, List.foldl_cons] at h
  exact hne (crcByte_byte_injective _ (foldl_crcByte_injective after (crcFinish_injective h)))

end Sys2Proof.Machine
end

