-- ==== Sys2Proof/Proofs/VerifySets.lean ====
section
/-! The verify set of R119, its indices and its size, and the channel that a grant puts it in. -/

namespace Sys2Proof.Machine

/-! ## Verify sets (R119) -/

/-- The set of a disc is formed from its own flag and its job's mode. -/
theorem State.verifySetFor_eq {s : State} {serial : Word32} {d : Disc} {j : Job} (hd : s.discOf serial = some d)
    (hj : s.jobOfOpt d.job = some j) : s.verifySetFor serial = verifySetOf d.forced j.verify s.images[j.image].segments := by
  simp only [State.verifySetFor, hd, hj]

theorem verifySetOf_full {forced : Bool} {mode : VerifyMode} (h : forced = true ∨ mode = .full) (segments : Nat) :
    verifySetOf forced mode segments = ⟨segments, none⟩ := by
  rcases h with rfl | rfl
  · rfl
  · cases forced <;> rfl

/-- A set without an interval is every index. -/
theorem VerifySet.mem_full (segments x : Nat) :
    (∃ a, a < (⟨segments, none⟩ : VerifySet).size ∧ (⟨segments, none⟩ : VerifySet).index a = x) ↔ x < segments :=
  ⟨fun ⟨_, ha, hx⟩ => hx ▸ ha, fun hx => ⟨x, hx, rfl⟩⟩

/-- A sample's indices: the multiples of the interval, and the last index behind them. -/
theorem VerifySet.index_sample (segments k a : Nat) : (⟨segments, some k⟩ : VerifySet).index a =
    if a ≤ (segments - 1) / k then a * k else segments - 1 := rfl

theorem VerifySet.size_sample (segments k : Nat) : (⟨segments, some k⟩ : VerifySet).size =
    (segments - 1) / k + 1 + if (segments - 1) % k = 0 then 0 else 1 := rfl

/-- A sample is index 0, the multiples of the interval, and the last index. -/
theorem VerifySet.mem_sample {segments : Nat} (hsegments : 0 < segments) (k x : Nat) :
    (∃ a, a < (⟨segments, some k⟩ : VerifySet).size ∧ (⟨segments, some k⟩ : VerifySet).index a = x) ↔
      x = 0 ∨ (x < segments ∧ x % k = 0) ∨ x = segments - 1 := by
  have multiple {x : Nat} (hx : x < segments) (hmod : x % k = 0) :
      ∃ a, a < (⟨segments, some k⟩ : VerifySet).size ∧ (⟨segments, some k⟩ : VerifySet).index a = x := by
    have hle : x / k ≤ (segments - 1) / k := Nat.div_le_div_right (by omega)
    refine ⟨x / k, ?_, ?_⟩
    · rw [VerifySet.size_sample]; omega
    · rw [VerifySet.index_sample, if_pos hle, Nat.div_mul_cancel (Nat.dvd_of_mod_eq_zero hmod)]
  constructor
  · rintro ⟨a, -, rfl⟩
    rw [VerifySet.index_sample]
    split
    · rename_i ha
      have hle : a * k ≤ segments - 1 := (Nat.mul_le_mul_right k ha).trans (Nat.div_mul_le_self _ _)
      exact .inr (.inl ⟨by omega, Nat.mul_mod_left a k⟩)
    · exact .inr (.inr rfl)
  · rintro (rfl | ⟨hx, hmod⟩ | rfl)
    · exact multiple hsegments (Nat.zero_mod k)
    · exact multiple hx hmod
    · by_cases hmod : (segments - 1) % k = 0
      · exact multiple (by omega) hmod
      · refine ⟨(segments - 1) / k + 1, ?_, ?_⟩
        · rw [VerifySet.size_sample, if_neg hmod]; omega
        · rw [VerifySet.index_sample, if_neg (by omega)]

/-- The indices of every set ascend. -/
theorem VerifySet.index_lt (v : VerifySet) {a b : Nat} (hab : a < b) (hb : b < v.size) : v.index a < v.index b := by
  obtain ⟨segments, interval⟩ := v
  cases interval with
  | none => exact hab
  | some k =>
    rw [VerifySet.size_sample] at hb
    rw [VerifySet.index_sample, VerifySet.index_sample]
    have hsplit := Nat.div_add_mod' (segments - 1) k
    by_cases hlast : b ≤ (segments - 1) / k
    · have hk : 0 < k := Nat.pos_of_ne_zero fun h => by simp [h] at hlast; omega
      rw [if_pos hlast, if_pos (by omega)]
      exact Nat.mul_lt_mul_of_pos_right hab hk
    · have hmod : (segments - 1) % k ≠ 0 := fun h => by rw [if_pos h] at hb; omega
      rw [if_neg hmod] at hb
      have hle : a * k ≤ (segments - 1) / k * k := Nat.mul_le_mul_right k (by omega)
      rw [if_neg hlast, if_pos (by omega)]
      omega

/-- The grant of a channel to a verify: the set and its first READs stand in it (R114, R120). -/
theorem State.startWork_verify_channel (s : State) (k : Fin 2) (n : LaneId) (serial : Word32) :
    (s.startWork k (.verify n serial)).crc[k] =
      .verify (s.verifySetFor serial) (min 4 (s.verifySetFor serial).size)
        ((List.range (min 4 (s.verifySetFor serial).size)).map (s.verifySetFor serial).index) 0 := by
  have hreads (l : List Nat) (t : State) : (State.sendReads n l t).crc = t.crc := by
    induction l generalizing t with
    | nil => rfl
    | cons i rest ih => exact ih _
  have hdisc (t : State) (f : Disc → Disc) : (t.modDiscAt (.tray n) f).crc = t.crc := by
    unfold State.modDiscAt; split <;> rfl
  rw [State.startWork_verify, hreads, State.modLane_crc, hdisc, State.setCrc_same]

/-- Settles O42: the grant puts the set in its channel (`startWork_verify_channel`); its indices ascend (`index_lt`) and are those of
`mem_full` or `mem_sample`. -/
theorem verifySetIsFormedAtTheGrant : Obligations.VerifySetIsFormedAtTheGrant := by
  intro s serial d j hd hj hsegments segments set
  have hset : set = verifySetOf d.forced j.verify segments := State.verifySetFor_eq hd hj
  refine ⟨fun k n => s.startWork_verify_channel k n serial, fun a b => set.index_lt, fun h => ?_,
    fun interval hforced hverify _ => ?_⟩
  · rw [hset, verifySetOf_full h]
    exact ⟨rfl, VerifySet.mem_full segments⟩
  · rw [hset, hforced, hverify]
    exact ⟨VerifySet.size_sample segments interval, VerifySet.mem_sample hsegments interval⟩

end Sys2Proof.Machine
end

