-- ==== Sys2Proof/Proofs/Channels.lean ====
section
/-! The CRC channels and the entries of the verify queue that hold them (R112 to R115): an entry joins without a channel,
leaves with the one it holds, and takes a FREE one when it is granted. -/

namespace Sys2Proof.Machine

/-! ## The queue and the channels -/

/-- A channel is held by one entry. -/
theorem entry_eq_of_channel {q : List VerifyEntry} (hq : (q.filterMap (·.channel)).Nodup) {e e' : VerifyEntry} (he : e ∈ q)
    (he' : e' ∈ q) {k : Fin 2} (hk : e.channel = some k) (hk' : e'.channel = some k) : e = e' := by
  by_contra hne
  have hsymm : Std.Symm fun a b : VerifyEntry => ∀ x, a.channel = some x → ∀ y, b.channel = some y → x ≠ y :=
    ⟨fun _ _ h x hx y hy => (h y hy x hx).symm⟩
  exact (List.pairwise_filterMap.1 hq).forall he he' hne k hk k hk' rfl

/-- An entry joins the queue without a channel (R113). -/
@[simp] theorem State.joinVerifyQueue_channels (s : State) (w : VerifyWork) :
    (s.joinVerifyQueue w).channelsMatch ↔ s.channelsMatch := by
  have hqueue : (s.joinVerifyQueue w).verifyQueue = s.verifyQueue ++ [(⟨w, none⟩ : VerifyEntry)] := rfl
  have hcrc : (s.joinVerifyQueue w).crc = s.crc := rfl
  simp [State.channelsMatch, hqueue, hcrc, or_imp, forall_and]

/-- Entries that leave the queue take their channels out of it, and only these are released (R115). -/
@[simp] theorem State.leaveVerifyQueue_channels {s : State} (h : s.channelsMatch) (leaves : VerifyEntry → Bool) :
    (s.leaveVerifyQueue leaves).channelsMatch := by
  obtain ⟨hnodup, hfree⟩ := h
  have hqueue : (s.leaveVerifyQueue leaves).verifyQueue = s.verifyQueue.filter fun e => !leaves e :=
    congrArg State.verifyQueue (s.leaveVerifyQueue_eq leaves)
  refine ⟨?_, fun k => ?_⟩
  · rw [hqueue]
    exact hnodup.sublist (List.filter_sublist.filterMap _)
  · obtain ⟨hreleased, hkept⟩ := s.leaveVerifyQueue_crc leaves k
    simp only [hqueue, List.mem_filter, Bool.not_eq_true', and_imp]
    by_cases hk : ∃ e ∈ s.verifyQueue, leaves e = true ∧ e.channel = some k
    · refine iff_of_true (hreleased hk) fun e he hstays hke => ?_
      obtain ⟨e', he', hleaves, hke'⟩ := hk
      rw [entry_eq_of_channel hnodup he he' hke hke', hleaves] at hstays
      cases hstays
    · have hothers : ∀ e ∈ s.verifyQueue, leaves e = true → e.channel ≠ some k := fun e he hl hke => hk ⟨e, he, hl, hke⟩
      rw [hkept hothers, hfree k]
      refine ⟨fun h e he _ => h e he, fun h e he => ?_⟩
      cases hl : leaves e with
      | true => exact hothers e he hl
      | false => exact h e he hl

/-- A channel at work may go on with its work. -/
theorem State.setCrc_channels {s : State} (h : s.channelsMatch) {k : Fin 2} {v : CrcChannel} (hk : s.crc[k] ≠ .free)
    (hv : v ≠ .free) : (s.setCrc k v).channelsMatch := by
  obtain ⟨hnodup, hfree⟩ := h
  refine ⟨hnodup, fun m => ?_⟩
  rw [State.setCrc_verifyQueue, ← hfree m]
  by_cases hm : m = k
  · subst hm
    rw [State.setCrc_same]
    exact iff_of_false hv hk
  · rw [State.setCrc_other _ _ _ _ hm]

/-- The oldest waiting entry takes the FREE channel, which begins its work (R114). -/
theorem State.grant_channels {s : State} (h : s.channelsMatch) {c : Fin 2} {v : CrcChannel} (hc : s.crc[c] = .free)
    (hv : v ≠ .free) {before after : List VerifyEntry} {e : VerifyEntry} (hqueue : s.verifyQueue = before ++ e :: after)
    (he : e.channel = none) :
    ((s.setVerifyQueue (before ++ { e with channel := some c } :: after)).setCrc c v).channelsMatch := by
  obtain ⟨hnodup, hfree⟩ := h
  have hunheld := (hfree c).1 hc
  rw [hqueue] at hnodup hfree hunheld
  refine ⟨?_, fun m => ?_⟩
  · rw [List.filterMap_append, List.filterMap_cons_none he, ← List.filterMap_append] at hnodup
    have hgranted : ({ e with channel := some c } :: after).filterMap (·.channel) = c :: after.filterMap (·.channel) := rfl
    rw [State.setCrc_verifyQueue, State.setVerifyQueue_verifyQueue, List.filterMap_append, hgranted, List.nodup_middle,
      ← List.filterMap_append, List.nodup_cons]
    refine ⟨fun hmem => ?_, hnodup⟩
    obtain ⟨x, hx, hxc⟩ := List.mem_filterMap.1 hmem
    exact hunheld x (List.mem_append.2 ((List.mem_append.1 hx).imp_right (List.mem_cons_of_mem e))) hxc
  · rw [State.setCrc_verifyQueue, State.setVerifyQueue_verifyQueue]
    by_cases hm : m = c
    · subst hm
      rw [State.setCrc_same]
      exact iff_of_false hv fun h => h _ (List.mem_append_right _ List.mem_cons_self) rfl
    · rw [State.setCrc_other _ _ _ _ hm, State.setVerifyQueue_crc, hfree m]
      simp [or_imp, forall_and, he, Ne.symm hm]

/-- A grant is that of the first entry that holds no channel. -/
theorem grantOldest_eq_some {c : Fin 2} {q q' : List VerifyEntry} {w : VerifyWork} (h : grantOldest c q = some (q', w)) :
    ∃ before e after, q = before ++ e :: after ∧ e.channel = none ∧ q' = before ++ { e with channel := some c } :: after := by
  induction q generalizing q' with
  | nil => cases h
  | cons x rest ih =>
    rw [grantOldest] at h
    split at h
    · rename_i hx
      cases h
      exact ⟨[], x, rest, rfl, Option.isNone_iff_eq_none.1 hx, rfl⟩
    · obtain ⟨⟨r, _⟩, hrest, hr⟩ := Option.map_eq_some_iff.1 h
      cases hr
      obtain ⟨before, e, after, rfl, he, rfl⟩ := ih hrest
      exact ⟨x :: before, e, after, rfl, he, rfl⟩

/-- The lowest FREE channel is FREE. -/
theorem State.freeChannel_free {s : State} {c : Fin 2} (h : s.freeChannel = some c) : s.crc[c] = .free := by
  unfold State.freeChannel at h
  split at h
  · cases h; assumption
  · split at h
    · cases h; assumption
    · cases h

end Sys2Proof.Machine
end

