-- ==== Sys2Proof/Proofs/ChannelFrames.lean ====
section
/-! The operations that leave the verify queue and the CRC channels alone: one frame lemma for each, in the order of their
definitions. -/

namespace Sys2Proof.Machine

/-! ## Changes of one field, messages and timers -/

section
variable (s : State)

@[simp] theorem State.modPort_channels (p : Port) (f : PortRecord → PortRecord) :
    (s.modPort p f).channelsMatch ↔ s.channelsMatch := Iff.rfl
@[simp] theorem State.modImage_channels (i : ImageId) (f : ImageSlot → ImageSlot) :
    (s.modImage i f).channelsMatch ↔ s.channelsMatch := Iff.rfl
@[simp] theorem State.modArtwork_channels (i : ArtworkId) (f : ArtworkSlot → ArtworkSlot) :
    (s.modArtwork i f).channelsMatch ↔ s.channelsMatch := Iff.rfl
@[simp] theorem State.modLane_channels (n : LaneId) (f : Lane → Lane) :
    (s.modLane n f).channelsMatch ↔ s.channelsMatch := Iff.rfl
@[simp] theorem State.setJobEntry_channels (i : TableId) (e : JobEntry) :
    (s.setJobEntry i e).channelsMatch ↔ s.channelsMatch := Iff.rfl
@[simp] theorem State.setDisc_channels (i : TableId) (d : Option Disc) :
    (s.setDisc i d).channelsMatch ↔ s.channelsMatch := Iff.rfl
@[simp] theorem State.modArm_channels (f : Arm → Arm) : (s.modArm f).channelsMatch ↔ s.channelsMatch := Iff.rfl
@[simp] theorem State.modPrinter_channels (f : Printer → Printer) : (s.modPrinter f).channelsMatch ↔ s.channelsMatch := Iff.rfl
@[simp] theorem State.setPool_channels (v : List Extent) : (s.setPool v).channelsMatch ↔ s.channelsMatch := Iff.rfl
@[simp] theorem State.setRotation_channels (v : Port) : (s.setRotation v).channelsMatch ↔ s.channelsMatch := Iff.rfl
@[simp] theorem State.setStartQueue_channels (v : List LaneId) : (s.setStartQueue v).channelsMatch ↔ s.channelsMatch := Iff.rfl
@[simp] theorem State.setChannel_channels (v : Option Transfer) : (s.setChannel v).channelsMatch ↔ s.channelsMatch := Iff.rfl
@[simp] theorem State.setDue_channels (v : Due) : (s.setDue v).channelsMatch ↔ s.channelsMatch := Iff.rfl
@[simp] theorem State.oweClaim_channels : s.oweClaim.channelsMatch ↔ s.channelsMatch := Iff.rfl
@[simp] theorem State.oweStart_channels : s.oweStart.channelsMatch ↔ s.channelsMatch := Iff.rfl
@[simp] theorem State.oweArm_channels : s.oweArm.channelsMatch ↔ s.channelsMatch := Iff.rfl
@[simp] theorem State.oweSelect_channels : s.oweSelect.channelsMatch ↔ s.channelsMatch := Iff.rfl
@[simp] theorem State.oweGrant_channels : s.oweGrant.channelsMatch ↔ s.channelsMatch := Iff.rfl
@[simp] theorem State.emit_channels (o : Output) : (s.emit o).channelsMatch ↔ s.channelsMatch := Iff.rfl
@[simp] theorem State.answer_channels (p : Port) (bytes : List Byte) :
    (s.answer p bytes).channelsMatch ↔ s.channelsMatch := Iff.rfl
@[simp] theorem State.sendDrive_channels (n : LaneId) (v : DriveMessage) :
    (s.sendDrive n v).channelsMatch ↔ s.channelsMatch := Iff.rfl
@[simp] theorem State.sendPrinter_channels (v : PrinterMessage) : (s.sendPrinter v).channelsMatch ↔ s.channelsMatch := Iff.rfl
@[simp] theorem State.notify_channels (p : Port) (v : Notice) : (s.notify p v).channelsMatch ↔ s.channelsMatch := Iff.rfl
@[simp] theorem State.startTimer_channels (n : LaneId) (limit : Nat) :
    (s.startTimer n limit).channelsMatch ↔ s.channelsMatch := Iff.rfl
@[simp] theorem State.stopTimer_channels (n : LaneId) : (s.stopTimer n).channelsMatch ↔ s.channelsMatch := Iff.rfl
@[simp] theorem State.restartTimer_channels (n : LaneId) : (s.restartTimer n).channelsMatch ↔ s.channelsMatch := Iff.rfl
@[simp] theorem State.queueRequest_channels (kind : RequestKind) (n : Option LaneId) (cls : Option MediaClass) :
    (s.queueRequest kind n cls).channelsMatch ↔ s.channelsMatch := Iff.rfl
@[simp] theorem State.dropRequest_channels (age : Nat) : (s.dropRequest age).channelsMatch ↔ s.channelsMatch := Iff.rfl
@[simp] theorem State.modRequest_channels (age : Nat) (f : Request → Request) :
    (s.modRequest age f).channelsMatch ↔ s.channelsMatch := Iff.rfl
@[simp] theorem State.disown_channels (p : TransferTo → Bool) : (s.disown p).channelsMatch ↔ s.channelsMatch := Iff.rfl
@[simp] theorem State.dropLaneChunk_channels (n : LaneId) : (s.dropLaneChunk n).channelsMatch ↔ s.channelsMatch := Iff.rfl
@[simp] theorem State.sendAbort_channels (n : LaneId) : (s.sendAbort n).channelsMatch ↔ s.channelsMatch := Iff.rfl
@[simp] theorem State.enterProbing_channels (n : LaneId) : (s.enterProbing n).channelsMatch ↔ s.channelsMatch := Iff.rfl
@[simp] theorem State.enterFeedWait_channels (n : LaneId) : (s.enterFeedWait n).channelsMatch ↔ s.channelsMatch := Iff.rfl
@[simp] theorem State.enterIdle_channels (n : LaneId) : (s.enterIdle n).channelsMatch ↔ s.channelsMatch := Iff.rfl
@[simp] theorem State.chargeLane_channels (n : LaneId) : (s.chargeLane n).channelsMatch ↔ s.channelsMatch := Iff.rfl
@[simp] theorem State.returnPages_channels (pages : List Extent) :
    (s.returnPages pages).channelsMatch ↔ s.channelsMatch := Iff.rfl
@[simp] theorem State.freeImage_channels (i : ImageId) : (s.freeImage i).channelsMatch ↔ s.channelsMatch := Iff.rfl
@[simp] theorem State.freeArtwork_channels (i : ArtworkId) : (s.freeArtwork i).channelsMatch ↔ s.channelsMatch := Iff.rfl
@[simp] theorem State.releaseImage_channels (i : ImageId) : (s.releaseImage i).channelsMatch ↔ s.channelsMatch := Iff.rfl
@[simp] theorem State.releaseArtwork_channels (i : ArtworkId) : (s.releaseArtwork i).channelsMatch ↔ s.channelsMatch := Iff.rfl
@[simp] theorem State.closeStream_channels (p : Port) : (s.closeStream p).channelsMatch ↔ s.channelsMatch := Iff.rfl
@[simp] theorem State.enterTrayOut_channels : s.enterTrayOut.channelsMatch ↔ s.channelsMatch := Iff.rfl
@[simp] theorem State.lowerRanks_channels (rank : Nat) : (s.lowerRanks rank).channelsMatch ↔ s.channelsMatch := Iff.rfl
@[simp] theorem State.setMem_channels (v : List Host.Cell) : (s.setMem v).channelsMatch ↔ s.channelsMatch := Iff.rfl
@[simp] theorem State.setSerial_channels (v : Word32) : (s.setSerial v).channelsMatch ↔ s.channelsMatch := Iff.rfl
@[simp] theorem State.setOutputFull_channels (v : Bool) : (s.setOutputFull v).channelsMatch ↔ s.channelsMatch := Iff.rfl
@[simp] theorem State.setRejectFull_channels (v : Bool) : (s.setRejectFull v).channelsMatch ↔ s.channelsMatch := Iff.rfl
@[simp] theorem State.setScans_channels (v : Nat) : (s.setScans v).channelsMatch ↔ s.channelsMatch := Iff.rfl
@[simp] theorem State.setKey_channels (v : KeyPosition) : (s.setKey v).channelsMatch ↔ s.channelsMatch := Iff.rfl
@[simp] theorem State.modSensor_channels (v : Sensor) (f : SensorRecord → SensorRecord) :
    (s.modSensor v f).channelsMatch ↔ s.channelsMatch := Iff.rfl

end

@[simp] theorem State.modBin_channels (s : State) (which : Bin) (f : BinRecord → BinRecord) :
    (s.modBin which f).channelsMatch ↔ s.channelsMatch := by
  cases which <;> rfl

/-! ### Notices, requests, queues and lanes (R45, R68 to R89, R185) -/

@[simp] theorem State.notifyOpt_channels (s : State) (p : Option Port) (v : Notice) :
    (s.notifyOpt p v).channelsMatch ↔ s.channelsMatch := by
  unfold State.notifyOpt; split <;> simp

@[simp] theorem State.raiseTo_channels (g : Group) (v : Notice) (l : List Port) (s : State) :
    (State.raiseTo g v l s).channelsMatch ↔ s.channelsMatch := by
  induction l generalizing s with
  | nil => rfl
  | cons x rest ih => unfold State.raiseTo; split <;> simp [ih]

@[simp] theorem State.raise_channels (s : State) (g : Group) (v : Notice) :
    (s.raise g v).channelsMatch ↔ s.channelsMatch := by simp [State.raise]

@[simp] theorem State.modJob_channels (s : State) (h : Handle) (f : Job → Job) :
    (s.modJob h f).channelsMatch ↔ s.channelsMatch := by
  unfold State.modJob; split <;> simp

@[simp] theorem State.modDiscAt_channels (s : State) (loc : Location) (f : Disc → Disc) :
    (s.modDiscAt loc f).channelsMatch ↔ s.channelsMatch := by
  unfold State.modDiscAt; split <;> simp

@[simp] theorem State.queueUnload_channels (s : State) (n : LaneId) : (s.queueUnload n).channelsMatch ↔ s.channelsMatch := by
  unfold State.queueUnload; split <;> simp

@[simp] theorem State.leaveStartQueue_channels (s : State) (n : LaneId) :
    (s.leaveStartQueue n).channelsMatch ↔ s.channelsMatch := by
  unfold State.leaveStartQueue; split <;> simp

@[simp] theorem State.laneLeavesJob_channels (s : State) (n : LaneId) : (s.laneLeavesJob n).channelsMatch ↔ s.channelsMatch := by
  unfold State.laneLeavesJob; split <;> simp

@[simp] theorem State.sendTray_channels (s : State) (n : LaneId) (v : TrayCommand) :
    (s.sendTray n v).channelsMatch ↔ s.channelsMatch := by
  unfold State.sendTray; split <;> simp

@[simp] theorem State.releaseTray_channels (s : State) (n : LaneId) : (s.releaseTray n).channelsMatch ↔ s.channelsMatch := by
  unfold State.releaseTray; split <;> simp

@[simp] theorem State.enterOpening_channels (s : State) (n : LaneId) (v : TrayPurpose) :
    (s.enterOpening n v).channelsMatch ↔ s.channelsMatch := by simp [State.enterOpening]

@[simp] theorem State.enterClosing_channels (s : State) (n : LaneId) (v : Option TrayPurpose) :
    (s.enterClosing n v).channelsMatch ↔ s.channelsMatch := by simp [State.enterClosing]

@[simp] theorem State.enterDone_channels (s : State) (n : LaneId) :
    (s.enterDone n).channelsMatch ↔ s.channelsMatch := by simp [State.enterDone]

@[simp] theorem State.quarantineLane_channels (s : State) (n : LaneId) :
    (s.quarantineLane n).channelsMatch ↔ s.channelsMatch := by simp [State.quarantineLane]

@[simp] theorem State.unprintedReturn_channels (s : State) :
    s.unprintedReturn.channelsMatch ↔ s.channelsMatch := by simp [State.unprintedReturn]

/-! ### Jobs and claims (R27, R40, R43 to R47) -/

@[simp] theorem State.endJob_channels (s : State) (h : Handle) (result : JobResult) :
    (s.endJob h result).channelsMatch ↔ s.channelsMatch := by
  unfold State.endJob; (repeat' split) <;> simp

@[simp] theorem State.drainCheck_channels (s : State) (h : Handle) : (s.drainCheck h).channelsMatch ↔ s.channelsMatch := by
  unfold State.drainCheck; (repeat' split) <;> simp

@[simp] theorem State.claim_channels (s : State) (h : Handle) (j : Job) (n : LaneId) :
    (s.claim h j n).channelsMatch ↔ s.channelsMatch := by
  unfold State.claim; dsimp only; split <;> simp

theorem State.claimOne_channels {s t : State} (h : s.claimOne = some t) : t.channelsMatch ↔ s.channelsMatch := by
  unfold State.claimOne at h
  split at h
  · cases h
  · obtain ⟨n, -, rfl⟩ := Option.map_eq_some_iff.1 h
    simp

@[simp] theorem State.claimRounds_channels (k : Nat) (s : State) : (State.claimRounds k s).channelsMatch ↔ s.channelsMatch := by
  induction k generalizing s with
  | zero => rfl
  | succ k ih =>
    unfold State.claimRounds
    split
    · rfl
    · rename_i t ht
      exact (ih t).trans (State.claimOne_channels ht)

@[simp] theorem State.claimAttempt_channels (s : State) : s.claimAttempt.channelsMatch ↔ s.channelsMatch := by
  simp [State.claimAttempt]

@[simp] theorem State.offerBlank_channels (s : State) (n : LaneId) (h : Handle) :
    (s.offerBlank n h).channelsMatch ↔ s.channelsMatch := by
  unfold State.offerBlank; dsimp only; split <;> simp

@[simp] theorem State.withdrawClaim_channels (s : State) (h : Handle) (n : LaneId) :
    (s.withdrawClaim h n).channelsMatch ↔ s.channelsMatch := by
  unfold State.withdrawClaim; (repeat' split) <;> simp

@[simp] theorem State.drainLane_channels (s : State) (h : Handle) (n : LaneId) :
    (s.drainLane h n).channelsMatch ↔ s.channelsMatch := by
  unfold State.drainLane; (repeat' split) <;> simp

@[simp] theorem State.killDisc_channels (s : State) (n : LaneId) :
    (s.killDisc n).channelsMatch ↔ s.channelsMatch := by simp [State.killDisc]

@[simp] theorem State.killAtPrinter_channels (s : State) (h : Handle) : (s.killAtPrinter h).channelsMatch ↔ s.channelsMatch := by
  unfold State.killAtPrinter; split <;> simp

/-! ### Loads and streams (R8 to R10, R18, R22, R29) -/

@[simp] theorem State.acceptImageLoad_channels (s : State) (i : ImageId) (p : Port) (source : LoadSource) (cls : MediaClass)
    (size : Nat) (noExport : Bool) : (s.acceptImageLoad i p source cls size noExport).channelsMatch ↔ s.channelsMatch := by
  unfold State.acceptImageLoad; dsimp only; split <;> simp

@[simp] theorem State.activateRanks_channels (i : ImageId) (l : List Nat) (s : State) :
    (State.activateRanks i l s).channelsMatch ↔ s.channelsMatch := by
  induction l generalizing s with
  | nil => rfl
  | cons r rest ih => unfold State.activateRanks; split <;> simp [ih]

@[simp] theorem State.sourceLaneEnds_channels (s : State) (n : LaneId) (early : Bool) :
    (s.sourceLaneEnds n early).channelsMatch ↔ s.channelsMatch := by
  unfold State.sourceLaneEnds; (repeat' split) <;> simp

@[simp] theorem State.loadSourceEnds_channels (s : State) (v : ImageSlot) (early : Bool) :
    (s.loadSourceEnds v early).channelsMatch ↔ s.channelsMatch := by
  unfold State.loadSourceEnds; (repeat' split) <;> simp

@[simp] theorem State.failJobsOf_channels (i : ImageId) (l : List TableId) (s : State) :
    (State.failJobsOf i l s).channelsMatch ↔ s.channelsMatch := by
  induction l generalizing s with
  | nil => rfl
  | cons k rest ih => rw [State.failJobsOf, ih]; (repeat' split) <;> simp

@[simp] theorem State.failArtworkLoad_channels (s : State) (i : ArtworkId) :
    (s.failArtworkLoad i).channelsMatch ↔ s.channelsMatch := by
  unfold State.failArtworkLoad; dsimp only; (repeat' split) <;> simp

@[simp] theorem State.endOutbound_channels (s : State) (p : Port) : (s.endOutbound p).channelsMatch ↔ s.channelsMatch := by
  unfold State.endOutbound; (repeat' split) <;> simp

@[simp] theorem State.failArtworkLoads_channels (l : List ArtworkId) (s : State) :
    (State.failArtworkLoads l s).channelsMatch ↔ s.channelsMatch := by
  induction l generalizing s with
  | nil => rfl
  | cons x rest ih => simp [State.failArtworkLoads, ih]

@[simp] theorem State.endOutbounds_channels (l : List Port) (s : State) :
    (State.endOutbounds l s).channelsMatch ↔ s.channelsMatch := by
  induction l generalizing s with
  | nil => rfl
  | cons x rest ih => simp [State.endOutbounds, ih]

/-! ### Faults of lanes and discs that come or go (R48, R86, R87, R142) -/

@[simp] theorem State.claimEnds_channels (s : State) (n : LaneId) : (s.claimEnds n).channelsMatch ↔ s.channelsMatch := by
  unfold State.claimEnds; (repeat' split) <;> simp

@[simp] theorem State.divertFeed_channels (s : State) (n : LaneId) (r : Request) :
    (s.divertFeed n r).channelsMatch ↔ s.channelsMatch := by
  simp [State.divertFeed]

@[simp] theorem State.faultUnload_channels (s : State) (n : LaneId) : (s.faultUnload n).channelsMatch ↔ s.channelsMatch := by
  unfold State.faultUnload; split <;> simp

@[simp] theorem State.faultClaim_channels (s : State) (n : LaneId) (stood : LaneState) (purpose : Option TrayPurpose) :
    (s.faultClaim n stood purpose).channelsMatch ↔ s.channelsMatch := by
  unfold State.faultClaim; (repeat' split) <;> simp

@[simp] theorem State.failTrayDisc_channels (s : State) (n : LaneId) : (s.failTrayDisc n).channelsMatch ↔ s.channelsMatch := by
  unfold State.failTrayDisc; (repeat' split) <;> simp

@[simp] theorem State.lanePicked_channels (s : State) (n : LaneId) : (s.lanePicked n).channelsMatch ↔ s.channelsMatch := by
  unfold State.lanePicked; dsimp only; split <;> simp

@[simp] theorem State.feedDiscGone_channels (s : State) (n : LaneId) : (s.feedDiscGone n).channelsMatch ↔ s.channelsMatch := by
  unfold State.feedDiscGone; split <;> simp

/-! ### Reads, starts and grants of the read channel (R75, R84, R100, R108, R120) -/

@[simp] theorem State.sendReads_channels (n : LaneId) (l : List Nat) (s : State) :
    (State.sendReads n l s).channelsMatch ↔ s.channelsMatch := by
  induction l generalizing s with
  | nil => rfl
  | cons x rest ih => simp [State.sendReads, ih]

@[simp] theorem State.loadBegins_channels (s : State) (i : ImageId) : (s.loadBegins i).channelsMatch ↔ s.channelsMatch := Iff.rfl

@[simp] theorem State.startLane_channels (s : State) (n : LaneId) (speed : Nat) :
    (s.startLane n speed).channelsMatch ↔ s.channelsMatch := by simp [State.startLane]

@[simp] theorem State.startScan_channels (l : List LaneId) (s : State) :
    (State.startScan l s).channelsMatch ↔ s.channelsMatch := by
  induction l generalizing s with
  | nil => rfl
  | cons x rest ih => unfold State.startScan; split <;> simp [ih]

@[simp] theorem State.startComputation_channels (s : State) :
    s.startComputation.channelsMatch ↔ s.channelsMatch := by simp [State.startComputation]

@[simp] theorem State.grantTo_channels (s : State) (r : Requester) : (s.grantTo r).channelsMatch ↔ s.channelsMatch := by
  unfold State.grantTo; (repeat' split) <;> simp

@[simp] theorem State.chooseGrant_channels (s : State) : s.chooseGrant.channelsMatch ↔ s.channelsMatch := by
  unfold State.chooseGrant; (repeat' split) <;> simp

/-! ### The printer (R159 to R172) -/

@[simp] theorem State.raiseFetch_channels (s : State) : s.raiseFetch.channelsMatch ↔ s.channelsMatch := by
  unfold State.raiseFetch; dsimp only; (repeat' split) <;> simp

@[simp] theorem State.printerFaults_channels (s : State) (cause : PrinterCause) :
    (s.printerFaults cause).channelsMatch ↔ s.channelsMatch := by simp [State.printerFaults]

@[simp] theorem State.startBand_channels (s : State) (which : BufferId) :
    (s.startBand which).channelsMatch ↔ s.channelsMatch := Iff.rfl

@[simp] theorem State.tryStartBand_channels (s : State) : s.tryStartBand.channelsMatch ↔ s.channelsMatch := by
  unfold State.tryStartBand; dsimp only; (repeat' split) <;> simp

@[simp] theorem State.enterTrayIn_channels (s : State) :
    s.enterTrayIn.channelsMatch ↔ s.channelsMatch := by simp [State.enterTrayIn]

@[simp] theorem State.inkCheck_channels (s : State) : s.inkCheck.channelsMatch ↔ s.channelsMatch := by
  unfold State.inkCheck; (repeat' split) <;> simp

@[simp] theorem State.lowInkBlack_channels (s : State) : s.lowInkBlack.channelsMatch ↔ s.channelsMatch := by
  unfold State.lowInkBlack; split <;> simp

@[simp] theorem State.lowInkColour_channels (s : State) : s.lowInkColour.channelsMatch ↔ s.channelsMatch := by
  unfold State.lowInkColour; split <;> simp

@[simp] theorem State.completeLabel_channels (s : State) :
    s.completeLabel.channelsMatch ↔ s.channelsMatch := by simp [State.completeLabel]

@[simp] theorem State.endTrayOut_channels (s : State) (disc : Bool) : (s.endTrayOut disc).channelsMatch ↔ s.channelsMatch := by
  unfold State.endTrayOut; (repeat' split) <;> simp

@[simp] theorem State.printerCleared_channels (s : State) : s.printerCleared.channelsMatch ↔ s.channelsMatch := Iff.rfl

/-! ### The arm (R127 to R141) -/

@[simp] theorem State.issueStep_channels (s : State) (v : ArmStep) : (s.issueStep v).channelsMatch ↔ s.channelsMatch := by
  unfold State.issueStep; split <;> simp

@[simp] theorem State.issueBinPick_channels (s : State) : s.issueBinPick.channelsMatch ↔ s.channelsMatch := by
  unfold State.issueBinPick; split <;> simp

theorem State.goTo_channels (s : State) (p : Position) (next : State → State)
    (h : ∀ t, (next t).channelsMatch ↔ t.channelsMatch) : (s.goTo p next).channelsMatch ↔ s.channelsMatch := by
  unfold State.goTo; split <;> simp [h]

@[simp] theorem State.armToIdle_channels (s : State) : s.armToIdle.channelsMatch ↔ s.channelsMatch := Iff.rfl

@[simp] theorem State.setAside_channels (s : State) : s.setAside.channelsMatch ↔ s.channelsMatch := by
  simp [State.setAside]

@[simp] theorem State.deliver_channels (s : State) (d : Destination) : (s.deliver d).channelsMatch ↔ s.channelsMatch := by
  unfold State.deliver; cases d <;> refine State.goTo_channels _ _ _ fun t => ?_ <;> split <;> simp

@[simp] theorem State.pickFromBin_channels (s : State) (which : Bin) : (s.pickFromBin which).channelsMatch ↔ s.channelsMatch := by
  unfold State.pickFromBin; refine State.goTo_channels _ _ _ fun t => ?_; dsimp only; (repeat' split) <;> simp

@[simp] theorem State.deliverFeed_channels (s : State) (r : Request) : (s.deliverFeed r).channelsMatch ↔ s.channelsMatch := by
  unfold State.deliverFeed; split
  · simp
  · split
    · simp
    · simp
    · exact State.goTo_channels _ _ _ fun t => by split <;> simp

@[simp] theorem State.armNext_channels (s : State) : s.armNext.channelsMatch ↔ s.channelsMatch := by
  unfold State.armNext; split
  · split
    · simp
    · simp
    · simp
    · exact State.goTo_channels _ _ _ fun t => by split <;> simp
    · simp
    · exact State.goTo_channels _ _ _ fun t => by simp
  · (repeat' split) <;> simp

@[simp] theorem State.armContinue_channels (s : State) : s.armContinue.channelsMatch ↔ s.channelsMatch := by
  unfold State.armContinue; split <;> simp

@[simp] theorem State.tellSelected_channels (s : State) (r : Request) : (s.tellSelected r).channelsMatch ↔ s.channelsMatch := by
  unfold State.tellSelected; (repeat' split) <;> simp

@[simp] theorem State.takeUp_channels (s : State) (r : Request) : (s.takeUp r).channelsMatch ↔ s.channelsMatch := by
  unfold State.takeUp; dsimp only; split <;> simp

@[simp] theorem State.select_channels (s : State) : s.select.channelsMatch ↔ s.channelsMatch := by
  unfold State.select; (repeat' split) <;> simp

@[simp] theorem State.pickedUp_channels (s : State) (loc : Location) (age : Option Nat) :
    (s.pickedUp loc age).channelsMatch ↔ s.channelsMatch := by
  unfold State.pickedUp; (repeat' split) <;> simp

@[simp] theorem State.followPick_channels (s : State) : s.followPick.channelsMatch ↔ s.channelsMatch := by
  unfold State.followPick; (repeat' split) <;> simp

/-! ### Follow-up computations, and the events of links, operators, drives, the arm and the sensors -/

theorem State.when_channels (s : State) (owed : Bool) (f : State → State) (h : ∀ t, (f t).channelsMatch ↔ t.channelsMatch) :
    (s.when owed f).channelsMatch ↔ s.channelsMatch := by
  unfold State.when; split <;> simp [h]

@[simp] theorem State.settleChannel_channels (s : State) : s.settleChannel.channelsMatch ↔ s.channelsMatch := by
  simp [State.settleChannel, State.when_channels]

@[simp] theorem State.streamReceives_channels (s : State) (v : Stream) (k : Nat) :
    (s.streamReceives v k).channelsMatch ↔ s.channelsMatch := by
  cases v <;> rfl

@[simp] theorem State.readOutbound_channels (s : State) (p : Port) (slot : ImageId) (position : Nat) (buffer : List Byte)
    (k : Nat) : (s.readOutbound p slot position buffer k).channelsMatch ↔ s.channelsMatch := by
  unfold State.readOutbound; (repeat' split) <;> simp

@[simp] theorem State.clearOutstanding_channels (s : State) (p : Port) :
    (s.clearOutstanding p).channelsMatch ↔ s.channelsMatch := Iff.rfl

@[simp] theorem State.openInFault_channels (s : State) (n : LaneId) : (s.openInFault n).channelsMatch ↔ s.channelsMatch := by
  unfold State.openInFault; split <;> simp

@[simp] theorem State.closeInFault_channels (s : State) (n : LaneId) :
    (s.closeInFault n).channelsMatch ↔ s.channelsMatch := by simp [State.closeInFault]

@[simp] theorem State.bringOnline_channels (s : State) (n : LaneId) : (s.bringOnline n).channelsMatch ↔ s.channelsMatch := by
  unfold State.bringOnline; dsimp only; (repeat' split) <;> simp

@[simp] theorem State.takeOffline_channels (s : State) (n : LaneId) : (s.takeOffline n).channelsMatch ↔ s.channelsMatch := Iff.rfl

@[simp] theorem State.faultTray_channels (s : State) (n : LaneId) (pos : TrayPosition) :
    (s.faultTray n pos).channelsMatch ↔ s.channelsMatch := by
  unfold State.faultTray; (repeat' split) <;> simp

@[simp] theorem State.closedByOperator_channels (s : State) (n : LaneId) :
    (s.closedByOperator n).channelsMatch ↔ s.channelsMatch := by
  simp [State.closedByOperator]

@[simp] theorem State.closedAfterPick_channels (s : State) (n : LaneId) :
    (s.closedAfterPick n).channelsMatch ↔ s.channelsMatch := by
  unfold State.closedAfterPick; (repeat' split) <;> simp

@[simp] theorem State.restingTray_channels (s : State) (n : LaneId) (pos : TrayPosition) :
    (s.restingTray n pos).channelsMatch ↔ s.channelsMatch := by
  unfold State.restingTray; split <;> simp

@[simp] theorem State.probeUnrecorded_channels (s : State) (n : LaneId) (report : MediaReport) :
    (s.probeUnrecorded n report).channelsMatch ↔ s.channelsMatch := by
  unfold State.probeUnrecorded; dsimp only; (repeat' split) <;> simp

@[simp] theorem State.finalize_channels (s : State) (n : LaneId) :
    (s.finalize n).channelsMatch ↔ s.channelsMatch := by simp [State.finalize]

@[simp] theorem State.takeCredit_channels (s : State) (n : LaneId) (freed committed : Nat) :
    (s.takeCredit n freed committed).channelsMatch ↔ s.channelsMatch := by
  unfold State.takeCredit; dsimp only; (repeat' split) <;> simp

@[simp] theorem State.finalized_channels (s : State) (n : LaneId) (d : Disc) :
    (s.finalized n d).channelsMatch ↔ s.channelsMatch := by
  unfold State.finalized; dsimp only; (repeat' split) <;> simp

@[simp] theorem State.segmentDone_channels (s : State) (n : LaneId) (slot : ImageId) (k : Nat) :
    (s.segmentDone n slot k).channelsMatch ↔ s.channelsMatch := Iff.rfl

@[simp] theorem State.quarterDone_channels (s : State) (slot : ArtworkId) (band q : Nat) (which : BufferId) :
    (s.quarterDone slot band q which).channelsMatch ↔ s.channelsMatch := by
  unfold State.quarterDone; (repeat' split) <;> simp

@[simp] theorem State.chunkDone_channels (s : State) (p : Port) (slot : ImageId) (k : Nat) :
    (s.chunkDone p slot k).channelsMatch ↔ s.channelsMatch := by
  unfold State.chunkDone; split <;> simp

@[simp] theorem State.deliverTransfer_channels (s : State) (t : Transfer) :
    (s.deliverTransfer t).channelsMatch ↔ s.channelsMatch := by
  unfold State.deliverTransfer; (repeat' split) <;> simp

@[simp] theorem State.openImageLoad_channels (s : State) (p : Port) (i : ImageId) (cls : MediaClass) (size : Nat)
    (noExport : Bool) : (s.openImageLoad p i cls size noExport).channelsMatch ↔ s.channelsMatch := by simp [State.openImageLoad]

@[simp] theorem State.openDiscLoad_channels (s : State) (p : Port) (i : ImageId) (n : LaneId) (cls : MediaClass) (size : Nat)
    (noExport : Bool) : (s.openDiscLoad p i n cls size noExport).channelsMatch ↔ s.channelsMatch := by simp [State.openDiscLoad]

@[simp] theorem State.openArtworkLoad_channels (s : State) (p : Port) (i : ArtworkId) (bands : Nat) :
    (s.openArtworkLoad p i bands).channelsMatch ↔ s.channelsMatch := by
  unfold State.openArtworkLoad; dsimp only; split <;> simp

@[simp] theorem State.removeArtwork_channels (s : State) (i : ArtworkId) :
    (s.removeArtwork i).channelsMatch ↔ s.channelsMatch := by
  unfold State.removeArtwork; split <;> simp

@[simp] theorem State.finishArtworkLoad_channels (s : State) (p : Port) (i : ArtworkId) :
    (s.finishArtworkLoad p i).channelsMatch ↔ s.channelsMatch := by simp [State.finishArtworkLoad]

@[simp] theorem State.admitJob_channels (s : State) (k : TableId) (j : Job) :
    (s.admitJob k j).channelsMatch ↔ s.channelsMatch := by
  unfold State.admitJob; (repeat' split) <;> simp

@[simp] theorem State.resume_channels (s : State) (h : Handle) (j : Job) : (s.resume h j).channelsMatch ↔ s.channelsMatch := by
  unfold State.resume; dsimp only; split <;> simp

@[simp] theorem State.bandEnds_channels (s : State) (which : BufferId) : (s.bandEnds which).channelsMatch ↔ s.channelsMatch := by
  unfold State.bandEnds; split <;> simp

@[simp] theorem State.createDisc_channels (s : State) (r : Request) : (s.createDisc r).channelsMatch ↔ s.channelsMatch := by
  unfold State.createDisc; split <;> simp

@[simp] theorem State.binFaults_channels (s : State) (which : Bin) : (s.binFaults which).channelsMatch ↔ s.channelsMatch := by
  simp [State.binFaults]

@[simp] theorem State.pickedAtBin_channels (s : State) (which : Bin) : (s.pickedAtBin which).channelsMatch ↔ s.channelsMatch := by
  unfold State.pickedAtBin; (repeat' split) <;> simp

@[simp] theorem State.putBack_channels (s : State) (which : Bin) : (s.putBack which).channelsMatch ↔ s.channelsMatch := by
  unfold State.putBack; dsimp only; split <;> simp

@[simp] theorem State.dropServed_channels (s : State) : s.dropServed.channelsMatch ↔ s.channelsMatch := by
  unfold State.dropServed; split <;> simp

@[simp] theorem State.placedOnPrinter_channels (s : State) :
    s.placedOnPrinter.channelsMatch ↔ s.channelsMatch := by simp [State.placedOnPrinter]

@[simp] theorem State.endStep_channels (s : State) : s.endStep.channelsMatch ↔ s.channelsMatch := Iff.rfl

@[simp] theorem State.binPresence_channels (s : State) (which : Bin) (on : Bool) :
    (s.binPresence which on).channelsMatch ↔ s.channelsMatch := by
  unfold State.binPresence; dsimp only; split <;> simp

@[simp] theorem State.outputChange_channels (s : State) (on : Bool) : (s.outputChange on).channelsMatch ↔ s.channelsMatch := by
  unfold State.outputChange; dsimp only; split <;> simp

@[simp] theorem State.rejectChange_channels (s : State) (on : Bool) : (s.rejectChange on).channelsMatch ↔ s.channelsMatch := by
  unfold State.rejectChange; dsimp only; split <;> simp

@[simp] theorem State.doorReleases_channels (s : State) : s.doorReleases.channelsMatch ↔ s.channelsMatch := by
  unfold State.doorReleases; dsimp only; (repeat' split) <;> simp

@[simp] theorem State.doorChange_channels (s : State) (on : Bool) : (s.doorChange on).channelsMatch ↔ s.channelsMatch := by
  unfold State.doorChange; dsimp only; split <;> simp

@[simp] theorem State.deriveKey_channels (s : State) : s.deriveKey.channelsMatch ↔ s.channelsMatch := by
  unfold State.deriveKey; dsimp only; split <;> simp

@[simp] theorem State.lidOpens_channels (s : State) : s.lidOpens.channelsMatch ↔ s.channelsMatch := by
  unfold State.lidOpens; split <;> simp

@[simp] theorem State.printerHomeReads_channels (s : State) : s.printerHomeReads.channelsMatch ↔ s.channelsMatch := by
  unfold State.printerHomeReads; split <;> simp

@[simp] theorem State.recheckInk_channels (s : State) : s.recheckInk.channelsMatch ↔ s.channelsMatch := by
  unfold State.recheckInk; split <;> simp

@[simp] theorem State.blackChange_channels (s : State) (on : Bool) : (s.blackChange on).channelsMatch ↔ s.channelsMatch := by
  unfold State.blackChange; split <;> simp

@[simp] theorem State.colourChange_channels (s : State) (on : Bool) : (s.colourChange on).channelsMatch ↔ s.channelsMatch := by
  unfold State.colourChange; split <;> simp

@[simp] theorem State.countReadings_channels (readings : BitVec 32) (l : List Sensor) (s : State) :
    (State.countReadings readings l s).channelsMatch ↔ s.channelsMatch := by
  induction l generalizing s with
  | nil => rfl
  | cons v rest ih => simp [State.countReadings, ih]

end Sys2Proof.Machine
end

