-- ==== Sys2Proof/Proofs/ChannelHolders.lean ====
section
/-! The operations by which entries leave the verify queue, channels go on with their work or channels are granted (R114, R115): the
channels stay held by exactly the running entries. -/

namespace Sys2Proof.Machine

/-! ## Entries that leave the queue -/

@[simp] theorem State.killLane_channels {s : State} (hs : s.channelsMatch) (h : Handle) (n : LaneId) :
    (s.killLane h n).channelsMatch := by
  unfold State.killLane; (repeat' split) <;> simp [hs]

theorem State.forLanes_channels (f : State → LaneId → State) (hf : ∀ t n, t.channelsMatch → (f t n).channelsMatch)
    (l : List LaneId) {s : State} (hs : s.channelsMatch) : (State.forLanes f l s).channelsMatch := by
  induction l generalizing s with
  | nil => exact hs
  | cons n rest ih => exact ih (hf s n hs)

@[simp] theorem State.drainLanes_channels {s : State} (hs : s.channelsMatch) (h : Handle) (reason : EndReason) :
    (s.drainLanes h reason).channelsMatch := by
  have hdraining : (s.modJob h fun j => { j with state := .draining, endReason := some reason }).channelsMatch :=
    (State.modJob_channels _ _ _).2 hs
  unfold State.drainLanes
  split
  · rw [State.killAtPrinter_channels]
    exact State.forLanes_channels _ (fun t n ht => State.killLane_channels ht h n) _ hdraining
  · exact State.forLanes_channels _ (fun t n => (t.drainLane_channels h n).2) _ hdraining

@[simp] theorem State.drainJob_channels {s : State} (hs : s.channelsMatch) (h : Handle) (reason : EndReason) :
    (s.drainJob h reason).channelsMatch := by
  unfold State.drainJob; dsimp only; (repeat' split) <;> simp [hs]

@[simp] theorem State.closingChecks_channels {s : State} (hs : s.channelsMatch) (h : Handle) :
    (s.closingChecks h).channelsMatch := by
  unfold State.closingChecks; (repeat' split) <;> simp [hs]

@[simp] theorem State.closeDisc_channels {s : State} (hs : s.channelsMatch) (i : TableId) (fate : Option Fate)
    (why : Option FailReason) : (s.closeDisc i fate why).channelsMatch := by
  unfold State.closeDisc State.reportClosing; dsimp only; (repeat' split) <;> simp [hs]

@[simp] theorem State.closeDiscAt_channels {s : State} (hs : s.channelsMatch) (loc : Location) (fate : Option Fate)
    (why : Option FailReason) : (s.closeDiscAt loc fate why).channelsMatch := by
  unfold State.closeDiscAt; split <;> simp [hs]

@[simp] theorem State.finishImageLoad_channels {s : State} (hs : s.channelsMatch) (i : ImageId) :
    (s.finishImageLoad i).channelsMatch := by
  simp [State.finishImageLoad, State.imageReady, hs]

@[simp] theorem State.failImageLoad_channels {s : State} (hs : s.channelsMatch) (i : ImageId) :
    (s.failImageLoad i).channelsMatch := by
  unfold State.failImageLoad; dsimp only; split <;> simp [hs]

theorem State.failImageLoads_channels (l : List ImageId) {s : State} (hs : s.channelsMatch) :
    (State.failImageLoads l s).channelsMatch := by
  induction l generalizing s with
  | nil => exact hs
  | cons i rest ih => exact ih (State.failImageLoad_channels hs i)

@[simp] theorem State.removeImage_channels {s : State} (hs : s.channelsMatch) (i : ImageId) :
    (s.removeImage i).channelsMatch := by
  unfold State.removeImage; split <;> simp [hs]

@[simp] theorem State.faultQueues_channels {s : State} (hs : s.channelsMatch) (n : LaneId) (stood : LaneState) :
    (s.faultQueues n stood).channelsMatch := by
  unfold State.faultQueues; dsimp only; (repeat' split) <;> simp [hs]

@[simp] theorem State.laneFault_channels {s : State} (hs : s.channelsMatch) (n : LaneId) (cause : LaneCause) :
    (s.laneFault n cause).channelsMatch := by
  simp [State.laneFault, hs]

@[simp] theorem State.stuck_channels {s : State} (hs : s.channelsMatch) (n : LaneId) : (s.stuck n).channelsMatch := by
  unfold State.stuck; dsimp only; (repeat' split) <;> simp [hs]

@[simp] theorem State.laneError_channels {s : State} (hs : s.channelsMatch) (n : LaneId) (code : Byte) :
    (s.laneError n code).channelsMatch := by
  unfold State.laneError; (repeat' split) <;> simp [hs]

@[simp] theorem State.lanePlaced_channels {s : State} (hs : s.channelsMatch) (n : LaneId) :
    (s.lanePlaced n).channelsMatch := by
  unfold State.lanePlaced State.placedAfterFault; (repeat' split) <;> simp [hs]

@[simp] theorem State.loseArmDisc_channels {s : State} (hs : s.channelsMatch) : s.loseArmDisc.channelsMatch := by
  unfold State.loseArmDisc
  dsimp only
  split
  · exact hs
  · refine State.closeDiscAt_channels ?_ _ _ _
    (repeat' split) <;> simp [hs]

@[simp] theorem State.verifyFails_channels {s : State} (hs : s.channelsMatch) (n : LaneId) (result : VerifyResult)
    (reason : FailReason) : (s.verifyFails n result reason).channelsMatch := by
  simp [State.verifyFails, hs]

@[simp] theorem State.verifyPasses_channels {s : State} (hs : s.channelsMatch) (n : LaneId) :
    (s.verifyPasses n).channelsMatch := by
  simp [State.verifyPasses, hs]

@[simp] theorem State.armFaults_channels {s : State} (hs : s.channelsMatch) (cause : ArmCause) (step : Option ArmStep) :
    (s.armFaults cause step).channelsMatch := by
  unfold State.armFaults; dsimp only; split <;> simp [hs]

@[simp] theorem State.homed_channels {s : State} (hs : s.channelsMatch) : s.homed.channelsMatch := by
  unfold State.homed; dsimp only; (repeat' split) <;> simp [hs]

@[simp] theorem State.faultTimeout_channels {s : State} (hs : s.channelsMatch) (n : LaneId) :
    (s.faultTimeout n).channelsMatch := by
  unfold State.faultTimeout; split <;> simp [hs]

@[simp] theorem State.trayMoves_channels {s : State} (hs : s.channelsMatch) (n : LaneId) (pos : TrayPosition) :
    (s.trayMoves n pos).channelsMatch := by
  unfold State.trayMoves State.openingTray State.openTrayReports State.closingTray
  (repeat' split) <;> simp [hs]

@[simp] theorem State.probeFed_channels {s : State} (hs : s.channelsMatch) (n : LaneId) (report : MediaReport) :
    (s.probeFed n report).channelsMatch := by
  unfold State.probeFed State.probeBlank; dsimp only; (repeat' split) <;> simp [hs]

@[simp] theorem State.pickDone_channels {s : State} (hs : s.channelsMatch) : s.pickDone.channelsMatch := by
  unfold State.pickDone State.pickedAt; (repeat' split) <;> simp [hs]

@[simp] theorem State.placeDone_channels {s : State} (hs : s.channelsMatch) : s.placeDone.channelsMatch := by
  unfold State.placeDone State.placedInTray State.placedInBin; split <;> simp [hs]

@[simp] theorem State.gripChange_channels {s : State} (hs : s.channelsMatch) (before : Nat) :
    (s.gripChange before).channelsMatch := by
  unfold State.gripChange State.gripEmptied State.gripFilled; (repeat' split) <;> simp [hs]

@[simp] theorem State.consume_channels {s : State} (hs : s.channelsMatch) (startUp : Bool) (before : Nat) (v : Sensor)
    (on : Bool) : (s.consume startUp before v on).channelsMatch := by
  unfold State.consume State.homeReads; (repeat' split) <;> simp [hs]

/-! ## Channels at work -/

/-- A matching reply finds the channel at the verify that it goes on with, or ends (R120 to R122). -/
theorem State.verifyMatches_channels {s : State} (hs : s.channelsMatch) (n : LaneId) {k : Fin 2} (hk : s.crc[k] ≠ .free)
    (set : VerifySet) (next : Nat) (outstanding : List Nat) (matched index : Nat) :
    (s.verifyMatches n k set next outstanding matched index).channelsMatch := by
  have hgoesOn (v : CrcChannel) (hv : v ≠ .free) : ((s.restartTimer n).setCrc k v).channelsMatch :=
    State.setCrc_channels ((s.restartTimer_channels n).2 hs) hk hv
  unfold State.verifyMatches
  dsimp only
  (repeat' split) <;> simp [hgoesOn]

/-- A segment of a source load finds the channel at the load that it goes on with, or ends (R84, R118). -/
theorem State.sourceArrives_channels {s : State} (hs : s.channelsMatch) (n : LaneId) {k : Fin 2} (hk : s.crc[k] ≠ .free)
    (i : ImageId) (next : Nat) (outstanding : List Nat) (digested index : Nat) (data : List Byte) :
    (s.sourceArrives n k i next outstanding digested index data).channelsMatch := by
  have hgoesOn (m m' : Memory) (f : ImageSlot → ImageSlot) (v : CrcChannel) (hv : v ≠ .free) :
      (((((s.setMem m).setMem m').modImage i f).restartTimer n).setCrc k v).channelsMatch :=
    State.setCrc_channels (by simp [hs]) hk hv
  unfold State.sourceArrives State.storeDigest
  dsimp only
  (repeat' split) <;> simp [hgoesOn]

/-! ## Follow-up computations -/

/-- The work begun at a channel takes the channel, whatever else it does (R114). -/
theorem State.startWork_channels {s : State} {c : Fin 2} (h : ∀ v : CrcChannel, v ≠ .free → (s.setCrc c v).channelsMatch)
    (w : VerifyWork) : (s.startWork c w).channelsMatch := by
  unfold State.startWork; split <;> simp [h]

/-- Each round grants a FREE channel to the oldest waiting entry, or nothing (R114). -/
theorem State.crcRounds_channels (rounds : Nat) {s : State} (hs : s.channelsMatch) :
    (State.crcRounds rounds s).channelsMatch := by
  induction rounds generalizing s with
  | zero => exact hs
  | succ rounds ih =>
    unfold State.crcRounds
    split
    · exact hs
    · rename_i c hc
      split
      · exact hs
      · rename_i q w hgrant
        obtain ⟨before, e, after, hqueue, he, rfl⟩ := grantOldest_eq_some hgrant
        exact ih (State.startWork_channels (fun v hv => State.grant_channels hs (State.freeChannel_free hc) hv hqueue he) w)

@[simp] theorem State.settleClaims_channels {s : State} (hs : s.channelsMatch) : s.settleClaims.channelsMatch := by
  have hgrants : s.crcGrants.channelsMatch := State.crcRounds_channels 2 hs
  unfold State.settleClaims State.when
  dsimp only
  (repeat' split) <;> simp [hs, hgrants]

@[simp] theorem State.settlePart_channels {s : State} (hs : s.channelsMatch) : s.settlePart.channelsMatch := by
  simp [State.settlePart, hs]

@[simp] theorem State.settle_channels {s : State} (hs : s.channelsMatch) : s.settle.channelsMatch := by
  unfold State.settle State.when; dsimp only; split <;> simp [hs]

theorem State.changeEvents_channels (startUp : Bool) (readings : BitVec 32) (l : List Sensor) {s : State}
    (hs : s.channelsMatch) : (State.changeEvents startUp readings l s).channelsMatch := by
  induction l generalizing s with
  | nil => exact hs
  | cons v rest ih =>
    exact ih (State.settle_channels (State.consume_channels (s := s.modSensor v _) hs _ _ _ _))

end Sys2Proof.Machine
end

