-- ==== Sys2Proof/Proofs/ChannelSteps.lean ====
section
/-! Every command keeps the CRC channels with the running entries of the verify queue (R112, R114, R115): the meanings of the commands
taken one by one, then the step. -/

namespace Sys2Proof.Machine

/-! ## Client commands -/

/-- A meaning that keeps the channels with their entries keeps them when its command is taken. -/
theorem State.takeCommand_channels {s : State} (hs : s.channelsMatch) (p : Port) (code : Nat)
    (meaning : CommandRecord → State → Reply × State)
    (h : ∀ r (u : State), u.channelsMatch → (meaning r u).2.channelsMatch) :
    (s.takeCommand p code meaning).channelsMatch := by
  unfold State.takeCommand
  split
  · exact State.settle_channels (h _ _ hs)
  · split
    · exact hs
    · exact (State.modPort_channels _ _ _).2 (State.settle_channels (h _ _ hs))

/-- A command on an image, an artwork, a lane or a job keeps the channels with their entries if it does past the check of its
parameter. -/
theorem onImage_channels {s : State} (hs : s.channelsMatch) (r : CommandRecord) (f : ImageId → Reply × State)
    (h : ∀ i, (f i).2.channelsMatch) : (onImage r s f).2.channelsMatch := by
  unfold onImage; split
  · exact hs
  · exact h _

theorem onArtwork_channels {s : State} (hs : s.channelsMatch) (r : CommandRecord) (f : ArtworkId → Reply × State)
    (h : ∀ i, (f i).2.channelsMatch) : (onArtwork r s f).2.channelsMatch := by
  unfold onArtwork; split
  · exact hs
  · exact h _

theorem onLane_channels {s : State} (hs : s.channelsMatch) (r : CommandRecord) (f : LaneId → Reply × State)
    (h : ∀ n, (f n).2.channelsMatch) : (onLane r s f).2.channelsMatch := by
  unfold onLane; split
  · exact hs
  · exact h _

theorem onJob_channels {s : State} (hs : s.channelsMatch) (r : CommandRecord) (f : Handle → Job → Reply × State)
    (h : ∀ k j, (f k j).2.channelsMatch) : (onJob r s f).2.channelsMatch := by
  unfold onJob; dsimp only; (repeat' split)
  · exact hs
  · exact hs
  · exact h _ _

theorem submitJob_channels (p : Port) (r : CommandRecord) {s : State} (hs : s.channelsMatch) :
    (submitJob p r s).2.channelsMatch := by
  unfold submitJob
  (repeat' split) <;> simp [hs]

/-! ## Resets -/

theorem State.killJobs_channels (l : List TableId) {s : State} (hs : s.channelsMatch) :
    (State.killJobs l s).channelsMatch := by
  induction l generalizing s with
  | nil => exact hs
  | cons i rest ih => refine ih ?_; (repeat' split) <;> simp [hs]

theorem State.failEveryLoad_channels {s : State} (hs : s.channelsMatch) : s.failEveryLoad.channelsMatch := by
  rw [State.failEveryLoad, State.endOutbounds_channels, State.failArtworkLoads_channels]
  exact State.failImageLoads_channels _ hs

theorem towerResetEffect_channels (loadsFirst : Bool) {s : State} (hs : s.channelsMatch) :
    (towerResetEffect loadsFirst s).channelsMatch := by
  rw [towerResetEffect, State.oweStart_channels]
  split
  · exact State.killJobs_channels _ (State.settlePart_channels (State.failEveryLoad_channels hs))
  · exact State.failEveryLoad_channels (State.settlePart_channels (State.killJobs_channels _ hs))

theorem State.resetStream_channels {s : State} (hs : s.channelsMatch) (p : Port) : (s.resetStream p).channelsMatch := by
  unfold State.resetStream; split <;> simp [hs]

/-- After a reset no entry stands in the queue and both channels are FREE. -/
theorem State.reset_channels : State.reset.channelsMatch := by
  obtain ⟨-, -, hreset, -⟩ := resetMeetsTheInvariants
  exact hreset

/-! ## Bytes and segments that a channel digests -/

/-- Staged bytes go on with the load that the slot's channel digests (R7, R117). -/
theorem execImageStagingWrite_channels (p : Port) (count : Nat) {s : State} (hs : s.channelsMatch) :
    nextHas State.channelsMatch (execImageStagingWrite p count s) := by
  unfold execImageStagingWrite
  split
  · dsimp only
    split
    · exact hs
    · split
      · rename_i k _ _ _ _ _ hk
        have hgoesOn (m : Memory) (v : CrcChannel) (hv : v ≠ .free) : ((s.setMem m).setCrc k v).channelsMatch :=
          State.setCrc_channels ((s.setMem_channels m).2 hs) (by simp [hk]) hv
        split
        · refine State.settle_channels ?_
          split <;> simp [hgoesOn]
        · exact True.intro
      · exact hs
  · exact hs

/-- A segment goes on with the verify or the load that the lane's channel is at, or ends it (R121, R84). -/
theorem execReadData_channels (n : LaneId) (index : BitVec 24) (data : List Byte) {s : State} (hs : s.channelsMatch) :
    nextHas State.channelsMatch (execReadData n index data s) := by
  unfold execReadData
  split
  · exact hs
  · split
    · rename_i hk _
      have hgoesOn := State.verifyMatches_channels hs n (by rw [hk]; exact nofun)
      (repeat' split) <;> simp [hs, hgoesOn]
    · rename_i hk _
      have hgoesOn := State.sourceArrives_channels hs n (by rw [hk]; exact nofun)
      (repeat' split) <;> simp [hs, hgoesOn]
    · exact hs

/-! ## The step -/

/-- Every command keeps the channels with the running entries. -/
theorem exec_channels (c : Instr) {s : State} (hs : s.channelsMatch) : nextHas State.channelsMatch (exec c s) := by
  cases c with
  | powerOnReset => exact State.reset_channels
  | linkReset p =>
    dsimp only [exec, execLinkReset]
    rw [nextHas_next]
    split
    · exact hs
    · exact State.settle_channels (State.resetStream_channels (s := s.modPort p _) hs p)
  | linkResetRelease p => exact hs
  | putCommands p records => dsimp only [exec, execPutCommands]; split <;> exact hs
  | takeNotices p n => dsimp only [exec, execTakeNotices]; split <;> exact hs
  | bulkWrite p bytes => dsimp only [exec, execBulkWrite]; split <;> simp [hs]
  | bulkRead p n => dsimp only [exec, execBulkRead]; (repeat' split) <;> simp [hs]
  | linkStatus p => exact hs
  | unknownTransaction p => exact hs
  | replyReturn p => dsimp only [exec, execReplyReturn]; (repeat' split) <;> simp [hs]
  | badCommand p => dsimp only [exec, execBadCommand]; (repeat' split) <;> simp [hs]
  | loadImage p =>
    refine State.takeCommand_channels hs p _ _ fun r u hu => onImage_channels hu r _ fun i => ?_
    dsimp only; (repeat' split) <;> simp [hu]
  | loadFromDisc p =>
    refine State.takeCommand_channels hs p _ _ fun r u hu => onImage_channels hu r _ fun i => ?_
    (repeat' split) <;> simp [hu]
  | deleteImage p =>
    refine State.takeCommand_channels hs p _ _ fun r u hu => onImage_channels hu r _ fun i => ?_
    dsimp only; (repeat' split) <;> simp [hu]
  | protectImage p =>
    refine State.takeCommand_channels hs p _ _ fun r u hu => onImage_channels hu r _ fun i => ?_
    dsimp only; (repeat' split) <;> exact hu
  | unprotectImage p =>
    refine State.takeCommand_channels hs p _ _ fun r u hu => onImage_channels hu r _ fun i => ?_
    dsimp only; (repeat' split) <;> exact hu
  | markNoExport p =>
    refine State.takeCommand_channels hs p _ _ fun r u hu => onImage_channels hu r _ fun i => ?_
    dsimp only; (repeat' split) <;> exact hu
  | exportImage p =>
    refine State.takeCommand_channels hs p _ _ fun r u hu => onImage_channels hu r _ fun i => ?_
    dsimp only; (repeat' split) <;> exact hu
  | loadArtwork p =>
    refine State.takeCommand_channels hs p _ _ fun r u hu => onArtwork_channels hu r _ fun i => ?_
    dsimp only; (repeat' split) <;> simp [hu]
  | deleteArtwork p =>
    refine State.takeCommand_channels hs p _ _ fun r u hu => onArtwork_channels hu r _ fun i => ?_
    dsimp only; (repeat' split) <;> simp [hu]
  | submitJob p => exact State.takeCommand_channels hs p _ _ fun r _ hu => submitJob_channels p r hu
  | pauseJob p =>
    refine State.takeCommand_channels hs p _ _ fun r u hu => onJob_channels hu r _ fun h j => ?_
    (repeat' split) <;> simp [hu]
  | resumeJob p =>
    refine State.takeCommand_channels hs p _ _ fun r u hu => onJob_channels hu r _ fun h j => ?_
    (repeat' split) <;> simp [hu]
  | cancelJob p =>
    refine State.takeCommand_channels hs p _ _ fun r u hu => onJob_channels hu r _ fun h j => ?_
    (repeat' split) <;> simp [hu]
  | killJob p =>
    refine State.takeCommand_channels hs p _ _ fun r u hu => onJob_channels hu r _ fun h j => ?_
    (repeat' split) <;> simp [hu]
  | openTray p =>
    refine State.takeCommand_channels hs p _ _ fun r u hu => onLane_channels hu r _ fun n => ?_
    (repeat' split) <;> simp [hu]
  | closeTray p =>
    refine State.takeCommand_channels hs p _ _ fun r u hu => onLane_channels hu r _ fun n => ?_
    dsimp only; (repeat' split) <;> simp [hu]
  | laneOnline p =>
    refine State.takeCommand_channels hs p _ _ fun r u hu => onLane_channels hu r _ fun n => ?_
    (repeat' split) <;> simp [hu]
  | laneOffline p =>
    refine State.takeCommand_channels hs p _ _ fun r u hu => onLane_channels hu r _ fun n => ?_
    (repeat' split) <;> simp [hu]
  | clearLane p =>
    refine State.takeCommand_channels hs p _ _ fun r u hu => onLane_channels hu r _ fun n => ?_
    split <;> simp [hu]
  | setFeedBudget p =>
    refine State.takeCommand_channels hs p _ _ fun r u hu => ?_
    unfold setFeedBudget; split <;> exact hu
  | setBinClass p =>
    refine State.takeCommand_channels hs p _ _ fun r u hu => ?_
    unfold setBinClass; (repeat' split) <;> simp [hu]
  | clearBinFault p =>
    refine State.takeCommand_channels hs p _ _ fun r u hu => ?_
    unfold clearBinFault; (repeat' split) <;> simp [hu]
  | clearArmFault p =>
    refine State.takeCommand_channels hs p _ _ fun r u hu => ?_
    unfold clearArmFault; (repeat' split) <;> simp [hu]
  | clearPrinterFault p =>
    refine State.takeCommand_channels hs p _ _ fun r u hu => ?_
    unfold clearPrinterFault; split <;> simp [hu]
  | setPrintParams p => exact State.takeCommand_channels hs p _ _ fun _ _ hu => hu
  | setInkCapacity p => exact State.takeCommand_channels hs p _ _ fun _ _ hu => hu
  | setNoticeMask p => exact State.takeCommand_channels hs p _ _ fun _ _ hu => hu
  | setAttention p =>
    have taken := State.takeCommand_channels hs p 49 (setAttention p) fun _ _ hu => hu
    dsimp only [exec, execSetAttention]
    split <;> exact taken
  | towerReset p loadsFirst =>
    refine State.takeCommand_channels hs p _ _ fun r u hu => ?_
    unfold towerReset; split
    · exact towerResetEffect_channels loadsFirst hu
    · exact hu
  | attentionHoldExpiry p => exact hs
  | imageStagingWrite p count => exact execImageStagingWrite_channels p count hs
  | artworkStagingWrite p count =>
    dsimp only [exec, execArtworkStagingWrite]; (repeat' split) <;> simp [hs]
  | ident n buffer burnsL burnsM =>
    dsimp only [exec, execIdent]
    split
    · rw [nextHas_next]
      split
      · split <;> simp [hs]
      · exact hs
      · exact State.settle_channels (State.laneFault_channels (s := s.modLane n _) hs n _)
    · simp [hs]
  | trayState n pos =>
    exact State.settle_channels ((State.releaseTray_channels _ n).2
      (State.trayMoves_channels (s := s.modLane n fun l => l.reported pos) hs n pos))
  | media n report => dsimp only [exec, execMedia]; (repeat' split) <;> simp [hs]
  | credit n freed committed => dsimp only [exec, execCredit]; (repeat' split) <;> simp [hs]
  | bufferEmpty n => dsimp only [exec, execBufferEmpty]; split <;> simp [hs]
  | writeRecovered n => dsimp only [exec, execWriteRecovered]; split <;> simp [hs]
  | writeError n => dsimp only [exec, execWriteError]; split <;> simp [hs]
  | finalizeDone n => dsimp only [exec, execFinalizeDone]; (repeat' split) <;> simp [hs]
  | readData n index data => exact execReadData_channels n index data hs
  | readFail n index => dsimp only [exec, execReadFail]; (repeat' split) <;> simp [hs]
  | error n code => simp [exec, execError, hs]
  | driveMalformedMessage n => simp [exec, execDriveMalformedMessage, hs]
  | laneTimerExpiry n => dsimp only [exec, execLaneTimerExpiry]; (repeat' split) <;> simp [hs]
  | transferCompletion => dsimp only [exec, execTransferCompletion]; (repeat' split) <;> simp [hs]
  | armStepDone =>
    dsimp only [exec, execArmStepDone]
    split
    · exact hs
    · refine State.settle_channels ?_; split <;> simp [hs]
    · simp [hs]
    · exact State.settle_channels (State.pickDone_channels (s := s.endStep) hs)
    · exact State.settle_channels (State.placeDone_channels (s := s.endStep) hs)
  | armDriverFault => dsimp only [exec, execArmDriverFault]; split <;> simp [hs]
  | armStepTimeout => dsimp only [exec, execArmStepTimeout]; split <;> simp [hs]
  | sensorScan readings order =>
    have hcounted : (State.countReadings readings allSensors (s.setScans (min 3 (s.scans + 1)))).channelsMatch := by simp [hs]
    have hevents := fun startUp changed => State.changeEvents_channels startUp readings changed hcounted
    dsimp only [exec, execSensorScan]; split <;> simp [hevents]
  | trayDone disc => dsimp only [exec, execTrayDone]; (repeat' split) <;> simp [hs]
  | bandDone band => dsimp only [exec, execBandDone]; (repeat' split) <;> simp [hs]
  | temp reading => dsimp only [exec, execTemp]; (repeat' split) <;> simp [hs]
  | printerError code => simp only [exec, execPrinterError, State.printerErrorTaken]; split <;> simp [hs]
  | printerMalformedReport => simp only [exec, execPrinterMalformedReport, State.printerErrorTaken]; split <;> simp [hs]
  | printerTimeout => dsimp only [exec, execPrinterTimeout]; split <;> simp [hs]
  | bandWaitExpiry => dsimp only [exec, execBandWaitExpiry]; split <;> simp [hs]

/-- Settles O54: entries leave the queue with their channels, a grant gives a FREE channel to an entry without one, and every other
operation leaves both as they are (`exec_channels`). -/
theorem everyStepKeepsTheChannels : Obligations.EveryStepKeepsTheChannels := by
  intro s t hs h
  unfold step at h
  split at h
  · cases h; exact hs
  · rename_i c rest _
    exact nextHas_of_eq (exec_channels c (s := { s with pending := rest }) hs) h

end Sys2Proof.Machine
end

