-- ==== Sys2Proof/Proofs/BinsAndFaults.lean ====
section
/-! SET-BIN-CLASS, CLEAR-BIN-FAULT, CLEAR-ARM-FAULT and CLEAR-PRINTER-FAULT (R143, R145, R146, R173): each command's checks, and its
effect past them. -/

namespace Sys2Proof.Machine

/-! ## The bins (R145, R146) -/

theorem setBinClass_serving {r : CommandRecord} {which : Bin} {cls : MediaClass} {s : State}
    (hbin : binOfCode (recordByte r 2) = some which) (hcls : classOfCode (recordByte r 3) = some cls)
    (hserves : s.arm.sourceBin = some which) : setBinClass r s = refuse .wrongState s := by
  simp only [setBinClass, hbin, hcls, State.feedsFrom, hserves, decide_true, if_true]

theorem setBinClass_free {r : CommandRecord} {which : Bin} {cls : MediaClass} {s : State}
    (hbin : binOfCode (recordByte r 2) = some which) (hcls : classOfCode (recordByte r 3) = some cls)
    (hfree : s.arm.sourceBin ≠ some which) :
    setBinClass r s = accept ((s.modBin which fun v => { v with cls := cls }).oweClaim).oweSelect := by
  simp only [setBinClass, hbin, hcls, State.feedsFrom, hfree, decide_false, Bool.false_eq_true, if_false]

theorem clearBinFault_faulted {r : CommandRecord} {which : Bin} {s : State} (hbin : binOfCode (recordByte r 2) = some which)
    (hfault : (s.binRecord which).fault = true) :
    clearBinFault r s = accept ((s.modBin which fun v => { v with fault := false }).oweClaim).oweSelect := by
  simp only [clearBinFault, hbin, hfault, if_true]

/-! ## The arm and the printer (R143, R173) -/

theorem clearArmFault_refused {s : State} (h : s.arm.state ≠ .fault ∨ s.gripCount ≠ 0) (r : CommandRecord) :
    clearArmFault r s = refuse .wrongState s := by
  unfold clearArmFault
  split
  · rfl
  · rename_i hfault
    exact if_pos (h.resolve_left hfault)

/-- A faulted arm without a disc homes, or is HELD until the door closes (R129, R143). -/
theorem clearArmFault_homes {s : State} (h : ¬(s.arm.state ≠ .fault ∨ s.gripCount ≠ 0)) (r : CommandRecord) :
    clearArmFault r s = accept ((s.modArm fun a =>
      { a with state := .homing, fault := none, position := .unknown, byClear := true }).issueStep .home) := by
  obtain ⟨hfault, hgrip⟩ := not_or.1 h
  rw [clearArmFault, if_neg hfault, if_neg hgrip]

theorem clearPrinterFault_refused {s : State} (h : s.printer.state ≠ .fault) (r : CommandRecord) :
    clearPrinterFault r s = refuse .wrongState s :=
  if_pos h

theorem clearPrinterFault_clears {s : State} (h : ¬s.printer.state ≠ .fault) (r : CommandRecord) :
    clearPrinterFault r s = accept ((s.emit (.printer [2])).modPrinter fun v =>
      { v with state := .trayOut, fault := none, timer := some ⟨5000, 0⟩, outDone := none }) :=
  if_neg h

/-! ## The obligation -/

/-- Settles O30: the refusals of the four commands, and past them their effects; the arm's homing by whether the door is closed
(`issueStep_closed`, `issueStep_open`). -/
theorem binsAndFaultsAreSetRight : Obligations.BinsAndFaultsAreSetRight := by
  refine ⟨fun p r which s hs hbin => ⟨fun cls hwaits hcls => ?_, fun hwaits hfault => ?_⟩,
    fun p r s hs => ⟨fun hwaits => ?_, fun hwaits => ?_⟩⟩
  · split
    · rename_i hserves
      exact congrArg _ (State.takeCommand_refused hs hwaits (setBinClass_serving hbin hcls hserves))
    · rename_i hfree
      exact congrArg _ (State.takeCommand_accepted hwaits (setBinClass_free hbin hcls hfree))
  · exact congrArg _ (State.takeCommand_accepted hwaits (clearBinFault_faulted hbin hfault))
  · split
    · rename_i hrefused
      exact congrArg _ (State.takeCommand_refused hs hwaits (clearArmFault_refused hrefused r))
    · rename_i hfaulted
      have hhomes := clearArmFault_homes hfaulted r
      split
      · rename_i hdoor
        rw [State.issueStep_closed (by exact hdoor)] at hhomes
        exact congrArg _ (State.takeCommand_accepted_settled (by exact hs) hwaits hhomes)
      · rename_i hdoor
        rw [State.issueStep_open (by exact Bool.eq_false_iff.2 hdoor)] at hhomes
        exact congrArg _ (State.takeCommand_accepted_settled (by exact hs) hwaits hhomes)
  · split
    · rename_i hrefused
      exact congrArg _ (State.takeCommand_refused hs hwaits (clearPrinterFault_refused hrefused r))
    · rename_i hfaulted
      exact congrArg _ (State.takeCommand_accepted_settled (by exact hs) hwaits (clearPrinterFault_clears hfaulted r))

end Sys2Proof.Machine
end

