-- ==== Sys2Proof/Proofs/ArmSteps.lean ====
section
/-! The end of TRAVEL, HOME and PLACE (R54, R62, R127, R128, R135, R137, R138), the routing of records (R60), and what an IDLE arm
selects (R131 to R133). -/

namespace Sys2Proof.Machine

/-! ## Reports of TRAVEL and HOME (R127, R128) -/

theorem exec_armStepDone_none {s : State} (h : s.arm.step = none) : exec .armStepDone s = .next s := by
  rw [exec, execArmStepDone, h]

theorem exec_armStepDone_travel {s : State} {v : Position} (h : s.arm.step = some (.travel v)) :
    exec .armStepDone s = .next ((s.endStep.modArm fun a => { a with position := .known v }).armContinue).settle := by
  rw [exec, execArmStepDone, h]

theorem exec_armStepDone_home {s : State} (h : s.arm.step = some .home) :
    exec .armStepDone s = .next (if s.sensor .armHome then s.homed else s.modArm fun a => { a with homeDone := true }).settle := by
  rw [exec, execArmStepDone, h]

/-- Where HOME leaves the arm, before the grip is read (R128). -/
def State.atHome (s : State) : State := s.modArm fun a => { a with step := none, timer := none, homeDone := false, position := .home }

theorem State.homed_empty {s : State} (h : s.gripCount = 0) : s.homed =
    let idle := (s.atHome.modArm fun a => { a with state := .idle, byClear := false }).oweSelect
    if s.arm.byClear then idle.raise .arm .armCleared else idle :=
  if_pos h

theorem State.homed_gripping {s : State} (h : s.gripCount ≠ 0) : s.homed = s.atHome.armFaults .grip (some .home) := if_neg h

/-! ## The request that leaves with a PLACE (R135, R138) -/

theorem State.dropServed_none {s : State} (h : s.arm.request = none) : s.dropServed = s := by
  rw [State.dropServed, h]

theorem State.dropServed_served {s : State} {r : Request} (h : s.served = some r) :
    s.dropServed = (s.dropRequest r.age).modArm fun a => { a with request := none } := by
  rw [State.dropServed, State.request_of_served h]

theorem State.modDiscAt_served (s : State) (loc : Location) (f : Disc → Disc) : (s.modDiscAt loc f).served = s.served := by
  rw [State.modDiscAt_eq]; rfl

/-! ## PLACE (R135, R137, R138) -/

theorem State.placeDone_atOutput {s : State} (h : s.arm.position = .known .output) : s.placeDone = s.placedInBin .output := by
  rw [State.placeDone, h]

theorem State.placeDone_atReject {s : State} (h : s.arm.position = .known .reject) : s.placeDone = s.placedInBin .reject := by
  rw [State.placeDone, h]

theorem State.placeDone_atPrinter {s : State} (h : s.arm.position = .known .printer) : s.placeDone = s.placedOnPrinter := by
  rw [State.placeDone, h]

theorem State.placeDone_atTray {s : State} {n : LaneId} (h : s.arm.position = .known (.tray n)) :
    s.placeDone = s.placedInTray n := by
  rw [State.placeDone, h]

/-- The disc of the FEED served stands in the tray, and the FEED has left the queue. -/
theorem State.placedInTray_served {s : State} {r : Request} (h : s.served = some r) (n : LaneId) :
    s.placedInTray n =
      (((((s.modDiscAt .arm fun d => { d with location := .tray n }).dropRequest r.age).modArm
        fun a => { a with request := none }).lanePlaced n).armToIdle) := by
  rw [State.placedInTray, State.dropServed_served ((s.modDiscAt_served _ _).trans h)]

/-- The lane that waits for the disc closes its tray for the probe (R74). -/
theorem State.lanePlaced_waiting {s : State} {n : LaneId} (hstate : s.lanes[n].state = .opened)
    (hpurpose : s.lanes[n].purpose = some .place) : s.lanePlaced n = s.enterClosing n (some .place) := by
  rw [State.lanePlaced, hstate, hpurpose]

/-- A lane that faulted meanwhile fails the disc and queues its UNLOAD (R87). -/
theorem State.lanePlaced_fault {s : State} {n : LaneId} (hstate : s.lanes[n].state = .fault) :
    s.lanePlaced n = (s.failTrayDisc n).queueUnload n := by
  rw [State.lanePlaced, hstate]

/-- A lane that faulted and has left FAULT since becomes DONE (R87, log 22). -/
theorem State.lanePlaced_left {s : State} {n : LaneId} (hfault : s.lanes[n].state ≠ .fault)
    (hwaits : ¬(s.lanes[n].state = .opened ∧ s.lanes[n].purpose = some .place)) : s.lanePlaced n = s.placedAfterFault n := by
  unfold State.lanePlaced
  split
  · rename_i hstate hpurpose; exact absurd ⟨hstate, hpurpose⟩ hwaits
  · rename_i hstate; exact absurd hstate hfault
  · rfl

/-! ## Routing (R60) -/

theorem verifyRequired_iff_exists (d : Disc) (j : Option Job) :
    verifyRequired d j = true ↔ d.forced = true ∨ ∃ x, j = some x ∧ x.verify ≠ .none := by
  cases j with
  | none => simp [verifyRequired]
  | some x => simp [verifyRequired_iff]

/-- The record stands in a tray and its job names artwork and is not killed (R60). -/
def State.labels (s : State) (d : Disc) : Prop :=
  ∃ n j a, d.location = .tray n ∧ s.jobOfOpt d.job = some j ∧ j.artwork = some a ∧ j.endReason ≠ some .killed

/-- The way of a record whose disc is good: past the printer, if a label is due (R60). -/
def State.wayOf (s : State) (d : Disc) : Destination :=
  match d.location, s.jobOfOpt d.job with
  | .tray _, some j => if j.artwork.isSome && !j.isKilled then .printer else .output
  | _, _ => .output

theorem State.wayOf_labelled {s : State} {d : Disc} (h : s.labels d) : s.wayOf d = .printer := by
  obtain ⟨n, j, a, hloc, hjob, hart, hkilled⟩ := h
  simp [State.wayOf, hloc, hjob, hart, Job.isKilled, hkilled]

theorem State.wayOf_unlabelled {s : State} {d : Disc} (h : ¬s.labels d) : s.wayOf d = .output := by
  unfold State.wayOf
  split
  · rename_i n j hloc hjob
    refine if_neg fun hlabel => h ?_
    obtain ⟨hart, hkilled⟩ := (Bool.and_eq_true _ _).mp hlabel
    obtain ⟨a, ha⟩ := Option.isSome_iff_exists.1 hart
    exact ⟨n, j, a, hloc, hjob, ha, by simpa [Job.isKilled] using hkilled⟩
  · rfl

theorem State.routing_rejected {s : State} {d : Disc} (h : d.phase = .failed ∨ d.phase = .spare) :
    s.routing d = some .reject := by
  rcases h with h | h <;> rw [State.routing, h]

theorem State.routing_printed {s : State} {d : Disc} (h : d.phase = .printed) : s.routing d = some .output := by
  rw [State.routing, h]

theorem State.routing_passed {s : State} {d : Disc} (h : d.phase = .passed) : s.routing d = some (s.wayOf d) := by
  rw [State.routing, h]; rfl

theorem State.routing_burned {s : State} {d : Disc} (h : d.phase = .burned) :
    s.routing d = if verifyRequired d (s.jobOfOpt d.job) then none else some (s.wayOf d) := by
  rw [State.routing, h]; rfl

theorem State.routing_early {s : State} {d : Disc}
    (h : d.phase ∈ [Phase.fed, .ready, .burning, .finalizing, .verifying, .printing]) : s.routing d = none := by
  simp only [List.mem_cons, List.not_mem_nil, or_false] at h
  rcases h with h | h | h | h | h | h <;> rw [State.routing, h]

/-! ## Eligible requests (R131) -/

/-- The place that a destination names is free. -/
def State.freeFor (s : State) (d : Option Destination) : Prop :=
  d = some .printer ∧ s.printer.state = .empty ∨ d = some .output ∧ s.outputFull = false ∨ d = some .reject ∧ s.rejectFull = false

/-- Blanks of the class can be picked from a bin. -/
def State.hasBlanks (s : State) (cls : Option MediaClass) : Prop :=
  ∃ v which, cls = some v ∧ s.binRecord which = ⟨v, true, false⟩

/-- The request is eligible to be served, in the words of R131. -/
def State.MayServe (s : State) (r : Request) : Prop :=
  match r.kind, r.lane with
  | .feed, some _ => s.hasBlanks r.cls
  | .feed, none => s.hasBlanks r.cls ∧ s.rejectFull = false
  | .unload, some n => ∃ d, s.discAt (.tray n) = some d ∧ s.freeFor (if r.taken then d.destination else s.routing d)
  | .unload, none => False
  | .printClear, _ => ∃ d, s.discAt .printer = some d ∧ s.freeFor d.destination

theorem State.placeFreeOpt_iff (s : State) (d : Option Destination) : s.placeFreeOpt d = true ↔ s.freeFor d := by
  cases d with
  | none => simp [State.placeFreeOpt, State.freeFor]
  | some x => cases x <;> simp [State.placeFreeOpt, State.placeFree, State.freeFor]

theorem State.classUsable_iff (s : State) (cls : Option MediaClass) :
    (cls.map s.binUsable).getD false = true ↔ s.hasBlanks cls := by
  cases cls with
  | none => simp [State.hasBlanks]
  | some c => simp [State.hasBlanks, State.binUsable_iff]

theorem State.requestEligible_iff (s : State) (r : Request) : s.requestEligible r = true ↔ s.MayServe r := by
  obtain ⟨kind, lane, origin, cls, age, taken, disc⟩ := r
  cases kind with
  | feed =>
    cases lane with
    | none => simp [State.requestEligible, State.MayServe, State.classUsable_iff]
    | some n => exact s.classUsable_iff cls
  | unload =>
    cases lane with
    | none => simp [State.requestEligible, State.MayServe]
    | some n =>
      cases hdisc : s.discAt (.tray n) with
      | none => simp [State.requestEligible, State.MayServe, hdisc]
      | some d => simp [State.requestEligible, State.MayServe, hdisc, State.placeFreeOpt_iff]
  | printClear =>
    cases hdisc : s.discAt .printer with
    | none => simp [State.requestEligible, State.MayServe, hdisc, State.placeFreeOpt]
    | some d => simp [State.requestEligible, State.MayServe, hdisc, State.placeFreeOpt_iff]

/-! ## The choice (R132) -/

/-- The first of a list with a property is found. -/
theorem find?_of_first {α : Type} {p : α → Bool} {l before after : List α} {x : α} (hl : l = before ++ x :: after)
    (hx : p x = true) (hbefore : ∀ y ∈ before, ¬p y = true) : l.find? p = some x :=
  List.find?_eq_some_iff_append.2 ⟨hx, before, after, hl, fun y hy => by simpa using hbefore y hy⟩

theorem State.oldestEligible_none {s : State} {kind : RequestKind} (h : ∀ x ∈ s.requests, x.kind = kind → ¬s.MayServe x) :
    s.oldestEligible kind = none := by
  refine List.find?_eq_none.2 fun x hx => ?_
  rw [Bool.and_eq_true, decide_eq_true_eq, State.requestEligible_iff, not_and]
  exact h x hx

theorem State.oldestEligible_first {s : State} {before after : List Request} {r : Request} (hqueue : s.requests = before ++ r :: after)
    (hr : s.MayServe r) (hbefore : ∀ x ∈ before, x.kind = r.kind → ¬s.MayServe x) : s.oldestEligible r.kind = some r := by
  refine find?_of_first hqueue ?_ fun x hx => ?_
  · rw [Bool.and_eq_true, decide_eq_true_eq, State.requestEligible_iff]
    exact ⟨rfl, hr⟩
  · rw [Bool.and_eq_true, decide_eq_true_eq, State.requestEligible_iff, not_and]
    exact hbefore x hx

theorem State.chooseRequest_none {s : State} (h : ∀ x ∈ s.requests, ¬s.MayServe x) : s.chooseRequest = none := by
  have hnone (kind : RequestKind) : s.oldestEligible kind = none := State.oldestEligible_none fun x hx _ => h x hx
  rw [State.chooseRequest, hnone, hnone, hnone]

/-- A PRINT_CLEAR comes before an UNLOAD, and an UNLOAD before a FEED (R132). -/
theorem State.chooseRequest_oldest {s : State} {r : Request} (hr : s.oldestEligible r.kind = some r)
    (hfirst : r.kind = .printClear ∨ s.oldestEligible .printClear = none ∧
      (r.kind = .unload ∨ s.oldestEligible .unload = none)) : s.chooseRequest = some r := by
  unfold State.chooseRequest
  cases hkind : r.kind with
  | printClear => rw [hkind] at hr; rw [hr]
  | unload =>
    rw [hkind] at hr hfirst
    obtain ⟨hprint, -⟩ := hfirst.resolve_left nofun
    rw [hprint, hr]
  | feed =>
    rw [hkind] at hr hfirst
    obtain ⟨hprint, hunload⟩ := hfirst.resolve_left nofun
    rw [hprint, hunload.resolve_left nofun, hr]

theorem State.select_busy {s : State} (h : s.arm.state ≠ .idle) : s.select = s := if_neg h

theorem State.select_none {s : State} (h : s.chooseRequest = none) : s.select = s := by
  unfold State.select; rw [h]; split <;> rfl

theorem State.select_some {s : State} {r : Request} (hidle : s.arm.state = .idle) (h : s.chooseRequest = some r) :
    s.select = s.takeUp r := by
  rw [State.select, if_pos hidle, h]

/-! ## The request that is taken up (R132, R133) -/

theorem State.sourceBinFor_eq (s : State) (cls : Option MediaClass) : s.sourceBinFor cls =
    if cls = some s.binA.cls ∧ s.binA.present = true ∧ s.binA.fault = false then .a else .b := by
  cases cls with
  | none => rfl
  | some v =>
    have hserves : s.binA.serves v = true ↔ some v = some s.binA.cls ∧ s.binA.present = true ∧ s.binA.fault = false := by
      simp [BinRecord.serves, and_assoc, eq_comm (a := v)]
    simp only [State.sourceBinFor, hserves]

/-- The arm serves the request, which is TAKEN (R130, R133). -/
def State.serving (s : State) (r : Request) : State :=
  (s.modArm fun a =>
    { a with
      state := .serving, request := some r.age, attempts := 0, returning := false
      sourceBin := if r.kind = .feed then some (s.sourceBinFor r.cls) else none }).modRequest r.age fun x => { x with taken := true }

/-- A request that was waiting is told to its lane before the arm goes on (R132). -/
theorem State.takeUp_taken {s : State} {r : Request} (h : r.taken = true ∨ r.kind = .printClear) :
    s.takeUp r = (s.serving r).armContinue := by
  have htold : r.kind = .printClear → (s.serving r).tellSelected r = s.serving r := fun hkind => by
    rw [State.tellSelected, hkind]
  have htake : s.takeUp r = (if r.taken then s.serving r else (s.serving r).tellSelected r).armContinue := rfl
  rw [htake]
  split
  · rfl
  · rename_i htaken
    rw [htold (h.resolve_left htaken)]

theorem State.takeUp_waiting {s : State} {r : Request} (h : r.taken = false) :
    s.takeUp r = ((s.serving r).tellSelected r).armContinue := by
  have htake : s.takeUp r = (if r.taken then s.serving r else (s.serving r).tellSelected r).armContinue := rfl
  rw [htake, h]
  rfl

theorem State.tellSelected_feed {s : State} {r : Request} {n : LaneId} (hkind : r.kind = .feed) (hlane : r.lane = some n) :
    s.tellSelected r = s.enterOpening n .place := by
  rw [State.tellSelected, hkind, hlane]

/-- An UNLOAD fixes the destination of its disc and opens the tray (R61, R81, R87). -/
theorem State.tellSelected_unload {s : State} {r : Request} {n : LaneId} {d : Disc} (hkind : r.kind = .unload)
    (hlane : r.lane = some n) (hdisc : s.discAt (.tray n) = some d) :
    s.tellSelected r =
      let fixed := s.modDiscAt (.tray n) fun x => { x with destination := s.routing d }
      if s.lanes[n].state = .fault then fixed.faultUnload n else fixed.enterOpening n .pick := by
  rw [State.tellSelected, hkind, hlane]
  dsimp only
  rw [hdisc]

/-! ## The obligation -/

/-- Settles O44: TRAVEL and HOME by `homed_empty` and `homed_gripping`, PLACE by `placeDone` at its four positions and by what the
lane is told (`lanePlaced`), routing by the phase and `wayOf`, selection by `chooseRequest_oldest` and `takeUp`. -/
theorem armStepDoneMovesTheArm : Obligations.ArmStepDoneMovesTheArm := by
  refine ⟨fun s => ⟨exec_armStepDone_none, fun v => exec_armStepDone_travel, fun hs hstep haway => ?_, fun hstep hhome => ?_⟩,
    ?_, ?_, ?_⟩
  · rw [exec_armStepDone_home hstep, haway]
    exact congrArg _ (State.settle_of_settled hs)
  · rw [exec_armStepDone_home hstep, if_pos hhome]
    exact ⟨fun hgrip => by rw [State.homed_empty hgrip]; rfl, fun hgrip => by rw [State.homed_gripping hgrip]; rfl⟩
  · intro s hstep stopped idle
    refine ⟨fun hrequest => ?_, fun r hserved hkind => ?_⟩
    · rw [exec_armStepDone_place hstep]
      have hbin (fate : Fate) : s.endStep.placedInBin fate = idle (stopped.closeDiscAt .arm (some fate) none) := by
        rw [State.placedInBin, State.dropServed_none (s := s.endStep) hrequest]; rfl
      refine ⟨fun hposition => ?_, fun hposition => ?_, fun hposition => ?_⟩
      · rw [State.placeDone_atOutput (s := s.endStep) hposition, hbin]
      · rw [State.placeDone_atReject (s := s.endStep) hposition, hbin]
      · rw [State.placeDone_atPrinter (s := s.endStep) hposition]; rfl
    · intro left
      rw [exec_armStepDone_place hstep]
      refine ⟨fun hposition => ?_, fun n hposition => ?_⟩
      · rw [State.placeDone_atReject (s := s.endStep) hposition, State.placedInBin,
          State.dropServed_served (s := s.endStep) hserved]
        rfl
      · intro placed
        have hlane : placed.lanes[n] = s.lanes[n] := by
          change (stopped.modDiscAt .arm _).lanes[n] = _
          rw [State.modDiscAt_lanes]; rfl
        rw [State.placeDone_atTray (s := s.endStep) hposition, State.placedInTray_served (s := s.endStep) hserved]
        refine ⟨fun hstate hpurpose => ?_, fun hstate => ?_, fun hfault hwaits => ?_⟩
        · exact congrArg (fun u => Host.Outcome.next (idle u).settle)
            (State.lanePlaced_waiting (s := placed) (by rw [hlane, hstate]) (by rw [hlane, hpurpose]))
        · exact congrArg (fun u => Host.Outcome.next (idle u).settle)
            (State.lanePlaced_fault (s := placed) (by rw [hlane, hstate]))
        · exact congrArg (fun u => Host.Outcome.next (idle u).settle)
            (State.lanePlaced_left (s := placed) (by rwa [hlane]) (by rwa [hlane]))
  · intro d s required labelled
    have hrequired : verifyRequired d (s.jobOfOpt d.job) = true ↔ required := verifyRequired_iff_exists _ _
    refine ⟨State.routing_rejected, State.routing_printed, fun hgood => ?_, fun hunrouted => ?_⟩
    · have hway : s.routing d = some (s.wayOf d) := by
        rcases hgood with hpassed | ⟨hburned, hfree⟩
        · exact State.routing_passed hpassed
        · rw [State.routing_burned hburned, if_neg (mt hrequired.1 hfree)]
      exact ⟨fun h => hway.trans (congrArg some (State.wayOf_labelled h)),
        fun h => hway.trans (congrArg some (State.wayOf_unlabelled h))⟩
    · rcases hunrouted with ⟨hburned, hneeded⟩ | hearly
      · rw [State.routing_burned hburned, if_pos (hrequired.2 hneeded)]
      · exact State.routing_early hearly
  · intro s free blanks eligible
    refine ⟨?_, fun before r after hidle hqueue hr hbefore hfirst => ?_⟩
    · rintro (hbusy | hnone)
      · exact State.select_busy hbusy
      · exact State.select_none (State.chooseRequest_none hnone)
    · intro source up
      have hchosen : s.chooseRequest = some r := by
        refine State.chooseRequest_oldest (State.oldestEligible_first hqueue hr hbefore) (hfirst.imp_right ?_)
        exact fun ⟨hprint, hunload⟩ => ⟨State.oldestEligible_none hprint, hunload.imp_right State.oldestEligible_none⟩
      have hup : s.serving r = up := by rw [State.serving, State.sourceBinFor_eq]
      rw [State.select_some hidle hchosen, ← hup]
      refine ⟨State.takeUp_taken, fun n hwaiting hkind hlane => ?_, fun n d hwaiting hkind hlane hdisc => ?_⟩
      · rw [State.takeUp_waiting hwaiting, State.tellSelected_feed hkind hlane]
      · rw [State.takeUp_waiting hwaiting, State.tellSelected_unload (s := s.serving r) hkind hlane hdisc]
        rfl

end Sys2Proof.Machine
end

