-- ==== Sys2Proof/Proofs/ArmFaults.lean ====
section
/-! Arm faults (R140 to R142): what a fault leaves of the arm, the disc that it loses, and the disc that shows in the grip after a PICK
fault (R136, R137). -/

namespace Sys2Proof.Machine

/-! ## Tray commands (R68, log 9) -/

/-- TRAY-CLOSE is sent at once, or held back while the drive owes the answer to another tray command. -/
theorem State.sendTray_close (s : State) (n : LaneId) : s.sendTray n .closeTray =
    if s.lanes[n].unanswered = none then
      (s.emit (.drive n [2])).modLane n fun l => { l with unanswered := some .closeTray }
    else s.modLane n fun l => { l with heldBack := some .closeTray } := by
  split
  · rename_i h; exact State.sendTray_answered h .closeTray
  · rename_i h; exact if_pos (Option.isSome_iff_ne_none.2 h)

theorem State.enterClosing_eq (s : State) (n : LaneId) (v : Option TrayPurpose) : s.enterClosing n v =
    (s.sendTray n .closeTray).modLane n fun l => { l with state := .closing, purpose := v, timer := some ⟨8000, 0⟩ } := by
  rw [State.enterClosing, State.startTimer, State.modLane_modLane]; rfl

theorem State.laneLeavesJob_unanswered (s : State) (n : LaneId) :
    (s.laneLeavesJob n).lanes[n].unanswered = s.lanes[n].unanswered := by
  rw [State.laneLeavesJob_lane, if_pos rfl]

/-- The lane leaves its job and is sent TRAY-CLOSE (R45, R68). -/
def State.leavesClosing (s : State) (n : LaneId) : State :=
  if s.lanes[n].unanswered = none then
    ((s.laneLeavesJob n).emit (.drive n [2])).modLane n fun l => { l with unanswered := some .closeTray }
  else (s.laneLeavesJob n).modLane n fun l => { l with heldBack := some .closeTray }

theorem State.laneLeavesJob_sendTray (s : State) (n : LaneId) :
    (s.laneLeavesJob n).sendTray n .closeTray = s.leavesClosing n := by
  rw [State.sendTray_close, State.laneLeavesJob_unanswered]; rfl

theorem State.laneLeavesJob_enterClosing (s : State) (n : LaneId) (v : Option TrayPurpose) :
    (s.laneLeavesJob n).enterClosing n v =
      (s.leavesClosing n).modLane n fun l => { l with state := .closing, purpose := v, timer := some ⟨8000, 0⟩ } := by
  rw [State.enterClosing_eq, State.laneLeavesJob_sendTray]

/-! ## The arm while a record closes -/

theorem State.modJob_arm (s : State) (h : Handle) (f : Job → Job) : (s.modJob h f).arm = s.arm := by
  unfold State.modJob; split <;> rfl

theorem State.modDiscAt_arm (s : State) (loc : Location) (f : Disc → Disc) : (s.modDiscAt loc f).arm = s.arm := by
  rw [State.modDiscAt_eq]

theorem State.raise_arm (s : State) (g : Group) (v : Notice) : (s.raise g v).arm = s.arm := by
  rw [State.raise_ports_only]

theorem State.endJob_arm (s : State) (h : Handle) (result : JobResult) : (s.endJob h result).arm = s.arm := by
  obtain ⟨-, -, -, -, -, harm, -⟩ := State.of_besidesLoad (s.endJob_besidesLoad h result)
  exact harm

theorem State.drainCheck_arm (s : State) (h : Handle) : (s.drainCheck h).arm = s.arm := by
  unfold State.drainCheck
  split
  · rfl
  · split
    · exact s.endJob_arm h _
    · rfl

theorem State.laneLeavesJob_arm (s : State) (n : LaneId) : (s.laneLeavesJob n).arm = s.arm := by
  unfold State.laneLeavesJob
  cases s.lanes[n].job with
  | none => rfl
  | some h => exact s.modJob_arm h _

theorem State.leaveStartQueue_arm (s : State) (n : LaneId) : (s.leaveStartQueue n).arm = s.arm := by
  rw [State.leaveStartQueue_eq]

theorem State.enterFeedWait_arm (s : State) (n : LaneId) : (s.enterFeedWait n).arm = s.arm := rfl

theorem State.enterIdle_arm (s : State) (n : LaneId) : (s.enterIdle n).arm = s.arm := rfl

theorem State.offerBlank_arm (s : State) (n : LaneId) (h : Handle) : (s.offerBlank n h).arm = s.arm := by
  unfold State.offerBlank
  rw [State.oweClaim_arm, State.drainCheck_arm]
  split
  · rw [State.enterFeedWait_arm, State.setRotation_arm, State.modLane_arm, State.modDiscAt_arm, State.modJob_arm, State.modJob_arm]
  · rw [State.modLane_arm, State.modDiscAt_arm, State.modJob_arm]

theorem State.withdrawClaim_arm (s : State) (h : Handle) (n : LaneId) : (s.withdrawClaim h n).arm = s.arm := by
  unfold State.withdrawClaim
  split
  · rfl
  · split
    · rfl
    · rw [State.enterIdle_arm, State.laneLeavesJob_arm, State.modJob_arm, State.dropRequest_arm]

theorem State.drainLane_arm (s : State) (h : Handle) (n : LaneId) : (s.drainLane h n).arm = s.arm := by
  unfold State.drainLane
  split
  · split
    · exact s.withdrawClaim_arm h n
    · rw [State.offerBlank_arm, State.leaveStartQueue_arm]
    · rfl
  · rfl

theorem State.forLanes_drainLane_arm (h : Handle) (l : List LaneId) (s : State) :
    (State.forLanes (fun t n => t.drainLane h n) l s).arm = s.arm := by
  induction l generalizing s with
  | nil => rfl
  | cons n rest ih => exact (ih _).trans (s.drainLane_arm h n)

/-- A drain by the fail limit leaves the arm alone: the discs that are on their way go on (R36). -/
theorem State.drainJob_failLimit_arm (s : State) (h : Handle) : (s.drainJob h .failLimit).arm = s.arm := by
  have hlanes : (s.drainLanes h .failLimit).arm = s.arm := by
    unfold State.drainLanes
    rw [State.forLanes_drainLane_arm, State.modJob_arm]
  unfold State.drainJob
  dsimp only
  split
  · exact hlanes
  · split
    · rw [State.drainCheck_arm]; exact hlanes
    · rw [State.notify_arm]; exact hlanes

theorem State.closingChecks_arm (s : State) (h : Handle) : (s.closingChecks h).arm = s.arm := by
  cases hj : s.jobOf h with
  | none => simp [State.closingChecks, hj]
  | some j =>
    rw [State.closingChecks_eq hj, State.oweClaim_arm]
    split
    · exact s.drainCheck_arm h
    · split
      · exact s.endJob_arm h _
      · split
        · exact s.drainJob_failLimit_arm h
        · rfl

theorem State.closeDiscAt_arm (s : State) (loc : Location) (fate : Option Fate) (why : Option FailReason) :
    (s.closeDiscAt loc fate why).arm = s.arm := by
  unfold State.closeDiscAt State.closeDisc State.reportClosing
  dsimp only
  (repeat' split) <;> simp only [State.closingChecks_arm, State.modJob_arm, State.notify_arm, State.setDisc_arm]

/-! ## The disc that is lost on the arm (R141, R142) -/

/-- A request leaves the queue, and the arm if it serves it. -/
def State.withoutRequest (s : State) (age : Nat) : State :=
  (s.dropRequest age).modArm fun a => { a with request := if a.request = some age then none else a.request }

theorem State.feedDiscGone_opened {s : State} {n : LaneId} (hstate : s.lanes[n].state = .opened)
    (hpurpose : s.lanes[n].purpose = some .place) : s.feedDiscGone n = (s.laneLeavesJob n).enterClosing n none := by
  rw [State.feedDiscGone, hstate, hpurpose]

theorem State.feedDiscGone_opening {s : State} {n : LaneId} (hstate : s.lanes[n].state = .opening)
    (hpurpose : s.lanes[n].purpose = some .place) :
    s.feedDiscGone n = (s.laneLeavesJob n).modLane n fun l => { l with purpose := none } := by
  rw [State.feedDiscGone, hstate, hpurpose]

theorem State.feedDiscGone_elsewhere {s : State} {n : LaneId}
    (h : ¬(s.lanes[n].purpose = some .place ∧ (s.lanes[n].state = .opened ∨ s.lanes[n].state = .opening))) :
    s.feedDiscGone n = s.laneLeavesJob n := by
  unfold State.feedDiscGone
  split
  · rename_i hstate hpurpose; exact absurd ⟨hpurpose, .inl hstate⟩ h
  · rename_i hstate hpurpose; exact absurd ⟨hpurpose, .inr hstate⟩ h
  · rfl

theorem State.loseArmDisc_none {s : State} (h : s.discAt .arm = none) : s.loseArmDisc = s := by
  rw [State.loseArmDisc, h]

theorem State.loseArmDisc_unfed {s : State} {d : Disc} (hdisc : s.discAt .arm = some d)
    (h : ∀ r ∈ s.requests, r.disc ≠ some d.serial) : s.loseArmDisc = s.closeDiscAt .arm none (some .lost) := by
  have hnone : (s.requests.find? fun r => decide (r.disc = some d.serial)) = none :=
    List.find?_eq_none.2 fun r hr => by simpa using h r hr
  rw [State.loseArmDisc, hdisc]
  dsimp only
  rw [hnone]

/-- The request that the disc was picked for leaves the queue, and its lane, if it has one, is told (R142). -/
theorem State.loseArmDisc_fed {s : State} {d : Disc} {before after : List Request} {r : Request}
    (hdisc : s.discAt .arm = some d) (hqueue : s.requests = before ++ r :: after)
    (hbefore : ∀ x ∈ before, x.disc ≠ some d.serial) (hr : r.disc = some d.serial) : s.loseArmDisc =
      (r.lane.elim (s.withoutRequest r.age) (s.withoutRequest r.age).feedDiscGone).closeDiscAt .arm none (some .lost) := by
  have hfind : (s.requests.find? fun x => decide (x.disc = some d.serial)) = some r :=
    find?_of_first hqueue (by simpa using hr) fun x hx => by simpa using hbefore x hx
  rw [State.loseArmDisc, hdisc]
  dsimp only
  rw [hfind]
  dsimp only
  cases r.lane <;> rfl

theorem State.feedDiscGone_arm (s : State) (n : LaneId) : (s.feedDiscGone n).arm = s.arm := by
  have hcloses : ((s.laneLeavesJob n).enterClosing n none).arm = s.arm := by
    rw [State.laneLeavesJob_enterClosing, State.modLane_arm, State.leavesClosing]
    split <;> exact s.laneLeavesJob_arm n
  unfold State.feedDiscGone
  split
  · exact hcloses
  · exact s.laneLeavesJob_arm n
  · exact s.laneLeavesJob_arm n

/-- An arm that serves no request is left alone by the loss of its disc. -/
theorem State.loseArmDisc_arm {s : State} (h : s.arm.request = none) : s.loseArmDisc.arm = s.arm := by
  have hwithout (age : Nat) : (s.withoutRequest age).arm = s.arm := by
    unfold State.withoutRequest
    rw [State.modArm_arm, State.dropRequest_arm, h, if_neg nofun, ← h]
  unfold State.loseArmDisc
  split
  · rfl
  · rw [State.closeDiscAt_arm]
    split
    · rfl
    · rename_i r _
      dsimp only
      split
      · exact hwithout r.age
      · exact (State.feedDiscGone_arm _ _).trans (hwithout r.age)

/-! ## An arm fault (R140) -/

/-- The arm after a fault other than at a PICK: its step, request and pick have ended, its position is unknown. -/
def Arm.stoppedBy (a : Arm) (cause : ArmCause) (step : Option ArmStep) : Arm :=
  { a with
    state := .fault, resume := none, position := .unknown, step := none, timer := none, request := none
    sourceBin := none, attempts := 0, fault := some ⟨cause, step⟩, returning := false, homeDone := false }

section
variable {s : State} {cause : ArmCause} (hcause : cause ≠ .pick) (step : Option ArmStep)
include hcause

theorem State.armFaults_gripping (h : s.gripCount ≠ 0) : s.armFaults cause step =
    (s.modArm fun _ => s.arm.stoppedBy cause step).raise .arm
      (.armFault ⟨cause, step⟩ s.arm.position ((s.discAt .arm).map (·.serial))) := by
  unfold State.armFaults
  simp only [if_neg h, if_neg hcause]
  rfl

theorem State.armFaults_empty (h : s.gripCount = 0) : s.armFaults cause step =
    let lost := (s.modArm fun _ => s.arm.stoppedBy cause step).loseArmDisc
    lost.raise .arm (.armFault ⟨cause, step⟩ s.arm.position ((lost.discAt .arm).map (·.serial))) := by
  unfold State.armFaults
  simp only [if_pos h, if_neg hcause]
  rfl

theorem State.armFaults_arm : (s.armFaults cause step).arm = s.arm.stoppedBy cause step := by
  by_cases h : s.gripCount = 0
  · rw [State.armFaults_empty hcause step h, State.raise_arm, State.loseArmDisc_arm rfl]
    rfl
  · rw [State.armFaults_gripping hcause step h, State.raise_arm]
    rfl

end

theorem exec_armDriverFault_none {s : State} (h : s.arm.step = none) : exec .armDriverFault s = .next s := by
  rw [exec, execArmDriverFault, h]

theorem exec_armStepTimeout_none {s : State} (h : s.arm.step = none) : exec .armStepTimeout s = .next s := by
  rw [exec, execArmStepTimeout, h]

theorem exec_armDriverFault_some {s : State} {v : ArmStep} (h : s.arm.step = some v) :
    exec .armDriverFault s = .next (s.armFaults .driver (some v)).settle := by
  rw [exec, execArmDriverFault, h]

theorem exec_armStepTimeout_some {s : State} {v : ArmStep} (h : s.arm.step = some v) :
    exec .armStepTimeout s = .next (s.armFaults .timeout (some v)).settle := by
  rw [exec, execArmStepTimeout, h]

/-! ## The disc that shows after a PICK fault (R136, R137) -/

/-- The record at a place moves to the arm, and its request leaves the queue. -/
def State.pickedFrom (s : State) (loc : Location) (age : Nat) : State :=
  (s.modDiscAt loc fun d => { d with location := .arm }).withoutRequest age

section
variable {s : State} {n : LaneId} {r : Request} (hposition : s.arm.position = .known (.tray n))
include hposition

theorem State.followPick_tray_none (h : s.laneRequest .unload n = none) : s.followPick = s := by
  rw [State.followPick, hposition]
  dsimp only
  rw [h]

variable (hrequest : s.laneRequest .unload n = some r)
include hrequest

theorem State.followPick_tray : s.followPick =
    if r.taken = true ∧ (s.discAt (.tray n)).isSome then (s.pickedFrom (.tray n) r.age).lanePicked n else s := by
  rw [State.followPick, hposition]
  dsimp only
  rw [hrequest]
  simp only [Bool.and_eq_true]
  rfl

end

section
variable {s : State} (hposition : s.arm.position = .known .printer)
include hposition

theorem State.followPick_printer_none (h : ∀ x ∈ s.requests, x.kind ≠ .printClear) : s.followPick = s := by
  have hnone : (s.requests.find? fun r => decide (r.kind = .printClear)) = none :=
    List.find?_eq_none.2 fun r hr => by simpa using h r hr
  rw [State.followPick, hposition]
  dsimp only
  rw [hnone]

theorem State.followPick_printer {before after : List Request} {r : Request} (hqueue : s.requests = before ++ r :: after)
    (hkind : r.kind = .printClear) (hbefore : ∀ x ∈ before, x.kind ≠ .printClear) : s.followPick =
      if r.taken = true ∧ (s.discAt .printer).isSome then (s.pickedFrom .printer r.age).printerCleared else s := by
  have hfind : (s.requests.find? fun x => decide (x.kind = .printClear)) = some r :=
    find?_of_first hqueue (by simpa using hkind) fun x hx => by simpa using hbefore x hx
  rw [State.followPick, hposition]
  dsimp only
  rw [hfind]
  simp only [Bool.and_eq_true]
  rfl

end

theorem State.pickedFrom_lanes (s : State) (loc : Location) (age : Nat) : (s.pickedFrom loc age).lanes = s.lanes :=
  State.modDiscAt_lanes _ _ _

theorem State.pickedFrom_eq (s : State) (loc : Location) (age : Nat) : s.pickedFrom loc age =
    ((s.modDiscAt loc fun d => { d with location := .arm }).setRequests (s.requests.filter fun x => decide (x.age ≠ age))).modArm
      fun a => { a with request := if a.request = some age then none else a.request } := by
  rw [State.pickedFrom, State.withoutRequest, State.dropRequest, State.modDiscAt_requests]

/-- Away from the trays and the printer nothing follows (R136, R137). -/
theorem State.followPick_elsewhere {s : State} (htray : ∀ n, s.arm.position ≠ .known (.tray n))
    (hprinter : s.arm.position ≠ .known .printer) : s.followPick = s := by
  unfold State.followPick
  split
  · rename_i n h; exact absurd h (htray n)
  · rename_i h; exact absurd h hprinter
  · rfl

/-! ## The obligation -/

/-- Settles O46: a fault by `armFaults_gripping` and `armFaults_empty`, the disc lost by `loseArmDisc` and what its lane is told
(`feedDiscGone`), the disc found by `followPick_tray` and `followPick_printer`. -/
theorem armFaultsStopTheArm : Obligations.ArmFaultsStopTheArm := by
  refine ⟨fun s hstep => ⟨exec_armDriverFault_none hstep, exec_armStepTimeout_none hstep⟩, fun v s hstep => ?_, ?_⟩
  · refine ⟨exec_armDriverFault_some hstep, exec_armStepTimeout_some hstep, fun cause hcauses => ?_⟩
    have hcause : cause ≠ .pick := by rcases hcauses with rfl | rfl <;> decide
    exact ⟨State.armFaults_arm hcause _, State.armFaults_gripping hcause _, State.armFaults_empty hcause _⟩
  · intro s lane without leaves close closing lost
    refine ⟨State.loseArmDisc_none, fun d hdisc => ⟨State.loseArmDisc_unfed hdisc, ?_⟩, fun n r hposition hrequest => ?_, ?_, ?_⟩
    · intro before r after hqueue hbefore hr
      have hlost := State.loseArmDisc_fed hdisc hqueue hbefore hr
      refine ⟨fun hlane => by rw [hlost, hlane]; rfl, fun n hlane => ?_⟩
      intro left feeds
      rw [hlane, Option.elim_some] at hlost
      refine ⟨fun hfeeds hstate => ?_, fun hfeeds hstate => ?_, fun helse => ?_⟩
      · rw [State.feedDiscGone_opened (s := s.withoutRequest r.age) hstate hfeeds, State.laneLeavesJob_enterClosing] at hlost
        exact hlost
      · rw [State.feedDiscGone_opening (s := s.withoutRequest r.age) hstate hfeeds] at hlost
        exact hlost
      · rw [State.feedDiscGone_elsewhere (s := s.withoutRequest r.age) helse] at hlost
        exact hlost
    · intro left
      have hfollows := State.followPick_tray hposition hrequest
      have hlane : (s.pickedFrom (.tray n) r.age).lanes[n] = s.lanes[n] := by rw [State.pickedFrom_lanes]
      have hleft : (s.pickedFrom (.tray n) r.age).laneLeavesJob n = left := by
        rw [State.laneLeavesJob, hlane, State.pickedFrom_eq] <;> rfl
      have hclose : (s.pickedFrom (.tray n) r.age).leavesClosing n = close left n := by
        rw [State.leavesClosing, hlane, hleft]
      refine ⟨fun htaken hdisc => ?_, fun hstays => hfollows.trans (if_neg ?_)⟩
      · rw [if_pos ⟨htaken, hdisc⟩] at hfollows
        refine ⟨fun hstate => ?_, fun hstate => ?_⟩
        · rw [hfollows, State.lanePicked_opened (by rw [hlane]; exact hstate), State.laneLeavesJob_enterClosing, hclose]
        · rw [hfollows, State.lanePicked_fault (by rw [hlane]; exact hstate), State.laneLeavesJob_sendTray, hclose]
      · rcases hstays with h | h <;> simp [h]
    · intro before r after hposition hqueue hkind hbefore
      have hfollows := State.followPick_printer hposition hqueue hkind hbefore
      refine ⟨fun htaken hdisc => ?_, fun hstays => hfollows.trans (if_neg ?_)⟩
      · rw [hfollows, if_pos ⟨htaken, hdisc⟩, State.pickedFrom_eq]; rfl
      · rcases hstays with h | h <;> simp [h]
    · intro htray hprinter
      by_cases hat : s.arm.position = .known .printer
      · exact State.followPick_printer_none hat (hprinter hat)
      · by_cases hatTray : ∃ n, s.arm.position = .known (.tray n)
        · obtain ⟨n, hn⟩ := hatTray
          exact State.followPick_tray_none hn (htray n hn)
        · exact State.followPick_elsewhere (fun n hn => hatTray ⟨n, hn⟩) hat

end Sys2Proof.Machine
end

