-- ==== Sys2Proof/Proofs/SensorScan.lean ====
section
/-! SENSOR_SCAN (R148 to R155): what a scan makes of every sensor's record, that a scan without a change changes nothing else, that a
scan with one change is that sensor's change event, and what each consumer does with a change. -/

namespace Sys2Proof.Machine

/-! ## The table of sensors (R148, R149) -/

theorem allSensors_sensorPlace (v : Sensor) : allSensors[(sensorPlace v).val]? = some v := by cases v <;> rfl

theorem mem_allSensors (v : Sensor) : v ∈ allSensors := List.mem_of_getElem? (allSensors_sensorPlace v)

theorem sensorPlace_inj {v w : Sensor} : sensorPlace v = sensorPlace w ↔ v = w := by
  refine ⟨fun h => ?_, congrArg sensorPlace⟩
  have hv := allSensors_sensorPlace v
  rw [h, allSensors_sensorPlace w] at hv
  exact (Option.some.inj hv).symm

theorem allSensors_nodup : allSensors.Nodup := by decide

theorem State.modSensor_sensor (s : State) (v w : Sensor) (f : SensorRecord → SensorRecord) :
    (s.modSensor v f).sensors[sensorPlace w] = if w = v then f s.sensors[sensorPlace w] else s.sensors[sensorPlace w] := by
  by_cases h : w = v
  · subst h; simp [State.modSensor]
  · have hplace : (sensorPlace v).val ≠ (sensorPlace w).val := fun e => h (sensorPlace_inj.1 (Fin.ext e.symm))
    simp [State.modSensor, h, hplace]

theorem State.sensors_of_quiet {s t : State} (h : t.quiet = s.quiet) : t.sensors = s.sensors := by
  simp only [State.quiet, Prod.mk.injEq] at h
  obtain ⟨-, -, -, -, -, -, -, -, -, hsensors, -⟩ := h
  exact hsensors

@[simp] theorem State.raise_sensors (s : State) (g : Group) (v : Notice) : (s.raise g v).sensors = s.sensors :=
  State.sensors_of_quiet (s.raise_quiet g v)

@[simp] theorem State.deriveKey_sensors (s : State) : s.deriveKey.sensors = s.sensors := by
  unfold State.deriveKey; dsimp only; split <;> simp

/-- No consumer writes a sensor's record (R151). -/
@[simp] theorem State.consume_sensors (s : State) (startUp : Bool) (before : Nat) (v : Sensor) (on : Bool) :
    (s.consume startUp before v on).sensors = s.sensors := by
  cases v with
  | binAPresent | binBPresent => dsimp only [State.consume, State.binPresence]; split <;> simp
  | outputFull => dsimp only [State.consume, State.outputChange]; split <;> simp
  | rejectFull => dsimp only [State.consume, State.rejectChange]; split <;> simp
  | keyLock | keyService => dsimp only [State.consume]; split <;> simp
  | doorClosed => exact State.sensors_of_quiet (by dsimp only [State.consume, State.doorChange]; split <;> simp)
  | gripOne | gripTwo => exact State.sensors_of_quiet (s.gripChange_quiet before)
  | armHome | lidClosed | printerTrayHome =>
    exact State.sensors_of_quiet (by dsimp only [State.consume]; split <;> simp)
  | blackPresent => exact State.sensors_of_quiet (s.blackChange_quiet on)
  | colourPresent => exact State.sensors_of_quiet (s.colourChange_quiet on)

/-! ## Debouncing (R149) -/

@[simp] theorem SensorRecord.counted_active (r : SensorRecord) (on : Bool) : (r.counted on).active = r.active := by
  unfold SensorRecord.counted; split <;> rfl

theorem SensorRecord.changes_iff (r : SensorRecord) (on : Bool) : r.changes on = true ↔ on ≠ r.active ∧ 2 ≤ r.count := by
  simp [SensorRecord.changes]

/-- The record after a scan: a reading equal to the debounced state clears the count, the third that differs becomes it. -/
theorem SensorRecord.counted_changes (r : SensorRecord) (on : Bool) :
    (if r.changes on then { r.counted on with active := on } else r.counted on) =
      if on = r.active then ⟨r.active, 0⟩ else if r.count < 2 then ⟨r.active, r.count + 1⟩ else ⟨on, 0⟩ := by
  by_cases hon : on = r.active
  · simp [SensorRecord.changes, SensorRecord.counted, hon]
  · by_cases hcount : r.count < 2
    · simp [SensorRecord.changes, SensorRecord.counted, hon, hcount, Nat.not_le.2 hcount]
    · simp [SensorRecord.changes, SensorRecord.counted, hon, hcount, Nat.le_of_not_lt hcount]

theorem State.countReadings_only (readings : BitVec 32) (l : List Sensor) (s : State) :
    State.countReadings readings l s = { s with sensors := (State.countReadings readings l s).sensors } := by
  induction l generalizing s with
  | nil => rfl
  | cons v rest ih => exact ih _

theorem State.countReadings_sensor (readings : BitVec 32) (v : Sensor) {l : List Sensor} (hl : l.Nodup) (s : State) :
    (State.countReadings readings l s).sensors[sensorPlace v] =
      if v ∈ l then s.sensors[sensorPlace v].counted (readingOf readings v) else s.sensors[sensorPlace v] := by
  induction l generalizing s with
  | nil => rfl
  | cons w rest ih =>
    obtain ⟨hw, hrest⟩ := List.nodup_cons.1 hl
    rw [State.countReadings, ih hrest, State.modSensor_sensor]
    by_cases h : v = w
    · subst h; simp [hw]
    · simp [h]

theorem State.countAll_sensor (readings : BitVec 32) (v : Sensor) (s : State) :
    (State.countReadings readings allSensors s).sensors[sensorPlace v] =
      s.sensors[sensorPlace v].counted (readingOf readings v) := by
  rw [State.countReadings_sensor readings v allSensors_nodup, if_pos (mem_allSensors v)]

/-- The counts leave every debounced state. -/
@[simp] theorem State.countAll_debounced (readings : BitVec 32) (v : Sensor) (s : State) :
    (State.countReadings readings allSensors s).sensor v = s.sensor v := by
  rw [State.sensor, State.countAll_sensor, SensorRecord.counted_active, State.sensor]

@[simp] theorem State.countAll_gripCount (readings : BitVec 32) (s : State) :
    (State.countReadings readings allSensors s).gripCount = s.gripCount := by
  simp [State.gripCount]

theorem State.changeEvent_sensor (s : State) (startUp : Bool) (v w : Sensor) (on : Bool) :
    (s.changeEvent startUp v on).sensors[sensorPlace w] =
      if w = v then { s.sensors[sensorPlace w] with active := on } else s.sensors[sensorPlace w] := by
  rw [State.changeEvent, State.sensors_of_quiet (State.settle_quiet _), State.consume_sensors, State.modSensor_sensor]

theorem State.changeEvents_sensor (startUp : Bool) (readings : BitVec 32) (v : Sensor) (l : List Sensor) (s : State) :
    (State.changeEvents startUp readings l s).sensors[sensorPlace v] =
      if v ∈ l then { s.sensors[sensorPlace v] with active := readingOf readings v } else s.sensors[sensorPlace v] := by
  induction l generalizing s with
  | nil => rfl
  | cons w rest ih =>
    rw [State.changeEvents, ih, State.changeEvent_sensor]
    by_cases h : v = w
    · subst h; simp
    · simp [h]

/-! ## The sensors that change at a scan (R149, log 5) -/

theorem State.mem_changedSensors (s : State) (readings : BitVec 32) (order : List Sensor) (v : Sensor) :
    v ∈ s.changedSensors readings order ↔ s.sensors[sensorPlace v].changes (readingOf readings v) = true := by
  simp only [State.changedSensors, List.mem_append, List.mem_filter, List.mem_dedup, mem_allSensors, true_and,
    Bool.and_eq_true, Bool.not_eq_true', List.contains_eq_mem, decide_eq_false_iff_not]
  tauto

theorem State.changedSensors_nodup (s : State) (readings : BitVec 32) (order : List Sensor) :
    (s.changedSensors readings order).Nodup := by
  refine List.nodup_append'.2 ⟨order.nodup_dedup.filter _, allSensors_nodup.filter _, fun v hnamed hother => ?_⟩
  have hin := List.mem_dedup.1 (List.mem_of_mem_filter hnamed)
  have hout := (List.mem_filter.1 hother).2
  simp [hin] at hout

/-- The sensor's debounced state stays as it is at a scan: its reading agrees, or it has not differed at the two scans before. -/
def State.stays (s : State) (readings : BitVec 32) (v : Sensor) : Prop :=
  readings.getLsbD (sensorBit v) = s.sensors[sensorPlace v].active ∨ s.sensors[sensorPlace v].count < 2

theorem State.stays_iff (s : State) (readings : BitVec 32) (v : Sensor) :
    s.stays readings v ↔ ¬s.sensors[sensorPlace v].changes (readingOf readings v) = true := by
  rw [SensorRecord.changes_iff, State.stays, readingOf, not_and_or, not_not, Nat.not_le]

theorem State.changedSensors_nil {s : State} {readings : BitVec 32} (h : ∀ v, s.stays readings v) (order : List Sensor) :
    s.changedSensors readings order = [] :=
  List.eq_nil_iff_forall_not_mem.2 fun v hv =>
    (s.stays_iff readings v).1 (h v) ((s.mem_changedSensors readings order v).1 hv)

theorem State.changedSensors_single {s : State} {readings : BitVec 32} {v : Sensor}
    (hv : ¬s.stays readings v) (hothers : ∀ w, w ≠ v → s.stays readings w) (order : List Sensor) :
    s.changedSensors readings order = [v] := by
  refine List.perm_singleton.1 ((List.perm_ext_iff_of_nodup (s.changedSensors_nodup readings order) (List.nodup_singleton v)).2
    fun w => ?_)
  rw [State.mem_changedSensors, ← not_iff_not, ← State.stays_iff, List.mem_singleton]
  exact ⟨fun hw e => hv (e ▸ hw), hothers w⟩

/-! ## The scan -/

theorem State.countScan_full {s : State} (h : s.scans = 3) : s.setScans (min 3 (s.scans + 1)) = s := by
  rw [h]; exact congrArg (fun n => { s with scans := n }) h.symm

/-- Every sensor's record after a scan, whatever else changes at it (R149). -/
theorem exec_sensorScan_sensors (readings : BitVec 32) (order : List Sensor) (s : State) :
    ∃ t, exec (.sensorScan readings order) s = .next t ∧ ∀ v : Sensor, t.sensors[sensorPlace v] =
      if readings.getLsbD (sensorBit v) = s.sensors[sensorPlace v].active then ⟨s.sensors[sensorPlace v].active, 0⟩
      else if s.sensors[sensorPlace v].count < 2 then ⟨s.sensors[sensorPlace v].active, s.sensors[sensorPlace v].count + 1⟩
      else ⟨readings.getLsbD (sensorBit v), 0⟩ := by
  refine ⟨_, rfl, fun v => ?_⟩
  rw [apply_ite State.sensors, State.deriveKey_sensors, ite_self, State.changeEvents_sensor, State.countAll_sensor]
  simp only [State.mem_changedSensors, State.setScans_sensors]
  exact SensorRecord.counted_changes _ _

/-- A scan that completes no change counts the readings; the third of the start-up derives the key (R150). -/
theorem exec_sensorScan_stays {readings : BitVec 32} {s : State} (h : ∀ v, s.stays readings v) (order : List Sensor) :
    exec (.sensorScan readings order) s =
      let counted := State.countReadings readings allSensors (s.setScans (min 3 (s.scans + 1)))
      .next (if s.scans = 2 then counted.deriveKey else counted) := by
  rw [exec, execSensorScan, State.changedSensors_nil h]
  rfl

theorem exec_sensorScan_stays_running {readings : BitVec 32} {s : State} (h : ∀ v, s.stays readings v) (hscans : s.scans = 3)
    (order : List Sensor) : exec (.sensorScan readings order) s = .next (State.countReadings readings allSensors s) := by
  rw [exec_sensorScan_stays h, State.countScan_full hscans]
  exact congrArg _ (if_neg (by omega))

theorem exec_sensorScan_third {readings : BitVec 32} {s : State} (h : ∀ v, s.stays readings v) (hscans : s.scans = 2)
    (order : List Sensor) : ∃ sensors, exec (.sensorScan readings order) s =
      let key := keyOf (s.sensor .keyLock) (s.sensor .keyService)
      let u := { s with sensors := sensors, scans := 3 }
      .next (if key = s.key then u else (u.setKey key).raise .key (.key key s.key)) := by
  have honly := State.countReadings_only readings allSensors (s.setScans 3)
  have hlock := State.countAll_debounced readings .keyLock (s.setScans 3)
  have hservice := State.countAll_debounced readings .keyService (s.setScans 3)
  have hscan : min 3 (2 + 1) = 3 := rfl
  refine ⟨(State.countReadings readings allSensors (s.setScans 3)).sensors, ?_⟩
  rw [exec_sensorScan_stays h, hscans, hscan]
  generalize State.countReadings readings allSensors (s.setScans 3) = u at honly hlock hservice
  refine congrArg Host.Outcome.next ((if_pos rfl).trans ?_)
  rw [State.deriveKey, hlock, hservice, honly]
  rfl

/-- The state in which the consumers of the one sensor that changes at a scan meet its change. -/
def State.debounced (s : State) (readings : BitVec 32) (v : Sensor) : State :=
  (State.countReadings readings allSensors s).modSensor v fun r => { r with active := readings.getLsbD (sensorBit v) }

theorem State.debounced_only (s : State) (readings : BitVec 32) (v : Sensor) :
    s.debounced readings v = { s with sensors := (s.debounced readings v).sensors } := by
  rw [State.debounced, State.countReadings_only]; rfl

theorem State.debounced_active (s : State) (readings : BitVec 32) (v w : Sensor) :
    (s.debounced readings v).sensors[sensorPlace w].active =
      if w = v then readings.getLsbD (sensorBit v) else s.sensors[sensorPlace w].active := by
  rw [State.debounced, State.modSensor_sensor, State.countAll_sensor]
  split
  · rfl
  · exact SensorRecord.counted_active _ _

/-- After the start-up, a scan at which one sensor changes is that sensor's change at its consumers, with its follow-up
computations (R149, R151). -/
theorem exec_sensorScan_single {readings : BitVec 32} {v : Sensor} {s : State} (hscans : s.scans = 3)
    (hv : ¬s.stays readings v) (hothers : ∀ w, w ≠ v → s.stays readings w) (order : List Sensor) :
    exec (.sensorScan readings order) s = .next
      ((s.debounced readings v).consume false s.gripCount v (readings.getLsbD (sensorBit v))).settle := by
  rw [exec, execSensorScan, State.changedSensors_single hv hothers, State.countScan_full hscans, if_neg (by omega), hscans]
  dsimp only [State.changeEvents, State.changeEvent]
  rw [State.countAll_gripCount]
  rfl

/-! ## What the consumers do (R151)

`u` is the state in which the debounced state has changed; nothing is owed in it. -/

theorem State.settle_eq {t u : State} (h : t = u) (hu : u.settled) : t.settle = u := by rw [h, State.settle_of_settled hu]

section
variable {u : State} (hu : u.settled)
include hu

theorem State.raise_settled (g : Group) (n : Notice) : (u.raise g n).settled := (u.raise_due g n).trans hu

theorem State.deriveKey_settle : u.deriveKey.settle = u.deriveKey := State.settle_of_settled (u.deriveKey_due.trans hu)

theorem State.homeReads_settle :
    u.homeReads.settle = if u.arm.step = some .home ∧ u.arm.homeDone = true then u.homed.settle else u := by
  simp only [State.homeReads, Bool.and_eq_true, decide_eq_true_eq]
  rw [apply_ite State.settle, State.settle_of_settled hu]

theorem State.lidOpens_settle :
    u.lidOpens.settle = if u.printer.state = .printing then (u.printerFaults .lid).settle else u := by
  rw [State.lidOpens, apply_ite State.settle, State.settle_of_settled hu]

theorem State.recheckInk_settle : u.recheckInk.settle = if u.printer.state = .inkHold then u.inkCheck.settle else u := by
  rw [State.recheckInk, apply_ite State.settle, State.settle_of_settled hu]

theorem State.gripFilled_settle : u.gripFilled.settle =
    if u.arm.state = .fault ∧ ∃ f, u.arm.fault = some f ∧ f.cause = .pick then u.followPick.settle else u := by
  have hcause : (u.arm.fault.map (·.cause)) = some .pick ↔ ∃ f, u.arm.fault = some f ∧ f.cause = .pick := Option.map_eq_some_iff
  simp only [State.gripFilled, Bool.and_eq_true, decide_eq_true_eq, hcause]
  rw [apply_ite State.settle, State.settle_of_settled hu]

/-- The arm-home sensor acts when it reads home (R128). -/
theorem State.consume_armHome_settle (startUp : Bool) (before : Nat) (on : Bool) :
    (u.consume startUp before .armHome on).settle =
      if on = true ∧ u.arm.step = some .home ∧ u.arm.homeDone = true then u.homed.settle else u := by
  cases on with
  | true => exact (State.homeReads_settle hu).trans (by simp)
  | false => exact (State.settle_of_settled hu).trans (by simp)

/-- The lid sensor acts when it reads open (R172). -/
theorem State.consume_lidClosed_settle (startUp : Bool) (before : Nat) (on : Bool) :
    (u.consume startUp before .lidClosed on).settle =
      if on = false ∧ u.printer.state = .printing then (u.printerFaults .lid).settle else u := by
  cases on with
  | true => exact (State.settle_of_settled hu).trans (by simp)
  | false => exact (State.lidOpens_settle hu).trans (by simp)

end

section
variable {u : State}

/-! ### The printer's tray comes home (R159) -/

theorem State.printerHomeReads_awaited {disc : Bool} (hstate : u.printer.state = .trayOut) (hdone : u.printer.outDone = some disc) :
    u.printerHomeReads = u.endTrayOut disc := by
  rw [State.printerHomeReads, hstate, hdone]

theorem State.printerHomeReads_unawaited (h : u.printer.state ≠ .trayOut ∨ u.printer.outDone = none) :
    u.printerHomeReads = u := by
  unfold State.printerHomeReads
  split
  · rename_i hstate hdone
    simp [hstate, hdone] at h
  · rfl

theorem State.consume_printerTrayHome_unawaited {startUp on : Bool} {before : Nat}
    (h : on = false ∨ u.printer.state ≠ .trayOut ∨ u.printer.outDone = none) :
    u.consume startUp before .printerTrayHome on = u := by
  cases on with
  | true => exact State.printerHomeReads_unawaited (h.resolve_left nofun)
  | false => rfl

/-! ### The grip (R141, R142, R152) -/

theorem State.gripChange_emptied {before : Nat} (hbefore : before ≠ 0) (h : u.gripCount = 0) :
    u.gripChange before = u.gripEmptied := by
  simp [State.gripChange, hbefore, h]

theorem State.gripChange_filled {before : Nat} (hbefore : before = 0) (h : u.gripCount ≠ 0) :
    u.gripChange before = u.gripFilled := by
  simp [State.gripChange, hbefore, h]

theorem State.gripChange_same {before : Nat} (h : before = 0 ↔ u.gripCount = 0) : u.gripChange before = u := by
  simp [State.gripChange, h]

theorem State.gripEmptied_fault (h : u.arm.state = .fault) : u.gripEmptied = u.loseArmDisc := if_pos h

theorem State.gripEmptied_drop (h : u.arm.state ≠ .fault) (hdisc : (u.discAt .arm).isSome) (hstep : u.arm.step ≠ some .place) :
    u.gripEmptied = u.armFaults .drop u.arm.step := by
  simp [State.gripEmptied, h, hdisc, hstep]

theorem State.gripEmptied_expected (h : u.arm.state ≠ .fault) (hno : u.discAt .arm = none ∨ u.arm.step = some .place) :
    u.gripEmptied = u := by
  rw [State.gripEmptied, if_neg h]
  rcases hno with hdisc | hstep
  · simp [hdisc]
  · simp [hstep]

/-! ### The door closes (R128, R129, log 14) -/

theorem State.doorReleases_serving (hstate : u.arm.state = .held) (hresume : u.arm.resume = some .serving) :
    u.doorReleases = (u.modArm fun a => { a with state := .serving, resume := none }).armContinue := by
  simp [State.doorReleases, hstate, State.modArm, hresume]

theorem State.issueStep_home (hdoor : u.sensor .doorClosed = true) : u.issueStep .home =
    (u.emit (.arm .home)).modArm fun a => { a with step := some .home, timer := some ⟨20000, 0⟩ } := if_pos hdoor

theorem State.doorReleases_homing (hdoor : u.sensor .doorClosed = true) (hstep : u.arm.step = none)
    (h : u.arm.state = .homing ∨ u.arm.state = .held ∧ u.arm.resume = some .homing) :
    u.doorReleases = (u.emit (.arm .home)).modArm fun a =>
      { a with
        state := .homing, step := some .home, timer := some ⟨20000, 0⟩
        resume := if u.arm.state = .held then none else a.resume } := by
  rcases h with hstate | ⟨hstate, hresume⟩
  · have hreleases : u.doorReleases = u.issueStep .home := by simp [State.doorReleases, hstate, hstep]
    rw [hreleases, State.issueStep_home hdoor]
    simp [State.modArm, hstate]
  · have hreleases : u.doorReleases =
        (u.modArm fun a => { a with state := .homing, resume := none }).issueStep .home := by
      simp [State.doorReleases, hstate, State.modArm, hresume, hstep]
    rw [hreleases, State.issueStep_home (u := u.modArm _) hdoor]
    simp [State.modArm, State.emit, hstate]

theorem State.doorReleases_none (hheld : u.arm.state ≠ .held) (h : ¬(u.arm.state = .homing ∧ u.arm.step = none)) :
    u.doorReleases = u := by
  simp only [State.doorReleases, if_neg hheld, Bool.and_eq_true, decide_eq_true_eq, Option.isNone_iff_eq_none]
  exact if_neg h

end

/-! ## The obligation -/

/-- Settles O47: the debouncing by `exec_sensorScan_sensors`, a scan without a change by `exec_sensorScan_stays`; a scan with one
change is the sensor's `consume` (`exec_sensorScan_single`), taken sensor by sensor. -/
theorem scanDebouncesEverySensor : Obligations.ScanDebouncesEverySensor := by
  refine ⟨fun readings order s => ⟨exec_sensorScan_sensors readings order s, fun hstays => ⟨fun hscans => ?_, fun hscans => ?_⟩⟩,
    fun readings order v s hs hscans => ?_⟩
  · exact ⟨_, exec_sensorScan_stays_running hstays hscans order, State.countReadings_only _ _ _⟩
  · exact exec_sensorScan_third hstays hscans order
  · intro on hdiffers hcount hothers
    have hv : ¬s.stays readings v := fun h => h.elim hdiffers (Nat.not_lt.2 hcount)
    have hexec := exec_sensorScan_single hscans hv hothers order
    have hactive := s.debounced_active readings v
    have honly := s.debounced_only readings v
    generalize s.debounced readings v = u at hactive hexec honly
    refine ⟨u, honly, hactive, ?_⟩
    have hu : u.settled := (congrArg State.due honly).trans hs
    have hkey : u.key = s.key := by rw [honly]
    have harm : u.arm = s.arm := by rw [honly]
    have hdisc : u.discAt .arm = s.discAt .arm := by rw [honly]; rfl
    have hprinter : u.printer = s.printer := by rw [honly]
    rw [← hkey, ← harm, ← hdisc, ← hprinter]
    intro becomes key levels full
    have hbecomes : ∀ t, (u.consume false s.gripCount v on).settle = t → becomes t := fun t ht => hexec.trans (congrArg _ ht)
    have hon : u.sensor v = on := (hactive v).trans (if_pos rfl)
    clear_value on
    cases v with
    | binAPresent | binBPresent =>
      cases on with
      | true => exact hbecomes _ rfl
      | false => exact hbecomes _ (State.settle_of_settled ((State.raise_due _ _ _).trans ((u.modBin_due _ _).trans hu)))
    | outputFull | rejectFull =>
      cases on with
      | true => exact hbecomes _ (State.settle_of_settled ((State.raise_due _ _ _).trans hu))
      | false => exact hbecomes _ rfl
    | doorClosed =>
      cases on with
      | false => exact hbecomes _ (State.settle_of_settled (State.raise_settled hu _ _))
      | true =>
        have htoldArm : (u.raise .door (.door true)).arm = u.arm := State.raise_arm _ _ _
        have hdoor : (u.raise .door (.door true)).sensor .doorClosed = true := by
          rw [State.sensor, State.raise_sensors]; exact hon
        have htold := State.raise_settled hu .door (.door true)
        rw [← htoldArm]
        refine ⟨fun hstate hresume => ?_, fun hstep hhoming => ?_, fun hheld hno => ?_⟩
        · exact hbecomes _ (congrArg State.settle (State.doorReleases_serving hstate hresume))
        · exact hbecomes _ (State.settle_eq (State.doorReleases_homing hdoor hstep hhoming) htold)
        · exact hbecomes _ (State.settle_eq (State.doorReleases_none hheld hno) htold)
    | keyLock | keyService => exact hbecomes _ (State.deriveKey_settle hu)
    | gripOne | gripTwo =>
      refine ⟨fun hbefore hempty => ?_, fun hbefore hfilled => ?_, fun hsame => ?_⟩
      · have hemptied := State.gripChange_emptied hbefore hempty
        refine ⟨fun hfault => ?_, fun hfault hheld hstep => ?_, fun hfault hno => ?_⟩
        · exact hbecomes _ (congrArg State.settle (hemptied.trans (State.gripEmptied_fault hfault)))
        · exact hbecomes _ (congrArg State.settle (hemptied.trans (State.gripEmptied_drop hfault hheld hstep)))
        · exact hbecomes _ (State.settle_eq (hemptied.trans (State.gripEmptied_expected hfault hno)) hu)
      · exact hbecomes _ ((congrArg State.settle (State.gripChange_filled hbefore hfilled)).trans (State.gripFilled_settle hu))
      · exact hbecomes _ (State.settle_eq (State.gripChange_same hsame) hu)
    | armHome => exact hbecomes _ (State.consume_armHome_settle hu _ _ _)
    | lidClosed => exact hbecomes _ (State.consume_lidClosed_settle hu _ _ _)
    | printerTrayHome =>
      refine ⟨fun disc hhome hstate hdone => ?_, fun hno => ?_⟩
      · subst hhome
        exact hbecomes _ (congrArg State.settle (State.printerHomeReads_awaited hstate hdone))
      · exact hbecomes _ (State.settle_eq (State.consume_printerTrayHome_unawaited hno) hu)
    | blackPresent | colourPresent =>
      cases on with
      | true => exact hbecomes _ (State.recheckInk_settle (u := u.modPrinter _) hu)
      | false => exact hbecomes _ (State.settle_of_settled (s := u.modPrinter _) hu)

end Sys2Proof.Machine
end

