-- ==== Sys2Proof/Proofs/Bands.lean ====
section
/-! The bands of a label (R163 to R168): the buffer that a band is sent from or fetched into, the strobe width, the attempt to start
the next band, and the next fetch request. -/

namespace Sys2Proof.Machine

/-! ## Band buffers (R157) -/

/-- The first buffer in state `x`, A before B. -/
def Printer.bufferIn (v : Printer) (x : BufferState) : Option BufferId :=
  if v.bufferA.state = x then some .a else if v.bufferB.state = x then some .b else none

theorem Printer.fullWith_eq (v : Printer) (band : Nat) : v.fullWith band = v.bufferIn (.full band) := rfl

theorem Printer.inUse_eq (v : Printer) (band : Nat) : v.inUse band = v.bufferIn (.inUse band) := rfl

theorem Printer.freeBuffer_eq (v : Printer) : v.freeBuffer = v.bufferIn .free := rfl

theorem Printer.bufferIn_first {v : Printer} {x : BufferState} {which : BufferId} (h : (v.buffer which).state = x)
    (hfirst : which = .a ∨ (v.buffer .a).state ≠ x) : v.bufferIn x = some which := by
  cases which with
  | a => exact if_pos h
  | b => exact (if_neg (hfirst.resolve_left nofun)).trans (if_pos h)

theorem Printer.bufferIn_none {v : Printer} {x : BufferState} (h : ∀ which, (v.buffer which).state ≠ x) : v.bufferIn x = none :=
  (if_neg (h .a)).trans (if_neg (h .b))

theorem Printer.fillingWith_first {v : Printer} {band q : Nat} {which : BufferId} (h : (v.buffer which).state = .filling band q)
    (hfirst : which = .a ∨ ∀ q, (v.buffer .a).state ≠ .filling band q) : v.fillingWith band = some (which, q) := by
  unfold Printer.fillingWith
  cases which with
  | a =>
    have ha : v.bufferA.state = .filling band q := h
    simp [ha]
  | b =>
    have hb : v.bufferB.state = .filling band q := h
    have hother : ∀ q, v.bufferA.state ≠ .filling band q := hfirst.resolve_left nofun
    rw [hb]
    cases ha : v.bufferA.state with
    | filling f q' =>
      have hf : f ≠ band := fun e => hother q' (by rw [ha, e])
      simp [hf]
    | free | full | inUse => simp

theorem Printer.fillingWith_none {v : Printer} {band : Nat} (h : ∀ which q, (v.buffer which).state ≠ .filling band q) :
    v.fillingWith band = none := by
  have hother {x : BufferState} {f q : Nat} (hx : ∀ q, x ≠ .filling band q) (e : x = .filling f q) : f ≠ band :=
    fun hf => hx q (hf ▸ e)
  have ha : ∀ q, v.bufferA.state ≠ .filling band q := h .a
  have hb : ∀ q, v.bufferB.state ≠ .filling band q := h .b
  unfold Printer.fillingWith
  split
  · rename_i hA
    rw [if_neg (hother ha hA)]
    split
    · rename_i hB; exact if_neg (hother hb hB)
    · rfl
  · rename_i hB _; exact if_neg (hother hb hB)
  · rfl

/-! ## The strobe width (R168) -/

/-- The width in the words of the statements: floored, brought into 120..260, capped at three quarters of the firing period. -/
theorem strobeWidth_eq (w0 k tref reading : Nat) (q : Quality) :
    strobeWidth w0 k tref reading q =
      min (max 120 (min 260 ((w0 : Int) + Int.floor ((((tref : Int) - reading) * k : Rat) / 8)))).toNat
        (firingPeriod q * 3 / 4) := by
  have hfloor : Int.floor ((((tref : Int) - reading) * k : Rat) / 8) = ((tref : Int) - reading) * k / 8 := by
    have h := Rat.floor_intCast_div_natCast (((tref : Int) - reading) * k) 8
    push_cast at h ⊢
    exact h
  rw [strobeWidth, hfloor, clampTo_eq_max_min (by decide)]
  congr 1
  omega

/-! ## The attempt to start a band (R164, R166, R167) -/

section
variable {s : State}

theorem State.tryStartBand_notFull (h : ∀ which, (s.printer.buffer which).state ≠ .full s.printer.nextBand) :
    s.tryStartBand =
      if s.printer.nextBand = 0 then s.modPrinter fun v => { v with state := .fetchWait, timer := none }
      else (s.modPrinter fun v => { v with state := .bandWait, timer := some ⟨2000, 0⟩ }).oweGrant := by
  unfold State.tryStartBand
  dsimp only
  rw [Printer.fullWith_eq, Printer.bufferIn_none h]
  rfl

variable {which : BufferId} (hfull : (s.printer.buffer which).state = .full s.printer.nextBand)
  (hfirst : which = .a ∨ (s.printer.buffer .a).state ≠ .full s.printer.nextBand)
include hfull hfirst

theorem State.tryStartBand_full :
    s.tryStartBand =
      if s.sensor .lidClosed = false then s.printerFaults .lid
      else if 120 ≤ s.printer.head then
        (s.modPrinter fun v => { v with state := .thermalPause, timer := some ⟨5000, 0⟩ }).raise .printer
          (.thermal true s.printer.head)
      else s.startBand which := by
  unfold State.tryStartBand
  dsimp only
  rw [Printer.fullWith_eq, Printer.bufferIn_first hfull hfirst]
  simp only [Bool.not_eq_true']
  rfl

theorem State.tryStartBand_lid (hlid : s.sensor .lidClosed = false) : s.tryStartBand = s.printerFaults .lid :=
  (State.tryStartBand_full hfull hfirst).trans (if_pos hlid)

theorem State.tryStartBand_hot (hlid : s.sensor .lidClosed = true) (hhead : 120 ≤ s.printer.head) :
    s.tryStartBand = (s.modPrinter fun v => { v with state := .thermalPause, timer := some ⟨5000, 0⟩ }).raise .printer
      (.thermal true s.printer.head) := by
  rw [State.tryStartBand_full hfull hfirst, if_neg (by rw [hlid]; nofun), if_pos hhead]

theorem State.tryStartBand_starts (hlid : s.sensor .lidClosed = true) (hhead : s.printer.head < 120) :
    s.tryStartBand = s.startBand which := by
  rw [State.tryStartBand_full hfull hfirst, if_neg (by rw [hlid]; nofun), if_neg (Nat.not_le.2 hhead)]

end

/-- The band goes to the mechanism with its strobe width, its firing period and its pixels (R164 step 4, R168). -/
theorem State.startBand_eq {s : State} {j : Job} (hj : s.printerJob = some j) (which : BufferId) :
    s.startBand which =
      let width := strobeWidth s.printer.w0 s.printer.k s.printer.tref s.printer.head j.quality
      let data := (s.printer.buffer which).data
      (s.emit (.printer ([3, BitVec.ofNat 8 s.printer.nextBand] ++ leBytes 2 width ++ leBytes 2 (firingPeriod j.quality) ++
        data))).modPrinter fun v =>
          { v.setBuffer which ⟨.inUse v.nextBand, data⟩ with state := .printing, timer := some ⟨10000, 0⟩ } := by
  unfold State.startBand
  rw [hj]
  rfl

/-! ## The label in hand (R157) -/

section
variable {s : State} {j : Job} {a : ArtworkId} (hj : s.printerJob = some j) (ha : j.artwork = some a)
include hj ha

theorem State.printerArtworkId_of_job : s.printerArtworkId = some a := by
  rw [State.printerArtworkId, hj]; exact ha

theorem State.labelCosts_of_job : s.labelCosts = s.artworks[a].costs := by
  rw [State.labelCosts, State.printerArtworkId_of_job hj ha]; rfl

end

/-! ## The next fetch request (R163) -/

theorem PrinterState.fetches_iff (x : PrinterState) :
    x.fetches = true ↔ x ∈ [PrinterState.trayIn, .fetchWait, .printing, .bandWait, .thermalPause] := by
  cases x <;> decide

theorem State.quarterInFlight_eq_false {s : State} :
    s.quarterInFlight = false ↔ ∀ t, s.channel = some t → t.recipient.isBand = false := by
  rw [State.quarterInFlight]
  cases s.channel <;> simp

/-- A fetch request may be raised: in the print sequence, with no request and no quarter in flight. -/
def State.mayFetch (s : State) : Prop :=
  s.printer.state ∈ [PrinterState.trayIn, .fetchWait, .printing, .bandWait, .thermalPause] ∧ s.printer.request = none ∧
    ∀ t, s.channel = some t → t.recipient.isBand = false

theorem State.mayFetch_iff (s : State) :
    s.mayFetch ↔ (s.printer.state.fetches && s.printer.request.isNone && !s.quarterInFlight) = true := by
  rw [State.mayFetch, ← PrinterState.fetches_iff, ← State.quarterInFlight_eq_false, Bool.and_eq_true, Bool.and_eq_true,
    Option.isNone_iff_eq_none, Bool.not_eq_true', and_assoc]

theorem State.raiseFetch_blocked {s : State} (h : ¬s.mayFetch) : s.raiseFetch = s := if_neg (mt s.mayFetch_iff.2 h)

section
variable {s : State} {j : Job} {a : ArtworkId} (h : s.mayFetch) (hj : s.printerJob = some j)
  (ha : j.artwork = some a)
include h hj ha

/-- The next quarter of the buffer that is FILLING with the fetch band. -/
theorem State.raiseFetch_quarter {which : BufferId} {q : Nat}
    (hfilling : s.printer.fillingWith s.printer.fetchBand = some (which, q)) :
    s.raiseFetch = (s.modPrinter fun v => { v with request := some ⟨a, v.fetchBand, q, which⟩ }).oweGrant := by
  rw [State.raiseFetch, if_pos (s.mayFetch_iff.1 h), State.printerArtworkId_of_job hj ha]
  dsimp only
  rw [hfilling]
  rfl

variable (hfilling : s.printer.fillingWith s.printer.fetchBand = none)
include hfilling

theorem State.raiseFetch_notFilling :
    s.raiseFetch =
      if s.printer.fetchBand < s.artworks[a].bands then
        s.printer.freeBuffer.elim s fun which => (s.modPrinter fun v =>
          { v.setBuffer which ⟨.filling v.fetchBand 0, []⟩ with request := some ⟨a, v.fetchBand, 0, which⟩ }).oweGrant
      else s := by
  rw [State.raiseFetch, if_pos (s.mayFetch_iff.1 h), State.printerArtworkId_of_job hj ha]
  dsimp only
  rw [hfilling]
  cases s.printer.freeBuffer <;> rfl

/-- The first quarter of the fetch band, into a FREE buffer. -/
theorem State.raiseFetch_firstQuarter {which : BufferId} (hband : s.printer.fetchBand < s.artworks[a].bands)
    (hfree : s.printer.freeBuffer = some which) :
    s.raiseFetch = (s.modPrinter fun v =>
      { v.setBuffer which ⟨.filling v.fetchBand 0, []⟩ with request := some ⟨a, v.fetchBand, 0, which⟩ }).oweGrant := by
  rw [State.raiseFetch_notFilling h hj ha hfilling, if_pos hband, hfree, Option.elim_some]

theorem State.raiseFetch_nothing (hno : s.artworks[a].bands ≤ s.printer.fetchBand ∨ s.printer.freeBuffer = none) :
    s.raiseFetch = s := by
  rw [State.raiseFetch_notFilling h hj ha hfilling]
  rcases hno with hband | hfree
  · rw [if_neg (Nat.not_lt.2 hband)]
  · rw [hfree, Option.elim_none, ite_self]

end

/-- Settles O49: the attempt by the buffer that is FULL with the band, the lid and the head (`tryStartBand_*`, `startBand_eq`,
`strobeWidth_eq`); the request by the buffer that is FILLING or FREE (`raiseFetch_*`). -/
theorem bandIsSentWithItsStrobeWidth : Obligations.BandIsSentWithItsStrobeWidth := by
  refine ⟨fun s => ?_, fun s => ?_⟩
  · intro full
    refine ⟨fun hA hB => ?_, fun which hfull hfirst => ?_⟩
    · have hnone : ∀ which, (s.printer.buffer which).state ≠ .full s.printer.nextBand
        | .a => hA
        | .b => hB
      rw [State.tryStartBand_notFull hnone]
      exact ⟨fun h => if_pos h, fun h => if_neg h⟩
    · refine ⟨State.tryStartBand_lid hfull hfirst, State.tryStartBand_hot hfull hfirst, fun j hj hlid hhead => ?_⟩
      rw [State.tryStartBand_starts hfull hfirst hlid hhead, State.startBand_eq hj, strobeWidth_eq]
      cases j.quality <;> rfl
  · intro fetching filling free
    refine ⟨State.raiseFetch_blocked, fun j a hfetching hj ha => ⟨fun which q hfilling hfirst => ?_, fun hnone => ?_⟩⟩
    · exact State.raiseFetch_quarter hfetching hj ha (Printer.fillingWith_first hfilling hfirst)
    · have hfilling := Printer.fillingWith_none hnone
      refine ⟨fun which hfree hfirst hband => ?_, fun hno => ?_⟩
      · exact State.raiseFetch_firstQuarter hfetching hj ha hfilling hband (Printer.bufferIn_first hfree hfirst)
      · exact State.raiseFetch_nothing hfetching hj ha hfilling (hno.imp_right Printer.bufferIn_none)

end Sys2Proof.Machine
end

