-- ==== Sys2Proof/Proofs/Labels.lean ====
section
/-! A label from the ink check to its end (R158 to R162, R165 to R172): the reports of the printer mechanism, the ink check and the
ink debit, TEMP and the wait for a band, and the printer's faults. -/

namespace Sys2Proof.Machine

/-! ## Notices leave the printer (R185) -/

theorem State.raise_printer (s : State) (g : Group) (v : Notice) : (s.raise g v).printer = s.printer := by
  rw [State.raise_ports_only]

theorem State.raise_discAt (s : State) (g : Group) (v : Notice) (loc : Location) : (s.raise g v).discAt loc = s.discAt loc := by
  rw [State.raise_ports_only]; rfl

/-! ## TRAY_DONE (R158, R159, R162, R169) -/

section
variable {s : State} (disc : Bool)

theorem exec_trayDone_trayIn (h : s.printer.state = .trayIn) :
    exec (.trayDone disc) s = .next (((s.modPrinter fun v => { v with timer := none }).tryStartBand).settle) := by
  rw [exec, execTrayDone, h]

theorem exec_trayDone_home (h : s.printer.state = .trayOut) (hhome : s.sensor .printerTrayHome = true) :
    exec (.trayDone disc) s = .next ((s.endTrayOut disc).settle) := by
  rw [exec, execTrayDone, h, hhome]
  rfl

/-- The report is kept until the tray reads home (log 25). -/
theorem exec_trayDone_notHome (hs : s.settled) (h : s.printer.state = .trayOut) (hhome : s.sensor .printerTrayHome = false) :
    exec (.trayDone disc) s = .next (s.modPrinter fun v => { v with outDone := some disc }) := by
  rw [exec, execTrayDone, h, hhome]
  exact congrArg _ (State.settle_of_settled (s := s.modPrinter _) hs)

theorem exec_trayDone_discarded (hin : s.printer.state ≠ .trayIn) (hout : s.printer.state ≠ .trayOut) :
    exec (.trayDone disc) s = .next s := by
  dsimp only [exec, execTrayDone]
  split
  · contradiction
  · contradiction
  · rfl

theorem State.endTrayOut_disc {d : Disc} (hd : s.discAt .printer = some d) :
    s.endTrayOut disc =
      ((((s.modPrinter fun v => { v with state := .finished, timer := none, outDone := none }).modDiscAt .printer
        fun x => { x with destination := s.routing d }).setRequests
          (s.requests ++ [⟨.printClear, none, none, none, s.nextAge, false, none⟩])).passAge).oweSelect := by
  rw [State.endTrayOut, hd]
  dsimp only
  rw [State.queueRequest, State.modDiscAt_requests, State.modDiscAt_nextAge]
  rfl

theorem State.endTrayOut_empty (hd : s.discAt .printer = none) :
    s.endTrayOut false =
      ((s.modPrinter fun v => { v with state := .empty, timer := none, outDone := none }).oweSelect).oweArm := by
  rw [State.endTrayOut, hd]
  rfl

theorem State.endTrayOut_foreign (hd : s.discAt .printer = none) : s.endTrayOut true = s.printerFaults .foreign := by
  rw [State.endTrayOut, hd]
  rfl

end

/-! ## BAND_DONE (R158, R165) -/

section
variable {s : State} {band : Byte}

theorem exec_bandDone_printed {which : BufferId} (h : s.printer.state = .printing) (hband : s.printer.nextBand = band.toNat)
    (hbuffer : s.printer.inUse band.toNat = some which) : exec (.bandDone band) s = .next ((s.bandEnds which).settle) := by
  rw [exec, execBandDone, if_pos (by simp [h, hband]), hbuffer]

theorem exec_bandDone_discarded (h : s.printer.state ≠ .printing ∨ s.printer.nextBand ≠ band.toNat) :
    exec (.bandDone band) s = .next s := by
  rw [exec, execBandDone, if_neg]
  simpa only [Bool.and_eq_true, decide_eq_true_eq, not_and_or] using h

end

/-! ## The ink check (R160, R161) -/

theorem inkSuffices_iff (levels costs : Ink) : inkSuffices levels costs = true ↔
    costs.c ≤ levels.c ∧ costs.m ≤ levels.m ∧ costs.y ≤ levels.y ∧ costs.k ≤ levels.k := by
  simp only [inkSuffices, Bool.and_eq_true, decide_eq_true_eq, and_assoc]

section
variable {s : State}

theorem State.inkCheck_enough (h : inkSuffices s.printer.levels s.labelCosts = true) :
    s.inkCheck = ((s.emit (.printer [1])).modPrinter fun v =>
      { v with state := .trayIn, timer := some ⟨5000, 0⟩ }).raiseFetch :=
  if_pos h

variable {j : Job} (h : ¬inkSuffices s.printer.levels s.labelCosts = true) (hj : s.printerJob = some j)
include h hj

theorem State.inkCheck_killed (hkilled : j.endReason = some .killed) : s.inkCheck = s.unprintedReturn := by
  rw [State.inkCheck, if_neg h, if_pos (by rw [hj]; exact decide_eq_true hkilled)]

theorem State.inkCheck_held (hlive : j.endReason ≠ some .killed) :
    s.inkCheck = (s.modPrinter fun v => { v with state := .inkHold, timer := none }).raise .ink
      (.inkOut s.printer.levels s.labelCosts) := by
  have hkilled : (s.printerJob.map Job.isKilled).getD false = false := by
    rw [hj]; exact decide_eq_false hlive
  rw [State.inkCheck, if_neg h, hkilled]
  rfl

end

/-! ## The end of a label (R169, R171) -/

theorem blackIsLow_iff (levels : Ink) (capacity : Nat) : blackIsLow levels capacity = true ↔ levels.k < capacity / 10 :=
  decide_eq_true_iff

theorem colourIsLow_iff (levels : Ink) (capacity : Nat) : colourIsLow levels capacity = true ↔
    levels.c < capacity / 10 ∨ levels.m < capacity / 10 ∨ levels.y < capacity / 10 := by
  simp only [colourIsLow, Bool.or_eq_true, decide_eq_true_eq, or_assoc]

theorem State.lowInkBlack_eq (s : State) : s.lowInkBlack =
    if s.printer.blackLow = false ∧ s.printer.levels.k < s.printer.capacity / 10 then
      (s.modPrinter fun v => { v with blackLow := true }).raise .ink (.inkLow true s.printer.levels)
    else s := by
  simp only [State.lowInkBlack, Bool.and_eq_true, Bool.not_eq_true', blackIsLow_iff]

theorem State.lowInkColour_eq (s : State) : s.lowInkColour =
    if s.printer.colourLow = false ∧ (s.printer.levels.c < s.printer.capacity / 10 ∨
        s.printer.levels.m < s.printer.capacity / 10 ∨ s.printer.levels.y < s.printer.capacity / 10) then
      (s.modPrinter fun v => { v with colourLow := true }).raise .ink (.inkLow false s.printer.levels)
    else s := by
  simp only [State.lowInkColour, Bool.and_eq_true, Bool.not_eq_true', colourIsLow_iff]

/-- The black cartridge's test sets its own mark and nothing else of the printer. -/
theorem State.lowInkBlack_printer (s : State) :
    s.lowInkBlack.printer = { s.printer with blackLow := s.lowInkBlack.printer.blackLow } := by
  unfold State.lowInkBlack
  split
  · rw [State.raise_printer]; rfl
  · rfl

/-- The colour cartridge's test after the black cartridge's (log 36). -/
theorem State.lowInkColour_lowInkBlack (s : State) : s.lowInkBlack.lowInkColour =
    if s.printer.colourLow = false ∧ (s.printer.levels.c < s.printer.capacity / 10 ∨
        s.printer.levels.m < s.printer.capacity / 10 ∨ s.printer.levels.y < s.printer.capacity / 10) then
      (s.lowInkBlack.modPrinter fun v => { v with colourLow := true }).raise .ink (.inkLow false s.printer.levels)
    else s.lowInkBlack := by
  rw [State.lowInkColour_eq, State.lowInkBlack_printer]

/-- Settles O48: TRAY_DONE by the printer's state (`exec_trayDone_*`, `endTrayOut_*`), BAND_DONE by the buffer that holds the band,
the ink check by `inkSuffices_iff` and the disc's job, the label's end by the two low-ink tests in their order. -/
theorem printerReportsMoveTheLabel : Obligations.PrinterReportsMoveTheLabel := by
  refine ⟨fun disc s => ?_, fun band s => ⟨fun which hstate hband hbuffer hfirst => ?_, exec_bandDone_discarded⟩,
    fun j a s hj ha => ?_⟩
  · refine ⟨exec_trayDone_trayIn disc, fun h hhome hd hdisc => ?_, fun h hhome hd hdisc => ?_, fun d h hhome hd => ?_,
      exec_trayDone_notHome disc, exec_trayDone_discarded disc⟩
    · rw [exec_trayDone_home disc h hhome, hdisc, State.endTrayOut_empty hd]
    · rw [exec_trayDone_home disc h hhome, hdisc, State.endTrayOut_foreign hd]
    · rw [exec_trayDone_home disc h hhome, State.endTrayOut_disc disc hd]
  · rw [exec_bandDone_printed hstate hband (Printer.bufferIn_first hbuffer hfirst), State.bandEnds, hband]
  · intro costs levels enough left tenth debited black colour trayOut
    have hcosts : s.labelCosts = costs := State.labelCosts_of_job hj ha
    have henough : inkSuffices s.printer.levels s.labelCosts = true ↔ enough := by rw [hcosts]; exact inkSuffices_iff _ _
    refine ⟨fun h => State.inkCheck_enough (henough.2 h), fun h hkilled => ?_, fun h hlive => ?_, ?_⟩
    · exact State.inkCheck_killed (mt henough.1 h) hj hkilled
    · rw [State.inkCheck_held (mt henough.1 h) hj hlive, hcosts]
    · have hblack : debited.lowInkBlack = black := State.lowInkBlack_eq _
      have hcolour : debited.lowInkBlack.lowInkColour = colour := by
        rw [State.lowInkColour_lowInkBlack, hblack]; rfl
      have hdebited : (s.modPrinter fun v => { v with levels := inkDebit v.levels s.labelCosts }) = debited := by
        rw [hcosts]; rfl
      rw [State.completeLabel, hdebited, hcolour]
      rfl

/-! ## TEMP and BAND_WAIT_EXPIRY (R158, R166, R167) -/

section
variable {s : State} {reading : Byte}

theorem exec_temp_elsewhere (h : s.printer.state ≠ .thermalPause) :
    exec (.temp reading) s = .next (s.modPrinter fun v => { v with head := reading.toNat }) := by
  rw [exec, execTemp, if_neg h]

/-- In THERMAL_PAUSE the timer restarts, and a reading of 104 or below ends the pause. -/
theorem exec_temp_paused (h : s.printer.state = .thermalPause) :
    exec (.temp reading) s =
      let read := s.modPrinter fun v => { v with head := reading.toNat, timer := some ⟨5000, 0⟩ }
      .next (if reading.toNat ≤ 104 then ((read.raise .printer (.thermal false reading.toNat)).tryStartBand).settle
        else read) := by
  rw [exec, execTemp, if_pos h]
  rfl

theorem exec_bandWaitExpiry_waiting (h : s.printer.state = .bandWait) (htimer : s.printer.timer.isSome) :
    exec .bandWaitExpiry s =
      .next ((s.modDiscAt .printer fun d => { d with degraded := true }).modPrinter fun v => { v with timer := none }) := by
  rw [exec, execBandWaitExpiry, if_pos (by simp [h, htimer])]

theorem exec_bandWaitExpiry_elsewhere (h : s.printer.state ≠ .bandWait ∨ s.printer.timer = none) :
    exec .bandWaitExpiry s = .next s := by
  rw [exec, execBandWaitExpiry, if_neg]
  simpa only [Bool.and_eq_true, decide_eq_true_eq, not_and_or, Option.not_isSome_iff_eq_none] using h

end

/-- Settles O50: TEMP in THERMAL_PAUSE by its reading (`exec_temp_paused`), and the wait for a band by its state and timer. -/
theorem tempAndBandWaitAreTaken : Obligations.TempAndBandWaitAreTaken := by
  refine ⟨fun reading s => ⟨exec_temp_elsewhere, fun h hwarm => ?_, fun h hcool => ?_⟩,
    fun s => ⟨exec_bandWaitExpiry_waiting, exec_bandWaitExpiry_elsewhere⟩⟩
  · rw [exec_temp_paused h]
    exact congrArg _ (if_neg (Nat.not_le.2 hwarm))
  · rw [exec_temp_paused h]
    exact congrArg _ (if_pos hcool)

/-! ## Printer faults (R158, R172) -/

theorem PrinterState.takesError_iff (x : PrinterState) : x.takesError = true ↔
    x ∈ [PrinterState.trayIn, .fetchWait, .printing, .bandWait, .thermalPause, .trayOut] := by
  cases x <;> decide

theorem PrinterState.timesOut_iff (x : PrinterState) :
    x.timesOut = true ↔ x ∈ [PrinterState.trayIn, .printing, .thermalPause, .trayOut] := by
  cases x <;> decide

/-- The states that take no error are the others. -/
theorem PrinterState.not_takesError {x : PrinterState} (h : x ∈ [PrinterState.empty, .inkHold, .finished, .fault]) :
    ¬x.takesError = true := by
  revert h; cases x <;> decide

theorem exec_printerTimeout_expired {s : State} (h : s.printer.state.timesOut = true) (htimer : s.printer.timer.isSome) :
    exec .printerTimeout s = .next ((s.printerFaults (.timeout s.printer.state)).settle) := by
  rw [exec, execPrinterTimeout, if_pos (by simp [h, htimer])]

/-- The printer record after a fault (R172). -/
def Printer.faulted (v : Printer) (cause : PrinterCause) : Printer :=
  { v with
    state := .fault, fault := some cause, timer := none, request := none, bufferA := ⟨.free, []⟩, bufferB := ⟨.free, []⟩
    outDone := none }

/-- What a fault makes of the disc on the printer (R172). -/
def Disc.printFaulted (d : Disc) : Disc := if d.phase = .printing then d.fail .printFault else d

theorem Disc.printFaulted_printing {d : Disc} (h : d.phase = .printing) :
    d.printFaulted = { d with phase := .failed, reason := some .printFault } := by
  rw [Disc.printFaulted, if_pos h, Disc.fail, if_neg (by rw [h]; nofun)]

theorem Disc.printFaulted_location (d : Disc) : d.printFaulted.location = d.location := by
  unfold Disc.printFaulted Disc.fail
  split
  · split <;> rfl
  · rfl

/-- A printer fault before its notice: ABORT, the printer record, the quarter in flight and the disc. -/
def State.printerFaulted (s : State) (cause : PrinterCause) : State :=
  (((s.emit (.printer [4])).modPrinter fun v => v.faulted cause).disown TransferTo.isBand).modDiscAt .printer Disc.printFaulted

/-- Besides these a fault writes only port records, by its notice, and the disc table. -/
theorem State.printerFaults_eq (s : State) (cause : PrinterCause) : s.printerFaults cause =
    { ((s.emit (.printer [4])).modPrinter fun v => v.faulted cause).disown TransferTo.isBand with
      discs := (s.printerFaulted cause).discs, ports := (s.printerFaults cause).ports } := by
  have hraise : s.printerFaults cause =
      { s.printerFaulted cause with ports := (s.printerFaults cause).ports } := State.raise_ports_only _ _ _
  rw [hraise, State.printerFaulted, State.modDiscAt_eq]

theorem State.printerFaults_discAt (s : State) (cause : PrinterCause) :
    (s.printerFaults cause).discAt .printer = (s.discAt .printer).map Disc.printFaulted := by
  have hraise : (s.printerFaults cause).discAt .printer = (s.printerFaulted cause).discAt .printer := State.raise_discAt _ _ _ _
  rw [hraise, State.printerFaulted, State.discAt_modDiscAt_same _ _ Disc.printFaulted_location]
  rfl

theorem State.disown_unwanted {s : State} {p : TransferTo → Bool} {t : Transfer} (h : (s.disown p).channel = some t)
    (hp : p t.recipient = true) : t.wanted = false := by
  obtain ⟨u, -, hu⟩ := Option.map_eq_some_iff.1 h
  split at hu
  · rw [← hu]
  · rename_i hno
    exact absurd (hu ▸ hp) hno

/-- Settles O51: which states take an error or a timeout (`takesError_iff`, `timesOut_iff`), and a fault's effect by
`printerFaults_eq`, `disown_unwanted` and `printerFaults_discAt`. -/
theorem printerErrorsFaultThePrinter : Obligations.PrinterErrorsFaultThePrinter := by
  refine ⟨fun code s => ⟨fun h => ?_, fun h => ?_, fun h htimer => ?_⟩, fun cause s => ?_⟩
  · have htakes := s.printer.state.takesError_iff.2 h
    exact ⟨congrArg _ (if_pos htakes), congrArg _ (if_pos htakes)⟩
  · have hno := PrinterState.not_takesError h
    exact ⟨congrArg _ (if_neg hno), congrArg _ (if_neg hno)⟩
  · exact exec_printerTimeout_expired (s.printer.state.timesOut_iff.2 h) htimer
  · refine ⟨?_, ?_, fun t ht hband => ?_, fun d hd hphase => ?_, ?_, ?_, ?_, ?_⟩
    · rw [State.printerFaults_eq]; rfl
    · rw [State.printerFaults_eq]; rfl
    · rw [State.printerFaults_eq] at ht
      exact State.disown_unwanted ht hband
    · rw [State.printerFaults_discAt, hd, Option.map_some, Disc.printFaulted_printing hphase]
    all_goals rw [State.printerFaults_eq]; rfl

end Sys2Proof.Machine
end

