-- ==== Sys2Proof/Proofs/LinkTransactions.lean ====
section
/-! The link transactions (R178): commands in and notices out (R179, R184), the bytes of the bulk streams (R189), and the summary of the
port. -/

namespace Sys2Proof.Machine

/-! ## A port record that changes -/

/-- Only what becomes of the record that stands there counts. -/
theorem State.modPort_congr {s : State} {p : Port} {f g : PortRecord → PortRecord} (h : f s.ports[p] = g s.ports[p]) :
    s.modPort p f = s.modPort p g := by
  unfold State.modPort; rw [h]

/-- A change that leaves the record as it stands changes nothing. -/
theorem State.modPort_self {s : State} {p : Port} {f : PortRecord → PortRecord} (h : f s.ports[p] = s.ports[p]) :
    s.modPort p f = s := by
  have hports : s.ports.set p s.ports[p] = s.ports := Vector.set_getElem_self _
  unfold State.modPort; rw [h, hports]

/-! ## PUT_COMMANDS (R179, R180) -/

/-- A command outstanding: the next one waits. -/
theorem PortRecord.pass_outstanding {r : PortRecord} {o : Outstanding} (h : r.outstanding = some o) : r.pass = r := by
  unfold PortRecord.pass; rw [h]

/-- No command queued: none is passed. -/
theorem PortRecord.pass_empty {r : PortRecord} (h : r.commands = []) : r.pass = r := by
  unfold PortRecord.pass; rw [h]; cases r.outstanding <;> rfl

/-- The oldest queued command becomes outstanding. -/
theorem PortRecord.pass_first {r : PortRecord} {first : CommandRecord} {rest : List CommandRecord} (ho : r.outstanding = none)
    (hc : r.commands = first :: rest) : r.pass = { r with commands := rest, outstanding := some ⟨first, none⟩ } := by
  unfold PortRecord.pass; rw [ho, hc]

/-- The records that fit are the first ones, as many as there are free places. -/
theorem PortRecord.take_room (r : PortRecord) (records : List CommandRecord) :
    records.take (r.room records.length) = records.take (16 - r.commands.length) := by
  rw [PortRecord.room, min_comm, ← List.take_eq_take_min]

/-! ## TAKE_NOTICES (R183, R184, R187) -/

/-- A due LOST notice joins, and the lost count becomes 0. -/
theorem PortRecord.queueLost_eq (r : PortRecord) (now : Nat) : r.queueLost now =
    let due := decide (0 < r.lost) && decide (r.notices.length < 32)
    { r with
      notices := if due then r.notices ++ [(.lost r.lost, now)] else r.notices
      lost := if due then 0 else r.lost } := by
  unfold PortRecord.queueLost
  dsimp only
  split <;> rfl

theorem PortRecord.assertLine_eq (r : PortRecord) (c : Bool) :
    (if c then { r with line := true } else r) = { r with line := r.line || c } := by
  cases c
  · rw [Bool.or_false]; rfl
  · rw [Bool.or_true]; rfl

/-- The test of the line while notices are queued: their number asserts it, or the age of the oldest one. -/
theorem PortRecord.testLine_cons {r : PortRecord} {v : Notice} {t : Nat} {rest : List (Notice × Nat)} (h : r.notices = (v, t) :: rest)
    (now : Nat) : r.testLine now =
      { r with line := r.line || decide (r.threshold ≤ r.notices.length) || (decide (0 < r.hold) && decide (r.hold ≤ now - t)) } := by
  rw [Bool.or_assoc, ← PortRecord.assertLine_eq]
  unfold PortRecord.testLine
  rw [h]

theorem PortRecord.updateLine_empty {r : PortRecord} (h : r.notices = []) (now : Nat) :
    r.updateLine now = { r with line := false } := by
  unfold PortRecord.updateLine; rw [h]; rfl

theorem PortRecord.updateLine_cons {r : PortRecord} {v : Notice} {t : Nat} {rest : List (Notice × Nat)} (h : r.notices = (v, t) :: rest)
    (now : Nat) : r.updateLine now =
      { r with line := r.line || decide (r.threshold ≤ r.notices.length) || (decide (0 < r.hold) && decide (r.hold ≤ now - t)) } := by
  rw [← PortRecord.testLine_cons h]
  unfold PortRecord.updateLine
  rw [h]
  rfl

/-- Settles O6: the commands that fit are queued and the oldest passed (`take_room`, `pass_first`); after the notices taken a due LOST
notice joins (`queueLost_eq`) and the line is updated (`updateLine_cons`). -/
theorem commandsInAndNoticesOut : Obligations.CommandsInAndNoticesOut := by
  refine ⟨fun p records s => ⟨fun h => if_pos h, fun h => ?_⟩, fun p n s => ⟨fun h => if_pos h, fun h => ?_⟩⟩
  · rw [exec, execPutCommands, if_neg (Bool.eq_false_iff.1 h)]
    dsimp only
    rw [State.passNext, State.modPort_modPort, PortRecord.take_room]
    refine congrArg (fun t => Host.Outcome.next (State.emit t _)) (State.modPort_congr ?_)
    generalize s.ports[p] = r
    cases ho : r.outstanding with
    | some o => exact PortRecord.pass_outstanding rfl
    | none =>
      cases hc : r.commands ++ records.take (16 - r.commands.length) with
      | nil => exact PortRecord.pass_empty rfl
      | cons first rest => exact PortRecord.pass_first rfl rfl
  · rw [exec, execTakeNotices, if_neg (Bool.eq_false_iff.1 h)]
    refine congrArg (fun t => Host.Outcome.next (State.emit t _)) (State.modPort_congr ?_)
    generalize s.ports[p] = r
    rw [PortRecord.queueLost_eq]
    dsimp only
    generalize (if (decide (0 < r.lost) && decide ((r.notices.drop n.toNat).length < 32)) = true then
      r.notices.drop n.toNat ++ [(Notice.lost r.lost, s.now)] else r.notices.drop n.toNat) = queue
    cases queue with
    | nil => exact PortRecord.updateLine_empty (by exact rfl) s.now
    | cons v rest => exact PortRecord.updateLine_cons (by exact rfl) s.now

/-! ## The bulk streams (R18, R189) -/

section
variable {p : Port} {s : State} {bytes : List Byte}

/-- A stream receives no bytes: nothing changes. -/
theorem State.streamReceives_zero (s : State) (v : Stream) : s.streamReceives v 0 = s := by
  cases v with
  | none | outbound => rfl
  | image i =>
    have himages : s.images.set i s.images[i] = s.images := Vector.set_getElem_self _
    show { s with images := s.images.set i s.images[i] } = s
    rw [himages]
  | artwork i =>
    have hartworks : s.artworks.set i s.artworks[i] = s.artworks := Vector.set_getElem_self _
    show { s with artworks := s.artworks.set i s.artworks[i] } = s
    rw [hartworks]

theorem exec_bulkWrite (hheld : s.ports[p].resetHeld = false) : exec (.bulkWrite p bytes) s =
    let k := min bytes.length (min (65536 - s.ports[p].staging.length) (s.streamDue s.ports[p].stream))
    .next (((s.modPort p fun r => { r with staging := r.staging ++ bytes.take k }).streamReceives s.ports[p].stream k).emit
      (.answer p (leBytes 4 k))) :=
  if_neg (Bool.eq_false_iff.1 hheld)

/-- A stream with no bytes due, or none, takes none (R189). -/
theorem exec_bulkWrite_noneDue (hheld : s.ports[p].resetHeld = false) (hdue : s.streamDue s.ports[p].stream = 0) :
    exec (.bulkWrite p bytes) s = .next (s.emit (.answer p [0, 0, 0, 0])) := by
  rw [exec_bulkWrite hheld, hdue]
  simp only [Nat.min_zero, List.take_zero, List.append_nil, State.streamReceives_zero]
  rw [State.modPort_self rfl]
  rfl

/-- `k` is the smaller of the bytes asked for and those in the buffer. -/
theorem exec_bulkRead_outbound {i : ImageId} {position k : Nat} {buffer : List Byte} {n : Word32}
    (hheld : s.ports[p].resetHeld = false) (hstream : s.ports[p].stream = .outbound i position buffer)
    (hk : min n.toNat buffer.length = k) : exec (.bulkRead p n) s =
      .next (((s.readOutbound p i position buffer k).settle).emit (.answer p (leBytes 4 k ++ buffer.take k))) := by
  rw [exec, execBulkRead, if_neg (Bool.eq_false_iff.1 hheld), hstream, ← hk]
  rfl

/-- The outbound stream ends at the image's size (R18). -/
theorem State.readOutbound_ends {i : ImageId} {position k : Nat} {buffer : List Byte} (hk : 0 < k)
    (hsize : s.images[i].size ≤ position + k) :
    s.readOutbound p i position buffer k = (s.releaseImage i).closeStream p := by
  rw [State.readOutbound, if_neg hk.ne', if_pos hsize]

/-- Before it the position advances, and an emptied buffer asks for the next chunk (R18, R105). -/
theorem State.readOutbound_advances {i : ImageId} {position k : Nat} {buffer : List Byte} (hk : 0 < k)
    (hsize : position + k < s.images[i].size) :
    s.readOutbound p i position buffer k =
      let read := s.modPort p fun r => { r with stream := .outbound i (position + k) (buffer.drop k) }
      if (buffer.drop k).isEmpty then read.oweGrant else read := by
  rw [State.readOutbound, if_neg hk.ne', if_neg hsize.not_ge]

end

/-- Settles O7: a BULK_WRITE by what its stream is due (`exec_bulkWrite`), a BULK_READ by where it leaves its stream
(`readOutbound_advances`, `readOutbound_ends`). -/
theorem bulkStreamsCarryTheirBytes : Obligations.BulkStreamsCarryTheirBytes := by
  refine ⟨fun p bytes s hheld => ⟨fun i hstream hloading => ?_, fun i hstream hloading => ?_, fun i hstream hwait => ?_,
    fun hstream => ?_⟩, fun p n s hs hheld => ⟨fun i position buffer hstream hn hfewer hsize => ?_,
    fun i position buffer hstream hbuffer hall hsize => ?_, fun i position buffer hstream hbuffer hall hsize => ?_,
    fun hstream => ?_⟩⟩
  · have hdue : s.streamDue (.image i) = s.images[i].size - s.images[i].received := if_pos hloading
    rw [exec_bulkWrite hheld, hstream, hdue]
    rfl
  · have hdue : s.streamDue (.artwork i) = s.artworks[i].bands * 262144 - s.artworks[i].received := if_pos hloading
    rw [exec_bulkWrite hheld, hstream, hdue]
    rfl
  · refine exec_bulkWrite_noneDue hheld ?_
    rw [hstream]
    exact if_neg (by rw [hwait]; decide)
  · exact exec_bulkWrite_noneDue hheld (by rw [hstream]; rfl)
  · have hleft : (buffer.drop n.toNat).isEmpty = false := by
      rw [List.isEmpty_eq_false_iff, ne_eq, List.drop_eq_nil_iff]
      exact hfewer.not_ge
    rw [exec_bulkRead_outbound hheld hstream (Nat.min_eq_left hfewer.le), State.readOutbound_advances hn hsize, hleft]
    dsimp only
    rw [if_neg Bool.false_ne_true, State.settle_of_settled (by exact hs)]
  · rw [exec_bulkRead_outbound hheld hstream (Nat.min_eq_right hall), State.readOutbound_advances hbuffer hsize, List.take_length,
      List.drop_length]
    rfl
  · rw [exec_bulkRead_outbound hheld hstream (Nat.min_eq_right hall), State.readOutbound_ends hbuffer hsize, List.take_length,
      State.settle_of_settled (by exact hs)]
    rfl
  · rw [exec, execBulkRead, if_neg (Bool.eq_false_iff.1 hheld), hstream]
    rfl

/-! ## LINK_STATUS (R178) -/

theorem byteOf_bit (c : Prop) [Decidable c] : byteOf (bit (decide c)) = if c then 1 else 0 := by
  by_cases h : c <;> simp only [h, decide_true, decide_false, if_true, if_false] <;> rfl

/-- Settles O8: the summary is laid out field by field; only the mark of a load that has begun needs a word (`byteOf_bit`). -/
theorem linkStatusReportsThePort : Obligations.LinkStatusReportsThePort := by
  refine fun p s => ⟨congrArg (fun v => Host.Outcome.next (s.emit (.answer p v))) ?_, rfl⟩
  rw [State.linkSummary]
  cases s.ports[p].stream with
  | none | artwork i | outbound i position buffer => rfl
  | image i =>
    rw [State.streamStatus, byteOf_bit]
    rfl

end Sys2Proof.Machine
end

