-- ==== Sys2Proof/Proofs/Replies.lean ====
section
/-! The return of replies (R180, R181, R193) and the settings of a port (R186 to R188). -/

namespace Sys2Proof.Machine

/-! ## What the notices leave alone -/

theorem PortRecord.join_commands (r : PortRecord) (v : Notice) (now : Nat) : (r.join v now).commands = r.commands := by
  unfold PortRecord.join; dsimp only; split <;> rfl

theorem PortRecord.testLine_commands (r : PortRecord) (now : Nat) : (r.testLine now).commands = r.commands := by
  unfold PortRecord.testLine; (repeat' split) <;> rfl

/-! ## REPLY_RETURN and BAD_COMMAND (R180, R181, R193) -/

/-- The command ceases to be outstanding with none queued. -/
theorem PortRecord.clear_pass_empty {r : PortRecord} (h : r.commands = []) :
    { r with outstanding := none }.pass = { r with outstanding := none } :=
  PortRecord.pass_empty h

/-- The command ceases to be outstanding, and the oldest queued one becomes it. -/
theorem PortRecord.clear_pass_first {r : PortRecord} {first : CommandRecord} {rest : List CommandRecord}
    (h : r.commands = first :: rest) :
    { r with outstanding := none }.pass = { r with commands := rest, outstanding := some ⟨first, none⟩ } :=
  PortRecord.pass_first rfl h

theorem State.clearOutstanding_eq (s : State) (p : Port) :
    s.clearOutstanding p = s.modPort p fun r => { r with outstanding := none }.pass :=
  s.modPort_modPort p _ _

theorem exec_replyReturn {p : Port} {s : State} {command : CommandRecord} {v : Reply}
    (h : s.ports[p].outstanding = some ⟨command, some v⟩) : exec (.replyReturn p) s = .next (s.modPort p fun r =>
      let joined := r.join (replyNotice command v) s.now
      { (if recordCode command = 49 then joined.testLine s.now else joined) with outstanding := none }.pass) := by
  rw [exec, execReplyReturn, h]
  dsimp only
  rw [State.clearOutstanding_eq, hasCode]
  by_cases hcode : recordCode command = 49
  · simp only [hcode, decide_true, if_true, State.notify, State.modPort_modPort]
  · simp only [hcode, decide_false, if_false, Bool.false_eq_true, State.notify, State.modPort_modPort]

theorem exec_badCommand {p : Port} {s : State} {command : CommandRecord} (h : s.ports[p].outstanding = some ⟨command, none⟩)
    (hunknown : commandCodes.contains (recordCode command) = false) : exec (.badCommand p) s = .next (s.modPort p fun r =>
      { r.join (replyNotice command ⟨.badCommand, []⟩) s.now with outstanding := none }.pass) := by
  rw [exec, execBadCommand, h]
  dsimp only
  rw [knownCommand, if_neg (Bool.eq_false_iff.1 hunknown), State.clearOutstanding_eq, State.notify, State.modPort_modPort]

/-- Settles O9: the reply joins (`exec_replyReturn`, `exec_badCommand`), and with the commands as they were the next one is passed
(`clear_pass_first`). -/
theorem repliesPassTheNextCommand : Obligations.RepliesPassTheNextCommand := by
  refine ⟨fun p command v s h => ?_, fun p command s h hunknown => ?_⟩
  · rw [exec_replyReturn h]
    refine congrArg Host.Outcome.next (State.modPort_congr ?_)
    dsimp only
    have hcommands : (if recordCode command = 49
        then (s.ports[p].join (replyNotice command v) s.now).testLine s.now
        else s.ports[p].join (replyNotice command v) s.now).commands = s.ports[p].commands := by
      split
      · rw [PortRecord.testLine_commands, PortRecord.join_commands]
      · rw [PortRecord.join_commands]
    cases hc : s.ports[p].commands with
    | nil => exact PortRecord.clear_pass_empty (hcommands.trans hc)
    | cons first rest => exact PortRecord.clear_pass_first (hcommands.trans hc)
  · rw [exec_badCommand h hunknown]
    refine congrArg Host.Outcome.next (State.modPort_congr ?_)
    have hcommands := s.ports[p].join_commands (replyNotice command ⟨.badCommand, []⟩) s.now
    dsimp only
    cases hc : s.ports[p].commands with
    | nil => exact PortRecord.clear_pass_empty (hcommands.trans hc)
    | cons first rest => exact PortRecord.clear_pass_first (hcommands.trans hc)

/-! ## SET_NOTICE_MASK, SET_ATTENTION and the hold time (R186 to R188) -/

/-- A parameter of two bytes. -/
theorem recordField_two (r : CommandRecord) (i : Nat) (h : i + 1 < 16) :
    recordField r i 2 = recordByte r ⟨i, by omega⟩ + 256 * recordByte r ⟨i + 1, h⟩ := by
  have hbytes : (r.toList.drop i).take 2 = [r[i], r[i + 1]] := by
    rw [List.drop_eq_getElem_cons (by simpa using by omega), List.drop_eq_getElem_cons (by simpa using h)]
    simp
  rw [recordField, hbytes]
  rfl

theorem setAttention_eq (p : Port) (r : CommandRecord) (s : State) : setAttention p r s =
    let threshold := max 1 (min 32 (recordByte r 2))
    let hold := min 1000 (recordByte r 3 + 256 * recordByte r 4)
    acceptWith (BitVec.ofNat 8 threshold :: leBytes 2 hold)
      (s.modPort p fun v => { v with threshold := threshold, hold := hold }) := by
  rw [setAttention, clampTo_eq_max_min (by decide), clampTo_eq_max_min (by decide), Nat.zero_max, recordField_two r 3 (by decide)]
  rfl

/-- With none left over by a link reset, the line is tested at the REPLY (log 8). -/
theorem exec_setAttention {p : Port} {s : State} (h : s.ports[p].orphanFor 49 = none) :
    exec (.setAttention p) s = .next (s.takeCommand p 49 (setAttention p)) := by
  rw [exec, execSetAttention, h]
  rfl

theorem PortRecord.holdReached_cons {r : PortRecord} {v : Notice} {queued : Nat} {rest : List (Notice × Nat)}
    (h : r.notices = (v, queued) :: rest) (now : Nat) :
    r.holdReached now = (decide (0 < r.hold) && decide (r.hold ≤ now - queued)) := by
  unfold PortRecord.holdReached; rw [h]

theorem PortRecord.holdReached_quiet {r : PortRecord} (h : r.notices = [] ∨ r.hold = 0) (now : Nat) : r.holdReached now = false := by
  cases hn : r.notices with
  | nil => unfold PortRecord.holdReached; rw [hn]
  | cons v rest =>
    rw [PortRecord.holdReached_cons hn, h.resolve_left (by rw [hn]; nofun)]
    rfl

theorem exec_attentionHoldExpiry_early {p : Port} {s : State} (h : s.ports[p].holdReached s.now = false) :
    exec (.attentionHoldExpiry p) s = .next s :=
  congrArg Host.Outcome.next (State.modPort_self (if_neg (Bool.eq_false_iff.1 h)))

/-- Settles O10: the two settings by their equations, and the expiry by whether the hold time is reached. -/
theorem portSettingsAreTaken : Obligations.PortSettingsAreTaken := by
  refine ⟨fun p r s hs hwaits => ?_, fun p r s hs hwaits => ?_, fun p s => ⟨fun v queued rest h hpos hreached => ?_,
    fun v queued rest h hyoung => ?_, fun h => ?_⟩⟩
  · refine congrArg Host.Outcome.next (State.takeCommand_acceptedWith_settled (by exact hs) hwaits ?_)
    exact congrArg (Prod.mk _) (State.modPort_congr rfl)
  · rw [exec_setAttention hwaits.1]
    exact congrArg _ (State.takeCommand_acceptedWith_settled (by exact hs) hwaits (setAttention_eq p r s))
  · refine congrArg Host.Outcome.next (State.modPort_congr (if_pos ?_))
    rw [PortRecord.holdReached_cons h, decide_eq_true hpos, decide_eq_true hreached]
    rfl
  · refine exec_attentionHoldExpiry_early ?_
    rw [PortRecord.holdReached_cons h, decide_eq_false hyoung.not_ge, Bool.and_false]
  · exact exec_attentionHoldExpiry_early (PortRecord.holdReached_quiet h s.now)

end Sys2Proof.Machine
end

