-- ==== Sys2Proof/Proofs/LinkResets.lean ====
section
/-! LINK_RESET and its release (R190): the port record is cleared, then its stream ends, by what the stream is. -/

namespace Sys2Proof.Machine

section
variable {p : Port} {s : State}

theorem exec_linkReset (hheld : s.ports[p].resetHeld = false) :
    exec (.linkReset p) s = .next (((s.modPort p PortRecord.linkReset).resetStream p).settle) :=
  congrArg Host.Outcome.next (if_neg (Bool.eq_false_iff.1 hheld))

/-- The clearing keeps the stream for the steps that end it (R190 steps 4 and 5). -/
theorem State.linkReset_stream (s : State) (p : Port) :
    (s.modPort p PortRecord.linkReset).ports[p].stream = s.ports[p].stream := by
  rw [State.modPort_same]; rfl

/-- The record cleared, and its stream closed. -/
theorem State.linkReset_closeStream (s : State) (p : Port) : (s.modPort p PortRecord.linkReset).closeStream p =
    s.modPort p fun r => { PortRecord.afterReset true with orphans := r.orphans ++ r.leftAtBlock } :=
  s.modPort_modPort p _ _

/-- An artwork load fails (R22): its stream closes, its slot is freed, and its owner is told. -/
theorem State.failArtworkLoad_owned {i : ArtworkId} (hloading : s.artworks[i].state = .loading)
    (howner : s.artworks[i].owner = some p) :
    s.failArtworkLoad i = ((s.closeStream p).freeArtwork i).notify p (.artwork i .failed) := by
  unfold State.failArtworkLoad
  dsimp only
  rw [if_pos hloading, howner]
  rfl

/-- An outbound stream ends with its chunk in flight: the completion will release the reference (R18, R110). -/
theorem State.endOutbound_inFlight {i : ImageId} {position : Nat} {buffer : List Byte} {slot : ImageId} {k : Nat}
    (hstream : s.ports[p].stream = .outbound i position buffer) (hchannel : s.channel = some ⟨.client p slot k, true⟩) :
    s.endOutbound p = (s.closeStream p).setChannel (some ⟨.client p slot k, false⟩) := by
  have hours : (TransferTo.client p slot k).isClient p = true := decide_eq_true rfl
  have hclosed : (s.closeStream p).channel = some ⟨.client p slot k, true⟩ := hchannel
  unfold State.endOutbound
  rw [hstream, hchannel]
  dsimp only
  rw [hours, Bool.and_true, if_pos rfl, State.disown, hclosed, Option.map_some, if_pos hours]

/-- An outbound stream ends with no chunk in flight that it wants: the reference is released at once (R18). -/
theorem State.endOutbound_idle {i : ImageId} {position : Nat} {buffer : List Byte}
    (hstream : s.ports[p].stream = .outbound i position buffer)
    (hchannel : ∀ slot k, s.channel ≠ some ⟨.client p slot k, true⟩) :
    s.endOutbound p = (s.closeStream p).releaseImage i := by
  unfold State.endOutbound
  rw [hstream]
  dsimp only
  split
  · rename_i t ht
    refine if_neg fun hours => ?_
    obtain ⟨recipient, wanted⟩ := t
    simp only [Bool.and_eq_true] at hours
    obtain ⟨hclient, rfl⟩ := hours
    cases recipient with
    | lane n slot k => cases hclient
    | band slot band quarter buffer => cases hclient
    | client q slot k => exact hchannel slot k (by rw [ht, of_decide_eq_true hclient])
  · rfl

end

/-- Settles O4: the record is cleared (`exec_linkReset`), and the stream ends as its kind asks (`failArtworkLoad_owned`,
`endOutbound_inFlight`, `endOutbound_idle`). -/
theorem linkResetClearsThePort : Obligations.LinkResetClearsThePort := by
  refine ⟨fun p s hs hheld => ?_, fun p s => rfl⟩
  have hreset := s.linkReset_stream p
  refine ⟨fun hstream => ?_, fun i hstream _ => ?_, fun i hstream hloading howner => ?_, fun i position buffer hstream =>
    ⟨fun slot k hchannel => ?_, fun hchannel => ?_⟩⟩
  all_goals rw [hstream] at hreset; rw [exec_linkReset hheld, State.resetStream, hreset]; dsimp only
  · rw [State.settle_of_settled (by exact hs)]
    refine congrArg Host.Outcome.next (State.modPort_congr ?_)
    rw [PortRecord.linkReset, hstream]
    rfl
  · refine congrArg (fun t : State => Host.Outcome.next (t.failImageLoad i).settle) (State.modPort_congr ?_)
    rw [PortRecord.linkReset, hstream]
    rfl
  · rw [State.failArtworkLoad_owned (s := s.modPort p PortRecord.linkReset) hloading howner,
      State.linkReset_closeStream, State.settle_of_settled (by exact hs)]
    rfl
  · rw [State.endOutbound_inFlight hreset hchannel, State.linkReset_closeStream, State.settle_of_settled (by exact hs)]
    rfl
  · rw [State.endOutbound_idle hreset hchannel, State.linkReset_closeStream, State.settle_of_settled (by exact hs)]
    rfl

end Sys2Proof.Machine
end

