-- ==== Sys2Proof/Proofs/PortFrames.lean ====
section
/-! What each operation leaves of the ports: most leave them alone, and those that notify or end a stream leave each port's command
queue, outstanding command, settings and reset mark (R177, R184). -/

namespace Sys2Proof.Machine

/-- What a port keeps of its client's commands, the settings they have made and the reset held on its line (R177). -/
def PortRecord.clientPart (r : PortRecord) := (r.commands, r.outstanding, r.orphans, r.mask, r.threshold, r.hold, r.resetHeld)

/-- That part of every port. -/
@[simp] abbrev State.clientParts (s : State) := s.ports.map PortRecord.clientPart

theorem State.ports_of_standing {s t : State} (h : t.standing = s.standing) : t.ports = s.ports := congrArg Prod.fst h

/-- A notice touches the port's notices, its line and its lost count. -/
theorem PortRecord.join_clientPart (r : PortRecord) (v : Notice) (now : Nat) :
    (r.join v now).clientPart = r.clientPart := by
  unfold PortRecord.join; dsimp only; split <;> rfl

/-- So does the stream and its bytes. -/
@[simp] theorem PortRecord.stream_clientPart (r : PortRecord) (v : Stream) (bytes : List Byte) :
    { r with stream := v, staging := bytes }.clientPart = r.clientPart := by
  simp only [PortRecord.clientPart]

@[simp] theorem State.modPort_clientParts (s : State) (p : Port) (f : PortRecord → PortRecord)
    (h : ∀ r, (f r).clientPart = r.clientPart) : (s.modPort p f).clientParts = s.clientParts :=
  map_set_of_eq s.ports p _ _ (h _)

@[simp] theorem State.settle_ports (s : State) : s.settle.ports = s.ports := s.settle_loadsBegin.ports

@[simp] theorem State.settlePart_ports (s : State) : s.settlePart.ports = s.ports := by
  have hclaims : s.settleClaims.ports = s.ports := by
    refine (State.ports_of_standing (State.when_standing _ _ _ State.claimAttempt_standing)).trans ?_
    unfold State.when
    split
    · exact (State.crcRounds_loadsBegin 2 s).ports
    · rfl
  have hchannel : s.settleClaims.settleChannel.ports = s.settleClaims.ports :=
    State.ports_of_standing (by simp [State.settleChannel, State.when_standing])
  exact hchannel.trans hclaims

theorem State.forLanes_clientParts (f : State → LaneId → State) (h : ∀ t n, (f t n).clientParts = t.clientParts) (l : List LaneId)
    (s : State) : (State.forLanes f l s).clientParts = s.clientParts := by
  induction l generalizing s with
  | nil => rfl
  | cons n rest ih => unfold State.forLanes; rw [ih, h]

@[simp] theorem State.notify_clientParts (s : State) (p : Port) (v : Notice) : (s.notify p v).clientParts = s.clientParts :=
  s.modPort_clientParts p _ (fun r => r.join_clientPart v _)

@[simp] theorem State.notifyOpt_clientParts (s : State) (p : Option Port) (v : Notice) :
    (s.notifyOpt p v).clientParts = s.clientParts := by
  unfold State.notifyOpt; split <;> simp

@[simp] theorem State.raiseTo_clientParts (g : Group) (v : Notice) (l : List Port) (s : State) :
    (State.raiseTo g v l s).clientParts = s.clientParts := by
  induction l generalizing s with
  | nil => rfl
  | cons x rest ih => unfold State.raiseTo; split <;> simp [ih]

@[simp] theorem State.raise_clientParts (s : State) (g : Group) (v : Notice) : (s.raise g v).clientParts = s.clientParts := by
  simp [State.raise]

@[simp] theorem State.modJob_ports (s : State) (h : Handle) (f : Job → Job) : (s.modJob h f).ports = s.ports :=
  State.ports_of_standing (s.modJob_standing h f)

@[simp] theorem State.modDiscAt_ports (s : State) (loc : Location) (f : Disc → Disc) : (s.modDiscAt loc f).ports = s.ports :=
  State.ports_of_standing (s.modDiscAt_standing loc f)

@[simp] theorem State.queueRequest_ports (s : State) (kind : RequestKind) (n : Option LaneId) (cls : Option MediaClass) :
    (s.queueRequest kind n cls).ports = s.ports :=
  State.ports_of_standing (s.queueRequest_standing kind n cls)

@[simp] theorem State.queueUnload_ports (s : State) (n : LaneId) : (s.queueUnload n).ports = s.ports := by
  unfold State.queueUnload; split <;> simp

@[simp] theorem State.leaveStartQueue_ports (s : State) (n : LaneId) : (s.leaveStartQueue n).ports = s.ports := by
  unfold State.leaveStartQueue; split <;> simp

@[simp] theorem State.dropLaneChunk_ports (s : State) (n : LaneId) : (s.dropLaneChunk n).ports = s.ports := rfl

@[simp] theorem State.joinVerifyQueue_ports (s : State) (w : VerifyWork) : (s.joinVerifyQueue w).ports = s.ports := rfl

@[simp] theorem State.releaseChannel_ports (s : State) (e : VerifyEntry) : (s.releaseChannel e).ports = s.ports := by
  unfold State.releaseChannel; split <;> simp

@[simp] theorem State.releaseAll_ports (l : List VerifyEntry) (s : State) : (State.releaseAll l s).ports = s.ports := by
  induction l generalizing s with
  | nil => rfl
  | cons x rest ih => simp [State.releaseAll, ih]

@[simp] theorem State.leaveVerifyQueue_ports (s : State) (p : VerifyEntry → Bool) : (s.leaveVerifyQueue p).ports = s.ports := by
  simp [State.leaveVerifyQueue]

@[simp] theorem State.laneLeavesJob_ports (s : State) (n : LaneId) : (s.laneLeavesJob n).ports = s.ports := by
  unfold State.laneLeavesJob; split <;> simp

@[simp] theorem State.sendTray_ports (s : State) (n : LaneId) (v : TrayCommand) : (s.sendTray n v).ports = s.ports :=
  State.ports_of_standing (s.sendTray_standing n v)

@[simp] theorem State.releaseTray_ports (s : State) (n : LaneId) : (s.releaseTray n).ports = s.ports := by
  unfold State.releaseTray; split <;> simp

@[simp] theorem State.sendAbort_ports (s : State) (n : LaneId) : (s.sendAbort n).ports = s.ports := rfl

@[simp] theorem State.enterOpening_ports (s : State) (n : LaneId) (v : TrayPurpose) : (s.enterOpening n v).ports = s.ports := by
  simp [State.enterOpening]

@[simp] theorem State.enterClosing_ports (s : State) (n : LaneId) (v : Option TrayPurpose) :
    (s.enterClosing n v).ports = s.ports := by
  simp [State.enterClosing]

@[simp] theorem State.enterProbing_ports (s : State) (n : LaneId) : (s.enterProbing n).ports = s.ports := rfl

@[simp] theorem State.enterDone_ports (s : State) (n : LaneId) : (s.enterDone n).ports = s.ports := by simp [State.enterDone]

@[simp] theorem State.enterFeedWait_ports (s : State) (n : LaneId) : (s.enterFeedWait n).ports = s.ports :=
  State.ports_of_standing (s.enterFeedWait_standing n)

@[simp] theorem State.enterIdle_ports (s : State) (n : LaneId) : (s.enterIdle n).ports = s.ports := rfl

@[simp] theorem State.quarantineLane_clientParts (s : State) (n : LaneId) : (s.quarantineLane n).clientParts = s.clientParts := by
  simp [State.quarantineLane]

@[simp] theorem State.freeImage_ports (s : State) (i : ImageId) : (s.freeImage i).ports = s.ports := rfl

@[simp] theorem State.freeArtwork_ports (s : State) (i : ArtworkId) : (s.freeArtwork i).ports = s.ports := rfl

@[simp] theorem State.closeStream_clientParts (s : State) (p : Port) : (s.closeStream p).clientParts = s.clientParts :=
  s.modPort_clientParts p _ (fun _ => rfl)

@[simp] theorem State.enterTrayOut_ports (s : State) : s.enterTrayOut.ports = s.ports := rfl

@[simp] theorem State.unprintedReturn_ports (s : State) : s.unprintedReturn.ports = s.ports := by simp [State.unprintedReturn]

@[simp] theorem State.lowerRanks_ports (s : State) (rank : Nat) : (s.lowerRanks rank).ports = s.ports := rfl

@[simp] theorem State.endJob_clientParts (s : State) (h : Handle) (result : JobResult) :
    (s.endJob h result).clientParts = s.clientParts := by
  unfold State.endJob; (repeat' split) <;> simp

@[simp] theorem State.drainCheck_clientParts (s : State) (h : Handle) : (s.drainCheck h).clientParts = s.clientParts := by
  unfold State.drainCheck; (repeat' split) <;> simp

@[simp] theorem State.offerBlank_clientParts (s : State) (n : LaneId) (h : Handle) :
    (s.offerBlank n h).clientParts = s.clientParts := by
  unfold State.offerBlank; split <;> simp

@[simp] theorem State.withdrawClaim_ports (s : State) (h : Handle) (n : LaneId) : (s.withdrawClaim h n).ports = s.ports := by
  unfold State.withdrawClaim; (repeat' split) <;> simp

@[simp] theorem State.drainLane_clientParts (s : State) (h : Handle) (n : LaneId) :
    (s.drainLane h n).clientParts = s.clientParts := by
  unfold State.drainLane; (repeat' split) <;> simp

@[simp] theorem State.killDisc_ports (s : State) (n : LaneId) : (s.killDisc n).ports = s.ports := by simp [State.killDisc]

@[simp] theorem State.killLane_clientParts (s : State) (h : Handle) (n : LaneId) :
    (s.killLane h n).clientParts = s.clientParts := by
  unfold State.killLane; (repeat' split) <;> simp

@[simp] theorem State.killAtPrinter_ports (s : State) (h : Handle) : (s.killAtPrinter h).ports = s.ports := by
  unfold State.killAtPrinter; split <;> simp

@[simp] theorem State.drainLanes_clientParts (s : State) (h : Handle) (reason : EndReason) :
    (s.drainLanes h reason).clientParts = s.clientParts := by
  unfold State.drainLanes; cases reason <;> simp [State.forLanes_clientParts]

@[simp] theorem State.drainJob_clientParts (s : State) (h : Handle) (reason : EndReason) :
    (s.drainJob h reason).clientParts = s.clientParts := by
  unfold State.drainJob; dsimp only; (repeat' split) <;> simp

@[simp] theorem State.closingChecks_clientParts (s : State) (h : Handle) : (s.closingChecks h).clientParts = s.clientParts := by
  unfold State.closingChecks; (repeat' split) <;> simp

@[simp] theorem State.reportClosing_clientParts (s : State) (h : Handle) (fate : Option Fate) (reason : Option FailReason) :
    (s.reportClosing h fate reason).clientParts = s.clientParts := by
  simp [State.reportClosing]

@[simp] theorem State.closeDisc_clientParts (s : State) (i : TableId) (fate : Option Fate) (why : Option FailReason) :
    (s.closeDisc i fate why).clientParts = s.clientParts := by
  unfold State.closeDisc; dsimp only; (repeat' split) <;> simp

@[simp] theorem State.closeDiscAt_clientParts (s : State) (loc : Location) (fate : Option Fate) (why : Option FailReason) :
    (s.closeDiscAt loc fate why).clientParts = s.clientParts := by
  unfold State.closeDiscAt; split <;> simp

@[simp] theorem State.acceptImageLoad_clientParts (s : State) (i : ImageId) (p : Port) (source : LoadSource) (cls : MediaClass)
    (size : Nat) (noExport : Bool) :
    (s.acceptImageLoad i p source cls size noExport).clientParts = s.clientParts := by
  unfold State.acceptImageLoad; dsimp only; split <;> simp

@[simp] theorem State.activateRanks_clientParts (i : ImageId) (l : List Nat) (s : State) :
    (State.activateRanks i l s).clientParts = s.clientParts := by
  induction l generalizing s with
  | nil => rfl
  | cons x rest ih => unfold State.activateRanks; split <;> simp [ih]

@[simp] theorem State.imageReady_clientParts (s : State) (i : ImageId) : (s.imageReady i).clientParts = s.clientParts := by
  simp [State.imageReady]

@[simp] theorem State.sourceLaneEnds_ports (s : State) (n : LaneId) (early : Bool) :
    (s.sourceLaneEnds n early).ports = s.ports := by
  unfold State.sourceLaneEnds; (repeat' split) <;> simp

@[simp] theorem State.loadSourceEnds_clientParts (s : State) (v : ImageSlot) (early : Bool) :
    (s.loadSourceEnds v early).clientParts = s.clientParts := by
  unfold State.loadSourceEnds; (repeat' split) <;> simp

@[simp] theorem State.finishImageLoad_clientParts (s : State) (i : ImageId) :
    (s.finishImageLoad i).clientParts = s.clientParts := by
  simp [State.finishImageLoad]

@[simp] theorem State.failJobsOf_clientParts (i : ImageId) (l : List TableId) (s : State) :
    (State.failJobsOf i l s).clientParts = s.clientParts := by
  induction l generalizing s with
  | nil => rfl
  | cons x rest ih => unfold State.failJobsOf; (repeat' split) <;> simp [ih]

@[simp] theorem State.failImageLoad_clientParts (s : State) (i : ImageId) : (s.failImageLoad i).clientParts = s.clientParts := by
  unfold State.failImageLoad; dsimp only; split <;> simp

@[simp] theorem State.failArtworkLoad_clientParts (s : State) (i : ArtworkId) :
    (s.failArtworkLoad i).clientParts = s.clientParts := by
  unfold State.failArtworkLoad; dsimp only; (repeat' split) <;> simp

@[simp] theorem State.endOutbound_clientParts (s : State) (p : Port) : (s.endOutbound p).clientParts = s.clientParts := by
  unfold State.endOutbound; (repeat' split) <;> simp

@[simp] theorem State.failImageLoads_clientParts (l : List ImageId) (s : State) :
    (State.failImageLoads l s).clientParts = s.clientParts := by
  induction l generalizing s with
  | nil => rfl
  | cons x rest ih => simp [State.failImageLoads, ih]

@[simp] theorem State.failArtworkLoads_clientParts (l : List ArtworkId) (s : State) :
    (State.failArtworkLoads l s).clientParts = s.clientParts := by
  induction l generalizing s with
  | nil => rfl
  | cons x rest ih => simp [State.failArtworkLoads, ih]

@[simp] theorem State.endOutbounds_clientParts (l : List Port) (s : State) :
    (State.endOutbounds l s).clientParts = s.clientParts := by
  induction l generalizing s with
  | nil => rfl
  | cons x rest ih => simp [State.endOutbounds, ih]

@[simp] theorem State.claimEnds_clientParts (s : State) (n : LaneId) : (s.claimEnds n).clientParts = s.clientParts := by
  unfold State.claimEnds; (repeat' split) <;> simp

@[simp] theorem State.divertFeed_clientParts (s : State) (n : LaneId) (r : Request) :
    (s.divertFeed n r).clientParts = s.clientParts := by
  simp [State.divertFeed]

@[simp] theorem State.faultUnload_ports (s : State) (n : LaneId) : (s.faultUnload n).ports = s.ports :=
  State.ports_of_standing (s.faultUnload_standing n)

@[simp] theorem State.faultClaim_clientParts (s : State) (n : LaneId) (stood : LaneState) (purpose : Option TrayPurpose) :
    (s.faultClaim n stood purpose).clientParts = s.clientParts := by
  unfold State.faultClaim; (repeat' split) <;> simp

@[simp] theorem State.failTrayDisc_clientParts (s : State) (n : LaneId) : (s.failTrayDisc n).clientParts = s.clientParts := by
  unfold State.failTrayDisc; (repeat' split) <;> simp

@[simp] theorem State.faultQueues_clientParts (s : State) (n : LaneId) (stood : LaneState) :
    (s.faultQueues n stood).clientParts = s.clientParts := by
  unfold State.faultQueues; dsimp only; (repeat' split) <;> simp

@[simp] theorem State.laneFault_clientParts (s : State) (n : LaneId) (cause : LaneCause) :
    (s.laneFault n cause).clientParts = s.clientParts := by
  simp [State.laneFault]

@[simp] theorem State.stuck_clientParts (s : State) (n : LaneId) : (s.stuck n).clientParts = s.clientParts := by
  unfold State.stuck; dsimp only; (repeat' split) <;> simp

@[simp] theorem State.laneError_clientParts (s : State) (n : LaneId) (code : Byte) :
    (s.laneError n code).clientParts = s.clientParts := by
  unfold State.laneError; (repeat' split) <;> simp

@[simp] theorem State.placedAfterFault_clientParts (s : State) (n : LaneId) :
    (s.placedAfterFault n).clientParts = s.clientParts := by
  unfold State.placedAfterFault; dsimp only; split <;> simp

@[simp] theorem State.lanePlaced_clientParts (s : State) (n : LaneId) : (s.lanePlaced n).clientParts = s.clientParts := by
  unfold State.lanePlaced; split <;> simp

@[simp] theorem State.lanePicked_ports (s : State) (n : LaneId) : (s.lanePicked n).ports = s.ports := by
  unfold State.lanePicked; split <;> simp

@[simp] theorem State.feedDiscGone_ports (s : State) (n : LaneId) : (s.feedDiscGone n).ports = s.ports := by
  unfold State.feedDiscGone; split <;> simp

@[simp] theorem State.loseArmDisc_clientParts (s : State) : s.loseArmDisc.clientParts = s.clientParts := by
  unfold State.loseArmDisc; (repeat' split) <;> simp

@[simp] theorem State.verifyFails_ports (s : State) (n : LaneId) (result : VerifyResult) (reason : FailReason) :
    (s.verifyFails n result reason).ports = s.ports := by
  simp [State.verifyFails]

@[simp] theorem State.verifyPasses_ports (s : State) (n : LaneId) : (s.verifyPasses n).ports = s.ports := by
  simp [State.verifyPasses]

@[simp] theorem State.raiseFetch_ports (s : State) : s.raiseFetch.ports = s.ports := by
  unfold State.raiseFetch; dsimp only; (repeat' split) <;> simp

@[simp] theorem State.printerFaults_clientParts (s : State) (cause : PrinterCause) :
    (s.printerFaults cause).clientParts = s.clientParts := by
  simp [State.printerFaults]

@[simp] theorem State.startBand_ports (s : State) (which : BufferId) : (s.startBand which).ports = s.ports := rfl

@[simp] theorem State.tryStartBand_clientParts (s : State) : s.tryStartBand.clientParts = s.clientParts := by
  unfold State.tryStartBand; dsimp only; (repeat' split) <;> simp

@[simp] theorem State.enterTrayIn_ports (s : State) : s.enterTrayIn.ports = s.ports := by simp [State.enterTrayIn]

@[simp] theorem State.inkCheck_clientParts (s : State) : s.inkCheck.clientParts = s.clientParts := by
  unfold State.inkCheck; (repeat' split) <;> simp

@[simp] theorem State.lowInkBlack_clientParts (s : State) : s.lowInkBlack.clientParts = s.clientParts := by
  unfold State.lowInkBlack; split <;> simp

@[simp] theorem State.lowInkColour_clientParts (s : State) : s.lowInkColour.clientParts = s.clientParts := by
  unfold State.lowInkColour; split <;> simp

@[simp] theorem State.completeLabel_clientParts (s : State) : s.completeLabel.clientParts = s.clientParts := by
  simp [State.completeLabel]

@[simp] theorem State.endTrayOut_clientParts (s : State) (disc : Bool) : (s.endTrayOut disc).clientParts = s.clientParts := by
  unfold State.endTrayOut; (repeat' split) <;> simp

@[simp] theorem State.printerCleared_ports (s : State) : s.printerCleared.ports = s.ports := rfl

@[simp] theorem State.issueStep_ports (s : State) (v : ArmStep) : (s.issueStep v).ports = s.ports :=
  State.ports_of_standing (s.issueStep_standing v)

@[simp] theorem State.armToIdle_ports (s : State) : s.armToIdle.ports = s.ports := State.ports_of_standing (s.armToIdle_standing)

@[simp] theorem State.setAside_ports (s : State) : s.setAside.ports = s.ports := State.ports_of_standing (s.setAside_standing)

@[simp] theorem State.armContinue_ports (s : State) : s.armContinue.ports = s.ports :=
  State.ports_of_standing (s.armContinue_standing)

@[simp] theorem State.armFaults_clientParts (s : State) (cause : ArmCause) (step : Option ArmStep) :
    (s.armFaults cause step).clientParts = s.clientParts := by
  unfold State.armFaults; dsimp only; split <;> simp

@[simp] theorem State.homed_clientParts (s : State) : s.homed.clientParts = s.clientParts := by
  unfold State.homed; dsimp only; (repeat' split) <;> simp

@[simp] theorem State.pickedUp_ports (s : State) (loc : Location) (age : Option Nat) : (s.pickedUp loc age).ports = s.ports := by
  unfold State.pickedUp; (repeat' split) <;> simp

@[simp] theorem State.followPick_ports (s : State) : s.followPick.ports = s.ports := by
  unfold State.followPick; (repeat' split) <;> simp

@[simp] theorem State.streamReceives_ports (s : State) (v : Stream) (k : Nat) : (s.streamReceives v k).ports = s.ports := by
  unfold State.streamReceives; split <;> simp

@[simp] theorem State.readOutbound_clientParts (s : State) (p : Port) (slot : ImageId) (position : Nat) (buffer : List Byte)
    (k : Nat) :
    (s.readOutbound p slot position buffer k).clientParts = s.clientParts := by
  unfold State.readOutbound; (repeat' split) <;> simp

@[simp] theorem State.openInFault_ports (s : State) (n : LaneId) : (s.openInFault n).ports = s.ports := by
  unfold State.openInFault; split <;> simp

@[simp] theorem State.closeInFault_ports (s : State) (n : LaneId) : (s.closeInFault n).ports = s.ports := by
  simp [State.closeInFault]

@[simp] theorem State.bringOnline_ports (s : State) (n : LaneId) : (s.bringOnline n).ports = s.ports := by
  unfold State.bringOnline; dsimp only; (repeat' split) <;> simp

@[simp] theorem State.takeOffline_ports (s : State) (n : LaneId) : (s.takeOffline n).ports = s.ports := rfl

@[simp] theorem State.faultTray_clientParts (s : State) (n : LaneId) (pos : TrayPosition) :
    (s.faultTray n pos).clientParts = s.clientParts := by
  unfold State.faultTray; (repeat' split) <;> simp

@[simp] theorem State.closedByOperator_ports (s : State) (n : LaneId) : (s.closedByOperator n).ports = s.ports := by
  simp [State.closedByOperator]

@[simp] theorem State.openingTray_clientParts (s : State) (n : LaneId) (pos : TrayPosition) :
    (s.openingTray n pos).clientParts = s.clientParts := by
  unfold State.openingTray; split <;> simp

@[simp] theorem State.openTrayReports_clientParts (s : State) (n : LaneId) (pos : TrayPosition) :
    (s.openTrayReports n pos).clientParts = s.clientParts := by
  unfold State.openTrayReports; split <;> simp

@[simp] theorem State.closedAfterPick_clientParts (s : State) (n : LaneId) : (s.closedAfterPick n).clientParts = s.clientParts := by
  unfold State.closedAfterPick; (repeat' split) <;> simp

@[simp] theorem State.closingTray_clientParts (s : State) (n : LaneId) (pos : TrayPosition) :
    (s.closingTray n pos).clientParts = s.clientParts := by
  unfold State.closingTray; (repeat' split) <;> simp

@[simp] theorem State.restingTray_ports (s : State) (n : LaneId) (pos : TrayPosition) : (s.restingTray n pos).ports = s.ports := by
  unfold State.restingTray; split <;> simp

@[simp] theorem State.trayMoves_clientParts (s : State) (n : LaneId) (pos : TrayPosition) :
    (s.trayMoves n pos).clientParts = s.clientParts := by
  unfold State.trayMoves; (repeat' split) <;> simp

@[simp] theorem State.probeBlank_clientParts (s : State) (n : LaneId) (h : Handle) (j : Job) (cls : MediaClass) (capacity : Nat) :
    (s.probeBlank n h j cls capacity).clientParts = s.clientParts := by
  unfold State.probeBlank; dsimp only; (repeat' split) <;> simp

@[simp] theorem State.probeFed_clientParts (s : State) (n : LaneId) (report : MediaReport) :
    (s.probeFed n report).clientParts = s.clientParts := by
  unfold State.probeFed; (repeat' split) <;> simp

@[simp] theorem State.probeUnrecorded_clientParts (s : State) (n : LaneId) (report : MediaReport) :
    (s.probeUnrecorded n report).clientParts = s.clientParts := by
  unfold State.probeUnrecorded; dsimp only; (repeat' split) <;> simp

@[simp] theorem State.finalize_ports (s : State) (n : LaneId) : (s.finalize n).ports = s.ports := by simp [State.finalize]

@[simp] theorem State.takeCredit_ports (s : State) (n : LaneId) (freed committed : Nat) :
    (s.takeCredit n freed committed).ports = s.ports := by
  unfold State.takeCredit; dsimp only; (repeat' split) <;> simp

@[simp] theorem State.finalized_ports (s : State) (n : LaneId) (d : Disc) : (s.finalized n d).ports = s.ports := by
  unfold State.finalized; dsimp only; (repeat' split) <;> simp

@[simp] theorem State.verifyMatches_ports (s : State) (n : LaneId) (k : Fin 2) (set : VerifySet) (next : Nat)
    (outstanding : List Nat) (matched index : Nat) :
    (s.verifyMatches n k set next outstanding matched index).ports = s.ports := by
  unfold State.verifyMatches; dsimp only; (repeat' split) <;> simp

@[simp] theorem State.faultTimeout_clientParts (s : State) (n : LaneId) : (s.faultTimeout n).clientParts = s.clientParts := by
  unfold State.faultTimeout; split <;> simp

@[simp] theorem State.segmentDone_ports (s : State) (n : LaneId) (slot : ImageId) (k : Nat) :
    (s.segmentDone n slot k).ports = s.ports :=
  rfl

@[simp] theorem State.quarterDone_clientParts (s : State) (slot : ArtworkId) (band q : Nat) (which : BufferId) :
    (s.quarterDone slot band q which).clientParts = s.clientParts := by
  unfold State.quarterDone; (repeat' split) <;> simp

@[simp] theorem State.chunkDone_clientParts (s : State) (p : Port) (slot : ImageId) (k : Nat) :
    (s.chunkDone p slot k).clientParts = s.clientParts := by
  unfold State.chunkDone; split <;> simp

@[simp] theorem State.deliverTransfer_clientParts (s : State) (t : Transfer) :
    (s.deliverTransfer t).clientParts = s.clientParts := by
  unfold State.deliverTransfer; (repeat' split) <;> simp

@[simp] theorem State.openImageLoad_clientParts (s : State) (p : Port) (i : ImageId) (cls : MediaClass) (size : Nat)
    (noExport : Bool) :
    (s.openImageLoad p i cls size noExport).clientParts = s.clientParts := by
  simp [State.openImageLoad]

@[simp] theorem State.openDiscLoad_clientParts (s : State) (p : Port) (i : ImageId) (n : LaneId) (cls : MediaClass) (size : Nat)
    (noExport : Bool) :
    (s.openDiscLoad p i n cls size noExport).clientParts = s.clientParts := by
  simp [State.openDiscLoad]

@[simp] theorem State.removeImage_clientParts (s : State) (i : ImageId) : (s.removeImage i).clientParts = s.clientParts := by
  unfold State.removeImage; split <;> simp

@[simp] theorem State.openOutbound_clientParts (s : State) (p : Port) (i : ImageId) :
    (s.openOutbound p i).clientParts = s.clientParts := by
  simp [State.openOutbound]

@[simp] theorem State.openArtworkLoad_clientParts (s : State) (p : Port) (i : ArtworkId) (bands : Nat) :
    (s.openArtworkLoad p i bands).clientParts = s.clientParts := by
  unfold State.openArtworkLoad; dsimp only; split <;> simp

@[simp] theorem State.removeArtwork_clientParts (s : State) (i : ArtworkId) : (s.removeArtwork i).clientParts = s.clientParts := by
  unfold State.removeArtwork; split <;> simp

@[simp] theorem State.finishArtworkLoad_clientParts (s : State) (p : Port) (i : ArtworkId) :
    (s.finishArtworkLoad p i).clientParts = s.clientParts := by
  simp [State.finishArtworkLoad]

@[simp] theorem State.admitJob_ports (s : State) (k : TableId) (j : Job) : (s.admitJob k j).ports = s.ports := by
  unfold State.admitJob; (repeat' split) <;> simp

@[simp] theorem State.resume_clientParts (s : State) (h : Handle) (j : Job) : (s.resume h j).clientParts = s.clientParts := by
  unfold State.resume; dsimp only; split <;> simp

@[simp] theorem State.bandEnds_clientParts (s : State) (which : BufferId) : (s.bandEnds which).clientParts = s.clientParts := by
  unfold State.bandEnds; split <;> simp

@[simp] theorem State.printerErrorTaken_clientParts (s : State) (code : Byte) :
    (s.printerErrorTaken code).clientParts = s.clientParts := by
  unfold State.printerErrorTaken; split <;> simp

@[simp] theorem State.pickedAt_clientParts (s : State) (loc : Location) : (s.pickedAt loc).clientParts = s.clientParts := by
  unfold State.pickedAt; split <;> simp

@[simp] theorem State.dropServed_ports (s : State) : s.dropServed.ports = s.ports := by
  unfold State.dropServed; split <;> simp

@[simp] theorem State.placedInTray_clientParts (s : State) (n : LaneId) : (s.placedInTray n).clientParts = s.clientParts := by
  simp [State.placedInTray]

@[simp] theorem State.placedOnPrinter_clientParts (s : State) : s.placedOnPrinter.clientParts = s.clientParts := by
  simp [State.placedOnPrinter]

@[simp] theorem State.placedInBin_clientParts (s : State) (fate : Fate) : (s.placedInBin fate).clientParts = s.clientParts := by
  simp [State.placedInBin]

@[simp] theorem State.endStep_ports (s : State) : s.endStep.ports = s.ports := rfl

@[simp] theorem State.resetStream_clientParts (s : State) (p : Port) : (s.resetStream p).clientParts = s.clientParts := by
  unfold State.resetStream; split <;> simp

@[simp] theorem State.killJobs_clientParts (l : List TableId) (s : State) : (State.killJobs l s).clientParts = s.clientParts := by
  induction l generalizing s with
  | nil => rfl
  | cons x rest ih => unfold State.killJobs; (repeat' split) <;> simp [ih]

@[simp] theorem State.failEveryLoad_clientParts (s : State) : s.failEveryLoad.clientParts = s.clientParts := by
  simp [State.failEveryLoad]

@[simp] theorem State.doorReleases_clientParts (s : State) : s.doorReleases.clientParts = s.clientParts := by
  unfold State.doorReleases; dsimp only; (repeat' split) <;> simp

@[simp] theorem State.gripEmptied_clientParts (s : State) : s.gripEmptied.clientParts = s.clientParts := by
  unfold State.gripEmptied; (repeat' split) <;> simp

@[simp] theorem State.gripFilled_ports (s : State) : s.gripFilled.ports = s.ports := by
  unfold State.gripFilled; split <;> simp

@[simp] theorem State.gripChange_clientParts (s : State) (before : Nat) : (s.gripChange before).clientParts = s.clientParts := by
  unfold State.gripChange; (repeat' split) <;> simp

@[simp] theorem State.homeReads_clientParts (s : State) : s.homeReads.clientParts = s.clientParts := by
  unfold State.homeReads; split <;> simp

@[simp] theorem State.lidOpens_clientParts (s : State) : s.lidOpens.clientParts = s.clientParts := by
  unfold State.lidOpens; split <;> simp

@[simp] theorem State.printerHomeReads_clientParts (s : State) : s.printerHomeReads.clientParts = s.clientParts := by
  unfold State.printerHomeReads; split <;> simp

@[simp] theorem State.recheckInk_clientParts (s : State) : s.recheckInk.clientParts = s.clientParts := by
  unfold State.recheckInk; split <;> simp

@[simp] theorem State.blackChange_clientParts (s : State) (on : Bool) : (s.blackChange on).clientParts = s.clientParts := by
  unfold State.blackChange; split <;> simp

@[simp] theorem State.colourChange_clientParts (s : State) (on : Bool) : (s.colourChange on).clientParts = s.clientParts := by
  unfold State.colourChange; split <;> simp

end Sys2Proof.Machine
end

