-- ==== Sys2Proof/Proofs/PortsApart.lean ====
section
/-! No event writes the client part of a port but those of the port itself (R177, R190): the frames of PortFrames.lean carried on to the
client commands, the steps of the arm and the scan, then the commands taken one by one. -/

namespace Sys2Proof.Machine

/-! ## The client commands that write no port's client part -/

theorem loadImage_clientParts (p : Port) (r : CommandRecord) (s : State) : (loadImage p r s).2.clientParts = s.clientParts := by
  unfold loadImage onImage; dsimp only; (repeat' split) <;> simp

theorem loadFromDisc_clientParts (p : Port) (r : CommandRecord) (s : State) :
    (loadFromDisc p r s).2.clientParts = s.clientParts := by
  unfold loadFromDisc onImage; dsimp only; (repeat' split) <;> simp

theorem deleteImage_clientParts (p : Port) (r : CommandRecord) (s : State) : (deleteImage p r s).2.clientParts = s.clientParts := by
  unfold deleteImage onImage; dsimp only; (repeat' split) <;> simp

theorem protectImage_clientParts (p : Port) (r : CommandRecord) (s : State) :
    (protectImage p r s).2.clientParts = s.clientParts := by
  unfold protectImage onImage; dsimp only; (repeat' split) <;> simp

theorem unprotectImage_clientParts (p : Port) (r : CommandRecord) (s : State) :
    (unprotectImage p r s).2.clientParts = s.clientParts := by
  unfold unprotectImage onImage; dsimp only; (repeat' split) <;> simp

theorem markNoExport_clientParts (p : Port) (r : CommandRecord) (s : State) :
    (markNoExport p r s).2.clientParts = s.clientParts := by
  unfold markNoExport onImage; dsimp only; (repeat' split) <;> simp

theorem exportImage_clientParts (p : Port) (r : CommandRecord) (s : State) : (exportImage p r s).2.clientParts = s.clientParts := by
  unfold exportImage onImage; dsimp only; (repeat' split) <;> simp

theorem loadArtwork_clientParts (p : Port) (r : CommandRecord) (s : State) : (loadArtwork p r s).2.clientParts = s.clientParts := by
  unfold loadArtwork onArtwork; dsimp only; (repeat' split) <;> simp

theorem deleteArtwork_clientParts (p : Port) (r : CommandRecord) (s : State) :
    (deleteArtwork p r s).2.clientParts = s.clientParts := by
  unfold deleteArtwork onArtwork; dsimp only; (repeat' split) <;> simp

theorem submitJob_clientParts (p : Port) (r : CommandRecord) (s : State) : (submitJob p r s).2.clientParts = s.clientParts := by
  unfold submitJob; dsimp only; (repeat' split) <;> simp

theorem pauseJob_clientParts (p : Port) (r : CommandRecord) (s : State) : (pauseJob p r s).2.clientParts = s.clientParts := by
  unfold pauseJob onJob; dsimp only; (repeat' split) <;> simp

theorem resumeJob_clientParts (p : Port) (r : CommandRecord) (s : State) : (resumeJob p r s).2.clientParts = s.clientParts := by
  unfold resumeJob onJob; dsimp only; (repeat' split) <;> simp

theorem cancelJob_clientParts (p : Port) (r : CommandRecord) (s : State) : (cancelJob p r s).2.clientParts = s.clientParts := by
  unfold cancelJob onJob; dsimp only; (repeat' split) <;> simp

theorem killJob_clientParts (p : Port) (r : CommandRecord) (s : State) : (killJob p r s).2.clientParts = s.clientParts := by
  unfold killJob onJob; dsimp only; (repeat' split) <;> simp

theorem openTray_clientParts (r : CommandRecord) (s : State) : (openTray r s).2.clientParts = s.clientParts := by
  unfold openTray onLane; dsimp only; (repeat' split) <;> simp

theorem closeTray_clientParts (r : CommandRecord) (s : State) : (closeTray r s).2.clientParts = s.clientParts := by
  unfold closeTray onLane; dsimp only; (repeat' split) <;> simp

theorem laneOnline_clientParts (r : CommandRecord) (s : State) : (laneOnline r s).2.clientParts = s.clientParts := by
  unfold laneOnline onLane; dsimp only; (repeat' split) <;> simp

theorem laneOffline_clientParts (r : CommandRecord) (s : State) : (laneOffline r s).2.clientParts = s.clientParts := by
  unfold laneOffline onLane; dsimp only; (repeat' split) <;> simp

theorem clearLane_clientParts (r : CommandRecord) (s : State) : (clearLane r s).2.clientParts = s.clientParts := by
  unfold clearLane onLane; dsimp only; (repeat' split) <;> simp

theorem clearArmFault_clientParts (r : CommandRecord) (s : State) : (clearArmFault r s).2.clientParts = s.clientParts := by
  unfold clearArmFault; (repeat' split) <;> simp

theorem clearPrinterFault_clientParts (r : CommandRecord) (s : State) : (clearPrinterFault r s).2.clientParts = s.clientParts := by
  unfold clearPrinterFault; split <;> simp

theorem towerReset_clientParts (loadsFirst : Bool) (r : CommandRecord) (s : State) :
    (towerReset loadsFirst r s).2.clientParts = s.clientParts := by
  unfold towerReset towerResetEffect; (repeat' split) <;> simp

theorem setFeedBudget_clientParts (r : CommandRecord) (s : State) : (setFeedBudget r s).2.clientParts = s.clientParts := by
  unfold setFeedBudget; split <;> rfl

theorem setBinClass_clientParts (r : CommandRecord) (s : State) : (setBinClass r s).2.clientParts = s.clientParts := by
  unfold setBinClass; (repeat' split) <;> simp

theorem clearBinFault_clientParts (r : CommandRecord) (s : State) : (clearBinFault r s).2.clientParts = s.clientParts := by
  unfold clearBinFault; (repeat' split) <;> simp

/-! ## The steps of the arm and the scan of the sensors -/

@[simp] theorem State.createDisc_ports (s : State) (r : Request) : (s.createDisc r).ports = s.ports := by
  unfold State.createDisc; split <;> simp

@[simp] theorem State.binFaults_clientParts (s : State) (which : Bin) : (s.binFaults which).clientParts = s.clientParts := by
  simp [State.binFaults]

@[simp] theorem State.pickDone_clientParts (s : State) : s.pickDone.clientParts = s.clientParts := by
  unfold State.pickDone State.pickedAtBin; (repeat' split) <;> simp

@[simp] theorem State.placeDone_clientParts (s : State) : s.placeDone.clientParts = s.clientParts := by
  unfold State.placeDone State.putBack; dsimp only; (repeat' split) <;> simp

theorem State.countReadings_clientParts (readings : BitVec 32) (l : List Sensor) (s : State) :
    (State.countReadings readings l s).clientParts = s.clientParts := by
  induction l generalizing s with
  | nil => rfl
  | cons v rest ih => simp [State.countReadings, ih]

theorem State.deriveKey_clientParts (s : State) : s.deriveKey.clientParts = s.clientParts := by
  unfold State.deriveKey; dsimp only; split <;> simp

theorem State.consume_clientParts (s : State) (startUp : Bool) (before : Nat) (v : Sensor) (on : Bool) :
    (s.consume startUp before v on).clientParts = s.clientParts := by
  cases v with
  | binAPresent | binBPresent => dsimp only [State.consume, State.binPresence]; split <;> simp
  | outputFull => dsimp only [State.consume, State.outputChange]; split <;> simp
  | rejectFull => dsimp only [State.consume, State.rejectChange]; split <;> simp
  | keyLock | keyService =>
    dsimp only [State.consume]
    split
    · rfl
    · exact s.deriveKey_clientParts
  | doorClosed => dsimp only [State.consume, State.doorChange]; split <;> simp
  | gripOne | gripTwo => exact s.gripChange_clientParts before
  | armHome | lidClosed | printerTrayHome => dsimp only [State.consume]; split <;> simp
  | blackPresent => exact s.blackChange_clientParts on
  | colourPresent => exact s.colourChange_clientParts on

theorem State.changeEvents_clientParts (startUp : Bool) (readings : BitVec 32) (l : List Sensor) (s : State) :
    (State.changeEvents startUp readings l s).clientParts = s.clientParts := by
  induction l generalizing s with
  | nil => rfl
  | cons v rest ih =>
    refine (ih _).trans ?_
    simp only [State.changeEvent, State.clientParts, State.settle_ports]
    exact State.consume_clientParts _ _ _ _ _

/-! ## Sparing a port -/

/-- From `s` to `t` the client part of port `q` stays. -/
def State.SparesPort (q : Port) (s t : State) : Prop := t.ports[q].clientPart = s.ports[q].clientPart

section
variable {q : Port} {s t u : State}

theorem State.SparesPort.trans (h : s.SparesPort q t) (h' : t.SparesPort q u) : s.SparesPort q u := Eq.trans h' h

theorem State.SparesPort.of_parts (h : t.clientParts = s.clientParts) : s.SparesPort q t := by
  have hq := congrArg (fun table : Vector _ 3 => table[q]) h
  simpa [State.SparesPort] using hq

theorem State.SparesPort.of_ports (h : t.ports = s.ports) : s.SparesPort q t := .of_parts (congrArg (·.map PortRecord.clientPart) h)

end

/-- A write to one port's record spares the others. -/
theorem State.modPort_sparesPort (s : State) {p q : Port} (hpq : p ≠ q) (f : PortRecord → PortRecord) :
    s.SparesPort q (s.modPort p f) := by
  unfold State.SparesPort; rw [State.modPort_other _ _ _ _ hpq.symm]

theorem State.clearOutstanding_sparesPort (s : State) {p q : Port} (hpq : p ≠ q) : s.SparesPort q (s.clearOutstanding p) := by
  rw [State.clearOutstanding_eq]; exact s.modPort_sparesPort hpq _

/-- A command whose meaning spares the port spares it when it is taken: its own port's record alone is written besides. -/
theorem State.takeCommand_sparesPort (s : State) {p q : Port} (hpq : p ≠ q) (code : Nat)
    (meaning : CommandRecord → State → Reply × State) (h : ∀ r (u : State), u.SparesPort q (meaning r u).2) :
    s.SparesPort q (s.takeCommand p code meaning) := by
  unfold State.takeCommand
  split
  · exact ((s.modPort_sparesPort hpq _).trans (h _ _)).trans (.of_ports (State.settle_ports _))
  · split
    · rfl
    · exact ((h _ s).trans (.of_ports (State.settle_ports _))).trans (State.modPort_sparesPort _ hpq _)

section
variable (s : State) {p q : Port}

theorem State.takeCommand_clientParts (hpq : p ≠ q) (code : Nat) (meaning : CommandRecord → State → Reply × State)
    (h : ∀ r (u : State), (meaning r u).2.clientParts = u.clientParts) : s.SparesPort q (s.takeCommand p code meaning) :=
  s.takeCommand_sparesPort hpq code meaning fun r u => .of_parts (h r u)

theorem execLinkReset_sparesPort (hpq : p ≠ q) : nextHas (s.SparesPort q) (execLinkReset p s) := by
  unfold execLinkReset
  have hcleared := s.modPort_sparesPort hpq PortRecord.linkReset
  rw [nextHas_next]
  split
  · rfl
  · exact (hcleared.trans (.of_parts (State.resetStream_clientParts _ p))).trans (.of_ports (State.settle_ports _))

theorem execImageStagingWrite_sparesPort (count : Nat) (hpq : p ≠ q) :
    nextHas (s.SparesPort q) (execImageStagingWrite p count s) := by
  have stored (m : Memory) (k : Fin 2) (v : CrcChannel) (f : PortRecord → PortRecord) :
      s.SparesPort q (((s.setMem m).setCrc k v).modPort p f) := ((s.setMem m).setCrc k v).modPort_sparesPort hpq f
  unfold execImageStagingWrite
  split
  · rename_i i _
    dsimp only
    split
    · rfl
    · split
      · split
        · rw [nextHas_next]
          refine State.SparesPort.trans ?_ (.of_ports (State.settle_ports _))
          split
          · exact (stored _ _ _ _).trans (.of_parts (State.finishImageLoad_clientParts _ i))
          · exact stored _ _ _ _
        · exact True.intro
      · rfl
  · rfl

theorem execArtworkStagingWrite_sparesPort (count : Nat) (hpq : p ≠ q) :
    nextHas (s.SparesPort q) (execArtworkStagingWrite p count s) := by
  have stored (m : Memory) (i : ArtworkId) (f : ArtworkSlot → ArtworkSlot) (g : PortRecord → PortRecord) :
      s.SparesPort q (((s.setMem m).modArtwork i f).modPort p g) := ((s.setMem m).modArtwork i f).modPort_sparesPort hpq g
  unfold execArtworkStagingWrite
  split
  · rename_i i _
    dsimp only
    split
    · split
      · rw [nextHas_next]
        split
        · exact (stored _ _ _ _).trans (.of_parts (State.finishArtworkLoad_clientParts _ p i))
        · exact stored _ _ _ _
      · exact True.intro
    · rfl
  · rfl

@[simp] theorem State.sourceArrives_clientParts (n : LaneId) (k : Fin 2) (i : ImageId) (next : Nat) (outstanding : List Nat)
    (digested index : Nat) (data : List Byte) :
    (s.sourceArrives n k i next outstanding digested index data).clientParts = s.clientParts := by
  unfold State.sourceArrives State.storeDigest
  dsimp only
  (repeat' split) <;> simp

theorem execSensorScan_sparesPort (readings : BitVec 32) (order : List Sensor) :
    nextHas (s.SparesPort q) (execSensorScan readings order s) := by
  have changed := (State.changeEvents_clientParts (decide (s.scans < 3)) readings (s.changedSensors readings order) _).trans
    (State.countReadings_clientParts readings allSensors (s.setScans (min 3 (s.scans + 1))))
  unfold execSensorScan
  rw [nextHas_next]
  split
  · exact .of_parts ((State.deriveKey_clientParts _).trans changed)
  · exact .of_parts changed

end

/-! ## The events -/

/-- An event of another port, of a drive, the arm, the printer or the sensors spares the port. -/
theorem exec_sparesPort (c : Instr) (s : State) (q : Port) (hreset : c ≠ .powerOnReset) (hport : portOf c ≠ some q) :
    nextHas (s.SparesPort q) (exec c s) := by
  have other {p : Port} (h : some p ≠ some q) : p ≠ q := fun e => h (congrArg some e)
  cases c with
  | powerOnReset => exact absurd rfl hreset
  | linkReset p => exact execLinkReset_sparesPort s (other hport)
  | linkResetRelease p | attentionHoldExpiry p => exact s.modPort_sparesPort (other hport) _
  | putCommands p records =>
    dsimp only [exec, execPutCommands]
    split
    · rfl
    · exact (s.modPort_sparesPort (other hport) _).trans (State.modPort_sparesPort _ (other hport) _)
  | takeNotices p n =>
    dsimp only [exec, execTakeNotices]
    split
    · rfl
    · exact State.SparesPort.trans (s.modPort_sparesPort (other hport) _) (.of_ports (State.answer_ports _ p _))
  | bulkWrite p bytes =>
    dsimp only [exec, execBulkWrite]
    split
    · rfl
    · exact State.SparesPort.trans (s.modPort_sparesPort (other hport) _) (.of_ports (State.streamReceives_ports _ _ _))
  | bulkRead p n => dsimp only [exec, execBulkRead]; (repeat' split) <;> exact .of_parts (by simp)
  | linkStatus p | unknownTransaction p => rfl
  | replyReturn p =>
    dsimp only [exec, execReplyReturn]
    split
    · rw [nextHas_next]
      refine State.SparesPort.trans ?_ (State.clearOutstanding_sparesPort _ (other hport))
      split
      · exact (s.modPort_sparesPort (other hport) _).trans (State.modPort_sparesPort _ (other hport) _)
      · exact s.modPort_sparesPort (other hport) _
    · rfl
  | badCommand p =>
    dsimp only [exec, execBadCommand]
    (repeat' split) <;> first
      | rfl
      | exact (s.modPort_sparesPort (other hport) _).trans (State.clearOutstanding_sparesPort _ (other hport))
  | loadImage p => exact s.takeCommand_clientParts (other hport) _ _ (loadImage_clientParts p)
  | loadFromDisc p => exact s.takeCommand_clientParts (other hport) _ _ (loadFromDisc_clientParts p)
  | deleteImage p => exact s.takeCommand_clientParts (other hport) _ _ (deleteImage_clientParts p)
  | protectImage p => exact s.takeCommand_clientParts (other hport) _ _ (protectImage_clientParts p)
  | unprotectImage p => exact s.takeCommand_clientParts (other hport) _ _ (unprotectImage_clientParts p)
  | markNoExport p => exact s.takeCommand_clientParts (other hport) _ _ (markNoExport_clientParts p)
  | exportImage p => exact s.takeCommand_clientParts (other hport) _ _ (exportImage_clientParts p)
  | loadArtwork p => exact s.takeCommand_clientParts (other hport) _ _ (loadArtwork_clientParts p)
  | deleteArtwork p => exact s.takeCommand_clientParts (other hport) _ _ (deleteArtwork_clientParts p)
  | submitJob p => exact s.takeCommand_clientParts (other hport) _ _ (submitJob_clientParts p)
  | pauseJob p => exact s.takeCommand_clientParts (other hport) _ _ (pauseJob_clientParts p)
  | resumeJob p => exact s.takeCommand_clientParts (other hport) _ _ (resumeJob_clientParts p)
  | cancelJob p => exact s.takeCommand_clientParts (other hport) _ _ (cancelJob_clientParts p)
  | killJob p => exact s.takeCommand_clientParts (other hport) _ _ (killJob_clientParts p)
  | openTray p => exact s.takeCommand_clientParts (other hport) _ _ openTray_clientParts
  | closeTray p => exact s.takeCommand_clientParts (other hport) _ _ closeTray_clientParts
  | laneOnline p => exact s.takeCommand_clientParts (other hport) _ _ laneOnline_clientParts
  | laneOffline p => exact s.takeCommand_clientParts (other hport) _ _ laneOffline_clientParts
  | clearLane p => exact s.takeCommand_clientParts (other hport) _ _ clearLane_clientParts
  | setFeedBudget p => exact s.takeCommand_clientParts (other hport) _ _ setFeedBudget_clientParts
  | setBinClass p => exact s.takeCommand_clientParts (other hport) _ _ setBinClass_clientParts
  | clearBinFault p => exact s.takeCommand_clientParts (other hport) _ _ clearBinFault_clientParts
  | clearArmFault p => exact s.takeCommand_clientParts (other hport) _ _ clearArmFault_clientParts
  | clearPrinterFault p => exact s.takeCommand_clientParts (other hport) _ _ clearPrinterFault_clientParts
  | setPrintParams p => exact s.takeCommand_clientParts (other hport) _ _ fun _ _ => rfl
  | setInkCapacity p => exact s.takeCommand_clientParts (other hport) _ _ fun _ _ => rfl
  | setNoticeMask p => exact s.takeCommand_sparesPort (other hport) _ _ fun _ u => u.modPort_sparesPort (other hport) _
  | setAttention p =>
    have taken := s.takeCommand_sparesPort (other hport) 49 (setAttention p) fun _ u => u.modPort_sparesPort (other hport) _
    dsimp only [exec, execSetAttention]
    rw [nextHas_next]
    split
    · exact taken.trans (State.modPort_sparesPort _ (other hport) _)
    · exact taken
  | towerReset p loadsFirst => exact s.takeCommand_clientParts (other hport) _ _ (towerReset_clientParts loadsFirst)
  | imageStagingWrite p count => exact execImageStagingWrite_sparesPort s count (other hport)
  | artworkStagingWrite p count => exact execArtworkStagingWrite_sparesPort s count (other hport)
  | ident n buffer burnsL burnsM =>
    dsimp only [exec, execIdent]
    split
    · rw [nextHas_next]
      (repeat' split) <;> exact .of_parts (by simp)
    · exact .of_parts (by simp)
  | trayState n pos => exact .of_parts (by simp)
  | media n report => dsimp only [exec, execMedia]; (repeat' split) <;> exact .of_parts (by simp)
  | credit n freed committed => dsimp only [exec, execCredit]; (repeat' split) <;> exact .of_parts (by simp)
  | bufferEmpty n => dsimp only [exec, execBufferEmpty]; split <;> exact .of_parts (by simp)
  | writeRecovered n => dsimp only [exec, execWriteRecovered]; split <;> exact .of_parts (by simp)
  | writeError n => dsimp only [exec, execWriteError]; split <;> exact .of_parts (by simp)
  | finalizeDone n => dsimp only [exec, execFinalizeDone]; (repeat' split) <;> exact .of_parts (by simp)
  | readData n index data =>
    dsimp only [exec, execReadData]
    (repeat' split) <;> first
      | exact True.intro
      | exact .of_parts (by simp)
  | readFail n index => dsimp only [exec, execReadFail]; (repeat' split) <;> exact .of_parts (by simp)
  | error n code => exact .of_parts (by simp)
  | driveMalformedMessage n => exact .of_parts (by simp)
  | laneTimerExpiry n => dsimp only [exec, execLaneTimerExpiry]; (repeat' split) <;> exact .of_parts (by simp)
  | transferCompletion =>
    dsimp only [exec, execTransferCompletion]
    (repeat' split) <;> first
      | exact True.intro
      | exact .of_parts (by simp)
  | armStepDone => dsimp only [exec, execArmStepDone]; (repeat' split) <;> exact .of_parts (by simp)
  | armDriverFault => dsimp only [exec, execArmDriverFault]; split <;> exact .of_parts (by simp)
  | armStepTimeout => dsimp only [exec, execArmStepTimeout]; split <;> exact .of_parts (by simp)
  | sensorScan readings order => exact execSensorScan_sparesPort s readings order
  | trayDone disc => dsimp only [exec, execTrayDone]; (repeat' split) <;> exact .of_parts (by simp)
  | bandDone band => dsimp only [exec, execBandDone]; (repeat' split) <;> exact .of_parts (by simp)
  | temp reading => dsimp only [exec, execTemp]; (repeat' split) <;> exact .of_parts (by simp)
  | printerError code => exact .of_parts (by simp)
  | printerMalformedReport => exact .of_parts (by simp)
  | printerTimeout => dsimp only [exec, execPrinterTimeout]; split <;> exact .of_parts (by simp)
  | bandWaitExpiry => dsimp only [exec, execBandWaitExpiry]; split <;> exact .of_parts (by simp)
/-- Settles O60: an event that does not come from the port spares its client part (`exec_sparesPort`). -/
theorem portsAreKeptApart : Obligations.PortsAreKeptApart := by
  intro c s t q hnext hreset hport
  have hspares : s.SparesPort q t := nextHas_of_eq (exec_sparesPort c s q hreset hport) hnext
  simpa [State.SparesPort, PortRecord.clientPart] using hspares

end Sys2Proof.Machine
end

