-- ==== Sys2Proof/Proofs/WindingDown.lean ====
section
/-! Winding down (R191): from one state to the next no load, outbound stream or job has come up, a killed job stays killed, and READY
images stay READY. Every step of TOWER-RESET does this (R24, R50), so what the failing of the loads and the kills have each brought to
an end stays at an end through the part that comes after, in either order (log 5). -/

namespace Sys2Proof.Machine

/-! ## Winding down -/

/-- The slot is taken by a load that has not ended. -/
def ImageSlot.isLoad (v : ImageSlot) : Prop := v.state = .loadWait ∨ v.state = .loading

theorem ImageSlot.not_isLoad_freed : ¬ ImageSlot.freed.isLoad := by
  rintro (h | h) <;> cases h

/-- From `v` to `w` no load has come to the slot, and an image that was READY is, with its protection and its noExport mark. -/
def ImageSlot.WindsDown (v w : ImageSlot) : Prop :=
  (w.isLoad → v.isLoad) ∧
    (v.state = .ready → w.state = .ready ∧ w.isProtected = v.isProtected ∧ w.noExport = v.noExport)

/-- The stream carries an image out. -/
def Stream.isExport : Stream → Prop
  | .outbound _ _ _ => True
  | _ => False

/-- From `s` to `t` no job, load or outbound stream has come up, a killed job stays killed, and READY images stay READY. -/
structure State.WindsDown (s t : State) : Prop where
  jobs : ∀ h j', t.jobOf h = some j' → ∃ j, s.jobOf h = some j ∧ (j.endReason = some .killed → j'.endReason = some .killed)
  images : ∀ i : ImageId, s.images[i].WindsDown t.images[i]
  artworks : ∀ i : ArtworkId, t.artworks[i].state = .loading → s.artworks[i].state = .loading
  streams : ∀ q : Port, t.ports[q].stream.isExport → s.ports[q].stream.isExport

theorem ImageSlot.WindsDown.refl (v : ImageSlot) : v.WindsDown v := ⟨id, fun h => ⟨h, rfl, rfl⟩⟩

/-- The image and artwork slots. -/
def State.slots (s : State) := (s.images, s.artworks)

section
variable {s t u : State}

theorem State.WindsDown.trans (h : s.WindsDown t) (h' : t.WindsDown u) : s.WindsDown u where
  jobs k j'' hu := by
    obtain ⟨j', ht, hkilled'⟩ := h'.jobs k j'' hu
    obtain ⟨j, hs, hkilled⟩ := h.jobs k j' ht
    exact ⟨j, hs, hkilled' ∘ hkilled⟩
  images i := by
    obtain ⟨hload, hready⟩ := h.images i
    obtain ⟨hload', hready'⟩ := h'.images i
    refine ⟨hload ∘ hload', fun hs => ?_⟩
    obtain ⟨ht, hprotected, hmark⟩ := hready hs
    obtain ⟨hu, hprotected', hmark'⟩ := hready' ht
    exact ⟨hu, hprotected'.trans hprotected, hmark'.trans hmark⟩
  artworks i hu := h.artworks i (h'.artworks i hu)
  streams q hu := h.streams q (h'.streams q hu)

/-- What changes neither jobs nor slots nor the kind of a stream winds down. -/
theorem State.WindsDown.of_streams (hjobs : t.jobs = s.jobs) (hslots : t.slots = s.slots)
    (hstreams : ∀ q : Port, t.ports[q].stream.isExport → s.ports[q].stream.isExport) : s.WindsDown t := by
  obtain ⟨himages, hartworks⟩ := Prod.mk.inj hslots
  exact ⟨fun h j hj => ⟨j, State.jobOf_congr hjobs h ▸ hj, id⟩, fun i => himages ▸ .refl _, fun i => hartworks ▸ id,
    hstreams⟩

theorem State.WindsDown.of_frame (hjobs : t.jobs = s.jobs) (hslots : t.slots = s.slots) (hports : t.ports = s.ports) :
    s.WindsDown t :=
  .of_streams hjobs hslots fun _ => hports ▸ id

theorem State.WindsDown.refl (s : State) : s.WindsDown s := .of_frame rfl rfl rfl

end

/-! ## The slots are left alone -/

theorem State.slots_of_standing {s t : State} (h : t.standing = s.standing) : t.slots = s.slots := by
  simp only [State.standing, Prod.mk.injEq] at h
  obtain ⟨-, himages, hartworks, -⟩ := h
  exact Prod.ext himages hartworks

@[simp] theorem State.modDiscAt_slots (s : State) (loc : Location) (f : Disc → Disc) : (s.modDiscAt loc f).slots = s.slots := by
  rw [State.modDiscAt_eq]; rfl

@[simp] theorem State.leaveVerifyQueue_slots (s : State) (leaves : VerifyEntry → Bool) :
    (s.leaveVerifyQueue leaves).slots = s.slots := by
  rw [State.leaveVerifyQueue_eq]; rfl

@[simp] theorem State.leaveStartQueue_slots (s : State) (n : LaneId) : (s.leaveStartQueue n).slots = s.slots := by
  unfold State.leaveStartQueue; split <;> rfl

@[simp] theorem State.queueUnload_slots (s : State) (n : LaneId) : (s.queueUnload n).slots = s.slots := by
  unfold State.queueUnload; split <;> rfl

@[simp] theorem State.killDisc_slots (s : State) (n : LaneId) : (s.killDisc n).slots = s.slots := by
  have hdone : ((s.modDiscAt (.tray n) fun d => d.fail .killed).modLane n fun l =>
      { l with state := .done, timer := none }).slots = s.slots := State.modDiscAt_slots _ _ _
  exact (State.queueUnload_slots _ n).trans hdone

@[simp] theorem State.killAtPrinter_slots (s : State) (h : Handle) : (s.killAtPrinter h).slots = s.slots := by
  unfold State.killAtPrinter
  split
  · exact s.modDiscAt_slots _ _
  · rfl

@[simp] theorem State.sourceLaneEnds_slots (s : State) (n : LaneId) (early : Bool) : (s.sourceLaneEnds n early).slots = s.slots := by
  unfold State.sourceLaneEnds; (repeat' split) <;> rfl

/-! ## Jobs -/

theorem State.notifyOpt_windsDown (s : State) (p : Option Port) (v : Notice) : s.WindsDown (s.notifyOpt p v) := by
  refine .of_streams (s.notifyOpt_jobs p v) (by rw [State.notifyOpt_eq]; rfl) fun q => ?_
  rw [(s.notifyOpt_stream p v q).1]
  exact id

theorem State.modJob_windsDown (s : State) (h : Handle) {f : Job → Job}
    (hf : ∀ j, j.endReason = some .killed → (f j).endReason = some .killed) : s.WindsDown (s.modJob h f) where
  jobs k j' hj' := by
    rw [State.jobOf_modJob] at hj'
    split at hj'
    · obtain ⟨j, hj, rfl⟩ := Option.map_eq_some_iff.1 hj'
      exact ⟨j, hj, hf j⟩
    · exact ⟨j', hj', id⟩
  images i := by rw [State.modJob_images]; exact .refl _
  artworks i := by
    obtain ⟨-, hartworks⟩ := Prod.mk.inj (State.slots_of_standing (s.modJob_standing h f))
    rw [hartworks]; exact id
  streams q := by rw [State.modJob_ports]; exact id

/-- A job that ends is gone, and every other live job keeps its end reason. -/
theorem State.endJob_windsDown (s : State) (h : Handle) (result : JobResult) : s.WindsDown (s.endJob h result) := by
  cases hj : s.jobOf h with
  | none => rw [State.endJob, hj]; exact .refl s
  | some ended =>
    refine ⟨fun k j' hj' => ?_, fun i => ?_, fun i => ?_, fun q => ?_⟩
    · have hentry := State.jobOf_eq_some.1 hj'
      have hindex : k.index ≠ h.index := by
        obtain ⟨index, generation⟩ := k
        rintro rfl
        cases (State.endJob_ownEntry hj result).symm.trans hentry
      rw [State.endJob_otherEntry hj result hindex] at hentry
      obtain ⟨hgeneration, hjob⟩ := JobEntry.mk.inj hentry
      obtain ⟨j, hbefore, rfl⟩ := Option.map_eq_some_iff.1 hjob
      refine ⟨j, State.jobOf_eq_some.2 (by rw [← hgeneration, ← hbefore]), fun hkilled => ?_⟩
      split <;> exact hkilled
    · rw [State.endJob_images hj]
      split <;> exact .refl _
    · rw [State.endJob_artworks hj]
      split <;> exact id
    · rw [State.endJob_eq hj]
      exact ((s.notifyOpt_windsDown (some ended.owner) _).streams q)

theorem State.drainCheck_windsDown (s : State) (h : Handle) : s.WindsDown (s.drainCheck h) := by
  unfold State.drainCheck
  split
  · exact .refl s
  · split
    · exact s.endJob_windsDown h _
    · exact .refl s

theorem State.modLane_windsDown (s : State) (n : LaneId) (f : Lane → Lane) : s.WindsDown (s.modLane n f) := .of_frame rfl rfl rfl

theorem State.modDiscAt_windsDown (s : State) (loc : Location) (f : Disc → Disc) : s.WindsDown (s.modDiscAt loc f) :=
  .of_frame (by simp) (by simp) (by simp)

theorem State.enterFeedWait_windsDown (s : State) (n : LaneId) : s.WindsDown (s.enterFeedWait n) :=
  .of_frame (by simp) (State.slots_of_standing (s.enterFeedWait_standing n)) (by simp)

theorem State.enterIdle_windsDown (s : State) (n : LaneId) : s.WindsDown (s.enterIdle n) := .of_frame rfl rfl rfl

theorem State.setRotation_windsDown (s : State) (p : Port) : s.WindsDown (s.setRotation p) := .of_frame rfl rfl rfl

theorem State.oweClaim_windsDown (s : State) : s.WindsDown s.oweClaim := .of_frame rfl rfl rfl

theorem State.laneLeavesJob_windsDown (s : State) (n : LaneId) : s.WindsDown (s.laneLeavesJob n) := by
  unfold State.laneLeavesJob
  refine .trans ?_ (State.modLane_windsDown _ n _)
  split
  · exact .refl s
  · exact s.modJob_windsDown _ fun _ => id

theorem State.withdrawClaim_windsDown (s : State) (h : Handle) (n : LaneId) : s.WindsDown (s.withdrawClaim h n) := by
  unfold State.withdrawClaim
  split
  · exact .refl s
  · split
    · exact .refl s
    · rename_i r _ _
      have hdropped : s.WindsDown (s.dropRequest r.age) := .of_frame rfl rfl rfl
      refine .trans ?_ (State.enterIdle_windsDown _ n)
      refine .trans ?_ (State.laneLeavesJob_windsDown _ n)
      refine hdropped.trans ?_
      exact State.modJob_windsDown _ h fun _ => id

theorem State.offerBlank_windsDown (s : State) (n : LaneId) (h : Handle) : s.WindsDown (s.offerBlank n h) := by
  unfold State.offerBlank
  refine .trans (.trans ?_ (State.drainCheck_windsDown _ h)) (State.oweClaim_windsDown _)
  split
  · refine .trans ?_ (State.enterFeedWait_windsDown _ n)
    refine .trans ?_ (State.setRotation_windsDown _ _)
    refine .trans ?_ (State.modLane_windsDown _ n _)
    refine .trans ?_ (State.modDiscAt_windsDown _ _ _)
    refine .trans ?_ (State.modJob_windsDown _ _ fun _ => id)
    exact s.modJob_windsDown h fun _ => id
  · refine .trans ?_ (State.modLane_windsDown _ n _)
    refine .trans ?_ (State.modDiscAt_windsDown _ _ _)
    exact s.modJob_windsDown h fun _ => id

theorem State.drainLane_windsDown (s : State) (h : Handle) (n : LaneId) : s.WindsDown (s.drainLane h n) := by
  unfold State.drainLane
  split
  · split
    · exact s.withdrawClaim_windsDown h n
    · have hleft : s.WindsDown (s.leaveStartQueue n) := .of_frame (by simp) (by simp) (by simp)
      exact hleft.trans (State.offerBlank_windsDown _ n h)
    · exact .refl s
  · exact .refl s

theorem State.killDisc_windsDown (s : State) (n : LaneId) : s.WindsDown (s.killDisc n) := .of_frame (by simp) (by simp) (by simp)

theorem State.leaveVerifyQueue_windsDown (s : State) (leaves : VerifyEntry → Bool) : s.WindsDown (s.leaveVerifyQueue leaves) :=
  .of_frame (s.leaveVerifyQueue_jobs leaves) (by simp) (by simp)

theorem State.killLane_windsDown (s : State) (h : Handle) (n : LaneId) : s.WindsDown (s.killLane h n) := by
  have haborted : s.WindsDown (s.sendAbort n) := .of_frame rfl rfl rfl
  unfold State.killLane
  split
  · split
    · have hdropped : s.WindsDown ((s.sendAbort n).dropLaneChunk n) := .of_frame rfl rfl rfl
      exact (hdropped.trans (State.killDisc_windsDown _ n)).trans (.of_frame rfl rfl rfl)
    · exact (s.leaveVerifyQueue_windsDown _).trans (State.killDisc_windsDown _ n)
    · exact (haborted.trans (State.leaveVerifyQueue_windsDown _ _)).trans (State.killDisc_windsDown _ n)
    · exact .of_frame rfl rfl rfl
    · exact s.drainLane_windsDown h n
  · exact .refl s

theorem State.forLanes_windsDown {f : State → LaneId → State} (hf : ∀ (t : State) n, t.WindsDown (f t n)) (l : List LaneId)
    (s : State) : s.WindsDown (State.forLanes f l s) := by
  induction l generalizing s with
  | nil => exact .refl s
  | cons n rest ih => exact (hf s n).trans (ih _)

/-- A kill winds down: the job's end reason becomes KILLED, whatever it was. -/
theorem State.drainJob_killed_windsDown (s : State) (h : Handle) : s.WindsDown (s.drainJob h .killed) := by
  have hlanes : s.WindsDown (s.drainLanes h .killed) :=
    ((s.modJob_windsDown h (f := fun j => { j with state := .draining, endReason := some .killed }) fun _ _ => rfl).trans
      (State.forLanes_windsDown (fun t n => t.killLane_windsDown h n) laneIds _)).trans
      (.of_frame (State.killAtPrinter_jobs _ h) (State.killAtPrinter_slots _ h) (State.killAtPrinter_ports _ h))
  unfold State.drainJob
  dsimp only
  split
  · exact hlanes
  · rename_i j _
    split
    · exact hlanes.trans (State.drainCheck_windsDown _ h)
    · exact hlanes.trans (State.notifyOpt_windsDown _ (some j.owner) _)

/-- What the kills of TOWER-RESET do to one entry. -/
def State.killEntry (s : State) (i : TableId) : State :=
  match s.jobs[i].job with
  | none => s
  | some j => if j.isKilled then s else s.drainJob ⟨i, s.jobs[i].generation⟩ .killed

theorem State.killJobs_cons (i : TableId) (rest : List TableId) (s : State) :
    State.killJobs (i :: rest) s = State.killJobs rest (s.killEntry i) := rfl

theorem State.killEntry_windsDown (s : State) (i : TableId) : s.WindsDown (s.killEntry i) := by
  unfold State.killEntry
  split
  · exact .refl s
  · split
    · exact .refl s
    · exact s.drainJob_killed_windsDown _

/-- A job that the entry still holds is killed: it was, or its drain has given it this reason. -/
theorem State.killEntry_ends (s : State) (i : TableId) {generation : Byte} {j' : Job}
    (hj' : (s.killEntry i).jobOf ⟨i, generation⟩ = some j') : j'.endReason = some .killed := by
  obtain ⟨j, hj, hkeeps⟩ := (s.killEntry_windsDown i).jobs _ j' hj'
  have hentry : s.jobs[i] = ⟨generation, some j⟩ := State.jobOf_eq_some.1 hj
  unfold State.killEntry at hj'
  rw [hentry] at hj'
  dsimp only at hj'
  split at hj'
  · rename_i hkilled
    exact hkeeps (of_decide_eq_true hkilled)
  · exact (s.drainJob_drainsFor _ _ j' hj').2

theorem State.killJobs_windsDown (l : List TableId) (s : State) : s.WindsDown (State.killJobs l s) := by
  induction l generalizing s with
  | nil => exact .refl s
  | cons i rest ih => rw [State.killJobs_cons]; exact (s.killEntry_windsDown i).trans (ih _)

/-! ## Loads and outbound streams -/

theorem State.failJobsOf_windsDown (i : ImageId) (l : List TableId) (s : State) : s.WindsDown (State.failJobsOf i l s) := by
  induction l generalizing s with
  | nil => exact .refl s
  | cons k rest ih =>
    refine State.WindsDown.trans ?_ (ih _)
    split
    · exact .refl s
    · split
      · exact s.endJob_windsDown _ _
      · exact .refl s

theorem State.closeStream_windsDown (s : State) (p : Port) : s.WindsDown (s.closeStream p) := by
  refine .of_streams rfl rfl fun q => ?_
  by_cases hq : q = p
  · subst hq
    rw [State.closeStream, State.modPort_same]
    exact False.elim
  · rw [State.closeStream, State.modPort_other _ _ _ _ hq]
    exact id

theorem State.loadSourceEnds_windsDown (s : State) (v : ImageSlot) (early : Bool) : s.WindsDown (s.loadSourceEnds v early) := by
  unfold State.loadSourceEnds
  split
  · exact .refl s
  · split
    · exact .refl s
    · exact s.closeStream_windsDown _
  · exact .of_frame (by simp) (by simp) (by simp)

/-- A slot that a load fails in is FREE; no READY image stood in it. -/
theorem State.freeImage_windsDown (s : State) {i : ImageId} (hstate : s.images[i].state ≠ .ready) :
    s.WindsDown (s.freeImage i) := by
  refine ⟨fun _ j hj => ⟨j, hj, id⟩, fun k => ?_, fun _ => id, fun _ => id⟩
  by_cases hk : k = i
  · subst hk
    rw [State.freeImage, State.modImage_same]
    exact ⟨ImageSlot.not_isLoad_freed.elim, fun hready => absurd hready hstate⟩
  · rw [State.freeImage, State.modImage_other _ _ _ _ hk]
    exact .refl _

theorem State.freeArtwork_windsDown (s : State) (i : ArtworkId) : s.WindsDown (s.freeArtwork i) := by
  refine ⟨fun _ j hj => ⟨j, hj, id⟩, fun _ => .refl _, fun k => ?_, fun _ => id⟩
  by_cases hk : k = i
  · subst hk
    rw [State.freeArtwork, State.modArtwork_same]
    exact fun hloading => by cases hloading
  · rw [State.freeArtwork, State.modArtwork_other _ _ _ _ hk]
    exact id

theorem State.releaseImage_windsDown (s : State) (i : ImageId) : s.WindsDown (s.releaseImage i) := by
  refine ⟨fun _ j hj => ⟨j, hj, id⟩, fun k => ?_, fun _ => id, fun _ => id⟩
  by_cases hk : k = i
  · subst hk
    rw [State.releaseImage, State.modImage_same]
    exact .refl _
  · rw [State.releaseImage, State.modImage_other _ _ _ _ hk]
    exact .refl _

/-- A load that is withdrawn leaves its slot as it is, until the slot is freed. -/
theorem State.loadWithdrawn_state (s : State) (i : ImageId) : (s.loadWithdrawn i).images[i].state = s.images[i].state := by
  obtain ⟨-, -, -, -, -, -, -, hslots⟩ := State.of_besidesJobs (State.failJobsOf_besidesJobs i tableIds
    ((s.leaveVerifyQueue (VerifyEntry.ofSlot i)).loadSourceEnds s.images[i] true))
  obtain ⟨-, -, himages, -⟩ := (s.leaveVerifyQueue (VerifyEntry.ofSlot i)).loadSourceEnds_leaves s.images[i] true
  rw [State.loadWithdrawn, (hslots i).1, himages, State.leaveVerifyQueue_images]

theorem State.failImageLoad_other {s : State} {i : ImageId} (h : ¬ s.images[i].isLoad) : s.failImageLoad i = s :=
  if_neg (by simpa only [Bool.or_eq_true, decide_eq_true_eq, ImageSlot.isLoad] using h)

theorem State.failImageLoad_windsDown (s : State) (i : ImageId) : s.WindsDown (s.failImageLoad i) := by
  by_cases hload : s.images[i].isLoad
  · rw [State.failImageLoad_eq hload]
    refine .trans ?_ (State.notifyOpt_windsDown _ _ _)
    have hnotReady : (s.loadWithdrawn i).images[i].state ≠ .ready := by
      rw [s.loadWithdrawn_state i]
      rcases hload with h | h <;> rw [h] <;> decide
    refine .trans ?_ (State.freeImage_windsDown _ hnotReady)
    refine .trans ?_ (State.failJobsOf_windsDown i tableIds _)
    exact (s.leaveVerifyQueue_windsDown _).trans (State.loadSourceEnds_windsDown _ _ _)
  · rw [State.failImageLoad_other hload]
    exact .refl s

/-- After its failure no load is in the slot. -/
theorem State.failImageLoad_ends (s : State) (i : ImageId) : ¬ (s.failImageLoad i).images[i].isLoad := by
  by_cases hload : s.images[i].isLoad
  · rw [State.failImageLoad_eq hload, State.notifyOpt_images, State.freeImage, State.modImage_same]
    exact ImageSlot.not_isLoad_freed
  · rwa [State.failImageLoad_other hload]

theorem State.failArtworkLoad_windsDown (s : State) (i : ArtworkId) : s.WindsDown (s.failArtworkLoad i) := by
  unfold State.failArtworkLoad
  dsimp only
  split
  · refine .trans ?_ (State.notifyOpt_windsDown _ _ _)
    refine .trans ?_ (State.freeArtwork_windsDown _ i)
    split
    · exact .refl s
    · exact s.closeStream_windsDown _
  · exact .refl s

theorem State.failArtworkLoad_ends (s : State) (i : ArtworkId) : (s.failArtworkLoad i).artworks[i].state ≠ .loading := by
  unfold State.failArtworkLoad
  dsimp only
  split
  · rw [State.notifyOpt_eq, State.freeArtwork, State.modArtwork_same]
    decide
  · assumption

theorem State.endOutbound_windsDown (s : State) (p : Port) : s.WindsDown (s.endOutbound p) := by
  have hclosed := s.closeStream_windsDown p
  unfold State.endOutbound
  split
  · dsimp only
    split
    · split
      · exact hclosed.trans (.of_frame rfl rfl rfl)
      · exact hclosed.trans (State.releaseImage_windsDown _ _)
    · exact hclosed.trans (State.releaseImage_windsDown _ _)
  · exact .refl s

theorem State.endOutbound_ends (s : State) (p : Port) : ¬ (s.endOutbound p).ports[p].stream.isExport := by
  have hclosed : ¬ (s.closeStream p).ports[p].stream.isExport := by
    rw [State.closeStream, State.modPort_same]
    exact id
  unfold State.endOutbound
  split
  · dsimp only
    (repeat' split) <;> exact hclosed
  · rename_i hother
    intro hexport
    cases hstream : s.ports[p].stream with
    | outbound slot position buffer => exact hother slot position buffer hstream
    | none | image _ | artwork _ => rw [hstream] at hexport; exact hexport

/-! ## The slots and ports in turn -/

theorem State.failImageLoads_windsDown (l : List ImageId) (s : State) : s.WindsDown (State.failImageLoads l s) := by
  induction l generalizing s with
  | nil => exact .refl s
  | cons i rest ih => exact (s.failImageLoad_windsDown i).trans (ih _)

theorem State.failImageLoads_ends (l : List ImageId) (s : State) : ∀ i ∈ l, ¬ (State.failImageLoads l s).images[i].isLoad := by
  induction l generalizing s with
  | nil => simp
  | cons k rest ih =>
    rw [List.forall_mem_cons]
    exact ⟨fun h => s.failImageLoad_ends k (((State.failImageLoads_windsDown rest _).images k).1 h), ih _⟩

theorem State.failArtworkLoads_windsDown (l : List ArtworkId) (s : State) : s.WindsDown (State.failArtworkLoads l s) := by
  induction l generalizing s with
  | nil => exact .refl s
  | cons i rest ih => exact (s.failArtworkLoad_windsDown i).trans (ih _)

theorem State.failArtworkLoads_ends (l : List ArtworkId) (s : State) :
    ∀ i ∈ l, (State.failArtworkLoads l s).artworks[i].state ≠ .loading := by
  induction l generalizing s with
  | nil => simp
  | cons k rest ih =>
    rw [List.forall_mem_cons]
    exact ⟨fun h => s.failArtworkLoad_ends k ((State.failArtworkLoads_windsDown rest _).artworks k h), ih _⟩

theorem State.endOutbounds_windsDown (l : List Port) (s : State) : s.WindsDown (State.endOutbounds l s) := by
  induction l generalizing s with
  | nil => exact .refl s
  | cons p rest ih => exact (s.endOutbound_windsDown p).trans (ih _)

theorem State.endOutbounds_ends (l : List Port) (s : State) : ∀ p ∈ l, ¬ (State.endOutbounds l s).ports[p].stream.isExport := by
  induction l generalizing s with
  | nil => simp
  | cons k rest ih =>
    rw [List.forall_mem_cons]
    exact ⟨fun h => s.endOutbound_ends k ((State.endOutbounds_windsDown rest _).streams k h), ih _⟩

/-- The kills of the entries in turn leave no live job in them that is not killed. -/
theorem State.killJobs_ends (l : List TableId) (s : State) :
    ∀ i ∈ l, ∀ generation j, (State.killJobs l s).jobOf ⟨i, generation⟩ = some j → j.endReason = some .killed := by
  induction l generalizing s with
  | nil => simp
  | cons i rest ih =>
    rw [List.forall_mem_cons]
    refine ⟨fun generation j hj => ?_, ih _⟩
    obtain ⟨j', hj', hkilled⟩ := (State.killJobs_windsDown rest _).jobs _ j hj
    exact hkilled (s.killEntry_ends i hj')

/-! ## The follow-up computations of a part -/

theorem State.LoadsBegin.windsDown {s t : State} (h : s.LoadsBegin t) (hjobs : t.jobs = s.jobs) : s.WindsDown t where
  jobs k j hj := ⟨j, State.jobOf_congr hjobs k ▸ hj, id⟩
  images i := by
    obtain ⟨hslot, hstate⟩ := h.images i
    rw [hslot]
    rcases hstate with hsame | ⟨hwait, hloading⟩
    · rw [hsame]; exact .refl _
    · rw [hloading]
      exact ⟨fun _ => .inl hwait, fun hready => absurd (hwait.symm.trans hready) (by decide)⟩
  artworks i := by rw [h.artworks]; exact id
  streams q := by rw [h.ports]; exact id

theorem State.claim_windsDown (s : State) (h : Handle) (j : Job) (n : LaneId) : s.WindsDown (s.claim h j n) := by
  have hclaimed : s.WindsDown ((s.modJob h fun j => { j with lanesHeld := j.lanesHeld + 1, inFlight := j.inFlight + 1 }).modLane n
      fun l => { l with job := some h }) := by
    refine .trans ?_ (State.modLane_windsDown _ n _)
    exact s.modJob_windsDown h fun _ => id
  unfold State.claim
  refine hclaimed.trans ?_
  split
  · exact .trans (State.modDiscAt_windsDown _ _ _) (State.enterFeedWait_windsDown _ n)
  · exact .trans (State.modLane_windsDown _ n _)
      (.of_frame (by simp) (State.slots_of_standing (State.queueRequest_standing _ _ _ _)) (by simp))

theorem State.claimRounds_windsDown (k : Nat) (s : State) : s.WindsDown (State.claimRounds k s) := by
  induction k generalizing s with
  | zero => exact .refl s
  | succ k ih =>
    unfold State.claimRounds
    split
    · exact .refl s
    · rename_i t ht
      refine .trans ?_ (ih t)
      unfold State.claimOne at ht
      split at ht
      · cases ht
      · obtain ⟨n, -, rfl⟩ := Option.map_eq_some_iff.1 ht
        exact (s.setRotation_windsDown _).trans (State.claim_windsDown _ _ _ n)

/-- The follow-up computations of a part wind down: claims and grants bring up neither a job nor a load. -/
theorem State.settlePart_windsDown (s : State) : s.WindsDown s.settlePart := by
  have hcrc : s.WindsDown (s.when s.due.crc State.crcGrants) := by
    unfold State.when
    split
    · exact (State.crcRounds_loadsBegin 2 s).windsDown s.crcGrants_jobs
    · exact .refl s
  have hclaim (t : State) : t.WindsDown (t.when t.due.claim State.claimAttempt) := by
    unfold State.when
    split
    · exact State.claimRounds_windsDown 8 t
    · exact .refl t
  have hstanding : s.settleClaims.settleChannel.standing = s.settleClaims.standing := by
    simp [State.settleChannel, State.when_standing]
  have hchannel : s.settleClaims.WindsDown s.settleClaims.settleChannel :=
    .of_frame (State.settleChannel_jobs _) (State.slots_of_standing hstanding) (State.ports_of_standing hstanding)
  exact (hcrc.trans (hclaim _)).trans hchannel

end Sys2Proof.Machine
end

