-- ==== Sys2Proof/Proofs/TowerReset.lean ====
section
/-! TOWER-RESET (R191): its parts leave no load, no outbound stream and no live job that is not killed. -/

namespace Sys2Proof.Machine

/-! ## The effect of TOWER-RESET -/

/-- No load and no outbound stream is left. -/
structure State.LoadsOver (s : State) : Prop where
  images : ∀ i : ImageId, ¬ s.images[i].isLoad
  artworks : ∀ i : ArtworkId, s.artworks[i].state ≠ .loading
  streams : ∀ q : Port, ¬ s.ports[q].stream.isExport

/-- Every live job is killed. -/
def State.JobsKilled (s : State) : Prop := ∀ h j, s.jobOf h = some j → j.endReason = some .killed

section
variable {s t : State}

theorem State.LoadsOver.windsDown (hs : s.LoadsOver) (h : s.WindsDown t) : t.LoadsOver :=
  ⟨fun i hload => hs.images i ((h.images i).1 hload), fun i hloading => hs.artworks i (h.artworks i hloading),
    fun q hexport => hs.streams q (h.streams q hexport)⟩

theorem State.JobsKilled.windsDown (hs : s.JobsKilled) (h : s.WindsDown t) : t.JobsKilled := by
  intro k j' hj'
  obtain ⟨j, hj, hkilled⟩ := h.jobs k j' hj'
  exact hkilled (hs k j hj)

end

theorem mem_imageIds (i : ImageId) : i ∈ imageIds := by revert i; decide

theorem mem_artworkIds (i : ArtworkId) : i ∈ artworkIds := by revert i; decide

theorem mem_portIds (p : Port) : p ∈ portIds := by revert p; decide

theorem State.failEveryLoad_windsDown (s : State) : s.WindsDown s.failEveryLoad :=
  ((s.failImageLoads_windsDown imageIds).trans (State.failArtworkLoads_windsDown _ _)).trans (State.endOutbounds_windsDown _ _)

theorem State.failEveryLoad_loadsOver (s : State) : s.failEveryLoad.LoadsOver where
  images i hload := by
    have hrest := (State.failArtworkLoads_windsDown artworkIds (State.failImageLoads imageIds s)).trans
      (State.endOutbounds_windsDown portIds _)
    exact State.failImageLoads_ends imageIds s i (mem_imageIds i) ((hrest.images i).1 hload)
  artworks i hloading :=
    State.failArtworkLoads_ends artworkIds _ i (mem_artworkIds i) ((State.endOutbounds_windsDown portIds _).artworks i hloading)
  streams q := State.endOutbounds_ends portIds _ q (mem_portIds q)

theorem State.killJobs_jobsKilled (s : State) : (State.killJobs tableIds s).JobsKilled :=
  fun h j hj => State.killJobs_ends tableIds s h.index (mem_tableIds _) h.generation j hj

/-- In either order the loads are over and the jobs are killed; besides, the effect winds down. -/
theorem towerResetEffect_ends (loadsFirst : Bool) (s : State) : (towerResetEffect loadsFirst s).LoadsOver ∧
    (towerResetEffect loadsFirst s).JobsKilled ∧ s.WindsDown (towerResetEffect loadsFirst s) := by
  have howed (t : State) : t.WindsDown t.oweStart := .of_frame rfl rfl rfl
  unfold towerResetEffect
  split
  · have hparts := s.failEveryLoad.settlePart_windsDown
    have hkills := State.killJobs_windsDown tableIds s.failEveryLoad.settlePart
    have hover := (s.failEveryLoad_loadsOver.windsDown hparts).windsDown hkills
    have hkilled := State.killJobs_jobsKilled s.failEveryLoad.settlePart
    exact ⟨hover.windsDown (howed _), hkilled.windsDown (howed _),
      ((s.failEveryLoad_windsDown.trans hparts).trans hkills).trans (howed _)⟩
  · have hparts := (State.killJobs tableIds s).settlePart_windsDown
    have hfails := (State.killJobs tableIds s).settlePart.failEveryLoad_windsDown
    have hover := (State.killJobs tableIds s).settlePart.failEveryLoad_loadsOver
    have hkilled := ((State.killJobs_jobsKilled s).windsDown hparts).windsDown hfails
    exact ⟨hover.windsDown (howed _), hkilled.windsDown (howed _),
      (((State.killJobs_windsDown tableIds s).trans hparts).trans hfails).trans (howed _)⟩

@[simp] theorem towerResetEffect_quiet (loadsFirst : Bool) (s : State) : (towerResetEffect loadsFirst s).quiet = s.quiet := by
  cases loadsFirst <;> simp [towerResetEffect]

/-- Settles O5: what the effect ends, and that it winds down besides, by `towerResetEffect_ends`; what it leaves alone by
`towerResetEffect_quiet`. -/
theorem towerResetEndsLoadsAndKillsJobs : Obligations.TowerResetEndsLoadsAndKillsJobs := by
  intro p loadsFirst r s hwaits
  refine ⟨fun hkey => ?_, fun hkey hsettled => ?_⟩
  · obtain ⟨hover, hkilled, hwinds⟩ := towerResetEffect_ends loadsFirst s
    have hquiet := towerResetEffect_quiet loadsFirst s
    simp only [State.quiet, Prod.mk.injEq] at hquiet
    obtain ⟨-, -, hmem, hbudget, hserial, -, -, -, -, hsensors, -, hkeeps⟩ := hquiet
    refine ⟨towerResetEffect loadsFirst s, congrArg _ (State.takeCommand_accepted hwaits (if_pos hkey)),
      fun i => not_or.1 (hover.images i), hover.artworks, fun q i position buffer hstream => ?_, fun e he => ?_,
      fun i => (hwinds.images i).2, hmem, hbudget, hserial, hkeeps, hsensors, rfl⟩
    · exact hover.streams q (by rw [hstream]; exact True.intro)
    · exact hkilled e.1 e.2 (State.jobOf_eq_some.2 ((State.mem_liveJobs _ e).1 he))
  · exact congrArg _ (State.takeCommand_refused hsettled hwaits (if_neg hkey))

end Sys2Proof.Machine
end

section
/-! The step with a command waiting (chapter 95): the front of the queue is the command that runs. -/

namespace Sys2Proof.Machine

/-- With a command waiting, a step is that command's meaning on the state whose queue lacks it. -/
theorem step_of_pending_cons {s : State} {c : Instr} {rest : List Instr} (hpending : s.pending = c :: rest) :
    step s = exec c { s with pending := rest } := by
  unfold step
  rw [hpending]

/-- Settles O1: the state has `c` at the front of its queue, and to put `rest` in the place of that queue leaves no trace of it. -/
theorem stepRunsFrontCommand : Obligations.StepRunsFrontCommand := by
  intro c rest s
  have hpending : { s with pending := c :: rest }.pending = c :: rest := rfl
  exact step_of_pending_cons hpending

end Sys2Proof.Machine
end
